-- ==== Sys2Proof/Word.lean ====
section
/-! DEFINITION. The engine's word types and the NULL handle (spec/00_scope.md R7, R9 to R12). -/

namespace Sys2Proof

/-- A `u32`: an operand, an address, a handle, a frequency, a register (R7: AW = FREQW = HW = 32). -/
abbrev Word := BitVec 32

/-- A `u8`, the addressable unit of IN and OUT (20_memory.md R70). -/
abbrev Byte := BitVec 8

/-- A finite sequence of `u1`, first bit first (R11). -/
abbrev Bits := List Bool

/-- A finite sequence of `u8`, first byte first (R11). -/
abbrev Bytes := List Byte

/-- A command word `CMD` (30_encoding.md R100). -/
abbrev CommandWord := BitVec 128

/-- NULL, the handle value that means "no node"; it is never allocated (R7). -/
def nullHandle : Word := 0xFFFFFFFF#32

end Sys2Proof
end

