-- ==== Sys2Proof/Syntax.lean ====
section
/-! DEFINITION. The commands: one constructor per row of spec/opcode_table.json (30_encoding.md R103). Operands are the
`u32` words A, B, C as they stand (R100), flags are F0. -/

namespace Sys2Proof

/-- A command of the engine, its used operands in the order A, B, C, then its flag. -/
inductive Instr where
  /-- SYS.NOP -/
  | sysNop
  /-- SYS.RESET -/
  | sysReset
  /-- SYS.CLRERR -/
  | sysClrerr
  /-- SYS.RDCR: control register number. -/
  | sysRdcr (cr : Word)
  /-- SYS.WRCR: control register number, value. -/
  | sysWrcr (cr value : Word)
  /-- BB.CREATE: buffer, bits to reserve. -/
  | bbCreate (buffer reserve : Word)
  /-- BB.GET: buffer, index. -/
  | bbGet (buffer index : Word)
  /-- BB.SET: buffer, index, bit. -/
  | bbSet (buffer index bit : Word)
  /-- BB.APPEND: buffer, bit. -/
  | bbAppend (buffer bit : Word)
  /-- BB.COPY: destination, source. -/
  | bbCopy (dst src : Word)
  /-- BB.CONCAT: destination, source. -/
  | bbConcat (dst src : Word)
  /-- BB.RESET: buffer. -/
  | bbReset (buffer : Word)
  /-- BB.SIZE: buffer. -/
  | bbSize (buffer : Word)
  /-- BB.FLUSH: buffer, OUT address. -/
  | bbFlush (buffer addr : Word)
  /-- PQ.INSERT: handle, key. -/
  | pqInsert (handle key : Word)
  /-- PQ.EXTRACT -/
  | pqExtract
  /-- PQ.PEEK -/
  | pqPeek
  /-- PQ.SIZE -/
  | pqSize
  /-- PQ.ISEMPTY -/
  | pqIsempty
  /-- PQ.DESTROY: F0 = apply the destructor. -/
  | pqDestroy (destructor : Bool)
  /-- PT.INSERT: key address, key length, payload. -/
  | ptInsert (addr len payload : Word)
  /-- PT.SEARCH: key address, key length; F0 = greedy. -/
  | ptSearch (addr len : Word) (greedy : Bool)
  /-- PT.REMOVE: key address, key length. -/
  | ptRemove (addr len : Word)
  /-- PT.KEYS: OUT address. -/
  | ptKeys (addr : Word)
  /-- PT.CLEAR -/
  | ptClear
  /-- FT.SET: key address, key length, count. -/
  | ftSet (addr len count : Word)
  /-- FT.CLEAR -/
  | ftClear
  /-- HT.LEAF: symbol id, frequency. -/
  | htLeaf (sym freq : Word)
  /-- HT.MERGE -/
  | htMerge
  /-- HT.BUILD -/
  | htBuild
  /-- HT.FREE: handle. -/
  | htFree (handle : Word)
  /-- HT.SER: OUT address. -/
  | htSer (addr : Word)
  /-- HT.DESER: IN start, IN end. -/
  | htDeser (start stop : Word)
  /-- HT.NODE: handle. -/
  | htNode (handle : Word)
  /-- CT.GEN -/
  | ctGen
  /-- CT.GET: symbol id, buffer. -/
  | ctGet (sym buffer : Word)
  /-- CT.STLOAD: IN start, IN end. -/
  | ctStload (start stop : Word)
  /-- CT.STSTORE: OUT address. -/
  | ctStstore (addr : Word)
  /-- CD.ENCODE -/
  | cdEncode
  /-- CD.DECODE -/
  | cdDecode
  /-- CD.EPASS: IN start, IN end. -/
  | cdEpass (start stop : Word)
  /-- CD.DPASS: IN start, IN end, symbol count. -/
  | cdDpass (start stop count : Word)
  deriving DecidableEq, Repr

end Sys2Proof
end

