-- ==== Sys2Proof/Config.lean ====
section
/-! DEFINITION. The implementation parameters of spec/00_scope.md R7 as a record of plain data, their defaults, and
the free values of the model (bytes the spec leaves unspecified: 93_implementation_defined.md U1, U2; a result that
exceeds its register: 44_tree_serialization.md R221). -/

namespace Sys2Proof

/-- The `parameter` rows of the table of R7. The record rides in the state (log 1); no command changes it (10_state.md R58). -/
structure Config where
  /-- IN_CAP: size of the IN byte space. -/
  inCap : Nat
  /-- OUT_CAP: size of the OUT byte space. -/
  outCap : Nat
  /-- NB: number of bit-buffer registers. -/
  nb : Nat
  /-- BB_MIN_CAP: least capacity of a bit buffer, in bytes. -/
  bbMinCap : Nat
  /-- BB_MAX_BITS: most bits one bit buffer can hold. -/
  bbMaxBits : Nat
  /-- PQ_MIN_CAP: least capacity of the priority queue, in items. -/
  pqMinCap : Nat
  /-- PQ_MAX_CAP: greatest capacity of the priority queue, in items. -/
  pqMaxCap : Nat
  /-- NODE_MAX: most Huffman nodes live at once. -/
  nodeMax : Nat
  /-- TRIE_MAX: most trie nodes, not counting the root. -/
  trieMax : Nat
  /-- FT_MAX: most entries of the frequency table. -/
  ftMax : Nat
  /-- IO_BAD_IN: the IN addresses whose read fails. -/
  ioBadIn : List Nat
  /-- IO_BAD_OUT: the OUT addresses whose write fails. -/
  ioBadOut : List Nat
  deriving DecidableEq, Repr

/-- The defaults of R7. -/
def Config.defaults : Config where
  inCap := 2 ^ 24
  outCap := 2 ^ 24
  nb := 8
  bbMinCap := 8
  bbMaxBits := 2 ^ 32 - 1
  pqMinCap := 16
  pqMaxCap := 2 ^ 20
  nodeMax := 2 ^ 21
  trieMax := 2 ^ 20
  ftMax := 2 ^ 20
  ioBadIn := []
  ioBadOut := []

/-- BB_MAX_BYTES = ceil(BB_MAX_BITS / 8) (R7, a derived row). -/
def Config.bbMaxBytes (c : Config) : Nat := (c.bbMaxBits + 7) / 8

/-- FREE VALUE: what HT.DESER puts into RES1 for a tree of 2^32 bits or more. RES1 is a `u32`, and 44_tree_serialization.md
R221 states neither a check nor a reduction; nothing constrains it (log 15). -/
opaque Config.freeTreeBits : Nat → Word

/-- FREE VALUE: the byte of IN at an address that nothing has written in the given era of IN. The spec leaves it
unspecified (10_state.md R56, 93_implementation_defined.md U1); nothing constrains it (log 4). -/
opaque Config.freeIn : Nat → Nat → Byte

/-- FREE VALUE: the byte of OUT at an address that nothing has written in the given era of OUT (10_state.md R56,
60_exceptions.md R314, 93_implementation_defined.md U1, U2); nothing constrains it (log 4, log 7). -/
opaque Config.freeOut : Nat → Nat → Byte

end Sys2Proof
end

