-- ==== Sys2Proof/WellFormed.lean ====
section
/-! DEFINITION. Which terms stand for something of the spec: every command (30_encoding.md R100, R105), and the
configurations that meet the constraints of spec/00_scope.md R7. -/

namespace Sys2Proof

/-- Every term of `Instr` is a command: an operand is any `u32` "used as it stands" (30_encoding.md R100), a flag is one
bit, and a field a format does not use is no field of its constructor. Operand values that a command refuses are faults
of the command's own rule (R106), not ill-formed commands. -/
def Instr.wellFormed (_ : Instr) : Bool := true

/-- 16 ≤ IN_CAP ≤ 2^32 − 1 and the same for OUT_CAP. -/
def Config.spacesOk (c : Config) : Bool :=
  decide (16 ≤ c.inCap ∧ c.inCap < 2 ^ 32 ∧ 16 ≤ c.outCap ∧ c.outCap < 2 ^ 32)

/-- 2 ≤ NB ≤ 32. -/
def Config.bufferCountOk (c : Config) : Bool := decide (2 ≤ c.nb ∧ c.nb ≤ 32)

/-- BB_MIN_CAP ≥ 1 and 8·BB_MIN_CAP ≤ BB_MAX_BITS ≤ 2^32 − 1. -/
def Config.bufferSizeOk (c : Config) : Bool :=
  decide (1 ≤ c.bbMinCap ∧ 8 * c.bbMinCap ≤ c.bbMaxBits ∧ c.bbMaxBits < 2 ^ 32)

/-- PQ_MIN_CAP ≥ 1 and PQ_MAX_CAP = PQ_MIN_CAP · 2^k for some k ≥ 0; the k, if there is one, is the binary logarithm of
the quotient. -/
def Config.queueOk (c : Config) : Bool :=
  decide (1 ≤ c.pqMinCap ∧ c.pqMinCap * 2 ^ Nat.log2 (c.pqMaxCap / c.pqMinCap) = c.pqMaxCap)

/-- NODE_MAX, TRIE_MAX and FT_MAX are at least 1. -/
def Config.storesOk (c : Config) : Bool := decide (1 ≤ c.nodeMax ∧ 1 ≤ c.trieMax ∧ 1 ≤ c.ftMax)

/-- The IO_BAD sets are subsets of their spaces. -/
def Config.badSetsOk (c : Config) : Bool := c.ioBadIn.all (· < c.inCap) && c.ioBadOut.all (· < c.outCap)

/-- PQ_CAP, TRIE_NODES and FT_COUNT are readable as `u32` registers (10_state.md R25, R36, R40), so the bounds they can
reach fit a `u32` (DEDUCED, log 10). -/
def Config.viewsFit (c : Config) : Bool :=
  decide (c.pqMaxCap < 2 ^ 32 ∧ c.trieMax < 2 ^ 32 ∧ c.ftMax < 2 ^ 32)

/-- The longest code fits a bit buffer. A tree of at most NODE_MAX nodes has codes of at most
`max(1, (NODE_MAX − 1) div 2)` bits; CT.GET puts a code into a buffer without a check (45_code_table.md R242), and every
command keeps a buffer within BB_MAX_BITS (10_state.md R43), which both hold for every tree where this does (DEDUCED,
log 14). The buffer holds at least 8 bits, so the 1 needs no clause. -/
def Config.codesFit (c : Config) : Bool := decide ((c.nodeMax - 1) / 2 ≤ c.bbMaxBits)

/-- The constraints of R7, and the two that the rest of the spec puts on the parameters (logs 10, 14), all together. -/
def Config.wellFormed (c : Config) : Bool :=
  c.spacesOk && c.bufferCountOk && c.bufferSizeOk && c.queueOk && c.storesOk && c.badSetsOk && c.viewsFit && c.codesFit

end Sys2Proof
end

