-- ==== Sys2Proof/Decode.lean ====
section
/-! DEFINITION. The command word: its fields, formats and opcode map (spec/30_encoding.md R100 to R105), the decoder,
total on every word and every byte sequence, and the encoder. -/

namespace Sys2Proof

/-- The formats of R102: which of the fields A, B, C and F0 a command uses. -/
inductive Format where
  | n
  | nf
  | a
  | ab
  | abf
  | abc
  deriving DecidableEq, Repr

/-- The command word `{C, B, A, W0}` (R100, R101). -/
def assemble (w0 a b c : Word) : CommandWord := c ++ b ++ a ++ w0

/-- `W0 = CMD[31:0]` (R100). -/
def wordW0 (w : CommandWord) : Word := w.extractLsb' 0 32

/-- `A = CMD[63:32]` (R100). -/
def wordA (w : CommandWord) : Word := w.extractLsb' 32 32

/-- `B = CMD[95:64]` (R100). -/
def wordB (w : CommandWord) : Word := w.extractLsb' 64 32

/-- `C = CMD[127:96]` (R100). -/
def wordC (w : CommandWord) : Word := w.extractLsb' 96 32

/-- `W0[7:0]`, the opcode (R100). -/
def wordOpcode (w : CommandWord) : Byte := w.extractLsb' 0 8

/-- Flag F0, bit 8 of the word (R101). -/
def wordF0 (w : CommandWord) : Bool := w.getLsbD 8

/-- The mask of a format: 1 in the opcode and in every bit the format does not use (the table of R102). -/
def Format.mask : Format → CommandWord
  | .n => assemble 0xFFFFFFFF#32 0xFFFFFFFF#32 0xFFFFFFFF#32 0xFFFFFFFF#32
  | .nf => assemble 0xFFFFFEFF#32 0xFFFFFFFF#32 0xFFFFFFFF#32 0xFFFFFFFF#32
  | .a => assemble 0xFFFFFFFF#32 0x00000000#32 0xFFFFFFFF#32 0xFFFFFFFF#32
  | .ab => assemble 0xFFFFFFFF#32 0x00000000#32 0x00000000#32 0xFFFFFFFF#32
  | .abf => assemble 0xFFFFFEFF#32 0x00000000#32 0x00000000#32 0xFFFFFFFF#32
  | .abc => assemble 0xFFFFFFFF#32 0x00000000#32 0x00000000#32 0x00000000#32

/-- The fields of a command as an encoder needs them. -/
structure Fields where
  opcode : Byte
  f0 : Bool
  a : Word
  b : Word
  c : Word
  deriving DecidableEq, Repr

/-- A row of the opcode map (R103). -/
structure Row where
  opcode : Byte
  format : Format
  /-- The command a word of this row spells, from its F0, A, B and C. -/
  build : Bool → Word → Word → Word → Instr

/-- The `match` of a row: the opcode in `W0[7:0]` and 0 elsewhere (R102). -/
def Row.pattern (r : Row) : CommandWord := r.opcode.setWidth 128

/-- The SYS rows of R103. -/
def rowsSys : List Row := [
  ⟨0x00#8, .n, fun _ _ _ _ => .sysNop⟩,
  ⟨0x01#8, .n, fun _ _ _ _ => .sysReset⟩,
  ⟨0x02#8, .n, fun _ _ _ _ => .sysClrerr⟩,
  ⟨0x03#8, .a, fun _ a _ _ => .sysRdcr a⟩,
  ⟨0x04#8, .ab, fun _ a b _ => .sysWrcr a b⟩]

/-- The BB rows of R103. -/
def rowsBb : List Row := [
  ⟨0x10#8, .ab, fun _ a b _ => .bbCreate a b⟩,
  ⟨0x11#8, .ab, fun _ a b _ => .bbGet a b⟩,
  ⟨0x12#8, .abc, fun _ a b c => .bbSet a b c⟩,
  ⟨0x13#8, .ab, fun _ a b _ => .bbAppend a b⟩,
  ⟨0x14#8, .ab, fun _ a b _ => .bbCopy a b⟩,
  ⟨0x15#8, .ab, fun _ a b _ => .bbConcat a b⟩,
  ⟨0x16#8, .a, fun _ a _ _ => .bbReset a⟩,
  ⟨0x17#8, .a, fun _ a _ _ => .bbSize a⟩,
  ⟨0x18#8, .ab, fun _ a b _ => .bbFlush a b⟩]

/-- The PQ rows of R103. -/
def rowsPq : List Row := [
  ⟨0x20#8, .ab, fun _ a b _ => .pqInsert a b⟩,
  ⟨0x21#8, .n, fun _ _ _ _ => .pqExtract⟩,
  ⟨0x22#8, .n, fun _ _ _ _ => .pqPeek⟩,
  ⟨0x23#8, .n, fun _ _ _ _ => .pqSize⟩,
  ⟨0x24#8, .n, fun _ _ _ _ => .pqIsempty⟩,
  ⟨0x25#8, .nf, fun f _ _ _ => .pqDestroy f⟩]

/-- The PT and FT rows of R103. -/
def rowsPtFt : List Row := [
  ⟨0x30#8, .abc, fun _ a b c => .ptInsert a b c⟩,
  ⟨0x31#8, .abf, fun f a b _ => .ptSearch a b f⟩,
  ⟨0x32#8, .ab, fun _ a b _ => .ptRemove a b⟩,
  ⟨0x33#8, .a, fun _ a _ _ => .ptKeys a⟩,
  ⟨0x34#8, .n, fun _ _ _ _ => .ptClear⟩,
  ⟨0x40#8, .abc, fun _ a b c => .ftSet a b c⟩,
  ⟨0x41#8, .n, fun _ _ _ _ => .ftClear⟩]

/-- The HT rows of R103. -/
def rowsHt : List Row := [
  ⟨0x50#8, .ab, fun _ a b _ => .htLeaf a b⟩,
  ⟨0x51#8, .n, fun _ _ _ _ => .htMerge⟩,
  ⟨0x52#8, .n, fun _ _ _ _ => .htBuild⟩,
  ⟨0x53#8, .a, fun _ a _ _ => .htFree a⟩,
  ⟨0x54#8, .a, fun _ a _ _ => .htSer a⟩,
  ⟨0x55#8, .ab, fun _ a b _ => .htDeser a b⟩,
  ⟨0x56#8, .a, fun _ a _ _ => .htNode a⟩]

/-- The CT and CD rows of R103. -/
def rowsCtCd : List Row := [
  ⟨0x60#8, .n, fun _ _ _ _ => .ctGen⟩,
  ⟨0x61#8, .ab, fun _ a b _ => .ctGet a b⟩,
  ⟨0x62#8, .ab, fun _ a b _ => .ctStload a b⟩,
  ⟨0x63#8, .a, fun _ a _ _ => .ctStstore a⟩,
  ⟨0x70#8, .n, fun _ _ _ _ => .cdEncode⟩,
  ⟨0x71#8, .n, fun _ _ _ _ => .cdDecode⟩,
  ⟨0x72#8, .ab, fun _ a b _ => .cdEpass a b⟩,
  ⟨0x73#8, .abc, fun _ a b c => .cdDpass a b c⟩]

/-- The opcode map: the 42 rows of R103. -/
def rows : List Row := rowsSys ++ rowsBb ++ rowsPq ++ rowsPtFt ++ rowsHt ++ rowsCtCd

/-- The row of an opcode, if it is in the map. -/
def rowOf (op : Byte) : Option Row := rows.find? (fun r => r.opcode == op)

/-- What a word or a byte sequence decodes to. Every rejection has its name. -/
inductive Decoded where
  /-- The command the word spells. -/
  | command (i : Instr)
  /-- The opcode is not in the map (R105): IllegalCommand sub-cause 0. -/
  | reservedOpcode (op : Byte)
  /-- A bit the format does not use is 1 (R104): IllegalCommand sub-cause 1. -/
  | unusedBitSet (op : Byte)
  /-- Fewer than the 16 bytes of a command word (R101); no word, so no command and no fault of the engine. -/
  | tooShort
  deriving DecidableEq, Repr

/-- The decoder (R102 to R105, 48_system.md R280 step 2): reserved opcode first, then the unused bits. -/
def decodeWord (w : CommandWord) : Decoded :=
  match rowOf (wordOpcode w) with
  | none => .reservedOpcode (wordOpcode w)
  | some r =>
    if w &&& r.format.mask = r.pattern then .command (r.build (wordF0 w) (wordA w) (wordB w) (wordC w))
    else .unusedBitSet (wordOpcode w)

/-- The number whose base-256 digits, least significant first, are the given bytes. -/
def natOfBytesLE : Bytes → Nat
  | [] => 0
  | b :: bs => b.toNat + 256 * natOfBytesLE bs

/-- The little-endian bytes of a command word (R101). -/
def bytesOfWord (w : CommandWord) : Bytes := (List.range 16).map fun k => w.extractLsb' (8 * k) 8

/-- The decoder on a byte sequence: the first 16 bytes are the word, little-endian (R101); the rest is returned. -/
def decodeBytes (bs : Bytes) : Decoded × Bytes :=
  if bs.length < 16 then (.tooShort, bs)
  else (decodeWord (BitVec.ofNat 128 (natOfBytesLE (bs.take 16))), bs.drop 16)

/-- The instruction the decoder reads from a word of spec/opcode_table.json: bit 0 of `w` is bit 0 of `W0`, the bits
from `nbits` on are 0, and the word is laid out as its 16 little-endian bytes (R101). -/
def decodeTableWord (nbits w : Nat) : Option Instr :=
  match (decodeBytes (bytesOfWord (BitVec.ofNat 128 (w % 2 ^ nbits)))).1 with
  | .command i => some i
  | .reservedOpcode _ => none
  | .unusedBitSet _ => none
  | .tooShort => none

/-- The fields a command is spelled with: the opcode of its row, F0, and the operands its format uses, 0 elsewhere
(R102, R103). -/
def Instr.fields : Instr → Fields
  | .sysNop => ⟨0x00#8, false, 0, 0, 0⟩
  | .sysReset => ⟨0x01#8, false, 0, 0, 0⟩
  | .sysClrerr => ⟨0x02#8, false, 0, 0, 0⟩
  | .sysRdcr a => ⟨0x03#8, false, a, 0, 0⟩
  | .sysWrcr a b => ⟨0x04#8, false, a, b, 0⟩
  | .bbCreate a b => ⟨0x10#8, false, a, b, 0⟩
  | .bbGet a b => ⟨0x11#8, false, a, b, 0⟩
  | .bbSet a b c => ⟨0x12#8, false, a, b, c⟩
  | .bbAppend a b => ⟨0x13#8, false, a, b, 0⟩
  | .bbCopy a b => ⟨0x14#8, false, a, b, 0⟩
  | .bbConcat a b => ⟨0x15#8, false, a, b, 0⟩
  | .bbReset a => ⟨0x16#8, false, a, 0, 0⟩
  | .bbSize a => ⟨0x17#8, false, a, 0, 0⟩
  | .bbFlush a b => ⟨0x18#8, false, a, b, 0⟩
  | .pqInsert a b => ⟨0x20#8, false, a, b, 0⟩
  | .pqExtract => ⟨0x21#8, false, 0, 0, 0⟩
  | .pqPeek => ⟨0x22#8, false, 0, 0, 0⟩
  | .pqSize => ⟨0x23#8, false, 0, 0, 0⟩
  | .pqIsempty => ⟨0x24#8, false, 0, 0, 0⟩
  | .pqDestroy f => ⟨0x25#8, f, 0, 0, 0⟩
  | .ptInsert a b c => ⟨0x30#8, false, a, b, c⟩
  | .ptSearch a b f => ⟨0x31#8, f, a, b, 0⟩
  | .ptRemove a b => ⟨0x32#8, false, a, b, 0⟩
  | .ptKeys a => ⟨0x33#8, false, a, 0, 0⟩
  | .ptClear => ⟨0x34#8, false, 0, 0, 0⟩
  | .ftSet a b c => ⟨0x40#8, false, a, b, c⟩
  | .ftClear => ⟨0x41#8, false, 0, 0, 0⟩
  | .htLeaf a b => ⟨0x50#8, false, a, b, 0⟩
  | .htMerge => ⟨0x51#8, false, 0, 0, 0⟩
  | .htBuild => ⟨0x52#8, false, 0, 0, 0⟩
  | .htFree a => ⟨0x53#8, false, a, 0, 0⟩
  | .htSer a => ⟨0x54#8, false, a, 0, 0⟩
  | .htDeser a b => ⟨0x55#8, false, a, b, 0⟩
  | .htNode a => ⟨0x56#8, false, a, 0, 0⟩
  | .ctGen => ⟨0x60#8, false, 0, 0, 0⟩
  | .ctGet a b => ⟨0x61#8, false, a, b, 0⟩
  | .ctStload a b => ⟨0x62#8, false, a, b, 0⟩
  | .ctStstore a => ⟨0x63#8, false, a, 0, 0⟩
  | .cdEncode => ⟨0x70#8, false, 0, 0, 0⟩
  | .cdDecode => ⟨0x71#8, false, 0, 0, 0⟩
  | .cdEpass a b => ⟨0x72#8, false, a, b, 0⟩
  | .cdDpass a b c => ⟨0x73#8, false, a, b, c⟩

/-- `W0` of the given opcode and F0; every other bit of it is 0 (R100, R101). -/
def headWord (op : Byte) (f0 : Bool) : Word := 0#23 ++ BitVec.ofBool f0 ++ op

/-- The low word W0 of a command, which fault entry copies into ERROP (60_exceptions.md R312). -/
def Instr.w0 (i : Instr) : Word := headWord i.fields.opcode i.fields.f0

/-- The encoder: the command word of a command (R100 to R103). -/
def encode (i : Instr) : CommandWord := assemble i.w0 i.fields.a i.fields.b i.fields.c

end Sys2Proof
end

