-- ==== Sys2Proof/Machine/State.lean ====
section
/-! DEFINITION. The state of the engine as plain data (spec/10_state.md R21 to R59), the command port, and the reset state. -/

namespace Sys2Proof.Machine

/-- The compression mode, bit 0 of control register MODE (10_state.md R32): 0 = CHAR, 1 = WORD. -/
inductive Mode where
  | char
  | word
  deriving DecidableEq, Repr

/-- The comparator of the queue, bit 0 of control register PQ_ORDER (10_state.md R35): 0 = min-first, 1 = max-first. -/
inductive PqOrder where
  | minFirst
  | maxFirst
  deriving DecidableEq, Repr

/-- The three flags of STATUS, "and nothing else" (10_state.md R24, R28). -/
structure Status where
  fault : Bool
  empty : Bool
  found : Bool
  deriving DecidableEq, Repr

/-- The result registers RES0 to RES3 (10_state.md R22). -/
structure Results where
  r0 : Word
  r1 : Word
  r2 : Word
  r3 : Word
  deriving DecidableEq, Repr

/-- The response to a command (30_encoding.md R107). -/
structure Response where
  code : Byte
  res : Results
  deriving DecidableEq, Repr

/-- A bit-buffer register (10_state.md R42): its bits and its capacity in bytes. -/
structure BitBuffer where
  bits : Bits
  cap : Nat
  deriving DecidableEq, Repr

/-- An item of the priority queue (10_state.md R45). -/
structure QItem where
  key : Word
  seq : Nat
  handle : Word
  deriving DecidableEq, Repr

/-- The priority queue (10_state.md R45); its entries are listed in the order of insertion. -/
structure PQueue where
  entries : List QItem
  cap : Nat
  nextSeq : Nat
  deriving DecidableEq, Repr

/-- A node of the node store (10_state.md R47). -/
inductive Node where
  | leaf (sym freq : Word)
  | internal (left right freq : Word)
  deriving DecidableEq, Repr

/-- The node store's finite map, listed by rising handle (10_state.md R47). -/
abbrev NodeMap := List (Word × Node)

/-- The prefix trie (10_state.md R52): its nodes and the payloads, each listed by rising `lex`. -/
structure Trie where
  paths : List Bytes
  payload : List (Bytes × Word)
  deriving DecidableEq, Repr

/-- A byte space: the bytes that have been written, by rising address, and the era of its free values. A byte that no
cell lists is unspecified, so it reads as a free value of this era (log 4). -/
structure Memory where
  cells : List Host.Cell
  era : Nat
  deriving DecidableEq, Repr

/-- A move of the host, which it makes between commands only (20_memory.md R82, log 2). -/
inductive HostMove where
  /-- Issue a command word (10_state.md R20). -/
  | command (w : CommandWord)
  /-- Write bytes into IN from an address (10_state.md R56). -/
  | writeIn (addr : Nat) (bytes : Bytes)
  /-- Hardware reset between commands (70_reset_and_hazards.md R330). -/
  | hardwareReset
  deriving DecidableEq, Repr

/-- The whole state (10_state.md R21), with the model's own fields `cfg`, `port` and `resp`. -/
structure State where
  /-- The parameters of 00_scope.md R7; no step changes them (10_state.md R58, log 1). -/
  cfg : Config
  /-- RES0 to RES3 (R22). -/
  res : Results
  /-- STATUS (R24). -/
  status : Status
  /-- ERR (R29). -/
  err : Word
  /-- ERRINFO0 (R30). -/
  errInfo0 : Word
  /-- ERRINFO1 (R30). -/
  errInfo1 : Word
  /-- ERROP (R31). -/
  errOp : Word
  /-- MODE (R32). -/
  mode : Mode
  /-- IN_LEN (R33). -/
  inLen : Word
  /-- OUT_LEN (R34). -/
  outLen : Word
  /-- PQ_ORDER (R35). -/
  pqOrder : PqOrder
  /-- ROOT (R37). -/
  root : Word
  /-- CURSOR (R38). -/
  cursor : Word
  /-- DPOS (R38). -/
  dpos : Word
  /-- DBIT (R38). -/
  dbit : Word
  /-- EMITTED (R38). -/
  emitted : Word
  /-- SYMCOUNT (R39). -/
  symCount : Word
  /-- `bb[0]` to `bb[NB − 1]` (R42). -/
  bb : List BitBuffer
  /-- `pq` (R45). -/
  pq : PQueue
  /-- `nodes` (R47). -/
  nodes : NodeMap
  /-- `next_handle` (R47). -/
  nextHandle : Nat
  /-- `trie` (R52). -/
  trie : Trie
  /-- `ft`, listed by rising `lex` of the keys (R53). -/
  ft : List (Bytes × Word)
  /-- `symtab` (R54). -/
  symtab : List Bytes
  /-- `code`, listed by rising symbol id (R55). -/
  code : List (Word × Bits)
  /-- The IN byte space (R56). -/
  inMem : Memory
  /-- The OUT byte space (R56). -/
  outMem : Memory
  /-- The host's waiting moves, oldest first (log 2). -/
  port : List HostMove
  /-- The response to the last command, `none` before the first (30_encoding.md R107, log 3). -/
  resp : Option Response
  deriving DecidableEq, Repr

/-- Why the model stops. The engine's own faults are next states (60_exceptions.md R312), not these. -/
inductive Fault where
  /-- Raised by the host's move `writeIn` alone: some byte lies at or above IN_CAP, where IN has no byte (20_memory.md
  R70); a write of zero bytes never raises it. Safe: no command is involved, and the model claims nothing after the stop (log 5). -/
  | hostWriteOutsideIn
  deriving DecidableEq, Repr

/-- Why an instruction has no meaning. -/
inductive Refusal where
  /-- Answered by an arm of `exec` that has no meaning yet; safe. No arm answers it now. -/
  | notModelled (mnemonic : String)
  deriving DecidableEq, Repr

/-- RES0 to RES3 all 0. -/
def Results.zero : Results := ⟨0, 0, 0, 0⟩

/-- The empty bit buffer of capacity BB_MIN_CAP (10_state.md R42). -/
def BitBuffer.fresh (c : Config) : BitBuffer := ⟨[], c.bbMinCap⟩

/-- The queue after reset and after PQ.DESTROY (10_state.md R45, 41_priority_queue.md R167). -/
def PQueue.fresh (c : Config) : PQueue := ⟨[], c.pqMinCap, 0⟩

/-- The trie that has only its root (10_state.md R52). -/
def Trie.fresh : Trie := ⟨[[]], []⟩

/-- The state after hardware reset of an engine with the given parameters (10_state.md R59), IN and OUT unspecified in
the given eras, nothing issued and nothing answered yet. -/
def State.resetOf (c : Config) (inEra outEra : Nat) : State where
  cfg := c
  res := Results.zero
  status := ⟨false, false, false⟩
  err := 0
  errInfo0 := 0
  errInfo1 := 0
  errOp := 0
  mode := .char
  inLen := 0
  outLen := 0
  pqOrder := .minFirst
  root := nullHandle
  cursor := nullHandle
  dpos := 0
  dbit := 0
  emitted := 0
  symCount := 0
  bb := List.replicate c.nb (BitBuffer.fresh c)
  pq := PQueue.fresh c
  nodes := []
  nextHandle := 0
  trie := Trie.fresh
  ft := []
  symtab := []
  code := []
  inMem := ⟨[], inEra⟩
  outMem := ⟨[], outEra⟩
  port := []
  resp := none

/-- The machine right after reset, with the default parameters of 00_scope.md R7 (10_state.md R59; the eras are a
DESIGN CHOICE, log 4). -/
def State.reset : State := State.resetOf Config.defaults 0 0

end Sys2Proof.Machine
end

