-- ==== Sys2Proof/Machine/Bytes.lean ====
section
/-! DEFINITION. Bits, bytes and byte order (spec/00_scope.md R12, R14; 20_memory.md R73 to R76), finite maps and sets as
sorted lists, and the memories' cells. -/

namespace Sys2Proof.Machine

/-- ceil(n / 8), the bytes that n bits take. -/
def bytesFor (n : Nat) : Nat := (n + 7) / 8

/-- The number whose binary digits, least significant first, are the given bits. -/
def natOfBits : Bits → Nat
  | [] => 0
  | b :: bs => b.toNat + 2 * natOfBits bs

/-- `bitsLSB_N(v)`: bits 0 to N − 1 of `v` (00_scope.md R12). -/
def bitsLSB (n v : Nat) : Bits := (List.range n).map v.testBit

/-- `pack(bits)`: bit `k` of byte `j` is `bits[8j + k]`, 0 beyond the end (00_scope.md R12, 20_memory.md R74, R75). -/
def pack (bits : Bits) : Bytes :=
  (List.range (bytesFor bits.length)).map fun j => BitVec.ofNat 8 (natOfBits ((bits.drop (8 * j)).take 8))

/-- `unpack(bytes)`: bit `i` is bit `i mod 8` of byte `i div 8` (00_scope.md R12, 20_memory.md R74). -/
def unpack (bytes : Bytes) : Bits := bytes.flatMap fun b => bitsLSB 8 b.toNat

/-- `u32le(v)`, least significant byte first (00_scope.md R12, 20_memory.md R73). -/
def u32le (v : Word) : Bytes :=
  [v.extractLsb' 0 8, v.extractLsb' 8 8, v.extractLsb' 16 8, v.extractLsb' 24 8]

/-- `le32(b)`, the inverse of `u32le` on four bytes (00_scope.md R12). -/
def le32 (b : Bytes) : Word := BitVec.ofNat 32 (natOfBytesLE b)

/-- `a` is a prefix of `s` (00_scope.md R11). -/
def startsWith : Bytes → Bytes → Bool
  | [], _ => true
  | _ :: _, [] => false
  | a :: as, b :: bs => a == b && startsWith as bs

/-- The order `lex` on byte strings (00_scope.md R14). -/
def lexLt : Bytes → Bytes → Bool
  | _, [] => false
  | [], _ :: _ => true
  | a :: as, b :: bs => decide (a.toNat < b.toNat) || (a == b && lexLt as bs)

/-- The order of handles and symbol ids as numbers. -/
def wordLt (a b : Word) : Bool := decide (a.toNat < b.toNat)

/-- The order of addresses. -/
def addrLt (a b : Nat) : Bool := decide (a < b)

/-- `m[k] <- v` on a finite map listed by rising key. -/
def mapInsert {κ α : Type} (lt : κ → κ → Bool) (k : κ) (v : α) : List (κ × α) → List (κ × α)
  | [] => [(k, v)]
  | e :: rest =>
    if lt k e.1 then (k, v) :: e :: rest
    else if lt e.1 k then e :: mapInsert lt k v rest
    else (k, v) :: rest

/-- Remove a key from a finite map; nothing happens when it is absent. -/
def mapErase {κ α : Type} [DecidableEq κ] (k : κ) (m : List (κ × α)) : List (κ × α) :=
  m.filter fun e => decide (e.1 ≠ k)

/-- The value at a key of a finite map, if the key is in its domain. -/
def mapFind {κ α : Type} [DecidableEq κ] (k : κ) : List (κ × α) → Option α
  | [] => none
  | e :: rest => if e.1 = k then some e.2 else mapFind k rest

/-- `S ∪ {x}` on a finite set listed by rising element. -/
def setInsert {κ : Type} (lt : κ → κ → Bool) (x : κ) : List κ → List κ
  | [] => [x]
  | y :: rest => if lt x y then x :: y :: rest else if lt y x then y :: setInsert lt x rest else y :: rest

/-- The keys rise strictly in the given order: the canonical form of every map, set and memory of the state. -/
def rising {κ : Type} (lt : κ → κ → Bool) : List κ → Bool
  | [] => true
  | [_] => true
  | a :: b :: rest => lt a b && rising lt (b :: rest)

/-- The byte a cell list holds for an address; `none` where nothing has been written. -/
def Memory.cell (m : Memory) (addr : Nat) : Option Byte := mapFind addr m.cells

/-- Store one byte, keeping the canonical form. -/
def Memory.put (m : Memory) (addr : Nat) (b : Byte) : Memory := { m with cells := mapInsert addrLt addr b m.cells }

/-- Store bytes at rising addresses, in ascending order (20_memory.md R77). -/
def Memory.putAll (m : Memory) (addr : Nat) : Bytes → Memory
  | [] => m
  | b :: bs => (m.put addr b).putAll (addr + 1) bs

/-- Every byte becomes unspecified: no cell is left, and the next era of free values begins (log 4). -/
def Memory.forget (m : Memory) : Memory := ⟨[], m.era + 1⟩

/-- The canonical form: addresses strictly rising. An unlisted address holds no byte of its own (it reads as a free
value), so no entry can equal what an unlisted address reads as (log 4). -/
def Memory.wf (m : Memory) : Bool := rising addrLt (m.cells.map Prod.fst)

/-- The byte of IN at an address; a free value where the host has written nothing (10_state.md R56, log 4). -/
def State.inByte (s : State) (addr : Nat) : Byte := (s.inMem.cell addr).getD (Config.freeIn s.inMem.era addr)

/-- The byte of OUT the host reads at an address; a free value where the engine has written nothing since the last
hardware reset or fault cleanup (10_state.md R56, 60_exceptions.md R314, log 4). -/
def State.outByte (s : State) (addr : Nat) : Byte := (s.outMem.cell addr).getD (Config.freeOut s.outMem.era addr)

/-- `symtab_bytes(list)` (30_encoding.md R112). -/
def symtabBytes (list : List Bytes) : Bytes :=
  list.flatMap fun e => u32le (BitVec.ofNat 32 e.length) ++ e

end Sys2Proof.Machine
end

