-- ==== Sys2Proof/Machine/Flags.lean ====
section
/-! DEFINITION. The flags of STATUS (spec/10_state.md R24, R28), and the words of STATUS, MODE and PQ_ORDER. -/

namespace Sys2Proof.Machine

/-- A truth value as a bit of a register. -/
def bitWord (b : Bool) : Word := if b then 1 else 0

/-- STATUS as a word: FAULT bit 0, EMPTY bit 1, FOUND bit 2, bits 31:3 zero (10_state.md R28). -/
def Status.word (f : Status) : Word :=
  BitVec.ofNat 32 (f.fault.toNat + 2 * f.empty.toNat + 4 * f.found.toNat)

/-- MODE as a word (10_state.md R32). -/
def Mode.toWord : Mode → Word
  | .char => 0
  | .word => 1

/-- PQ_ORDER as a word (10_state.md R35). -/
def PqOrder.toWord : PqOrder → Word
  | .minFirst => 0
  | .maxFirst => 1

/-- The mode a legal MODE value selects (10_state.md R32). -/
def Mode.ofWord (v : Word) : Mode := if v = 0 then .char else .word

/-- The comparator a legal PQ_ORDER value selects (10_state.md R35). -/
def PqOrder.ofWord (v : Word) : PqOrder := if v = 0 then .minFirst else .maxFirst

/-- `cr[STATUS].EMPTY <- b` (10_state.md R24: HT.BUILD, CD.ENCODE and CD.DECODE only). -/
def State.setEmpty (b : Bool) (s : State) : State := { s with status := { s.status with empty := b } }

/-- `cr[STATUS].FOUND <- b` (10_state.md R24: PT.SEARCH only). -/
def State.setFound (b : Bool) (s : State) : State := { s with status := { s.status with found := b } }

/-- `cr[STATUS].FAULT <- b` (10_state.md R24: fault entry, SYS.CLRERR, reset). -/
def State.setFault (b : Bool) (s : State) : State := { s with status := { s.status with fault := b } }

end Sys2Proof.Machine
end

