-- ==== Sys2Proof/Machine/Ops.lean ====
section
/-! DEFINITION. The shared operations: rules that complete or raise, memory access (spec/20_memory.md R71, R72), the
structures of spec/10_state.md (bit buffers, queue, node store, trie), fault entry, fault cleanup and return from a fault
(spec/60_exceptions.md R312 to R316), and the execution of one command's rule (spec/48_system.md R280 steps 1, 3, 4). -/

namespace Sys2Proof.Machine

/-! ## Faults -/

/-- The nine faults (60_exceptions.md R300). -/
inductive Cause where
  | indexOutOfRange
  | emptyQueue
  | notFound
  | unknownSymbol
  | corruptStream
  | corruptContainer
  | allocationFailure
  | ioError
  | illegalCommand
  deriving DecidableEq, Repr

/-- `code(F)`, the table of 60_exceptions.md R300. -/
def Cause.code : Cause → Byte
  | .indexOutOfRange => 1
  | .emptyQueue => 2
  | .notFound => 3
  | .unknownSymbol => 4
  | .corruptStream => 5
  | .corruptContainer => 6
  | .allocationFailure => 7
  | .ioError => 8
  | .illegalCommand => 9

/-- `F(i0, i1)`: a fault with its two information words (60_exceptions.md R312). -/
structure Raise where
  cause : Cause
  info0 : Word
  info1 : Word
  deriving DecidableEq, Repr

/-- A count or an address as an information or result word. -/
def word (n : Nat) : Word := BitVec.ofNat 32 n

/-- IllegalCommand with its sub-cause and value (60_exceptions.md R309). -/
def illegal (sub : Nat) (value : Word) : Raise := ⟨.illegalCommand, word sub, value⟩

/-- AllocationFailure with its resource and size (60_exceptions.md R307). -/
def allocFail (resource : Nat) (size : Nat) : Raise := ⟨.allocationFailure, word resource, word size⟩

/-- IOError: 0 = IN read, 1 = OUT write (60_exceptions.md R308); the address is taken mod 2^32 (20_memory.md R72). -/
def ioError (addr : Nat) (write : Bool) : Raise := ⟨.ioError, word addr, bitWord write⟩

/-! ## Rules -/

/-- What a rule, or a step of one, comes to: it completes with a value, or it raises a fault at an intermediate state
(48_system.md R280 step 3). -/
inductive Ruling (α : Type) where
  | ok (a : α) (s : State)
  | raise (r : Raise) (s : State)
  deriving DecidableEq, Repr

/-- Go on with the next step unless this one raised. -/
def Ruling.bind {α β : Type} (x : Ruling α) (k : α → State → Ruling β) : Ruling β :=
  match x with
  | .ok a s => k a s
  | .raise r s => .raise r s

/-- `require c else raise F(i0, i1)` (00_scope.md R13), then the rest. -/
@[inline] def need {α : Type} (c : Prop) [Decidable c] (r : Raise) (s : State) (k : Ruling α) : Ruling α :=
  if c then k else .raise r s

/-! ## Memory -/

/-- The least address of `[addr, addr + n)` in a set of failing addresses. -/
def leastBad (bad : List Nat) (addr n : Nat) : Option Nat :=
  (bad.filter fun x => decide (addr ≤ x ∧ x < addr + n)).min?

/-- `MemRead(IN, addr, n)` (20_memory.md R71). -/
def memRead (addr n : Nat) (s : State) : Ruling Bytes :=
  match leastBad s.cfg.ioBadIn addr n with
  | some x => .raise (ioError x false) s
  | none => .ok ((List.range n).map fun i => s.inByte (addr + i)) s

/-- The least address of `[addr, addr + n)` that is at or above OUT_CAP or in IO_BAD_OUT (20_memory.md R72). -/
def leastUnwritable (c : Config) (addr n : Nat) : Option Nat :=
  match leastBad c.ioBadOut addr n with
  | some x => if x < c.outCap then some x else some (max addr c.outCap)
  | none => if n ≠ 0 ∧ c.outCap < addr + n then some (max addr c.outCap) else none

/-- `MemWrite(OUT, addr, len(v), v)`: all or nothing, and OUT_LEN rises to cover it (20_memory.md R72). -/
def memWrite (addr : Nat) (v : Bytes) (s : State) : Ruling Unit :=
  if v = [] then .ok () s
  else match leastUnwritable s.cfg addr v.length with
    | some x => .raise (ioError x true) s
    | none => .ok () { s with
        outMem := s.outMem.putAll addr v
        outLen := word (max s.outLen.toNat (addr + v.length)) }

/-! ## Bit buffers -/

/-- `bb[b]` (10_state.md R42). -/
def State.buf (s : State) (b : Nat) : BitBuffer := s.bb.getD b (BitBuffer.fresh s.cfg)

/-- `bb[b] <- v`. -/
def State.setBuf (b : Nat) (v : BitBuffer) (s : State) : State := { s with bb := s.bb.set b v }

/-- Double until it suffices. The fuel `need` is enough for every capacity of at least 1. -/
def doubleUntil : Nat → Nat → Nat → Nat
  | 0, cap, _ => cap
  | fuel + 1, cap, need => if need ≤ cap then cap else doubleUntil fuel (2 * cap) need

/-- `grow(cap, need)`: the least `cap·2^k` that is at least `need`, limited to `max(BB_MIN_CAP, BB_MAX_BYTES)`
(10_state.md R43). -/
def grow (c : Config) (cap need : Nat) : Nat :=
  min (doubleUntil need cap need) (max c.bbMinCap c.bbMaxBytes)

/-- The buffer with bits appended and its capacity grown to hold them (10_state.md R43). -/
def BitBuffer.append (c : Config) (v : BitBuffer) (bits : Bits) : BitBuffer :=
  ⟨v.bits ++ bits, grow c v.cap (bytesFor (v.bits.length + bits.length))⟩

/-! ## The priority queue -/

/-- `cmp(x, y) < 0` under the selected comparator (10_state.md R46). -/
def PqOrder.keyBefore : PqOrder → Word → Word → Bool
  | .minFirst, x, y => decide (x.toNat < y.toNat)
  | .maxFirst, x, y => decide (y.toNat < x.toNat)

/-- Item `x` is before item `y`: by key under the comparator, equal keys by insertion (10_state.md R46,
41_priority_queue.md R161). -/
def QItem.before (o : PqOrder) (x y : QItem) : Bool :=
  o.keyBefore x.key y.key || (x.key == y.key && decide (x.seq < y.seq))

/-- The top: the item that is before every other (10_state.md R46). -/
def queueTop (o : PqOrder) : List QItem → Option QItem
  | [] => none
  | x :: rest =>
    match queueTop o rest with
    | none => some x
    | some y => if y.before o x then some y else some x

/-- The state change of `pq_insert(k, h)` when it does not raise: the capacity doubles when the queue is full
(41_priority_queue.md R160). -/
def PQueue.push (q : PQueue) (key handle : Word) : PQueue where
  entries := q.entries ++ [⟨key, q.nextSeq, handle⟩]
  cap := if q.entries.length = q.cap then 2 * q.cap else q.cap
  nextSeq := q.nextSeq + 1

/-- `pq_insert(k, h)` (41_priority_queue.md R160). -/
def pqInsert (key handle : Word) (s : State) : Ruling Unit :=
  if s.pq.entries.length = s.pq.cap ∧ s.pq.cap = s.cfg.pqMaxCap then
    .raise (allocFail 2 s.pq.entries.length) s
  else .ok () { s with pq := s.pq.push key handle }

/-- The halving rule after an extract, "once": occupancy below a quarter, never below PQ_MIN_CAP
(41_priority_queue.md R160). -/
def shrinkCap (c : Config) (size cap : Nat) : Nat :=
  if 4 * size < cap ∧ c.pqMinCap ≤ cap / 2 then cap / 2 else cap

/-- The state change of `pq_extract()` that takes the item `t` out (41_priority_queue.md R160). -/
def PQueue.take (c : Config) (q : PQueue) (t : QItem) : PQueue where
  entries := q.entries.erase t
  cap := shrinkCap c (q.entries.erase t).length q.cap
  nextSeq := q.nextSeq

/-- The top of the state's queue. -/
def State.top (s : State) : Option QItem := queueTop s.pqOrder s.pq.entries

/-- `pq_extract()`: it answers the item taken out (41_priority_queue.md R160). -/
def pqExtract (s : State) : Ruling QItem :=
  match s.top with
  | none => .raise ⟨.emptyQueue, 0, 0⟩ s
  | some t => .ok t { s with pq := s.pq.take s.cfg t }

/-! ## The node store -/

/-- A Huffman tree by shape and symbols: what a well-formed handle names (10_state.md R51). -/
inductive Tree where
  | leaf (sym : Word)
  | node (left right : Tree)
  deriving DecidableEq, Repr

/-- `alloc` is defined (10_state.md R48). -/
def State.canAlloc (s : State) : Bool :=
  decide (s.nodes.length < s.cfg.nodeMax ∧ s.nextHandle < 0xFFFFFFFF)

/-- The handle the next allocation returns (10_state.md R48). -/
def State.newHandle (s : State) : Word := word s.nextHandle

/-- The state change of `alloc(n)` (10_state.md R48). -/
def State.allocated (n : Node) (s : State) : State :=
  { s with nodes := mapInsert wordLt s.newHandle n s.nodes, nextHandle := s.nextHandle + 1 }

/-- `h <- alloc(n) else raise AllocationFailure(3, |nodes|)` (10_state.md R48). -/
def alloc (n : Node) (s : State) : Ruling Word :=
  need (s.canAlloc = true) (allocFail 3 s.nodes.length) s (.ok s.newHandle (s.allocated n))

/-- The handle is live (10_state.md R47). -/
def NodeMap.live (m : NodeMap) (h : Word) : Bool := (mapFind h m).isSome

/-- `owned(h)`: some live internal node has `h` as a child (10_state.md R49). -/
def NodeMap.owned (m : NodeMap) (h : Word) : Bool :=
  m.any fun e =>
    match e.2 with
    | .leaf _ _ => false
    | .internal l r _ => l == h || r == h

/-- The live handles reachable from `h` through `left` and `right` of live internal nodes (10_state.md R50). A simple
path visits at most `|nodes|` nodes, so that many levels reach them all. -/
def NodeMap.reach (m : NodeMap) : Nat → Word → List Word
  | 0, _ => []
  | fuel + 1, h =>
    match mapFind h m with
    | none => []
    | some (.leaf _ _) => [h]
    | some (.internal l r _) => h :: (m.reach fuel l ++ m.reach fuel r)

/-- The set `S` of `free_tree(h)` (10_state.md R50). -/
def NodeMap.subtree (m : NodeMap) (h : Word) : List Word := m.reach m.length h

/-- Remove every handle of a set from the node store. -/
def NodeMap.without (m : NodeMap) (hs : List Word) : NodeMap := m.filter fun e => decide (e.1 ∉ hs)

/-- The state change of `free_tree(h)` (10_state.md R50): ROOT and CURSOR become NULL when they are freed. -/
def freeTree (h : Word) (s : State) : State :=
  let dead := NodeMap.subtree s.nodes h
  { s with
    nodes := NodeMap.without s.nodes dead
    root := if s.root ∈ dead then nullHandle else s.root
    cursor := if s.cursor ∈ dead then nullHandle else s.cursor }

/-- `|S|`, what `free_tree(h)` returns (10_state.md R50). -/
def freeCount (h : Word) (s : State) : Nat := s.nodes.length - (freeTree h s).nodes.length

/-- The destructor loop of PQ.DESTROY: free the tree every item names, in the order of insertion
(41_priority_queue.md R167). -/
def freeItems : List QItem → State → State
  | [], s => s
  | t :: rest, s => freeItems rest (freeTree t.handle s)

/-- `pq_destroy(F)` (41_priority_queue.md R167). -/
def pqDestroy (destructor : Bool) (s : State) : State :=
  let s' := if destructor then freeItems s.pq.entries s else s
  { s' with pq := PQueue.fresh s'.cfg }

/-- The tree at a handle, `none` when it is not well-formed (10_state.md R51). -/
def NodeMap.treeAt (m : NodeMap) : Nat → Word → Option Tree
  | 0, _ => none
  | fuel + 1, h =>
    match mapFind h m with
    | none => none
    | some (.leaf sym _) => some (.leaf sym)
    | some (.internal l r _) =>
      match m.treeAt fuel l, m.treeAt fuel r with
      | some a, some b => some (.node a b)
      | _, _ => none

/-- The tree at ROOT: `cr[ROOT] ≠ NULL and wf_tree(cr[ROOT])`, with the tree (10_state.md R51). -/
def State.rootTree (s : State) : Option Tree :=
  if s.root = nullHandle then none else NodeMap.treeAt s.nodes s.nodes.length s.root

/-! ## The trie -/

/-- The path nodes of a key below the root: its non-empty prefixes, shortest first (10_state.md R52). -/
def keyPath (key : Bytes) : List Bytes := (List.range key.length).map fun j => key.take (j + 1)

/-- The path nodes of a key that do not exist yet (42_prefix_trie.md R180). -/
def Trie.missing (t : Trie) (key : Bytes) : List Bytes := (keyPath key).filter fun p => decide (p ∉ t.paths)

/-- The number of trie nodes besides the root, TRIE_NODES (10_state.md R40). -/
def Trie.size (t : Trie) : Nat := t.paths.length - 1

/-- The state change of PT.INSERT (42_prefix_trie.md R180). -/
def Trie.insert (t : Trie) (key : Bytes) (v : Word) : Trie where
  paths := (t.missing key).foldl (fun ps p => setInsert lexLt p ps) t.paths
  payload := mapInsert lexLt key v t.payload

/-- Store a payload at a key, if its new nodes fit TRIE_MAX (42_prefix_trie.md R180, 45_code_table.md R241). -/
def trieInsert (key : Bytes) (v : Word) (s : State) : Ruling Unit :=
  need (s.trie.size + (s.trie.missing key).length ≤ s.cfg.trieMax) (allocFail 4 s.trie.size) s
    (.ok () { s with trie := s.trie.insert key v })

/-- The better of two matches: the shorter key in greedy mode, the longer in longest-match mode (42_prefix_trie.md
R186). -/
def betterMatch (greedy : Bool) (x y : Bytes × Word) : Bytes × Word :=
  if greedy then (if y.1.length < x.1.length then y else x)
  else (if x.1.length < y.1.length then y else x)

/-- `trie_search(s, mode)`: the stored key that is the shortest (greedy) or the longest prefix of `s`, with its payload
(42_prefix_trie.md R186). -/
def Trie.search (t : Trie) (greedy : Bool) (s : Bytes) : Option (Bytes × Word) :=
  match t.payload.filter fun e => startsWith e.1 s with
  | [] => none
  | e :: rest => some (rest.foldl (betterMatch greedy) e)

/-! ## Fault entry, cleanup, return -/

/-- Fault entry (60_exceptions.md R312, R316; 48_system.md R280 `fault`): RES as before the command, the fault registers
written unless a fault is already recorded, the response with the fault's code. `before` is the state before the command,
`after` what the command's class makes of the state (R313). -/
def takeFault (w0 : Word) (r : Raise) (before after : State) : State :=
  let s := { after with res := before.res, resp := some ⟨r.cause.code, before.res⟩ }
  if before.status.fault then s
  else { s.setFault true with
    err := r.cause.code.setWidth 32
    errInfo0 := r.info0
    errInfo1 := r.info1
    errOp := w0 }

/-- Return from a fault, the state change of SYS.CLRERR (60_exceptions.md R315, 48_system.md R282). -/
def clearFault (s : State) : State :=
  { s.setFault false with err := 0, errInfo0 := 0, errInfo1 := 0, errOp := 0 }

/-- Remove the nodes that a command allocated: those whose handles `next_handle` passed while it ran (10_state.md R48,
44_tree_serialization.md R226, log 11). -/
def dropAllocated (from_ : Nat) (s : State) : State :=
  { s with nodes := s.nodes.filter fun e => decide (e.1.toNat < from_ ∨ s.nextHandle ≤ e.1.toNat) }

/-- `abort_cleanup` of the state at the raise (60_exceptions.md R314). -/
def abortCleanup (before raised : State) : State :=
  let s := pqDestroy true (dropAllocated before.nextHandle raised)
  let s := freeTree s.root s
  { s with
    root := nullHandle
    cursor := nullHandle
    dpos := 0
    dbit := 0
    emitted := 0
    symCount := 0
    code := []
    symtab := []
    trie := Trie.fresh
    bb := (s.bb.set 0 (BitBuffer.fresh s.cfg)).set 1 (BitBuffer.fresh s.cfg)
    outLen := 0
    outMem := s.outMem.forget }

/-- The two classes of command (60_exceptions.md R313). -/
inductive CommandClass where
  | precise
  | cleanup
  deriving DecidableEq, Repr

/-- The class of each command (60_exceptions.md R313). -/
def commandClass : Instr → CommandClass
  | .sysNop | .sysReset | .sysClrerr | .sysRdcr _ | .sysWrcr _ _ => .precise
  | .bbCreate _ _ | .bbGet _ _ | .bbSet _ _ _ | .bbAppend _ _ | .bbCopy _ _ => .precise
  | .bbConcat _ _ | .bbReset _ | .bbSize _ | .bbFlush _ _ => .precise
  | .pqInsert _ _ | .pqExtract | .pqPeek | .pqSize | .pqIsempty | .pqDestroy _ => .precise
  | .ptInsert _ _ _ | .ptSearch _ _ _ | .ptRemove _ _ | .ptKeys _ | .ptClear => .precise
  | .ftSet _ _ _ | .ftClear => .precise
  | .htLeaf _ _ | .htMerge | .htFree _ | .htNode _ | .htSer _ => .precise
  | .ctGet _ _ | .ctStload _ _ | .ctStstore _ => .precise
  | .htBuild | .htDeser _ _ | .ctGen => .cleanup
  | .cdEpass _ _ | .cdDpass _ _ _ | .cdEncode | .cdDecode => .cleanup

/-- The opcodes that pass the faulted-engine filter: SYS.RESET, SYS.CLRERR, SYS.RDCR (48_system.md R280 step 1). -/
def passesFilter (op : Byte) : Bool := op == 0x01#8 || op == 0x02#8 || op == 0x03#8

/-- A command the filter ignores: response code 0xFF, no other change (48_system.md R280 step 1, 30_encoding.md R107). -/
def State.ignored (s : State) : State := { s with resp := some ⟨0xFF#8, s.res⟩ }

/-- Completion: the result registers take the rule's results, the response code is 0 (48_system.md R280 step 4,
10_state.md R22). -/
def State.completed (res : Results) (s : State) : State := { s with res := res, resp := some ⟨0, res⟩ }

/-- What a raised fault leaves of the state, by the command's class (60_exceptions.md R313). -/
def afterRaise (c : CommandClass) (before raised : State) : State :=
  match c with
  | .precise => before
  | .cleanup => abortCleanup before raised

/-- The execution of one decoded command by its rule: the filter, the rule, then completion or fault entry
(48_system.md R280 steps 1, 3 and 4). -/
def runRule (i : Instr) (rule : State → Ruling Results) (s : State) : Host.Outcome State Fault Refusal :=
  if s.status.fault && !passesFilter i.fields.opcode then .next s.ignored
  else match rule s with
    | .ok res s' => .next (s'.completed res)
    | .raise r s' => .next (takeFault i.w0 r s (afterRaise (commandClass i) s s'))

end Sys2Proof.Machine
end

