-- ==== Sys2Proof/Machine/Operands.lean ====
section
/-! DEFINITION. The operand forms: bit-buffer registers (spec/40_bitbuffer.md R140), keys (spec/42_prefix_trie.md R185),
IN sections (spec/20_memory.md R88), and control registers (spec/10_state.md R25, R26). -/

namespace Sys2Proof.Machine

/-- An operand that names a bit-buffer register is valid when its value is below NB (40_bitbuffer.md R140). -/
@[inline] def needBuffer {α : Type} (b : Word) (s : State) (k : Ruling α) : Ruling α :=
  need (b.toNat < s.cfg.nb) (illegal 2 b) s k

/-- The range check of a key operand: `A + B ≤ cr[IN_LEN]` over Nat (20_memory.md R88, 42_prefix_trie.md R185). -/
@[inline] def needKeyRange {α : Type} (a b : Word) (s : State) (k : Ruling α) : Ruling α :=
  need (a.toNat + b.toNat ≤ s.inLen.toNat) (illegal 4 a) s k

/-- The range check of a section operand: `A ≤ B ≤ cr[IN_LEN]` (20_memory.md R88); the addresses are Nat because
composite commands pass computed ones. -/
@[inline] def needSection {α : Type} (a b : Nat) (s : State) (k : Ruling α) : Ruling α :=
  need (a ≤ b ∧ b ≤ s.inLen.toNat) (illegal 4 (word a)) s k

/-- The control registers (the map of 10_state.md R26). -/
inductive CtrlReg where
  | id
  | status
  | err
  | errInfo0
  | errInfo1
  | errOp
  | mode
  | inLen
  | outLen
  | pqOrder
  | pqSize
  | pqCap
  | root
  | cursor
  | dpos
  | dbit
  | emitted
  | symCount
  | nsym
  | ftCount
  | nodeLive
  | nodeNext
  | trieNodes
  | codeCount
  | bbSize (b : Nat)
  | bbCap (b : Nat)
  deriving DecidableEq, Repr

/-- The numbered registers below 0x20, in the order of their numbers (10_state.md R26). -/
def ctrlRegsLow : List CtrlReg :=
  [.id, .status, .err, .errInfo0, .errInfo1, .errOp, .mode, .inLen] ++
  [.outLen, .pqOrder, .pqSize, .pqCap, .root, .cursor, .dpos, .dbit] ++
  [.emitted, .symCount, .nsym, .ftCount, .nodeLive, .nodeNext, .trieNodes, .codeCount]

/-- The register a number names, `none` when it is reserved: 0x00 to 0x17, 0x20 + b and 0x40 + b with b < NB
(10_state.md R26, R41; 48_system.md R284). -/
def ctrlReg (c : Config) (n : Nat) : Option CtrlReg :=
  if n < 0x18 then ctrlRegsLow[n]?
  else if 0x20 ≤ n ∧ n < 0x20 + c.nb then some (.bbSize (n - 0x20))
  else if 0x40 ≤ n ∧ n < 0x40 + c.nb then some (.bbCap (n - 0x40))
  else none

/-- The ID constant (10_state.md R27). -/
def idWord : Word := 0x48554607#32

/-- The value a control register reads as; a read has no side effect (10_state.md R24 to R41). -/
def State.readCtrl (s : State) : CtrlReg → Word
  | .id => idWord
  | .status => s.status.word
  | .err => s.err
  | .errInfo0 => s.errInfo0
  | .errInfo1 => s.errInfo1
  | .errOp => s.errOp
  | .mode => s.mode.toWord
  | .inLen => s.inLen
  | .outLen => s.outLen
  | .pqOrder => s.pqOrder.toWord
  | .pqSize => word s.pq.entries.length
  | .pqCap => word s.pq.cap
  | .root => s.root
  | .cursor => s.cursor
  | .dpos => s.dpos
  | .dbit => s.dbit
  | .emitted => s.emitted
  | .symCount => s.symCount
  | .nsym => word s.symtab.length
  | .ftCount => word s.ft.length
  | .nodeLive => word s.nodes.length
  | .nodeNext => word s.nextHandle
  | .trieNodes => word s.trie.size
  | .codeCount => word s.code.length
  | .bbSize b => word (s.buf b).bits.length
  | .bbCap b => word (s.buf b).cap

end Sys2Proof.Machine
end

