-- ==== Sys2Proof/Machine/BitBuffer.lean ====
section
/-! DEFINITION. The BB family, the bit-addressable buffer and packer (spec/40_bitbuffer.md R140 to R149). -/

namespace Sys2Proof.Machine

/-- The rule of BB.CREATE (R141). -/
def ruleBbCreate (b n : Word) (s : State) : Ruling Results :=
  needBuffer b s <|
  need (n.toNat ≤ s.cfg.bbMaxBits) (allocFail 1 n.toNat) s <|
  .ok Results.zero (s.setBuf b.toNat ⟨[], max s.cfg.bbMinCap (bytesFor n.toNat)⟩)

/-- The rule of BB.GET (R142). -/
def ruleBbGet (b i : Word) (s : State) : Ruling Results :=
  needBuffer b s <|
  need (i.toNat < (s.buf b.toNat).bits.length) ⟨.indexOutOfRange, i, word (s.buf b.toNat).bits.length⟩ s <|
  .ok ⟨bitWord ((s.buf b.toNat).bits.getD i.toNat false), 0, 0, 0⟩ s

/-- The rule of BB.SET (R143): the bit value is checked before the index. -/
def ruleBbSet (b i v : Word) (s : State) : Ruling Results :=
  needBuffer b s <|
  need (v.toNat ≤ 1) (illegal 3 v) s <|
  need (i.toNat < (s.buf b.toNat).bits.length) ⟨.indexOutOfRange, i, word (s.buf b.toNat).bits.length⟩ s <|
  .ok Results.zero (s.setBuf b.toNat
    { s.buf b.toNat with bits := (s.buf b.toNat).bits.set i.toNat (decide (v = 1)) })

/-- The rule of BB.APPEND (R144). -/
def ruleBbAppend (b v : Word) (s : State) : Ruling Results :=
  needBuffer b s <|
  need (v.toNat ≤ 1) (illegal 3 v) s <|
  need ((s.buf b.toNat).bits.length < s.cfg.bbMaxBits) (allocFail 1 (s.buf b.toNat).bits.length) s <|
  .ok ⟨word ((s.buf b.toNat).bits.length + 1), 0, 0, 0⟩
    (s.setBuf b.toNat ((s.buf b.toNat).append s.cfg [decide (v = 1)]))

/-- The rule of BB.COPY (R145): registers hold values, so the copy is deep. -/
def ruleBbCopy (d src : Word) (s : State) : Ruling Results :=
  needBuffer d s <|
  needBuffer src s <|
  .ok ⟨word (s.buf src.toNat).bits.length, 0, 0, 0⟩ (s.setBuf d.toNat (s.buf src.toNat))

/-- The rule of BB.CONCAT (R146). -/
def ruleBbConcat (d src : Word) (s : State) : Ruling Results :=
  needBuffer d s <|
  needBuffer src s <|
  need (d ≠ src) (illegal 8 1) s <|
  need ((s.buf d.toNat).bits.length + (s.buf src.toNat).bits.length ≤ s.cfg.bbMaxBits)
    (allocFail 1 (s.buf d.toNat).bits.length) s <|
  .ok ⟨word ((s.buf d.toNat).bits.length + (s.buf src.toNat).bits.length), 0, 0, 0⟩
    (s.setBuf d.toNat ((s.buf d.toNat).append s.cfg (s.buf src.toNat).bits))

/-- The rule of BB.RESET (R147): the capacity is kept. -/
def ruleBbReset (b : Word) (s : State) : Ruling Results :=
  needBuffer b s <|
  .ok Results.zero (s.setBuf b.toNat { s.buf b.toNat with bits := [] })

/-- The rule of BB.SIZE (R148). -/
def ruleBbSize (b : Word) (s : State) : Ruling Results :=
  needBuffer b s <|
  .ok ⟨word (s.buf b.toNat).bits.length, 0, 0, 0⟩ s

/-- The rule of BB.FLUSH (R149). -/
def ruleBbFlush (b addr : Word) (s : State) : Ruling Results :=
  needBuffer b s <|
  (memWrite addr.toNat (pack (s.buf b.toNat).bits) s).bind fun _ s' =>
  .ok ⟨word (bytesFor (s.buf b.toNat).bits.length), 0, 0, 0⟩ s'

/-- BB.CREATE (40_bitbuffer.md R141). -/
def execBbCreate (b n : Word) (s : State) : Host.Outcome State Fault Refusal :=
  runRule (.bbCreate b n) (ruleBbCreate b n) s

/-- BB.GET (40_bitbuffer.md R142). -/
def execBbGet (b i : Word) (s : State) : Host.Outcome State Fault Refusal :=
  runRule (.bbGet b i) (ruleBbGet b i) s

/-- BB.SET (40_bitbuffer.md R143). -/
def execBbSet (b i v : Word) (s : State) : Host.Outcome State Fault Refusal :=
  runRule (.bbSet b i v) (ruleBbSet b i v) s

/-- BB.APPEND (40_bitbuffer.md R144). -/
def execBbAppend (b v : Word) (s : State) : Host.Outcome State Fault Refusal :=
  runRule (.bbAppend b v) (ruleBbAppend b v) s

/-- BB.COPY (40_bitbuffer.md R145). -/
def execBbCopy (d src : Word) (s : State) : Host.Outcome State Fault Refusal :=
  runRule (.bbCopy d src) (ruleBbCopy d src) s

/-- BB.CONCAT (40_bitbuffer.md R146). -/
def execBbConcat (d src : Word) (s : State) : Host.Outcome State Fault Refusal :=
  runRule (.bbConcat d src) (ruleBbConcat d src) s

/-- BB.RESET (40_bitbuffer.md R147). -/
def execBbReset (b : Word) (s : State) : Host.Outcome State Fault Refusal := runRule (.bbReset b) (ruleBbReset b) s

/-- BB.SIZE (40_bitbuffer.md R148). -/
def execBbSize (b : Word) (s : State) : Host.Outcome State Fault Refusal := runRule (.bbSize b) (ruleBbSize b) s

/-- BB.FLUSH (40_bitbuffer.md R149). -/
def execBbFlush (b addr : Word) (s : State) : Host.Outcome State Fault Refusal :=
  runRule (.bbFlush b addr) (ruleBbFlush b addr) s

end Sys2Proof.Machine
end

