-- ==== Sys2Proof/Machine/CodeTable.lean ====
section
/-! DEFINITION. The code table: CT.GEN and CT.GET (spec/45_code_table.md R240 to R242). -/

namespace Sys2Proof.Machine

/-- `walk(h, path)`: the leaves' symbols with their paths, depth-first, left before right; a left edge is 0, a right edge
1 (R240, R241). -/
def Tree.walk : Tree → Bits → List (Word × Bits)
  | .leaf sym, path => [(sym, path)]
  | .node l r, path => l.walk (path ++ [false]) ++ r.walk (path ++ [true])

/-- The leaves in the order of the walk with their codes; the single-leaf tree has the 1-bit code `0` (R241). -/
def Tree.codes : Tree → List (Word × Bits)
  | .leaf sym => [(sym, [false])]
  | .node l r => (Tree.node l r).walk []

/-- `D`, the longest path pushed into SCR (R241). -/
def Tree.pushed (t : Tree) : Nat := (t.codes.map fun e => e.2.length).foldl max 0

/-- "first visit wins": a code is entered unless the symbol has one (R241). -/
def codeInsert (m : List (Word × Bits)) (e : Word × Bits) : List (Word × Bits) :=
  if (mapFind e.1 m).isSome then m else mapInsert wordLt e.1 e.2 m

/-- The code table of a tree (R241). -/
def Tree.codeTable (t : Tree) : List (Word × Bits) := t.codes.foldl codeInsert []

/-- Load the words of the symbol table into the trie, word `k` with payload `k` (R241). -/
def loadTrie : List Bytes → Nat → State → Ruling Unit
  | [], _, s => .ok () s
  | key :: rest, k, s => (trieInsert key (word k) s).bind fun _ s => loadTrie rest (k + 1) s

/-- The rule of CT.GEN (R241). -/
def ruleCtGen (s : State) : Ruling Results :=
  match s.rootTree with
  | none => .raise (illegal 8 5) s
  | some t =>
    let s := { s with code := t.codeTable }.setBuf 1 ⟨[], grow s.cfg (s.buf 1).cap (bytesFor t.pushed)⟩
    (if s.mode = .word then loadTrie s.symtab 0 { s with trie := Trie.fresh } else .ok () s).bind fun _ s =>
    .ok ⟨word s.code.length, 0, 0, 0⟩ s

/-- The rule of CT.GET (R242), to the letter: no check of the code's length. That every buffer stays within 10_state.md R43
all the same is a constraint on the configuration (`Config.codesFit`, log 14). -/
def ruleCtGet (sym b : Word) (s : State) : Ruling Results :=
  needBuffer b s <|
  match mapFind sym s.code with
  | none => .raise ⟨.unknownSymbol, sym, 0⟩ s
  | some c => .ok ⟨word c.length, 0, 0, 0⟩ (s.setBuf b.toNat ⟨c, max s.cfg.bbMinCap (bytesFor c.length)⟩)

/-- CT.GEN (45_code_table.md R241). -/
def execCtGen (s : State) : Host.Outcome State Fault Refusal := runRule .ctGen ruleCtGen s

/-- CT.GET (45_code_table.md R242). -/
def execCtGet (sym b : Word) (s : State) : Host.Outcome State Fault Refusal := runRule (.ctGet sym b) (ruleCtGet sym b) s

end Sys2Proof.Machine
end

