-- ==== Sys2Proof/Machine/TreeFormat.lean ====
section
/-! DEFINITION. The serialized tree and the symbol table: HT.SER, HT.DESER, CT.STLOAD, CT.STSTORE (spec/30_encoding.md
R112 to R114; spec/44_tree_serialization.md R220 to R226). -/

namespace Sys2Proof.Machine

/-- The width of a leaf's symbol payload: 8 bits in CHAR mode, 32 in WORD mode (30_encoding.md R114). -/
def symWidth : Mode → Nat
  | .char => 8
  | .word => 32

/-- `symbits(s)` (30_encoding.md R114). -/
def symBits (m : Mode) (sym : Word) : Bits := bitsLSB (symWidth m) sym.toNat

/-- `ser(h)` of the tree at a handle: 1 and the symbol for a leaf, 0, left, right for an internal node (30_encoding.md
R113). -/
def Tree.ser (m : Mode) : Tree → Bits
  | .leaf sym => true :: symBits m sym
  | .node l r => false :: (l.ser m ++ r.ser m)

/-- The symbols of the leaves, left to right. -/
def Tree.syms : Tree → List Word
  | .leaf sym => [sym]
  | .node l r => l.syms ++ r.syms

/-- The rule of HT.SER at a Nat address, which CD.ENCODE computes (R220). -/
def serTree (addr : Nat) (s : State) : Ruling Results :=
  match s.rootTree with
  | none => .raise (illegal 8 5) s
  | some t =>
    need (s.mode = .char → t.syms.all (fun x => decide (x.toNat ≤ 255)) = true) (illegal 8 6) s <|
    need ((t.ser s.mode).length ≤ s.cfg.bbMaxBits) (allocFail 1 (t.ser s.mode).length) s <|
    (memWrite addr (pack (t.ser s.mode)) s).bind fun _ s =>
    .ok ⟨word (bytesFor (t.ser s.mode).length), word (t.ser s.mode).length, 0, 0⟩
      (s.setBuf 1 ⟨t.ser s.mode, grow s.cfg (s.buf 1).cap (bytesFor (t.ser s.mode).length)⟩)

/-- The rule of HT.SER (R220). -/
def ruleHtSer (addr : Word) (s : State) : Ruling Results := serTree addr.toNat s

/-- `parse(i, d)` (R222) over the bits `bits` that start at index `i` of the section `IN[a .. b)`; it answers the node's
handle, the index after its last bit and the bits that follow. Every call reads a bit or raises, so one level of fuel per
bit and one more never runs out. -/
def parseTree (a b : Nat) : Nat → Bits → Nat → Nat → State → Ruling (Word × Nat × Bits)
  | 0, _, _, _, s => .raise ⟨.corruptContainer, word b, 3⟩ s
  | fuel + 1, bits, i, d, s =>
    need (s.nodes.length + d < s.cfg.nodeMax) (allocFail 3 s.nodes.length) s <|
    match bits with
    | [] => .raise ⟨.corruptContainer, word b, 3⟩ s
    | true :: rest =>
      let payload := rest.take (symWidth s.mode)
      need (payload.length = symWidth s.mode) ⟨.corruptContainer, word b, 3⟩ s <|
      need (s.mode = .word → natOfBits payload < s.symtab.length) ⟨.corruptContainer, word (a + i / 8), 4⟩ s <|
      (alloc (.leaf (word (natOfBits payload)) 0) s).bind fun h s =>
      .ok (h, i + 1 + symWidth s.mode, rest.drop (symWidth s.mode)) s
    | false :: rest =>
      (parseTree a b fuel rest (i + 1) (d + 1) s).bind fun l s =>
      (parseTree a b fuel l.2.2 l.2.1 (d + 1) s).bind fun r s =>
      (alloc (.internal l.1 r.1 0) s).bind fun h s =>
      .ok (h, r.2.1, r.2.2) s

/-- RES1 of HT.DESER, the number of bits the tree occupied (R221). DESIGN CHOICE (log 15): from 2^32 on the spec states no
value for the 32-bit register, so it is a free value of that number, and the command completes. -/
def treeBitsWord (n : Nat) : Word := if n < 2 ^ 32 then word n else Config.freeTreeBits n

/-- The rule of HT.DESER at Nat addresses, which CD.DECODE computes (R221). -/
def deserTree (a b : Nat) (s : State) : Ruling Results :=
  needSection a b s <|
  let s := { freeTree s.root s with root := nullHandle, code := [] }
  (memRead a (b - a) s).bind fun data s =>
  (parseTree a b ((unpack data).length + 1) (unpack data) 0 0 s).bind fun x s =>
  .ok ⟨x.1, treeBitsWord x.2.1, 0, 0⟩ { s with root := x.1 }

/-- The rule of HT.DESER (R221). -/
def ruleHtDeser (start stop : Word) (s : State) : Ruling Results := deserTree start.toNat stop.toNat s

/-- `parse_symtab(start, end)` from position `p` on (R225). Every entry takes at least 5 bytes, so one round of fuel per
byte never runs out. -/
def parseSymtab (stop : Nat) : Nat → Nat → State → Ruling (List Bytes)
  | 0, _, s => .ok [] s
  | fuel + 1, p, s =>
    if stop ≤ p then .ok [] s
    else
      need (p + 4 ≤ stop) ⟨.corruptContainer, word p, 2⟩ s <|
      (memRead p 4 s).bind fun lenBytes s =>
      let n := (le32 lenBytes).toNat
      need (1 ≤ n ∧ p + 4 + n ≤ stop) ⟨.corruptContainer, word p, 2⟩ s <|
      (memRead (p + 4) n s).bind fun entry s =>
      (parseSymtab stop fuel (p + 4 + n) s).bind fun rest s =>
      .ok (entry :: rest) s

/-- The rule of CT.STLOAD (R223). -/
def ruleCtStload (start stop : Word) (s : State) : Ruling Results :=
  needSection start.toNat stop.toNat s <|
  (parseSymtab stop.toNat (stop.toNat - start.toNat) start.toNat s).bind fun list s =>
  .ok ⟨word list.length, 0, 0, 0⟩ { s with symtab := list }

/-- The rule of CT.STSTORE (R224). -/
def ruleCtStstore (addr : Word) (s : State) : Ruling Results :=
  (memWrite addr.toNat (symtabBytes s.symtab) s).bind fun _ s' =>
  .ok ⟨word (symtabBytes s.symtab).length, word s.symtab.length, 0, 0⟩ s'

/-- HT.SER (44_tree_serialization.md R220). -/
def execHtSer (addr : Word) (s : State) : Host.Outcome State Fault Refusal := runRule (.htSer addr) (ruleHtSer addr) s

/-- HT.DESER (44_tree_serialization.md R221). -/
def execHtDeser (start stop : Word) (s : State) : Host.Outcome State Fault Refusal :=
  runRule (.htDeser start stop) (ruleHtDeser start stop) s

/-- CT.STLOAD (44_tree_serialization.md R223). -/
def execCtStload (start stop : Word) (s : State) : Host.Outcome State Fault Refusal :=
  runRule (.ctStload start stop) (ruleCtStload start stop) s

/-- CT.STSTORE (44_tree_serialization.md R224). -/
def execCtStstore (addr : Word) (s : State) : Host.Outcome State Fault Refusal :=
  runRule (.ctStstore addr) (ruleCtStstore addr) s

end Sys2Proof.Machine
end

