-- ==== Sys2Proof/Machine/CodecDecode.lean ====
section
/-! DEFINITION. The decode side of the CD family: the automaton, CD.DPASS and CD.DECODE (spec/47_codec_decode.md R265 to
R267). -/

namespace Sys2Proof.Machine

/-- CorruptStream at the bit being processed, `(P, Q)` = (DPOS, DBIT) (R265, R267). -/
def corruptStream (s : State) : Raise := ⟨.corruptStream, s.dpos, s.dbit⟩

/-- The bytes a symbol id stands for, `none` when the id is not valid for the mode (R267 `emit`). -/
def State.symbolBytes (s : State) (sym : Word) : Option Bytes :=
  match s.mode with
  | .char => if sym.toNat ≤ 255 then some [sym.setWidth 8] else none
  | .word => s.symtab[sym.toNat]?

/-- `emit(s)`: append the symbol's bytes at OUT_LEN (R267). -/
def emit (sym : Word) (s : State) : Ruling Unit :=
  match s.symbolBytes sym with
  | none => .raise (corruptStream s) s
  | some v => (memWrite s.outLen.toNat v s).bind fun _ s => .ok () { s with emitted := s.emitted + 1 }

/-- `step(bit)` of the automaton (R267). A child that is not live is the source's null cursor; a ROOT or CURSOR that is
not live cannot occur (10_state.md R37) and is treated the same way (log 9). -/
def automatonStep (bit : Bool) (s : State) : Ruling Unit :=
  match mapFind s.root s.nodes with
  | some (.leaf sym _) => need (bit = false) (corruptStream s) s (emit sym s)
  | _ =>
    match mapFind s.cursor s.nodes with
    | some (.internal l r _) =>
      match mapFind (if bit then r else l) s.nodes with
      | none => .raise (corruptStream s) s
      | some (.leaf sym _) => (emit sym s).bind fun _ s => .ok () { s with cursor := s.root }
      | some (.internal _ _ _) => .ok () { s with cursor := if bit then r else l }
    | _ => .raise (corruptStream s) s

/-- The position after the bit at (DPOS, DBIT) (R265). -/
def State.nextBit (s : State) : State :=
  if s.dbit = 7 then { s with dpos := s.dpos + 1, dbit := 0 } else { s with dbit := s.dbit + 1 }

/-- The loop of CD.DPASS over the bits from (DPOS, DBIT) to the end of the payload (R265). With no bit left DPOS is the
end of the range. -/
def decodeLoop (count : Word) : Bits → State → Ruling Unit
  | [], s => if s.emitted.toNat < count.toNat then .raise (corruptStream s) s else .ok () s
  | bit :: rest, s =>
    if s.emitted.toNat < count.toNat then
      (automatonStep bit s).bind fun _ s => decodeLoop count rest s.nextBit
    else .ok () s

/-- The rule of CD.DPASS at Nat addresses (R265). -/
def decodePass (a b : Nat) (count : Word) (s : State) : Ruling Results :=
  needSection a b s <|
  need (s.root ≠ nullHandle) (illegal 8 5) s <|
  (memRead a (b - a) s).bind fun data s =>
  let w := s.outLen
  (decodeLoop count (unpack data) { s with cursor := s.root, dpos := word a, dbit := 0, emitted := 0 }).bind fun _ s =>
  .ok ⟨s.outLen - w, s.emitted, 0, 0⟩ s

/-- The rule of CD.DPASS (R265). -/
def ruleCdDpass (start stop count : Word) (s : State) : Ruling Results :=
  decodePass start.toNat stop.toNat count s

/-- A `u32` field of the header bytes (30_encoding.md R110). -/
def headerField (hdr : Bytes) (off : Nat) : Word := le32 ((hdr.drop off).take 4)

/-- CD.DECODE after the header is accepted with a nonzero count (R266). -/
def decodeSections (symtabOffset treeOffset payloadOffset : Nat) (count : Word) (s : State) : Ruling Results :=
  (if s.mode = .word then
    (parseSymtab treeOffset (treeOffset - symtabOffset) symtabOffset s).bind fun list s =>
    .ok () { s with symtab := list }
  else .ok () s).bind fun _ s =>
  (deserTree treeOffset payloadOffset s).bind fun _ s =>
  (decodePass payloadOffset s.inLen.toNat count s).bind fun _ s =>
  .ok ⟨s.outLen, s.emitted, 0, 0⟩ s

/-- The rule of CD.DECODE (R266). -/
def ruleCdDecode (s : State) : Ruling Results :=
  let s := { freeTree s.root s with root := nullHandle, code := [], symtab := [], outLen := 0, emitted := 0 }
  need (16 ≤ s.inLen.toNat) ⟨.corruptContainer, s.inLen, 0⟩ s <|
  (memRead 0 16 s).bind fun hdr s =>
  let treeOff := (headerField hdr 0).toNat
  let sto := (headerField hdr 4).toNat
  let po := (headerField hdr 8).toNat
  let cnt := headerField hdr 12
  need (16 ≤ sto) ⟨.corruptContainer, 4, 1⟩ s <|
  need (sto ≤ treeOff) ⟨.corruptContainer, 0, 1⟩ s <|
  need (treeOff ≤ po) ⟨.corruptContainer, 8, 1⟩ s <|
  need (po ≤ s.inLen.toNat) ⟨.corruptContainer, 8, 1⟩ s <|
  let s := { s with symCount := cnt }
  if cnt = 0 then
    .ok Results.zero { s.setEmpty true with cursor := nullHandle, dpos := word po, dbit := 0 }
  else decodeSections sto treeOff po cnt (s.setEmpty false)

/-- CD.DPASS (47_codec_decode.md R265). -/
def execCdDpass (start stop count : Word) (s : State) : Host.Outcome State Fault Refusal :=
  runRule (.cdDpass start stop count) (ruleCdDpass start stop count) s

/-- CD.DECODE (47_codec_decode.md R266). -/
def execCdDecode (s : State) : Host.Outcome State Fault Refusal := runRule .cdDecode ruleCdDecode s

end Sys2Proof.Machine
end

