-- ==== Sys2Proof/Machine/HuffmanTree.lean ====
section
/-! DEFINITION. The FT family and the tree builder and node commands of the HT family (spec/43_huffman_tree.md R200 to
R208). -/

namespace Sys2Proof.Machine

/-- The rule of FT.SET (R200): a count of 0 deletes the entry. -/
def ruleFtSet (addr len count : Word) (s : State) : Ruling Results :=
  needKeyRange addr len s <|
  need (1 ≤ len.toNat) (illegal 5 addr) s <|
  (memRead addr.toNat len.toNat s).bind fun key s =>
  if count = 0 then
    .ok ⟨word (mapErase key s.ft).length, 0, 0, 0⟩ { s with ft := mapErase key s.ft }
  else
    need ((mapFind key s.ft).isSome = true ∨ s.ft.length < s.cfg.ftMax) (allocFail 5 s.ft.length) s <|
    .ok ⟨word (mapInsert lexLt key count s.ft).length, 0, 0, 0⟩ { s with ft := mapInsert lexLt key count s.ft }

/-- The rule of FT.CLEAR (R202). -/
def ruleFtClear (s : State) : Ruling Results := .ok Results.zero { s with ft := [] }

/-- The rule of HT.LEAF (R205): frequency, node store, queue, in that order. -/
def ruleHtLeaf (sym freq : Word) (s : State) : Ruling Results :=
  need (1 ≤ freq.toNat) (illegal 9 sym) s <|
  need (s.canAlloc = true) (allocFail 3 s.nodes.length) s <|
  need (s.pq.entries.length < s.cfg.pqMaxCap) (allocFail 2 s.pq.entries.length) s <|
  (alloc (.leaf sym freq) s).bind fun h s =>
  (pqInsert freq h s).bind fun _ s =>
  .ok ⟨h, 0, 0, 0⟩ s

/-- The top two items of the queue, first the top (R203). -/
def topTwo (s : State) : Option (QItem × QItem) :=
  match s.top with
  | none => none
  | some t1 =>
    match queueTop s.pqOrder (s.pq.entries.erase t1) with
    | none => none
    | some t2 => some (t1, t2)

/-- `merge_step()`: the state change of HT.MERGE with its AllocationFailure checks (R203, R204): both items leave the
queue, the new internal node has the first as left and the second as right child, its frequency is the sum of the two
keys, and it is queued with that key. -/
def mergeStep (s : State) : Ruling (Word × Word) :=
  match topTwo s with
  | none => .raise ⟨.emptyQueue, word s.pq.entries.length, 0⟩ s
  | some (t1, t2) =>
    need (t1.key.toNat + t2.key.toNat < 2 ^ 32) (allocFail 6 t1.key.toNat) s <|
    need (s.canAlloc = true) (allocFail 3 s.nodes.length) s <|
    (pqExtract s).bind fun x1 s =>
    (pqExtract s).bind fun x2 s =>
    (alloc (.internal x1.handle x2.handle (x1.key + x2.key)) s).bind fun h s =>
    (pqInsert (x1.key + x2.key) h s).bind fun _ s =>
    .ok (h, x1.key + x2.key) s

/-- The two items may be joined: live, different and not owned (R203, 10_state.md R49). -/
def mergeable (m : NodeMap) (h1 h2 : Word) : Bool :=
  m.live h1 && m.live h2 && h1 != h2 && !m.owned h1 && !m.owned h2

/-- The rule of HT.MERGE (R203). -/
def ruleHtMerge (s : State) : Ruling Results :=
  need (s.pqOrder = .minFirst) (illegal 8 3) s <|
  match topTwo s with
  | none => .raise ⟨.emptyQueue, word s.pq.entries.length, 0⟩ s
  | some (t1, t2) =>
    need (mergeable s.nodes t1.handle t2.handle = true) (illegal 8 4) s <|
    (mergeStep s).bind fun x s =>
    .ok ⟨x.1, x.2, 0, 0⟩ s

/-- HT.BUILD step 1: release what the build replaces (R204). -/
def buildRelease (s : State) : State :=
  let s := pqDestroy true s
  let s := freeTree s.root s
  { s with root := nullHandle, code := [], symtab := [], pqOrder := .minFirst }

/-- The symbol ids of the keys, in the order of the keys: the byte in CHAR mode, the rank in WORD mode (R201, R204
step 2). -/
def symbolIds (m : Mode) (keys : List Bytes) : List Word :=
  match m with
  | .char => keys.map fun k => (k.headD 0).setWidth 32
  | .word => (List.range keys.length).map word

/-- HT.BUILD step 4: one leaf per symbol, ascending id (R204). -/
def buildLeaves : List (Word × Word) → State → Ruling Unit
  | [], s => .ok () s
  | (id, count) :: rest, s =>
    (alloc (.leaf id count) s).bind fun h s =>
    (pqInsert count h s).bind fun _ s =>
    buildLeaves rest s

/-- HT.BUILD step 5: merge until one item remains (R204); each merge takes one item out, so as many rounds as there are
items suffice. -/
def buildMerges : Nat → State → Ruling Unit
  | 0, s => .ok () s
  | fuel + 1, s =>
    if s.pq.entries.length ≤ 1 then .ok () s
    else (mergeStep s).bind fun _ s => buildMerges fuel s

/-- The rule of HT.BUILD (R204). -/
def ruleHtBuild (s : State) : Ruling Results :=
  let s := buildRelease s
  let keys := s.ft.map Prod.fst
  need (s.mode = .char → keys.all (fun k => decide (k.length = 1)) = true) (illegal 8 7) s <|
  let s := if s.mode = .word then { s with symtab := keys } else s
  if keys = [] then
    .ok ⟨nullHandle, 0, 0, 0⟩ (s.setEmpty true)
  else
    (buildLeaves ((symbolIds s.mode keys).zip (s.ft.map Prod.snd)) s).bind fun _ s =>
    (buildMerges s.pq.entries.length s).bind fun _ s =>
    (pqExtract s).bind fun t s =>
    .ok ⟨t.handle, word keys.length, 0, 0⟩ ({ s with root := t.handle }.setEmpty false)

/-- The rule of HT.NODE (R206): tag, symbol or left child, NULL or right child, frequency. -/
def ruleHtNode (h : Word) (s : State) : Ruling Results :=
  match mapFind h s.nodes with
  | none => .raise ⟨.notFound, h, 0⟩ s
  | some (.leaf sym freq) => .ok ⟨1, sym, nullHandle, freq⟩ s
  | some (.internal left right freq) => .ok ⟨0, left, right, freq⟩ s

/-- The rule of HT.FREE (R207). -/
def ruleHtFree (h : Word) (s : State) : Ruling Results :=
  need (NodeMap.live s.nodes h = true) ⟨.notFound, h, 0⟩ s <|
  .ok ⟨word (freeCount h s), 0, 0, 0⟩ (freeTree h s)

/-- FT.SET (43_huffman_tree.md R200). -/
def execFtSet (addr len count : Word) (s : State) : Host.Outcome State Fault Refusal :=
  runRule (.ftSet addr len count) (ruleFtSet addr len count) s

/-- FT.CLEAR (43_huffman_tree.md R202). -/
def execFtClear (s : State) : Host.Outcome State Fault Refusal := runRule .ftClear ruleFtClear s

/-- HT.LEAF (43_huffman_tree.md R205). -/
def execHtLeaf (sym freq : Word) (s : State) : Host.Outcome State Fault Refusal :=
  runRule (.htLeaf sym freq) (ruleHtLeaf sym freq) s

/-- HT.MERGE (43_huffman_tree.md R203). -/
def execHtMerge (s : State) : Host.Outcome State Fault Refusal := runRule .htMerge ruleHtMerge s

/-- HT.BUILD (43_huffman_tree.md R204). -/
def execHtBuild (s : State) : Host.Outcome State Fault Refusal := runRule .htBuild ruleHtBuild s

/-- HT.FREE (43_huffman_tree.md R207). -/
def execHtFree (h : Word) (s : State) : Host.Outcome State Fault Refusal := runRule (.htFree h) (ruleHtFree h) s

/-- HT.NODE (43_huffman_tree.md R206). -/
def execHtNode (h : Word) (s : State) : Host.Outcome State Fault Refusal := runRule (.htNode h) (ruleHtNode h) s

end Sys2Proof.Machine
end

