-- ==== Sys2Proof/Machine/CodecEncode.lean ====
section
/-! DEFINITION. The encode side of the CD family: CD.EPASS and CD.ENCODE (spec/46_codec_encode.md R250 to R252). -/

namespace Sys2Proof.Machine

/-- UnknownSymbol for the symbol at index `p`: the IN address of its first byte and that byte (R251). -/
def unknownAt (base p : Nat) (byte : Byte) : Raise := ⟨.unknownSymbol, word (base + p), byte.setWidth 32⟩

/-- `next_symbol(data, p)`: the symbol that starts `rest = data[p ..)` and the bytes it covers (R251). -/
def nextSymbol (base p : Nat) (first : Byte) (rest : Bytes) (s : State) : Ruling (Word × Nat) :=
  match s.mode with
  | .char => .ok (first.setWidth 32, 1) s
  | .word =>
    match s.trie.search false rest with
    | none => .raise (unknownAt base p first) s
    | some e => .ok (e.2, e.1.length) s

/-- `put_code(id, p)`: append the symbol's code to PAY (R251). -/
def putCode (base p : Nat) (first : Byte) (id : Word) (s : State) : Ruling Unit :=
  match mapFind id s.code with
  | none => .raise (unknownAt base p first) s
  | some c =>
    need ((s.buf 0).bits.length + c.length ≤ s.cfg.bbMaxBits) (allocFail 1 (s.buf 0).bits.length) s <|
    .ok () (s.setBuf 0 ((s.buf 0).append s.cfg c))

/-- The loop of CD.EPASS over `rest = data[p ..)` (R250). Every symbol covers at least one byte, because the trie holds no
payload at the empty key (42_prefix_trie.md R180), so one round of fuel per byte never runs out. -/
def encodeLoop (base : Nat) : Nat → Nat → Bytes → State → Ruling Unit
  | 0, _, _, s => .ok () s
  | _ + 1, _, [], s => .ok () s
  | fuel + 1, p, first :: rest, s =>
    (nextSymbol base p first (first :: rest) s).bind fun x s =>
    (putCode base p first x.1 s).bind fun _ s =>
    encodeLoop base fuel (p + x.2) ((first :: rest).drop x.2) { s with symCount := s.symCount + 1 }

/-- The rule of CD.EPASS at Nat addresses (R250). -/
def encodePass (a b : Nat) (s : State) : Ruling Results :=
  needSection a b s <|
  (memRead a (b - a) s).bind fun data s =>
  let s := { s.setBuf 0 { s.buf 0 with bits := [] } with symCount := 0 }
  (encodeLoop a data.length 0 data s).bind fun _ s =>
  .ok ⟨s.symCount, word (s.buf 0).bits.length, 0, 0⟩ s

/-- The rule of CD.EPASS (R250). -/
def ruleCdEpass (start stop : Word) (s : State) : Ruling Results := encodePass start.toNat stop.toNat s

/-- The header: `treeOffset`, `symbolTableOffset`, `payloadOffset`, `symbolCount`, each `u32le` (30_encoding.md R110). -/
def headerBytes (treeOffset symtabOffset payloadOffset : Nat) (count : Word) : Bytes :=
  u32le (word treeOffset) ++ u32le (word symtabOffset) ++ u32le (word payloadOffset) ++ u32le count

/-- CD.ENCODE with an empty alphabet (R252): the empty container for an empty input, UnknownSymbol otherwise. -/
def encodeEmpty (s : State) : Ruling Results :=
  if 0 < s.inLen.toNat then
    (memRead 0 1 s).bind fun b s => .raise (unknownAt 0 0 (b.headD 0)) s
  else
    (memWrite 0 (headerBytes 16 16 16 0) s).bind fun _ s =>
    .ok ⟨16, 0, 16, 16⟩ { s.setBuf 0 { s.buf 0 with bits := [] } with symCount := 0 }

/-- CD.ENCODE from step 3 on, the tree being built (R252). -/
def encodeSections (s : State) : Ruling Results :=
  (ruleCtGen s).bind fun _ s =>
  (memWrite 0 (List.replicate 16 0) s).bind fun _ s =>
  let v := if s.mode = .word then symtabBytes s.symtab else []
  (memWrite 16 v s).bind fun _ s =>
  let treeOffset := 16 + v.length
  (serTree treeOffset s).bind fun ser s =>
  let payloadOffset := treeOffset + ser.r0.toNat
  (encodePass 0 s.inLen.toNat s).bind fun _ s =>
  (memWrite payloadOffset (pack (s.buf 0).bits) s).bind fun _ s =>
  (memWrite 0 (headerBytes treeOffset 16 payloadOffset s.symCount) s).bind fun _ s =>
  .ok ⟨s.outLen, s.symCount, word treeOffset, word payloadOffset⟩ s

/-- The rule of CD.ENCODE (R252). -/
def ruleCdEncode (s : State) : Ruling Results :=
  (ruleHtBuild { s with outLen := 0 }).bind fun _ s =>
  if s.root = nullHandle then encodeEmpty s else encodeSections s

/-- CD.EPASS (46_codec_encode.md R250). -/
def execCdEpass (start stop : Word) (s : State) : Host.Outcome State Fault Refusal :=
  runRule (.cdEpass start stop) (ruleCdEpass start stop) s

/-- CD.ENCODE (46_codec_encode.md R252). -/
def execCdEncode (s : State) : Host.Outcome State Fault Refusal := runRule .cdEncode ruleCdEncode s

end Sys2Proof.Machine
end

