-- ==== Sys2Proof/Machine/PrefixTrie.lean ====
section
/-! DEFINITION. The PT family, the prefix trie (spec/42_prefix_trie.md R180 to R186). -/

namespace Sys2Proof.Machine

/-- The rule of PT.INSERT (R180): range, empty key, read, room for the new path nodes, in that order. -/
def rulePtInsert (addr len payload : Word) (s : State) : Ruling Results :=
  needKeyRange addr len s <|
  need (1 ≤ len.toNat) (illegal 5 addr) s <|
  (memRead addr.toNat len.toNat s).bind fun key s =>
  (trieInsert key payload s).bind fun _ s =>
  .ok Results.zero s

/-- The rule of PT.SEARCH (R181): payload, bytes consumed, found. -/
def rulePtSearch (addr len : Word) (greedy : Bool) (s : State) : Ruling Results :=
  needKeyRange addr len s <|
  (memRead addr.toNat len.toNat s).bind fun key s =>
  match s.trie.search greedy key with
  | none => .ok Results.zero (s.setFound false)
  | some e => .ok ⟨e.2, word e.1.length, 1, 0⟩ (s.setFound true)

/-- The rule of PT.REMOVE (R182): the payload goes, the nodes stay. -/
def rulePtRemove (addr len : Word) (s : State) : Ruling Results :=
  needKeyRange addr len s <|
  (memRead addr.toNat len.toNat s).bind fun key s =>
  need ((mapFind key s.trie.payload).isSome = true) ⟨.notFound, addr, len⟩ s <|
  .ok Results.zero { s with trie := { s.trie with payload := mapErase key s.trie.payload } }

/-- The rule of PT.KEYS (R183): the payload's keys are listed by rising `lex` already. -/
def rulePtKeys (addr : Word) (s : State) : Ruling Results :=
  let v := symtabBytes (s.trie.payload.map Prod.fst)
  (memWrite addr.toNat v s).bind fun _ s' =>
  .ok ⟨word s.trie.payload.length, word v.length, 0, 0⟩ s'

/-- The rule of PT.CLEAR (R184). -/
def rulePtClear (s : State) : Ruling Results := .ok Results.zero { s with trie := Trie.fresh }

/-- PT.INSERT (42_prefix_trie.md R180). -/
def execPtInsert (addr len payload : Word) (s : State) : Host.Outcome State Fault Refusal :=
  runRule (.ptInsert addr len payload) (rulePtInsert addr len payload) s

/-- PT.SEARCH (42_prefix_trie.md R181). -/
def execPtSearch (addr len : Word) (greedy : Bool) (s : State) : Host.Outcome State Fault Refusal :=
  runRule (.ptSearch addr len greedy) (rulePtSearch addr len greedy) s

/-- PT.REMOVE (42_prefix_trie.md R182). -/
def execPtRemove (addr len : Word) (s : State) : Host.Outcome State Fault Refusal :=
  runRule (.ptRemove addr len) (rulePtRemove addr len) s

/-- PT.KEYS (42_prefix_trie.md R183). -/
def execPtKeys (addr : Word) (s : State) : Host.Outcome State Fault Refusal :=
  runRule (.ptKeys addr) (rulePtKeys addr) s

/-- PT.CLEAR (42_prefix_trie.md R184). -/
def execPtClear (s : State) : Host.Outcome State Fault Refusal := runRule .ptClear rulePtClear s

end Sys2Proof.Machine
end

