-- ==== Sys2Proof/Machine/PriorityQueue.lean ====
section
/-! DEFINITION. The PQ family, the priority-queue merge engine (spec/41_priority_queue.md R160 to R167). -/

namespace Sys2Proof.Machine

/-- The rule of PQ.INSERT (R162): operand A is the handle, B the key. -/
def rulePqInsert (handle key : Word) (s : State) : Ruling Results :=
  (pqInsert key handle s).bind fun _ s' => .ok ⟨word s'.pq.entries.length, 0, 0, 0⟩ s'

/-- The rule of PQ.EXTRACT (R163). -/
def rulePqExtract (s : State) : Ruling Results :=
  (pqExtract s).bind fun t s' => .ok ⟨t.handle, t.key, word s'.pq.entries.length, 0⟩ s'

/-- The rule of PQ.PEEK (R164). -/
def rulePqPeek (s : State) : Ruling Results :=
  match s.top with
  | none => .raise ⟨.emptyQueue, 0, 0⟩ s
  | some t => .ok ⟨t.handle, t.key, word s.pq.entries.length, 0⟩ s

/-- The rule of PQ.SIZE (R165). -/
def rulePqSize (s : State) : Ruling Results := .ok ⟨word s.pq.entries.length, 0, 0, 0⟩ s

/-- The rule of PQ.ISEMPTY (R166). -/
def rulePqIsempty (s : State) : Ruling Results := .ok ⟨bitWord s.pq.entries.isEmpty, 0, 0, 0⟩ s

/-- The rule of PQ.DESTROY (R167): items removed, nodes freed. -/
def rulePqDestroy (destructor : Bool) (s : State) : Ruling Results :=
  .ok ⟨word s.pq.entries.length, word (s.nodes.length - (pqDestroy destructor s).nodes.length), 0, 0⟩
    (pqDestroy destructor s)

/-- PQ.INSERT (41_priority_queue.md R162). -/
def execPqInsert (handle key : Word) (s : State) : Host.Outcome State Fault Refusal :=
  runRule (.pqInsert handle key) (rulePqInsert handle key) s

/-- PQ.EXTRACT (41_priority_queue.md R163). -/
def execPqExtract (s : State) : Host.Outcome State Fault Refusal := runRule .pqExtract rulePqExtract s

/-- PQ.PEEK (41_priority_queue.md R164). -/
def execPqPeek (s : State) : Host.Outcome State Fault Refusal := runRule .pqPeek rulePqPeek s

/-- PQ.SIZE (41_priority_queue.md R165). -/
def execPqSize (s : State) : Host.Outcome State Fault Refusal := runRule .pqSize rulePqSize s

/-- PQ.ISEMPTY (41_priority_queue.md R166). -/
def execPqIsempty (s : State) : Host.Outcome State Fault Refusal := runRule .pqIsempty rulePqIsempty s

/-- PQ.DESTROY (41_priority_queue.md R167). -/
def execPqDestroy (destructor : Bool) (s : State) : Host.Outcome State Fault Refusal :=
  runRule (.pqDestroy destructor) (rulePqDestroy destructor) s

end Sys2Proof.Machine
end

