-- ==== Sys2Proof/Machine/Sys.lean ====
section
/-! DEFINITION. The SYS family (spec/48_system.md R281 to R285). -/

namespace Sys2Proof.Machine

/-- The rule of SYS.NOP (R281). -/
def ruleSysNop (s : State) : Ruling Results := .ok Results.zero s

/-- The rule of SYS.RESET (R283): every piece of state but IN and OUT takes its reset value; the parameters, the host's
waiting moves and the response port are not engine state. -/
def ruleSysReset (s : State) : Ruling Results :=
  .ok Results.zero { State.resetOf s.cfg s.inMem.era s.outMem.era with
    inMem := s.inMem, outMem := s.outMem, port := s.port, resp := s.resp }

/-- The rule of SYS.CLRERR (R282). -/
def ruleSysClrerr (s : State) : Ruling Results := .ok Results.zero (clearFault s)

/-- The rule of SYS.RDCR (R284). -/
def ruleSysRdcr (cr : Word) (s : State) : Ruling Results :=
  match ctrlReg s.cfg cr.toNat with
  | none => .raise (illegal 6 cr) s
  | some r => .ok ⟨s.readCtrl r, 0, 0, 0⟩ s

/-- The rule of SYS.WRCR (R285). -/
def ruleSysWrcr (cr value : Word) (s : State) : Ruling Results :=
  match ctrlReg s.cfg cr.toNat with
  | some .mode =>
    need (value.toNat ≤ 1) (illegal 7 value) s <|
    .ok Results.zero { s with mode := Mode.ofWord value }
  | some .inLen =>
    need (value.toNat ≤ s.cfg.inCap) (illegal 7 value) s <|
    .ok Results.zero { s with inLen := value }
  | some .outLen =>
    need (value.toNat ≤ s.cfg.outCap) (illegal 7 value) s <|
    .ok Results.zero { s with outLen := value }
  | some .pqOrder =>
    need (value.toNat ≤ 1) (illegal 7 value) s <|
    need (s.pq.entries = []) (illegal 8 2) s <|
    .ok Results.zero { s with pqOrder := PqOrder.ofWord value }
  | _ => .raise (illegal 6 cr) s

/-- SYS.NOP (48_system.md R281). -/
def execSysNop (s : State) : Host.Outcome State Fault Refusal := runRule .sysNop ruleSysNop s

/-- SYS.RESET (48_system.md R283). -/
def execSysReset (s : State) : Host.Outcome State Fault Refusal := runRule .sysReset ruleSysReset s

/-- SYS.CLRERR (48_system.md R282). -/
def execSysClrerr (s : State) : Host.Outcome State Fault Refusal := runRule .sysClrerr ruleSysClrerr s

/-- SYS.RDCR (48_system.md R284). -/
def execSysRdcr (cr : Word) (s : State) : Host.Outcome State Fault Refusal :=
  runRule (.sysRdcr cr) (ruleSysRdcr cr) s

/-- SYS.WRCR (48_system.md R285). -/
def execSysWrcr (cr value : Word) (s : State) : Host.Outcome State Fault Refusal :=
  runRule (.sysWrcr cr value) (ruleSysWrcr cr value) s

end Sys2Proof.Machine
end

