-- ==== Sys2Proof/Machine/Dispatch.lean ====
section
/-! DEFINITION. One arm per command (spec/30_encoding.md R103). -/

namespace Sys2Proof.Machine

def exec (i : Instr) (s : State) : Host.Outcome State Fault Refusal :=
  match i with
  | .sysNop => Sys2Proof.Machine.execSysNop s
  | .sysReset => Sys2Proof.Machine.execSysReset s
  | .sysClrerr => Sys2Proof.Machine.execSysClrerr s
  | .sysRdcr cr => Sys2Proof.Machine.execSysRdcr cr s
  | .sysWrcr cr value => Sys2Proof.Machine.execSysWrcr cr value s
  | .bbCreate b n => Sys2Proof.Machine.execBbCreate b n s
  | .bbGet b x => Sys2Proof.Machine.execBbGet b x s
  | .bbSet b x v => Sys2Proof.Machine.execBbSet b x v s
  | .bbAppend b v => Sys2Proof.Machine.execBbAppend b v s
  | .bbCopy d src => Sys2Proof.Machine.execBbCopy d src s
  | .bbConcat d src => Sys2Proof.Machine.execBbConcat d src s
  | .bbReset b => Sys2Proof.Machine.execBbReset b s
  | .bbSize b => Sys2Proof.Machine.execBbSize b s
  | .bbFlush b addr => Sys2Proof.Machine.execBbFlush b addr s
  | .pqInsert handle key => Sys2Proof.Machine.execPqInsert handle key s
  | .pqExtract => Sys2Proof.Machine.execPqExtract s
  | .pqPeek => Sys2Proof.Machine.execPqPeek s
  | .pqSize => Sys2Proof.Machine.execPqSize s
  | .pqIsempty => Sys2Proof.Machine.execPqIsempty s
  | .pqDestroy destructor => Sys2Proof.Machine.execPqDestroy destructor s
  | .ptInsert addr len payload => Sys2Proof.Machine.execPtInsert addr len payload s
  | .ptSearch addr len greedy => Sys2Proof.Machine.execPtSearch addr len greedy s
  | .ptRemove addr len => Sys2Proof.Machine.execPtRemove addr len s
  | .ptKeys addr => Sys2Proof.Machine.execPtKeys addr s
  | .ptClear => Sys2Proof.Machine.execPtClear s
  | .ftSet addr len count => Sys2Proof.Machine.execFtSet addr len count s
  | .ftClear => Sys2Proof.Machine.execFtClear s
  | .htLeaf sym freq => Sys2Proof.Machine.execHtLeaf sym freq s
  | .htMerge => Sys2Proof.Machine.execHtMerge s
  | .htBuild => Sys2Proof.Machine.execHtBuild s
  | .htFree h => Sys2Proof.Machine.execHtFree h s
  | .htSer addr => Sys2Proof.Machine.execHtSer addr s
  | .htDeser start stop => Sys2Proof.Machine.execHtDeser start stop s
  | .htNode h => Sys2Proof.Machine.execHtNode h s
  | .ctGen => Sys2Proof.Machine.execCtGen s
  | .ctGet sym b => Sys2Proof.Machine.execCtGet sym b s
  | .ctStload start stop => Sys2Proof.Machine.execCtStload start stop s
  | .ctStstore addr => Sys2Proof.Machine.execCtStstore addr s
  | .cdEncode => Sys2Proof.Machine.execCdEncode s
  | .cdDecode => Sys2Proof.Machine.execCdDecode s
  | .cdEpass start stop => Sys2Proof.Machine.execCdEpass start stop s
  | .cdDpass start stop count => Sys2Proof.Machine.execCdDpass start stop count s

end Sys2Proof.Machine
end

