-- ==== Sys2Proof/Machine/Cycle.lean ====
section
/-! DEFINITION. The execution cycle on a command word (spec/48_system.md R280) and the host's moves at the command port
(spec/10_state.md R20, spec/20_memory.md R82, spec/70_reset_and_hazards.md R330). -/

namespace Sys2Proof.Machine

/-- A word that spells no command raises IllegalCommand sub-cause 0 or 1, precise for every command, unless the
faulted-engine filter ignores it (48_system.md R280 steps 1 and 2, 60_exceptions.md R309, R313). -/
def runIllegal (w : CommandWord) (sub : Nat) (s : State) : State :=
  if s.status.fault && !passesFilter (wordOpcode w) then s.ignored
  else takeFault (wordW0 w) (illegal sub ((wordOpcode w).setWidth 32)) s s

/-- `exec(st, CMD)` of 48_system.md R280: decode the word and run the command, or fault. The filter looks at the opcode
alone, so applying it after decoding is applying it before (30_encoding.md R106); `exec` applies it to a decoded command.
The decoder's `tooShort` answer is for byte sequences, a 128-bit word never gets it. -/
def runWord (w : CommandWord) (s : State) : Host.Outcome State Fault Refusal :=
  match decodeWord w with
  | .command i => exec i s
  | .reservedOpcode _ => .next (runIllegal w 0 s)
  | .unusedBitSet _ => .next (runIllegal w 1 s)
  | .tooShort => .next (runIllegal w 0 s)

/-- Hardware reset between commands: the reset state, with the bytes of IN and OUT unspecified (70_reset_and_hazards.md
R330, R331). The parameters and the host's waiting moves stay. -/
def hardwareReset (s : State) : State :=
  { State.resetOf s.cfg (s.inMem.era + 1) (s.outMem.era + 1) with port := s.port }

/-- The host writes bytes into IN between commands (20_memory.md R82, 70_reset_and_hazards.md R338). DESIGN CHOICE (log 5):
IN has no byte at or above IN_CAP (R70), so a write of some byte there stops the model; a write of zero bytes names no byte
of IN, so at every address, also above IN_CAP, it changes nothing. The spec is silent on both. -/
def hostWriteIn (addr : Nat) (bytes : Bytes) (s : State) : Host.Outcome State Fault Refusal :=
  if bytes = [] ∨ addr + bytes.length ≤ s.cfg.inCap then .next { s with inMem := s.inMem.putAll addr bytes }
  else .fault .hostWriteOutsideIn

/-- One move of the host. -/
def runMove (m : HostMove) (s : State) : Host.Outcome State Fault Refusal :=
  match m with
  | .command w => runWord w s
  | .writeIn addr bytes => hostWriteIn addr bytes s
  | .hardwareReset => .next (hardwareReset s)

/-- Take the oldest waiting move and make it; with none waiting the engine is idle and keeps all state (60_exceptions.md
R325). -/
def takeMove (s : State) : Host.Outcome State Fault Refusal :=
  match s.port with
  | [] => .next s
  | m :: rest => runMove m { s with port := rest }

/-- The state with a command word issued ahead of every waiting move. -/
def issue (w : CommandWord) (s : State) : State := { s with port := .command w :: s.port }

end Sys2Proof.Machine
end

