-- ==== Sys2Proof/Machine/Step.lean ====
section
/-! DEFINITION. One step of the machine: one move of the host at the command port, a command with its whole execution
(spec/10_state.md R20, R23; spec/48_system.md R280). -/

namespace Sys2Proof.Machine

/-- One step (log 2). -/
def step (s : State) : Host.Outcome State Fault Refusal := takeMove s

/-- The engine fetches nothing (10_state.md R23): a command is issued to it, so the word goes to the head of the command
port, its bits from `nbits` on zero (log 2). -/
def State.withFetchWord (s : State) (nbits w : Nat) : State := issue (BitVec.ofNat 128 (w % 2 ^ nbits)) s

end Sys2Proof.Machine
end

