-- ==== Sys2Proof/Safety.lean ====
section
/-! DEFINITION. The terms in which claims about the engine are made: what a completed command and a precise fault leave of
the state (spec/10_state.md R22; spec/60_exceptions.md R312, R313), and the invariants of the state (spec/10_state.md R29,
R36, R37, R43, R49, R52 to R55; spec/20_memory.md R70). -/

namespace Sys2Proof.Machine

/-! ## How a command ends -/

/-- A command completed with the given results and changed nothing else (10_state.md R22, 30_encoding.md R107). -/
def State.answered (res : Results) (s : State) : State := { s with res := res, resp := some ⟨0, res⟩ }

/-- A command whose low word is `w0` raised a fault with the given code and information words on an engine that had no
fault pending, and changed nothing else: a precise fault (60_exceptions.md R312, R313). -/
def State.faulted (code : Byte) (w0 info0 info1 : Word) (s : State) : State :=
  { s with
    status := { s.status with fault := true }
    err := code.setWidth 32
    errInfo0 := info0
    errInfo1 := info1
    errOp := w0
    resp := some ⟨code, s.res⟩ }

/-- The last command completed with the given results (10_state.md R22, 30_encoding.md R107). -/
def State.completedWith (res : Results) (s : State) : Prop := s.res = res ∧ s.resp = some ⟨0, res⟩

/-- The last command, whose low word is `w0`, raised a fault with the given code and information words on an engine that had
no fault pending; what else it left is its class's affair (60_exceptions.md R312). -/
structure State.FaultedWith (code : Byte) (w0 info0 info1 : Word) (s : State) : Prop where
  flag : s.status.fault = true
  err : s.err = code.setWidth 32
  info0 : s.errInfo0 = info0
  info1 : s.errInfo1 = info1
  op : s.errOp = w0
  response : s.resp = some ⟨code, s.res⟩

/-- Every piece of engine state but IN and OUT has its reset value (10_state.md R59). -/
structure State.AtReset (s : State) : Prop where
  results : s.res = ⟨0, 0, 0, 0⟩
  status : s.status = ⟨false, false, false⟩
  faultRegs : s.err = 0 ∧ s.errInfo0 = 0 ∧ s.errInfo1 = 0 ∧ s.errOp = 0
  mode : s.mode = .char
  lengths : s.inLen = 0 ∧ s.outLen = 0
  pqOrder : s.pqOrder = .minFirst
  root : s.root = 0xFFFFFFFF#32
  automaton : s.cursor = 0xFFFFFFFF#32 ∧ s.dpos = 0 ∧ s.dbit = 0 ∧ s.emitted = 0
  symCount : s.symCount = 0
  buffers : s.bb = List.replicate s.cfg.nb ⟨[], s.cfg.bbMinCap⟩
  queue : s.pq = ⟨[], s.cfg.pqMinCap, 0⟩
  store : s.nodes = [] ∧ s.nextHandle = 0
  trie : s.trie = ⟨[[]], []⟩
  tables : s.ft = [] ∧ s.symtab = [] ∧ s.code = []

/-- Run commands one after another, `none` if one of them stops the model. -/
def execAll : List Instr → State → Option State
  | [], s => some s
  | i :: rest, s =>
    match exec i s with
    | .next t => execAll rest t
    | .fault _ => none
    | .refused _ => none

/-! ## Memory -/

/-- The bytes `IN[addr .. addr + n)`. -/
def State.inBytes (s : State) (addr n : Nat) : Bytes := (List.range n).map fun k => s.inByte (addr + k)

/-- No address of `[addr, addr + n)` is in IO_BAD_IN (20_memory.md R71). -/
def State.InReadable (s : State) (addr n : Nat) : Prop := ∀ x ∈ s.cfg.ioBadIn, ¬(addr ≤ x ∧ x < addr + n)

/-- `x` is the least address of `[addr, addr + n)` in IO_BAD_IN (20_memory.md R71). -/
def State.LeastUnreadable (s : State) (addr n x : Nat) : Prop :=
  (addr ≤ x ∧ x < addr + n ∧ x ∈ s.cfg.ioBadIn) ∧ ∀ y ∈ s.cfg.ioBadIn, addr ≤ y → y < addr + n → x ≤ y

/-- `n` bytes can be written at OUT address `addr`: nothing to write, or every address below OUT_CAP and not in IO_BAD_OUT
(20_memory.md R72). -/
def State.OutWritable (s : State) (addr n : Nat) : Prop :=
  n = 0 ∨ (addr + n ≤ s.cfg.outCap ∧ ∀ x ∈ s.cfg.ioBadOut, ¬(addr ≤ x ∧ x < addr + n))

/-- `x` is the least address of `[addr, addr + n)` that is at or above OUT_CAP or in IO_BAD_OUT (20_memory.md R72). -/
def State.LeastUnwritable (s : State) (addr n x : Nat) : Prop :=
  (addr ≤ x ∧ x < addr + n ∧ (s.cfg.outCap ≤ x ∨ x ∈ s.cfg.ioBadOut)) ∧
  ∀ y, addr ≤ y → y < x → y < s.cfg.outCap ∧ y ∉ s.cfg.ioBadOut

/-- The state after a successful `MemWrite(OUT, addr, len(v), v)` (20_memory.md R72). -/
def State.wrote (addr : Nat) (v : Bytes) (s : State) : State :=
  { s with
    outMem := s.outMem.putAll addr v
    outLen := if v = [] then s.outLen else word (max s.outLen.toNat (addr + v.length)) }

/-! ## Trees and symbols -/

/-- `wf_tree(h)`, with the tree at `h` (10_state.md R51). -/
inductive IsTree (m : NodeMap) : Word → Tree → Prop where
  | leaf {h sym freq : Word} : mapFind h m = some (.leaf sym freq) → IsTree m h (.leaf sym)
  | node {h l r freq : Word} {a b : Tree} :
    mapFind h m = some (.internal l r freq) → IsTree m l a → IsTree m r b → IsTree m h (.node a b)

/-- The live handles reachable from a handle through live internal nodes, `S` of `free_tree` (10_state.md R50). -/
inductive Reachable (m : NodeMap) : Word → Word → Prop where
  | here {h : Word} : NodeMap.live m h = true → Reachable m h h
  | left {h l r freq x : Word} : mapFind h m = some (.internal l r freq) → Reachable m l x → Reachable m h x
  | right {h l r freq x : Word} : mapFind h m = some (.internal l r freq) → Reachable m r x → Reachable m h x

/-- What `free_tree` of several handles leaves of the nodes that had been allocated before (10_state.md R50): the nodes
reachable from one of the handles are gone, the others are as they were. -/
structure State.Freed (handles : List Word) (s t : State) : Prop where
  gone : ∀ h, (∃ x ∈ handles, Reachable s.nodes x h) → mapFind h t.nodes = none
  kept : ∀ h, h.toNat < s.nextHandle → ¬(∃ x ∈ handles, Reachable s.nodes x h) → mapFind h t.nodes = mapFind h s.nodes

/-- A register that `free_tree` of several handles sets to NULL when its node is freed (10_state.md R50): its value before
and after. -/
structure State.FreedRegister (handles : List Word) (s : State) (before after : Word) : Prop where
  gone : (∃ x ∈ handles, Reachable s.nodes x before) → after = 0xFFFFFFFF#32
  kept : ¬(∃ x ∈ handles, Reachable s.nodes x before) → after = before

/-- What `free_tree` of several handles leaves of the node store: every node that none of the handles reaches (10_state.md
R50). -/
structure State.LeftAfterFreeing (handles : List Word) (s : State) (base : NodeMap) : Prop where
  sub : base.Sublist s.nodes
  gone : ∀ h, mapFind h base = none ↔ mapFind h s.nodes = none ∨ ∃ x ∈ handles, Reachable s.nodes x h

/-- The handles that the queue's items name. -/
def State.queuedHandles (s : State) : List Word := s.pq.entries.map QItem.handle

/-- The tree at a handle has the given total frequency: leaves carry the counts of a table of symbols, every internal node
the sum of its children (43_huffman_tree.md R209). -/
inductive Weighs (m : NodeMap) (counts : List (Word × Word)) : Word → Nat → Prop where
  | leaf {h sym freq : Word} :
    mapFind h m = some (.leaf sym freq) → (sym, freq) ∈ counts → Weighs m counts h freq.toNat
  | node {h l r freq : Word} {a b : Nat} :
    mapFind h m = some (.internal l r freq) → Weighs m counts l a → Weighs m counts r b → freq.toNat = a + b →
    Weighs m counts h (a + b)

/-- The number of nodes of a tree. -/
def Tree.size : Tree → Nat
  | .leaf _ => 1
  | .node l r => l.size + r.size + 1

/-- The symbol ids a serialized leaf may carry: any byte in CHAR mode, an index of the symbol table in WORD mode
(30_encoding.md R114, 44_tree_serialization.md R222). -/
def symbolFits (m : Mode) (symtab : List Bytes) (sym : Word) : Prop :=
  match m with
  | .char => sym.toNat ≤ 255
  | .word => sym.toNat < symtab.length

/-- A node as the reader of a serialized tree meets it: the discriminator 0, or the discriminator 1 with the symbol
(30_encoding.md R113). -/
inductive TreeToken where
  | inner
  | leaf (sym : Word)
  deriving DecidableEq, Repr

/-- The bits of a token (30_encoding.md R113, R114). -/
def TreeToken.bits (m : Mode) : TreeToken → Bits
  | .inner => [false]
  | .leaf sym => true :: symBits m sym

/-- How many tokens are leaves. -/
def leafCount : List TreeToken → Nat
  | [] => 0
  | .inner :: rest => leafCount rest
  | .leaf _ :: rest => leafCount rest + 1

/-- A tree that starts with these tokens is not complete after any of them: never more leaves than internal nodes. -/
def treeOpen (toks : List TreeToken) : Bool :=
  (List.range (toks.length + 1)).all fun k => decide (2 * leafCount (toks.take k) ≤ k)

/-- The number of tokens that are internal nodes whose right end has not been reached, the `d` of `parse(i, d)`
(44_tree_serialization.md R222). -/
def openNodes (toks : List TreeToken) : Nat :=
  ((List.range toks.length).filter fun j => treeOpen (toks.drop j)).length

/-- The symbol at the front of the input and the bytes it covers: the byte itself in CHAR mode, the longest stored key in WORD
mode (46_codec_encode.md R251, 42_prefix_trie.md R186). -/
def State.SymbolAt (s : State) (data : Bytes) (id : Word) (n : Nat) : Prop :=
  match s.mode with
  | .char => ∃ b rest, data = b :: rest ∧ id = b.setWidth 32 ∧ n = 1
  | .word => ∃ key, (key, id) ∈ s.trie.payload ∧ key <+: data ∧ n = key.length ∧
      ∀ e ∈ s.trie.payload, e.1 <+: data → e.1.length ≤ n

/-- Tokenizing: the symbols at the front of the input, one after another, and the input they leave (42_prefix_trie.md
R187). -/
inductive State.Tokens (s : State) : Bytes → List Word → Bytes → Prop where
  | done (data : Bytes) : s.Tokens data [] data
  | symbol {data rest : Bytes} {id : Word} {n : Nat} {ids : List Word} :
    s.SymbolAt data id n → s.Tokens (data.drop n) ids rest → s.Tokens data (id :: ids) rest

/-- An input split into words of a list, each the longest word of the list that the rest of the input starts with
(42_prefix_trie.md R187). -/
inductive LongestSplit (words : List Bytes) : Bytes → List Bytes → Prop where
  | done : LongestSplit words [] []
  | word {k rest : Bytes} {ks : List Bytes} :
    k ∈ words → k ≠ [] → (∀ x ∈ words, x <+: k ++ rest → x.length ≤ k.length) → LongestSplit words rest ks →
    LongestSplit words (k ++ rest) (k :: ks)

/-- `x` is the top of a list of queue items: it is before every other (10_state.md R46). -/
def QueueTop (o : PqOrder) (items : List QItem) (x : QItem) : Prop := x ∈ items ∧ ∀ y ∈ items, y ≠ x → x.before o y = true

/-! ## Registers named by number or by command -/

/-- The value of a control register by its number, `none` where the map of 10_state.md R26 lists none. -/
def State.controlValue (s : State) (n : Nat) : Option Word :=
  match n with
  | 0x00 => some 0x48554607
  | 0x01 => some ((if s.status.fault then 1 else 0) + (if s.status.empty then 2 else 0) + (if s.status.found then 4 else 0))
  | 0x02 => some s.err
  | 0x03 => some s.errInfo0
  | 0x04 => some s.errInfo1
  | 0x05 => some s.errOp
  | 0x06 => some (if s.mode = .word then 1 else 0)
  | 0x07 => some s.inLen
  | 0x08 => some s.outLen
  | 0x09 => some (if s.pqOrder = .maxFirst then 1 else 0)
  | 0x0A => some (word s.pq.entries.length)
  | 0x0B => some (word s.pq.cap)
  | 0x0C => some s.root
  | 0x0D => some s.cursor
  | 0x0E => some s.dpos
  | 0x0F => some s.dbit
  | 0x10 => some s.emitted
  | 0x11 => some s.symCount
  | 0x12 => some (word s.symtab.length)
  | 0x13 => some (word s.ft.length)
  | 0x14 => some (word s.nodes.length)
  | 0x15 => some (word s.nextHandle)
  | 0x16 => some (word (s.trie.paths.length - 1))
  | 0x17 => some (word s.code.length)
  | n =>
    if 0x20 ≤ n ∧ n < 0x20 + s.cfg.nb then some (word (s.buf (n - 0x20)).bits.length)
    else if 0x40 ≤ n ∧ n < 0x40 + s.cfg.nb then some (word (s.buf (n - 0x40)).cap)
    else none

/-- The bit-buffer register that a command names as the one it writes (10_state.md R44). -/
def bufferWritten : Instr → Option Word
  | .bbCreate b _ => some b
  | .bbSet b _ _ => some b
  | .bbAppend b _ => some b
  | .bbCopy d _ => some d
  | .bbConcat d _ => some d
  | .bbReset b => some b
  | .ctGet _ b => some b
  | _ => none

/-- The commands that write OUT (20_memory.md R81). -/
def writesOut : Instr → Bool
  | .bbFlush _ _ => true
  | .ptKeys _ => true
  | .htSer _ => true
  | .ctStstore _ => true
  | .cdEncode => true
  | .cdDpass _ _ _ => true
  | .cdDecode => true
  | _ => false

/-- The opcodes of the map of 30_encoding.md R103. -/
def definedOpcodes : List Byte :=
  [0x00, 0x01, 0x02, 0x03, 0x04] ++
  [0x10, 0x11, 0x12, 0x13, 0x14, 0x15, 0x16, 0x17, 0x18] ++
  [0x20, 0x21, 0x22, 0x23, 0x24, 0x25] ++
  [0x30, 0x31, 0x32, 0x33, 0x34] ++ [0x40, 0x41] ++
  [0x50, 0x51, 0x52, 0x53, 0x54, 0x55, 0x56] ++
  [0x60, 0x61, 0x62, 0x63] ++ [0x70, 0x71, 0x72, 0x73]

/-! ## Invariants -/

/-- IN and OUT are in canonical form and hold no byte outside their space; the two lengths stay inside theirs (20_memory.md
R70, R72; 10_state.md R33, R34). -/
structure State.MemoryOk (s : State) : Prop where
  inForm : s.inMem.wf = true
  outForm : s.outMem.wf = true
  inInside : ∀ e ∈ s.inMem.cells, e.1 < s.cfg.inCap
  outInside : ∀ e ∈ s.outMem.cells, e.1 < s.cfg.outCap
  inLen : s.inLen.toNat ≤ s.cfg.inCap
  outLen : s.outLen.toNat ≤ s.cfg.outCap

/-- ERR is 0 exactly when no fault is pending and never above 9, the information registers are 0 when none is, and the last
response shows the result registers (10_state.md R29, R30, R31; 60_exceptions.md R300; 30_encoding.md R107). -/
structure State.FaultOk (s : State) : Prop where
  errZero : s.err = 0 ↔ s.status.fault = false
  errCode : s.err.toNat ≤ 9
  cleared : s.status.fault = false → s.errInfo0 = 0 ∧ s.errInfo1 = 0 ∧ s.errOp = 0
  response : ∀ r, s.resp = some r → r.res = s.res ∧ (r.code.toNat ≤ 9 ∨ r.code = 0xFF#8)

/-- The bounds of one bit-buffer register (10_state.md R43). -/
structure BitBuffer.Ok (c : Config) (v : BitBuffer) : Prop where
  size : v.bits.length ≤ c.bbMaxBits
  stored : v.bits.length ≤ 8 * v.cap
  least : c.bbMinCap ≤ v.cap
  most : v.cap ≤ max c.bbMinCap c.bbMaxBytes

/-- There are NB bit-buffer registers, each within its bounds (10_state.md R42, R43). -/
structure State.BuffersOk (s : State) : Prop where
  count : s.bb.length = s.cfg.nb
  each : ∀ v ∈ s.bb, v.Ok s.cfg

/-- The queue: sequence numbers pairwise different and all below the counter, the entries in the order of insertion, the
capacity PQ_MIN_CAP·2^j within its bounds and enough for the items (10_state.md R36, R45; 41_priority_queue.md R160,
R168). -/
structure State.QueueOk (s : State) : Prop where
  inOrder : s.pq.entries.Pairwise fun x y => x.seq < y.seq
  counted : ∀ x ∈ s.pq.entries, x.seq < s.pq.nextSeq
  fits : s.pq.entries.length ≤ s.pq.cap
  doubling : ∃ j, s.pq.cap = s.cfg.pqMinCap * 2 ^ j
  most : s.pq.cap ≤ s.cfg.pqMaxCap

/-- The children of a node. -/
def Node.children : Node → List Word
  | .leaf _ _ => []
  | .internal left right _ => [left, right]

/-- The node store: listed by rising handle, every handle below the counter, at most NODE_MAX nodes, every child's number
below its parent's, and every handle the child of at most one node and once only; ROOT and CURSOR are NULL or live
(10_state.md R37, R47 to R50). -/
structure State.NodesOk (s : State) : Prop where
  listed : rising wordLt (s.nodes.map Prod.fst) = true
  counted : ∀ e ∈ s.nodes, e.1.toNat < s.nextHandle
  counter : s.nextHandle ≤ 0xFFFFFFFF
  fits : s.nodes.length ≤ s.cfg.nodeMax
  down : ∀ e ∈ s.nodes, ∀ c ∈ e.2.children, c.toNat < e.1.toNat
  forest : (s.nodes.flatMap fun e => e.2.children).Nodup
  root : s.root = nullHandle ∨ NodeMap.live s.nodes s.root = true
  cursor : s.cursor = nullHandle ∨ NodeMap.live s.nodes s.cursor = true

/-- The trie: listed by rising `lex`, the root present, every other node's parent present, every payload at a node below the
root, at most TRIE_MAX nodes besides the root (10_state.md R52). -/
structure State.TrieOk (s : State) : Prop where
  listed : rising lexLt s.trie.paths = true
  root : [] ∈ s.trie.paths
  closed : ∀ p ∈ s.trie.paths, p.dropLast ∈ s.trie.paths
  payloadListed : rising lexLt (s.trie.payload.map Prod.fst) = true
  payloadAt : ∀ e ∈ s.trie.payload, e.1 ∈ s.trie.paths ∧ e.1 ≠ []
  fits : s.trie.size ≤ s.cfg.trieMax

/-- The frequency table, the symbol table and the code table: listed by rising key, no empty symbol, no zero count, no empty
code, at most FT_MAX counts, and no code longer than a tree of NODE_MAX nodes gives (10_state.md R53 to R55;
45_code_table.md R241). -/
structure State.TablesOk (s : State) : Prop where
  ftListed : rising lexLt (s.ft.map Prod.fst) = true
  ftEntries : ∀ e ∈ s.ft, e.1 ≠ [] ∧ e.2 ≠ 0
  ftFits : s.ft.length ≤ s.cfg.ftMax
  symbols : ∀ w ∈ s.symtab, w ≠ []
  codeListed : rising wordLt (s.code.map Prod.fst) = true
  codes : ∀ e ∈ s.code, e.2 ≠ [] ∧ e.2.length ≤ max 1 ((s.cfg.nodeMax - 1) / 2)

/-- Everything the spec says of the state at all times, for every well-formed configuration: 00_scope.md R7 and the two
constraints deduced from other rules (logs 10, 14). That a memory's cells rise by address is the model's form (log 4). -/
structure State.Inv (s : State) : Prop where
  config : s.cfg.wellFormed = true
  memory : s.MemoryOk
  faults : s.FaultOk
  buffers : s.BuffersOk
  queue : s.QueueOk
  nodes : s.NodesOk
  trie : s.TrieOk
  tables : s.TablesOk
  dbit : s.dbit.toNat ≤ 7

/-- A step is safe when it answers a next state: the machine's only stop is the host's own write outside IN (log 5). -/
def State.safeStep (s : State) : Prop := ∃ t, step s = .next t

end Sys2Proof.Machine
end

