-- ==== Sys2Proof/Certificates/Slice0/Obligations.lean ====
section
/-! DEFINITION. The statements for the provers. Each docstring names the rules of spec/ that the statement formalises; the
conventions of the model that a statement rests on are named with their log entries. -/

open Sys2Proof Sys2Proof.Machine

/-! ## Encoding -/

/-- Words written out from 30_encoding.md R100 to R103 and the vectors V-ENC of 95_test_vectors.md, one at least for every
family, two that spell no command, and one word as bytes (R101). -/
def Obligations.WrittenWordsDecode : Prop :=
  decodeWord (assemble 0x00000000 0 0 0) = .command .sysNop ∧
  decodeWord (assemble 0x00000004 0x00000007 0x0000000B 0) = .command (.sysWrcr 7 11) ∧
  decodeWord (assemble 0x00000012 0x00000002 0x00000009 0x00000001) = .command (.bbSet 2 9 1) ∧
  decodeWord (assemble 0x00000125 0 0 0) = .command (.pqDestroy true) ∧
  decodeWord (assemble 0x00000131 0x00000003 0x00000005 0) = .command (.ptSearch 3 5 true) ∧
  decodeWord (assemble 0x00000031 0x00000003 0x00000005 0) = .command (.ptSearch 3 5 false) ∧
  decodeWord (assemble 0x00000040 0x00000000 0x00000001 0x00000005) = .command (.ftSet 0 1 5) ∧
  decodeWord (assemble 0x00000055 0x00000010 0x00000013 0) = .command (.htDeser 16 19) ∧
  decodeWord (assemble 0x00000063 0x00000010 0 0) = .command (.ctStstore 16) ∧
  decodeWord (assemble 0x00000073 0x00000003 0x00000004 0x00000002) = .command (.cdDpass 3 4 2) ∧
  decodeWord (assemble 0x00000005 0 0 0) = .reservedOpcode 0x05 ∧
  decodeWord (assemble 0x00010021 0 0 0) = .unusedBitSet 0x21 ∧
  decodeBytes [0x20, 0, 0, 0, 7, 0, 0, 0, 5, 0, 0, 0, 0, 0, 0, 0] = (.command (.pqInsert 7 5), [])

/-- 30_encoding.md R100 to R103: no operand or flag bit is dropped. -/
def Obligations.DecodeOfEncodeIsTheCommand : Prop := ∀ i : Instr, decodeWord (encode i) = .command i

/-- 30_encoding.md R102, R104, R105: a word that spells a command has no other bit set, so only one word spells it. -/
def Obligations.EncodeOfDecodedIsTheWord : Prop :=
  ∀ (w : CommandWord) (i : Instr), decodeWord w = .command i → encode i = w

/-- 30_encoding.md R101: the word as a byte sequence, and decoding from bytes. -/
def Obligations.CommandWordsAreLittleEndianBytes : Prop :=
  ∀ (w : CommandWord) (rest : Bytes),
    bytesOfWord w = u32le (wordW0 w) ++ u32le (wordA w) ++ u32le (wordB w) ++ u32le (wordC w) ∧
    decodeBytes (bytesOfWord w ++ rest) = (decodeWord w, rest)

/-- 30_encoding.md R104, R105: every word either spells a command or raises IllegalCommand, sub-cause 0 for an opcode outside
the map, sub-cause 1 for any other word that is the encoding of no command, and changes no other state. -/
def Obligations.WordsThatSpellNoCommandFault : Prop :=
  ∀ (s : State) (w : CommandWord) (rest : List HostMove),
    s.port = .command w :: rest → s.status.fault = false →
    (wordOpcode w ∉ definedOpcodes →
      step s = .next (({ s with port := rest } : State).faulted 9 (wordW0 w) 0 ((wordOpcode w).setWidth 32))) ∧
    (wordOpcode w ∈ definedOpcodes → (∀ i, encode i ≠ w) →
      step s = .next (({ s with port := rest } : State).faulted 9 (wordW0 w) 1 ((wordOpcode w).setWidth 32)))

/-! ## Steps -/

/-- 48_system.md R280 at the command port (log 2): when the oldest waiting move is a word that spells a command, the step is
the execution of that command, the word being taken from the port. -/
def Obligations.StepRunsTheDecodedCommand : Prop :=
  ∀ (s : State) (w : CommandWord) (rest : List HostMove) (i : Instr),
    s.port = .command w :: rest → decodeWord w = .command i → step s = exec i { s with port := rest }

/-- 10_state.md R20, 20_memory.md R82, 70_reset_and_hazards.md R330, R331, R338, 60_exceptions.md R325: the other moves. With
no move waiting nothing changes; a write of IN bytes changes those bytes alone; a hardware reset gives the reset state. That
the moves wait in a port is the model's choice (log 2), and so are the stop on a write outside IN and that a write of zero
bytes changes nothing at any address (log 5). -/
def Obligations.HostMovesBetweenCommands : Prop :=
  (∀ s : State, s.port = [] → step s = .next s) ∧
  (∀ (s : State) (addr : Nat) (bytes : Bytes) (rest : List HostMove), s.port = .writeIn addr bytes :: rest →
    (bytes = [] ∨ addr + bytes.length ≤ s.cfg.inCap →
      ∃ m, step s = .next { s with port := rest, inMem := m } ∧
        ∀ a, ({ s with inMem := m } : State).inByte a =
          if addr ≤ a ∧ a < addr + bytes.length then bytes.getD (a - addr) 0 else s.inByte a) ∧
    (bytes ≠ [] → s.cfg.inCap < addr + bytes.length → step s = .fault .hostWriteOutsideIn)) ∧
  (∀ (s : State) (rest : List HostMove), s.port = .hardwareReset :: rest →
    ∃ t, step s = .next t ∧ t.AtReset ∧ t.cfg = s.cfg ∧ t.port = rest)

/-- 10_state.md R59, 48_system.md R283: SYS.RESET, with or without a fault pending, gives every piece of state but IN and OUT
its reset value and keeps the bytes of both; `State.reset` has these values. -/
def Obligations.ResetGivesTheResetValues : Prop :=
  State.reset.AtReset ∧
  ∀ s : State, ∃ t, exec .sysReset s = .next t ∧ t.AtReset ∧ t.completedWith ⟨0, 0, 0, 0⟩ ∧ t.cfg = s.cfg ∧
    (∀ a, t.inByte a = s.inByte a) ∧ (∀ a, t.outByte a = s.outByte a)

/-- 48_system.md R280 step 1, 60_exceptions.md R316: while a fault is pending every command but SYS.RESET, SYS.CLRERR and
SYS.RDCR is ignored, whatever its unused bits; one of these three that faults itself gives its own code in the response and
changes nothing else, so the first fault stays recorded. The last clause runs at the command port, and that the word leaves
the port also when it is ignored or faults is the model's choice (log 2). -/
def Obligations.FirstFaultIsKeptUntilCleared : Prop :=
  ∀ s : State, s.status.fault = true →
    (∀ i : Instr, i ≠ .sysReset → i ≠ .sysClrerr → (∀ cr, i ≠ .sysRdcr cr) →
      exec i s = .next { s with resp := some ⟨0xFF, s.res⟩ }) ∧
    (∀ cr : Word, s.controlValue cr.toNat = none → exec (.sysRdcr cr) s = .next { s with resp := some ⟨9, s.res⟩ }) ∧
    (∀ (w : CommandWord) (rest : List HostMove), s.port = .command w :: rest → (∀ i, encode i ≠ w) →
      step s = .next { s with
        port := rest
        resp := some ⟨if wordOpcode w ∈ [0x01#8, 0x02#8, 0x03#8] then 9 else 0xFF, s.res⟩ })

/-! ## SYS -/

/-- 48_system.md R281, R282. -/
def Obligations.SysNopAndClrerr : Prop :=
  ∀ s : State,
    (s.status.fault = false → exec .sysNop s = .next (s.answered ⟨0, 0, 0, 0⟩)) ∧
    exec .sysClrerr s = .next (State.answered ⟨0, 0, 0, 0⟩
      { s with status := { s.status with fault := false }, err := 0, errInfo0 := 0, errInfo1 := 0, errOp := 0 })

/-- 48_system.md R284, 10_state.md R26: SYS.RDCR reads every register of the map, also while a fault is pending. -/
def Obligations.RdcrReadsTheMap : Prop :=
  ∀ (s : State) (cr : Word),
    (∀ v, s.controlValue cr.toNat = some v → exec (.sysRdcr cr) s = .next (s.answered ⟨v, 0, 0, 0⟩)) ∧
    (s.controlValue cr.toNat = none → s.status.fault = false →
      exec (.sysRdcr cr) s = .next (s.faulted 9 0x03 6 cr))

/-- 48_system.md R285: the four writable registers and the three reasons to refuse. -/
def Obligations.WrcrWritesFourRegisters : Prop :=
  ∀ (s : State) (cr v : Word), s.status.fault = false →
    (cr ≠ 6 → cr ≠ 7 → cr ≠ 8 → cr ≠ 9 → exec (.sysWrcr cr v) s = .next (s.faulted 9 0x04 6 cr)) ∧
    ((cr = 6 ∧ 1 < v.toNat) ∨ (cr = 7 ∧ s.cfg.inCap < v.toNat) ∨ (cr = 8 ∧ s.cfg.outCap < v.toNat) ∨
      (cr = 9 ∧ 1 < v.toNat) → exec (.sysWrcr cr v) s = .next (s.faulted 9 0x04 7 v)) ∧
    (cr = 9 → v.toNat ≤ 1 → s.pq.entries ≠ [] → exec (.sysWrcr cr v) s = .next (s.faulted 9 0x04 8 2)) ∧
    (cr = 6 → v = 0 → exec (.sysWrcr cr v) s = .next (State.answered ⟨0, 0, 0, 0⟩ { s with mode := .char })) ∧
    (cr = 6 → v = 1 → exec (.sysWrcr cr v) s = .next (State.answered ⟨0, 0, 0, 0⟩ { s with mode := .word })) ∧
    (cr = 7 → v.toNat ≤ s.cfg.inCap →
      exec (.sysWrcr cr v) s = .next (State.answered ⟨0, 0, 0, 0⟩ { s with inLen := v })) ∧
    (cr = 8 → v.toNat ≤ s.cfg.outCap →
      exec (.sysWrcr cr v) s = .next (State.answered ⟨0, 0, 0, 0⟩ { s with outLen := v })) ∧
    (cr = 9 → v = 0 → s.pq.entries = [] →
      exec (.sysWrcr cr v) s = .next (State.answered ⟨0, 0, 0, 0⟩ { s with pqOrder := .minFirst })) ∧
    (cr = 9 → v = 1 → s.pq.entries = [] →
      exec (.sysWrcr cr v) s = .next (State.answered ⟨0, 0, 0, 0⟩ { s with pqOrder := .maxFirst }))

/-! ## BB -/

/-- 40_bitbuffer.md R141, R147, R148. -/
def Obligations.BbCreateResetSize : Prop :=
  ∀ (s : State) (b n : Word), s.status.fault = false →
    (s.cfg.nb ≤ b.toNat →
      exec (.bbCreate b n) s = .next (s.faulted 9 0x10 2 b) ∧
      exec (.bbReset b) s = .next (s.faulted 9 0x16 2 b) ∧
      exec (.bbSize b) s = .next (s.faulted 9 0x17 2 b)) ∧
    (b.toNat < s.cfg.nb →
      (s.cfg.bbMaxBits < n.toNat → exec (.bbCreate b n) s = .next (s.faulted 7 0x10 1 n)) ∧
      (n.toNat ≤ s.cfg.bbMaxBits → exec (.bbCreate b n) s = .next (State.answered ⟨0, 0, 0, 0⟩
        { s with bb := s.bb.set b.toNat ⟨[], max s.cfg.bbMinCap ((n.toNat + 7) / 8)⟩ })) ∧
      exec (.bbReset b) s = .next (State.answered ⟨0, 0, 0, 0⟩
        { s with bb := s.bb.set b.toNat ⟨[], (s.buf b.toNat).cap⟩ }) ∧
      exec (.bbSize b) s = .next (s.answered ⟨word (s.buf b.toNat).bits.length, 0, 0, 0⟩))

/-- 40_bitbuffer.md R142, R143: the bit value is checked before the index, and a set never extends the buffer. -/
def Obligations.BbGetAndSet : Prop :=
  ∀ (s : State) (b i v : Word), s.status.fault = false →
    (s.cfg.nb ≤ b.toNat →
      exec (.bbGet b i) s = .next (s.faulted 9 0x11 2 b) ∧ exec (.bbSet b i v) s = .next (s.faulted 9 0x12 2 b)) ∧
    (b.toNat < s.cfg.nb →
      ((s.buf b.toNat).bits.length ≤ i.toNat →
        exec (.bbGet b i) s = .next (s.faulted 1 0x11 i (word (s.buf b.toNat).bits.length))) ∧
      (∀ x, (s.buf b.toNat).bits[i.toNat]? = some x →
        exec (.bbGet b i) s = .next (s.answered ⟨if x then 1 else 0, 0, 0, 0⟩)) ∧
      (1 < v.toNat → exec (.bbSet b i v) s = .next (s.faulted 9 0x12 3 v)) ∧
      (v.toNat ≤ 1 → (s.buf b.toNat).bits.length ≤ i.toNat →
        exec (.bbSet b i v) s = .next (s.faulted 1 0x12 i (word (s.buf b.toNat).bits.length))) ∧
      (v.toNat ≤ 1 → i.toNat < (s.buf b.toNat).bits.length →
        exec (.bbSet b i v) s = .next (State.answered ⟨0, 0, 0, 0⟩
          { s with bb := s.bb.set b.toNat ⟨(s.buf b.toNat).bits.set i.toNat (v == 1), (s.buf b.toNat).cap⟩ })))

/-- 40_bitbuffer.md R144: the bit goes to the end, the capacity grows when it needs a new byte. -/
def Obligations.BbAppendAddsOneBit : Prop :=
  ∀ (s : State) (b v : Word), s.status.fault = false →
    (s.cfg.nb ≤ b.toNat → exec (.bbAppend b v) s = .next (s.faulted 9 0x13 2 b)) ∧
    (b.toNat < s.cfg.nb →
      (1 < v.toNat → exec (.bbAppend b v) s = .next (s.faulted 9 0x13 3 v)) ∧
      (v.toNat ≤ 1 → s.cfg.bbMaxBits ≤ (s.buf b.toNat).bits.length →
        exec (.bbAppend b v) s = .next (s.faulted 7 0x13 1 (word (s.buf b.toNat).bits.length))) ∧
      (v.toNat ≤ 1 → (s.buf b.toNat).bits.length < s.cfg.bbMaxBits →
        exec (.bbAppend b v) s = .next (State.answered ⟨word ((s.buf b.toNat).bits.length + 1), 0, 0, 0⟩
          { s with bb := s.bb.set b.toNat ⟨(s.buf b.toNat).bits ++ [v == 1],
            grow s.cfg (s.buf b.toNat).cap (((s.buf b.toNat).bits.length + 1 + 7) / 8)⟩ })))

/-- 40_bitbuffer.md R145, R146. -/
def Obligations.BbCopyAndConcat : Prop :=
  ∀ (s : State) (d src : Word), s.status.fault = false →
    (s.cfg.nb ≤ d.toNat →
      exec (.bbCopy d src) s = .next (s.faulted 9 0x14 2 d) ∧ exec (.bbConcat d src) s = .next (s.faulted 9 0x15 2 d)) ∧
    (d.toNat < s.cfg.nb → s.cfg.nb ≤ src.toNat →
      exec (.bbCopy d src) s = .next (s.faulted 9 0x14 2 src) ∧
      exec (.bbConcat d src) s = .next (s.faulted 9 0x15 2 src)) ∧
    (d.toNat < s.cfg.nb → src.toNat < s.cfg.nb →
      exec (.bbCopy d src) s = .next (State.answered ⟨word (s.buf src.toNat).bits.length, 0, 0, 0⟩
        { s with bb := s.bb.set d.toNat (s.buf src.toNat) }) ∧
      (d = src → exec (.bbConcat d src) s = .next (s.faulted 9 0x15 8 1)) ∧
      (d ≠ src → s.cfg.bbMaxBits < (s.buf d.toNat).bits.length + (s.buf src.toNat).bits.length →
        exec (.bbConcat d src) s = .next (s.faulted 7 0x15 1 (word (s.buf d.toNat).bits.length))) ∧
      (d ≠ src → (s.buf d.toNat).bits.length + (s.buf src.toNat).bits.length ≤ s.cfg.bbMaxBits →
        exec (.bbConcat d src) s = .next (State.answered
          ⟨word ((s.buf d.toNat).bits.length + (s.buf src.toNat).bits.length), 0, 0, 0⟩
          { s with bb := s.bb.set d.toNat ⟨(s.buf d.toNat).bits ++ (s.buf src.toNat).bits,
            grow s.cfg (s.buf d.toNat).cap
              (((s.buf d.toNat).bits.length + (s.buf src.toNat).bits.length + 7) / 8)⟩ })))

/-- 40_bitbuffer.md R149, 20_memory.md R72: every byte or none, OUT_LEN raised to cover them. -/
def Obligations.BbFlushWritesThePackedBytes : Prop :=
  ∀ (s : State) (b addr : Word), s.status.fault = false →
    (s.cfg.nb ≤ b.toNat → exec (.bbFlush b addr) s = .next (s.faulted 9 0x18 2 b)) ∧
    (b.toNat < s.cfg.nb →
      (∀ x, s.LeastUnwritable addr.toNat (((s.buf b.toNat).bits.length + 7) / 8) x →
        exec (.bbFlush b addr) s = .next (s.faulted 8 0x18 (word x) 1)) ∧
      (s.OutWritable addr.toNat (((s.buf b.toNat).bits.length + 7) / 8) →
        exec (.bbFlush b addr) s = .next (State.answered ⟨word (((s.buf b.toNat).bits.length + 7) / 8), 0, 0, 0⟩
          (s.wrote addr.toNat (pack (s.buf b.toNat).bits)))))

/-- 10_state.md R43: `grow(cap, need)` is the least doubling of the capacity that holds `need` bytes, limited by the greatest
capacity. -/
def Obligations.GrowIsTheLeastDoubling : Prop :=
  ∀ (c : Config) (cap need : Nat), 1 ≤ cap →
    ∃ k, need ≤ cap * 2 ^ k ∧ (∀ j, j < k → cap * 2 ^ j < need) ∧
      grow c cap need = min (cap * 2 ^ k) (max c.bbMinCap c.bbMaxBytes)

/-- 00_scope.md R12, 20_memory.md R73 to R76: where each bit and each byte goes. -/
def Obligations.PackingAndByteOrder : Prop :=
  (∀ bits : Bits, (pack bits).length = (bits.length + 7) / 8 ∧
    ∀ j k, j < (pack bits).length → k < 8 → ((pack bits).getD j 0).getLsbD k = bits.getD (8 * j + k) false) ∧
  (∀ bytes : Bytes, (unpack bytes).length = 8 * bytes.length ∧
    ∀ i, i < 8 * bytes.length → (unpack bytes).getD i false = (bytes.getD (i / 8) 0).getLsbD (i % 8)) ∧
  (∀ n v i, i < n → (bitsLSB n v).length = n ∧ (bitsLSB n v).getD i false = v.testBit i) ∧
  (∀ v : Word, u32le v = [v.extractLsb' 0 8, v.extractLsb' 8 8, v.extractLsb' 16 8, v.extractLsb' 24 8] ∧
    le32 (u32le v) = v ∧ pack (bitsLSB 32 v.toNat) = u32le v)

/-- 00_scope.md R14: the order on byte strings. -/
def Obligations.LexIsATotalOrder : Prop :=
  (∀ a b : Bytes, lexLt a b = true ↔
    (a <+: b ∧ a ≠ b) ∨ ∃ i x y, a.take i = b.take i ∧ a[i]? = some x ∧ b[i]? = some y ∧ x.toNat < y.toNat) ∧
  (∀ a b : Bytes, a ≠ b → (lexLt a b = true ↔ lexLt b a = false))

/-! ## PQ -/

/-- 41_priority_queue.md R160, R162. -/
def Obligations.PqInsertAddsAnItem : Prop :=
  ∀ (s : State) (h k : Word), s.status.fault = false →
    (s.pq.entries.length = s.pq.cap → s.pq.cap = s.cfg.pqMaxCap →
      exec (.pqInsert h k) s = .next (s.faulted 7 0x20 2 (word s.pq.entries.length))) ∧
    (¬(s.pq.entries.length = s.pq.cap ∧ s.pq.cap = s.cfg.pqMaxCap) →
      exec (.pqInsert h k) s = .next (State.answered ⟨word (s.pq.entries.length + 1), 0, 0, 0⟩
        { s with pq := ⟨s.pq.entries ++ [⟨k, s.pq.nextSeq, h⟩],
          if s.pq.entries.length = s.pq.cap then 2 * s.pq.cap else s.pq.cap, s.pq.nextSeq + 1⟩ }))

/-- 41_priority_queue.md R160, R161, R163, R164; 10_state.md R46: a queue with an item has a top; both commands answer it,
and PQ.EXTRACT takes exactly it out, the capacity halving once when fewer than a quarter is used. -/
def Obligations.PqExtractAndPeekAnswerTheTop : Prop :=
  ∀ s : State, s.status.fault = false →
    (s.pq.entries = [] →
      exec .pqExtract s = .next (s.faulted 2 0x21 0 0) ∧ exec .pqPeek s = .next (s.faulted 2 0x22 0 0)) ∧
    (s.pq.entries ≠ [] → s.QueueOk → ∃ x, QueueTop s.pqOrder s.pq.entries x) ∧
    (∀ x, QueueTop s.pqOrder s.pq.entries x →
      exec .pqPeek s = .next (s.answered ⟨x.handle, x.key, word s.pq.entries.length, 0⟩) ∧
      exec .pqExtract s = .next (State.answered ⟨x.handle, x.key, word (s.pq.entries.length - 1), 0⟩
        { s with pq := ⟨s.pq.entries.erase x,
          if 4 * (s.pq.entries.length - 1) < s.pq.cap ∧ s.cfg.pqMinCap ≤ s.pq.cap / 2 then s.pq.cap / 2 else s.pq.cap,
          s.pq.nextSeq⟩ }))

/-- 41_priority_queue.md R168: between two inserts, keys come out in the order of the comparator and equal keys in the order
of insertion. -/
def Obligations.ConsecutiveExtractsAreInOrder : Prop :=
  ∀ s : State, s.status.fault = false → s.QueueOk → 2 ≤ s.pq.entries.length →
    ∃ t u x y, exec .pqExtract s = .next t ∧ exec .pqExtract t = .next u ∧
      x ∈ s.pq.entries ∧ y ∈ s.pq.entries ∧ x ≠ y ∧
      t.completedWith ⟨x.handle, x.key, word (s.pq.entries.length - 1), 0⟩ ∧
      u.completedWith ⟨y.handle, y.key, word (s.pq.entries.length - 2), 0⟩ ∧
      (s.pqOrder = .minFirst → x.key.toNat ≤ y.key.toNat) ∧
      (s.pqOrder = .maxFirst → y.key.toNat ≤ x.key.toNat) ∧
      (x.key = y.key → x.seq < y.seq)

/-- 41_priority_queue.md R165, R166, R167; 10_state.md R50. -/
def Obligations.PqSizeIsemptyDestroy : Prop :=
  ∀ s : State, s.status.fault = false →
    exec .pqSize s = .next (s.answered ⟨word s.pq.entries.length, 0, 0, 0⟩) ∧
    exec .pqIsempty s = .next (s.answered ⟨if s.pq.entries = [] then 1 else 0, 0, 0, 0⟩) ∧
    exec (.pqDestroy false) s = .next (State.answered ⟨word s.pq.entries.length, 0, 0, 0⟩
      { s with pq := ⟨[], s.cfg.pqMinCap, 0⟩ }) ∧
    (s.NodesOk → ∃ t, exec (.pqDestroy true) s = .next t ∧ s.Freed s.queuedHandles t ∧
      s.FreedRegister s.queuedHandles s.root t.root ∧ s.FreedRegister s.queuedHandles s.cursor t.cursor ∧
      t.nodes.Sublist s.nodes ∧
      t = State.answered ⟨word s.pq.entries.length, word (s.nodes.length - t.nodes.length), 0, 0⟩
        { s with pq := ⟨[], s.cfg.pqMinCap, 0⟩, nodes := t.nodes, root := t.root, cursor := t.cursor })

/-! ## PT and FT -/

/-- 42_prefix_trie.md R180, R185; 20_memory.md R71, R88: the checks in their order; then exactly the non-empty prefixes of the
key are added as nodes and the payload at the key alone is set. -/
def Obligations.PtInsertStoresAtTheKey : Prop :=
  ∀ (s : State) (addr len v : Word), s.status.fault = false →
    let key := s.inBytes addr.toNat len.toNat
    let new := ((List.range key.length).filter fun j => key.take (j + 1) ∉ s.trie.paths).length
    let range := addr.toNat + len.toNat ≤ s.inLen.toNat
    (¬range → exec (.ptInsert addr len v) s = .next (s.faulted 9 0x30 4 addr)) ∧
    (range → len = 0 → exec (.ptInsert addr len v) s = .next (s.faulted 9 0x30 5 addr)) ∧
    (range → len ≠ 0 → ∀ x, s.LeastUnreadable addr.toNat len.toNat x →
      exec (.ptInsert addr len v) s = .next (s.faulted 8 0x30 (word x) 0)) ∧
    (range → len ≠ 0 → s.InReadable addr.toNat len.toNat → s.cfg.trieMax < s.trie.paths.length - 1 + new →
      exec (.ptInsert addr len v) s = .next (s.faulted 7 0x30 4 (word (s.trie.paths.length - 1)))) ∧
    (range → len ≠ 0 → s.InReadable addr.toNat len.toNat → s.trie.paths.length - 1 + new ≤ s.cfg.trieMax →
      ∃ trie, exec (.ptInsert addr len v) s = .next (State.answered ⟨0, 0, 0, 0⟩ { s with trie := trie }) ∧
        (∀ p, p ∈ trie.paths ↔ p ∈ s.trie.paths ∨ (p ≠ [] ∧ p <+: key)) ∧
        (∀ k, mapFind k trie.payload = if k = key then some v else mapFind k s.trie.payload))

/-- 42_prefix_trie.md R181, R186: the longest, or with the flag the shortest, stored key that is a prefix of the input; no
match is a result, not a fault. -/
def Obligations.PtSearchFindsTheBestPrefix : Prop :=
  ∀ (s : State) (addr len : Word) (greedy : Bool), s.status.fault = false →
    let data := s.inBytes addr.toNat len.toNat
    let range := addr.toNat + len.toNat ≤ s.inLen.toNat
    let w0 : Word := if greedy then 0x131 else 0x31
    (¬range → exec (.ptSearch addr len greedy) s = .next (s.faulted 9 w0 4 addr)) ∧
    (range → ∀ x, s.LeastUnreadable addr.toNat len.toNat x →
      exec (.ptSearch addr len greedy) s = .next (s.faulted 8 w0 (word x) 0)) ∧
    (range → s.InReadable addr.toNat len.toNat → (∀ e ∈ s.trie.payload, ¬e.1 <+: data) →
      exec (.ptSearch addr len greedy) s = .next (State.answered ⟨0, 0, 0, 0⟩
        { s with status := { s.status with found := false } })) ∧
    (range → s.InReadable addr.toNat len.toNat → s.TrieOk → ∀ e ∈ s.trie.payload, e.1 <+: data →
      (∀ x ∈ s.trie.payload, x.1 <+: data → if greedy then e.1.length ≤ x.1.length else x.1.length ≤ e.1.length) →
      exec (.ptSearch addr len greedy) s = .next (State.answered ⟨e.2, word e.1.length, 1, 0⟩
        { s with status := { s.status with found := true } }))

/-- 42_prefix_trie.md R182, R184: only a payload at exactly the key is removed, no node is; PT.CLEAR leaves the root alone. -/
def Obligations.PtRemoveAndClear : Prop :=
  ∀ (s : State) (addr len : Word), s.status.fault = false →
    let key := s.inBytes addr.toNat len.toNat
    let range := addr.toNat + len.toNat ≤ s.inLen.toNat
    (¬range → exec (.ptRemove addr len) s = .next (s.faulted 9 0x32 4 addr)) ∧
    (range → ∀ x, s.LeastUnreadable addr.toNat len.toNat x →
      exec (.ptRemove addr len) s = .next (s.faulted 8 0x32 (word x) 0)) ∧
    (range → s.InReadable addr.toNat len.toNat → mapFind key s.trie.payload = none →
      exec (.ptRemove addr len) s = .next (s.faulted 3 0x32 addr len)) ∧
    (range → s.InReadable addr.toNat len.toNat → mapFind key s.trie.payload ≠ none →
      ∃ payload, exec (.ptRemove addr len) s = .next (State.answered ⟨0, 0, 0, 0⟩
          { s with trie := { s.trie with payload := payload } }) ∧
        ∀ k, mapFind k payload = if k = key then none else mapFind k s.trie.payload) ∧
    exec .ptClear s = .next (State.answered ⟨0, 0, 0, 0⟩ { s with trie := ⟨[[]], []⟩ })

/-- 42_prefix_trie.md R183, 30_encoding.md R112: the keys that hold a payload, by rising `lex`, each with its length before
it. -/
def Obligations.PtKeysWritesTheKeysInOrder : Prop :=
  ∀ (s : State) (addr : Word) (list : List Bytes), s.status.fault = false → s.TrieOk →
    (∀ k, k ∈ list ↔ mapFind k s.trie.payload ≠ none) → list.Pairwise (fun x y => lexLt x y = true) →
    let v := list.flatMap fun k => u32le (word k.length) ++ k
    (∀ x, s.LeastUnwritable addr.toNat v.length x → exec (.ptKeys addr) s = .next (s.faulted 8 0x33 (word x) 1)) ∧
    (s.OutWritable addr.toNat v.length →
      exec (.ptKeys addr) s = .next (State.answered ⟨word list.length, word v.length, 0, 0⟩ (s.wrote addr.toNat v)))

/-- 43_huffman_tree.md R200, R202: a count of 0 deletes the entry, any other is stored; no other entry changes. -/
def Obligations.FtSetAndClear : Prop :=
  ∀ (s : State) (addr len count : Word), s.status.fault = false →
    let key := s.inBytes addr.toNat len.toNat
    let range := addr.toNat + len.toNat ≤ s.inLen.toNat
    (¬range → exec (.ftSet addr len count) s = .next (s.faulted 9 0x40 4 addr)) ∧
    (range → len = 0 → exec (.ftSet addr len count) s = .next (s.faulted 9 0x40 5 addr)) ∧
    (range → len ≠ 0 → ∀ x, s.LeastUnreadable addr.toNat len.toNat x →
      exec (.ftSet addr len count) s = .next (s.faulted 8 0x40 (word x) 0)) ∧
    (range → len ≠ 0 → s.InReadable addr.toNat len.toNat → count ≠ 0 → mapFind key s.ft = none →
      s.cfg.ftMax ≤ s.ft.length → exec (.ftSet addr len count) s = .next (s.faulted 7 0x40 5 (word s.ft.length))) ∧
    (range → len ≠ 0 → s.InReadable addr.toNat len.toNat →
      (count = 0 ∨ mapFind key s.ft ≠ none ∨ s.ft.length < s.cfg.ftMax) →
      ∃ ft, exec (.ftSet addr len count) s = .next (State.answered ⟨word ft.length, 0, 0, 0⟩ { s with ft := ft }) ∧
        ∀ k, mapFind k ft = if k = key then (if count = 0 then none else some count) else mapFind k s.ft) ∧
    exec .ftClear s = .next (State.answered ⟨0, 0, 0, 0⟩ { s with ft := [] })

/-! ## HT: nodes -/

/-- 43_huffman_tree.md R205, 10_state.md R48. -/
def Obligations.HtLeafAllocatesAndQueues : Prop :=
  ∀ (s : State) (sym freq : Word), s.status.fault = false →
    let room := s.nodes.length < s.cfg.nodeMax ∧ s.nextHandle < 0xFFFFFFFF
    (freq = 0 → exec (.htLeaf sym freq) s = .next (s.faulted 9 0x50 9 sym)) ∧
    (freq ≠ 0 → ¬room → exec (.htLeaf sym freq) s = .next (s.faulted 7 0x50 3 (word s.nodes.length))) ∧
    (freq ≠ 0 → room → s.cfg.pqMaxCap ≤ s.pq.entries.length →
      exec (.htLeaf sym freq) s = .next (s.faulted 7 0x50 2 (word s.pq.entries.length))) ∧
    (freq ≠ 0 → room → s.pq.entries.length < s.cfg.pqMaxCap →
      ∃ nodes, exec (.htLeaf sym freq) s = .next (State.answered ⟨word s.nextHandle, 0, 0, 0⟩
          { s with
            nodes := nodes
            nextHandle := s.nextHandle + 1
            pq := ⟨s.pq.entries ++ [⟨freq, s.pq.nextSeq, word s.nextHandle⟩],
              if s.pq.entries.length = s.pq.cap then 2 * s.pq.cap else s.pq.cap, s.pq.nextSeq + 1⟩ }) ∧
        ∀ h, mapFind h nodes = if h = word s.nextHandle then some (.leaf sym freq) else mapFind h s.nodes)

/-- 43_huffman_tree.md R203, 10_state.md R46, R49: the checks in their order; then the two first items of the queue become the
left and the right child of a new node with the sum of their keys, which is queued with that key. The capacity follows
41_priority_queue.md R160: the halving rule after each extract, then the doubling of a full queue. -/
def Obligations.HtMergeJoinsTheTwoFirstItems : Prop :=
  ∀ s : State, s.status.fault = false → s.QueueOk →
    (s.pqOrder = .maxFirst → exec .htMerge s = .next (s.faulted 9 0x51 8 3)) ∧
    (s.pqOrder = .minFirst → s.pq.entries.length < 2 →
      exec .htMerge s = .next (s.faulted 2 0x51 (word s.pq.entries.length) 0)) ∧
    (s.pqOrder = .minFirst → ∀ x y, QueueTop .minFirst s.pq.entries x → QueueTop .minFirst (s.pq.entries.erase x) y →
      let joinable := NodeMap.live s.nodes x.handle = true ∧ NodeMap.live s.nodes y.handle = true ∧
        x.handle ≠ y.handle ∧ ∀ e ∈ s.nodes, x.handle ∉ e.2.children ∧ y.handle ∉ e.2.children
      let sum := x.key.toNat + y.key.toNat
      let room := s.nodes.length < s.cfg.nodeMax ∧ s.nextHandle < 0xFFFFFFFF
      (¬joinable → exec .htMerge s = .next (s.faulted 9 0x51 8 4)) ∧
      (joinable → 2 ^ 32 ≤ sum → exec .htMerge s = .next (s.faulted 7 0x51 6 x.key)) ∧
      (joinable → sum < 2 ^ 32 → ¬room → exec .htMerge s = .next (s.faulted 7 0x51 3 (word s.nodes.length))) ∧
      (joinable → sum < 2 ^ 32 → room →
        let cap₁ := shrinkCap s.cfg (s.pq.entries.length - 1) s.pq.cap
        let cap₂ := shrinkCap s.cfg (s.pq.entries.length - 2) cap₁
        ∃ nodes, exec .htMerge s = .next (State.answered ⟨word s.nextHandle, word sum, 0, 0⟩
            { s with
              nodes := nodes
              nextHandle := s.nextHandle + 1
              pq := ⟨(s.pq.entries.erase x).erase y ++ [⟨word sum, s.pq.nextSeq, word s.nextHandle⟩],
                if s.pq.entries.length - 2 = cap₂ then 2 * cap₂ else cap₂, s.pq.nextSeq + 1⟩ }) ∧
          ∀ h, mapFind h nodes =
            if h = word s.nextHandle then some (.internal x.handle y.handle (word sum)) else mapFind h s.nodes))

/-- 43_huffman_tree.md R206, R207; 10_state.md R50: reading a node, and freeing exactly the live nodes reachable from one. -/
def Obligations.HtNodeReadsAndHtFreeReleases : Prop :=
  ∀ (s : State) (h : Word), s.status.fault = false →
    (mapFind h s.nodes = none →
      exec (.htNode h) s = .next (s.faulted 3 0x56 h 0) ∧ exec (.htFree h) s = .next (s.faulted 3 0x53 h 0)) ∧
    (∀ sym freq, mapFind h s.nodes = some (.leaf sym freq) →
      exec (.htNode h) s = .next (s.answered ⟨1, sym, 0xFFFFFFFF, freq⟩)) ∧
    (∀ l r freq, mapFind h s.nodes = some (.internal l r freq) →
      exec (.htNode h) s = .next (s.answered ⟨0, l, r, freq⟩)) ∧
    (mapFind h s.nodes ≠ none → s.NodesOk →
      ∃ t, exec (.htFree h) s = .next t ∧ s.Freed [h] t ∧ s.FreedRegister [h] s.root t.root ∧
        s.FreedRegister [h] s.cursor t.cursor ∧ t.nodes.Sublist s.nodes ∧
        t = State.answered ⟨word (s.nodes.length - t.nodes.length), 0, 0, 0⟩
          { s with nodes := t.nodes, root := t.root, cursor := t.cursor })

/-- 10_state.md R51: the model's tree at ROOT is the well-formed tree there, `none` when ROOT is NULL or the tree is not
well-formed. -/
def Obligations.RootTreeIsTheWellFormedTree : Prop :=
  ∀ s : State, s.NodesOk → ∀ T, s.rootTree = some T ↔ IsTree s.nodes s.root T

/-- 10_state.md R48, R49: no command but SYS.RESET lowers the counter, changes a node, or brings a handle that is not live
back. -/
def Obligations.HandlesAreNeverReusedNorNodesChanged : Prop :=
  ∀ (i : Instr) (s t : State), i ≠ .sysReset → exec i s = .next t →
    s.nextHandle ≤ t.nextHandle ∧
    ∀ h n, h.toNat < s.nextHandle → mapFind h t.nodes = some n → mapFind h s.nodes = some n

/-! ## HT: the builder -/

/-- 43_huffman_tree.md R201, R204, R208, R209: what HT.BUILD releases, refuses and builds. The tree has one leaf per symbol of
the table with its count, every internal node the sum of its children; that its shape is the one of the merges in queue order
is `HtBuildIsLeavesMergesAndExtract`. The queue ends empty: 2n − 1 insertions were made since it was destroyed, and the halving
of 41_priority_queue.md R160 has brought its capacity back to PQ_MIN_CAP. A node that cannot be allocated, a leaf that cannot
be queued and a sum that does not fit are AllocationFailure 3, 2 and 6. -/
def Obligations.HtBuildBuildsTheTreeOfTheTable : Prop :=
  ∀ (s : State) (base : NodeMap), s.status.fault = false → s.cfg.wellFormed = true → s.NodesOk → s.TablesOk →
    let keys := s.ft.map Prod.fst
    let counts := (symbolIds s.mode keys).zip (s.ft.map Prod.snd)
    let n := s.ft.length
    let total := (s.ft.map fun e => e.2.toNat).sum
    let released := s.queuedHandles ++ [s.root]
    let legal := s.mode = .char → ∀ k ∈ keys, k.length = 1
    let fits := base.length + (2 * n - 1) ≤ s.cfg.nodeMax ∧ s.nextHandle + (2 * n - 1) ≤ 0xFFFFFFFF
    s.LeftAfterFreeing released base →
    (¬legal → ∃ t, exec .htBuild s = .next t ∧ t.FaultedWith 9 0x52 8 7) ∧
    (s.ft = [] →
      ∃ t, exec .htBuild s = .next t ∧ s.Freed released t ∧ s.FreedRegister released s.cursor t.cursor ∧
        t = State.answered ⟨0xFFFFFFFF, 0, 0, 0⟩
        { s with
          nodes := t.nodes
          root := 0xFFFFFFFF
          cursor := t.cursor
          pq := ⟨[], s.cfg.pqMinCap, 0⟩
          pqOrder := .minFirst
          code := []
          symtab := []
          status := { s.status with empty := true } }) ∧
    (legal → ∀ k, k < 2 * n - 1 → (k < n → k ≤ s.cfg.pqMaxCap) → (n ≤ k → n ≤ s.cfg.pqMaxCap ∧ total < 2 ^ 32) →
      base.length + k ≤ s.cfg.nodeMax → s.nextHandle + k ≤ 0xFFFFFFFF →
      (base.length + k = s.cfg.nodeMax ∨ s.nextHandle + k = 0xFFFFFFFF) →
      ∃ t, exec .htBuild s = .next t ∧ t.FaultedWith 7 0x52 3 (word (base.length + k))) ∧
    (legal → s.cfg.pqMaxCap < n → base.length + s.cfg.pqMaxCap < s.cfg.nodeMax →
      s.nextHandle + s.cfg.pqMaxCap < 0xFFFFFFFF →
      ∃ t, exec .htBuild s = .next t ∧ t.FaultedWith 7 0x52 2 (word s.cfg.pqMaxCap)) ∧
    (legal → n ≤ s.cfg.pqMaxCap → fits → 2 ^ 32 ≤ total →
      ∃ t addend, exec .htBuild s = .next t ∧ t.FaultedWith 7 0x52 6 addend) ∧
    (s.ft ≠ [] → legal → n ≤ s.cfg.pqMaxCap → fits → total < 2 ^ 32 →
      ∃ t T, exec .htBuild s = .next t ∧ s.Freed released t ∧ s.FreedRegister released s.cursor t.cursor ∧
        IsTree t.nodes t.root T ∧ T.syms.Perm (symbolIds s.mode keys) ∧ Weighs t.nodes counts t.root total ∧
        t = State.answered ⟨t.root, word n, 0, 0⟩
          { s with
            nodes := t.nodes
            nextHandle := s.nextHandle + (2 * n - 1)
            root := t.root
            cursor := t.cursor
            pq := ⟨[], s.cfg.pqMinCap, 2 * n - 1⟩
            pqOrder := .minFirst
            code := []
            symtab := if s.mode = .word then keys else []
            status := { s.status with empty := false } })

/-- 43_huffman_tree.md R203 to R205, R209 (3): on an engine with an empty queue, the min-first comparator and no tree, HT.BUILD
leaves the same node store and the same root as one HT.LEAF per symbol in ascending id, HT.MERGE n − 1 times, and PQ.EXTRACT;
and where it is AllocationFailure, so are these, with the same resource and the same size. -/
def Obligations.HtBuildIsLeavesMergesAndExtract : Prop :=
  ∀ s t : State, s.Inv → s.status.fault = false → s.pq.entries = [] → s.pqOrder = .minFirst → s.root = 0xFFFFFFFF →
    s.ft ≠ [] → exec .htBuild s = .next t →
    let leaves := ((symbolIds s.mode (s.ft.map Prod.fst)).zip (s.ft.map Prod.snd)).map fun e => Instr.htLeaf e.1 e.2
    let commands := leaves ++ List.replicate (s.ft.length - 1) .htMerge ++ [.pqExtract]
    (t.status.fault = false →
      ∃ u, execAll commands s = some u ∧ u.status.fault = false ∧ u.nodes = t.nodes ∧ u.nextHandle = t.nextHandle ∧
        u.res.r0 = t.root ∧ u.pq.entries = []) ∧
    (t.err = 7 →
      ∃ u, execAll commands s = some u ∧ u.status.fault = true ∧ u.err = 7 ∧ u.errInfo0 = t.errInfo0 ∧
        u.errInfo1 = t.errInfo1)

/-! ## HT: serialization -/

/-- 44_tree_serialization.md R220, 30_encoding.md R113, R114. -/
def Obligations.HtSerWritesTheTree : Prop :=
  ∀ (s : State) (addr : Word), s.status.fault = false →
    (s.rootTree = none → exec (.htSer addr) s = .next (s.faulted 9 0x54 8 5)) ∧
    (∀ T, s.rootTree = some T →
      let bits := T.ser s.mode
      let named := s.mode = .char → ∀ x ∈ T.syms, x.toNat ≤ 255
      (¬named → exec (.htSer addr) s = .next (s.faulted 9 0x54 8 6)) ∧
      (named → s.cfg.bbMaxBits < bits.length →
        exec (.htSer addr) s = .next (s.faulted 7 0x54 1 (word bits.length))) ∧
      (named → bits.length ≤ s.cfg.bbMaxBits → ∀ x, s.LeastUnwritable addr.toNat ((bits.length + 7) / 8) x →
        exec (.htSer addr) s = .next (s.faulted 8 0x54 (word x) 1)) ∧
      (named → bits.length ≤ s.cfg.bbMaxBits → s.OutWritable addr.toNat ((bits.length + 7) / 8) →
        exec (.htSer addr) s = .next (State.answered ⟨word ((bits.length + 7) / 8), word bits.length, 0, 0⟩
          (State.wrote addr.toNat (pack bits)
            { s with bb := s.bb.set 1 ⟨bits, grow s.cfg (s.buf 1).cap ((bits.length + 7) / 8)⟩ }))))

/-- 30_encoding.md R115: the size of a serialized tree. -/
def Obligations.SerializedTreeSize : Prop :=
  ∀ (m : Mode) (T : Machine.Tree),
    (T.ser m).length = (2 * T.syms.length - 1) + T.syms.length * (match m with | .char => 8 | .word => 32) ∧
    1 ≤ T.syms.length ∧ T.size = 2 * T.syms.length - 1

/-- 44_tree_serialization.md R221, R222: HT.DESER reads back every tree whose bits start the section, whatever follows them;
a section that starts with no tree, or a range that is not in IN, is a fault. The first failing check in stream order decides
which: after tokens that leave the tree open, NODE_MAX reached is AllocationFailure(3, live nodes), a section that ends there
CorruptContainer(B, 3), a leaf whose id names no word CorruptContainer(address of its discriminator, 4); a tree for which the
handles do not suffice is AllocationFailure(3, live nodes). RES1 of a tree of 2^32 bits or more is a free value, on which
the statement says nothing (log 15). -/
def Obligations.HtDeserReadsTheTreeBack : Prop :=
  ∀ (s : State) (a b : Word) (base : NodeMap), s.status.fault = false → s.NodesOk → s.LeftAfterFreeing [s.root] base →
    let range := a.toNat ≤ b.toNat ∧ b.toNat ≤ s.inLen.toNat
    let readable := s.InReadable a.toNat (b.toNat - a.toNat)
    let bits := unpack (s.inBytes a.toNat (b.toNat - a.toNat))
    (¬range → ∃ t, exec (.htDeser a b) s = .next t ∧ t.FaultedWith 9 0x55 4 a) ∧
    (range → ∀ x, s.LeastUnreadable a.toNat (b.toNat - a.toNat) x →
      ∃ t, exec (.htDeser a b) s = .next t ∧ t.FaultedWith 8 0x55 (word x) 0) ∧
    (range → readable → ∀ (toks : List TreeToken) (rest : Bits), treeOpen toks = true →
      (∀ sym, .leaf sym ∈ toks → symbolFits s.mode s.symtab sym) → bits = toks.flatMap (TreeToken.bits s.mode) ++ rest →
      s.nextHandle + toks.length ≤ 0xFFFFFFFF →
      (base.length + toks.length = s.cfg.nodeMax →
        ∃ t, exec (.htDeser a b) s = .next t ∧
          t.FaultedWith 7 0x55 3 (word (base.length + (toks.length - openNodes toks)))) ∧
      (base.length + toks.length < s.cfg.nodeMax →
        (rest = [] ∨ ∃ short, rest = true :: short ∧ short.length < symWidth s.mode) →
        ∃ t, exec (.htDeser a b) s = .next t ∧ t.FaultedWith 6 0x55 b 3) ∧
      (base.length + toks.length < s.cfg.nodeMax → ∀ sym more, s.mode = .word →
        rest = (TreeToken.leaf sym).bits s.mode ++ more → s.symtab.length ≤ sym.toNat →
        ∃ t, exec (.htDeser a b) s = .next t ∧
          t.FaultedWith 6 0x55 (word (a.toNat + (toks.flatMap (TreeToken.bits s.mode)).length / 8)) 4)) ∧
    (range → readable →
      (∀ T : Machine.Tree, (∀ x ∈ T.syms, symbolFits s.mode s.symtab x) → ¬T.ser s.mode <+: bits) →
      ∃ t, exec (.htDeser a b) s = .next t ∧ t.status.fault = true ∧ (t.err = 6 ∨ t.err = 7)) ∧
    (range → readable →
      ∀ T : Machine.Tree, (∀ x ∈ T.syms, symbolFits s.mode s.symtab x) → T.ser s.mode <+: bits →
      base.length + T.size ≤ s.cfg.nodeMax →
      (0xFFFFFFFF < s.nextHandle + T.size →
        ∃ t, exec (.htDeser a b) s = .next t ∧
          t.FaultedWith 7 0x55 3 (word (base.length + (0xFFFFFFFF - s.nextHandle)))) ∧
      (s.nextHandle + T.size ≤ 0xFFFFFFFF →
        ∃ t consumed, exec (.htDeser a b) s = .next t ∧ s.Freed [s.root] t ∧
          ((T.ser s.mode).length < 2 ^ 32 → consumed = word (T.ser s.mode).length) ∧
          s.FreedRegister [s.root] s.cursor t.cursor ∧ IsTree t.nodes t.root T ∧
          (∀ e ∈ t.nodes, s.nextHandle ≤ e.1.toNat → Weighs t.nodes (T.syms.map fun x => (x, 0)) e.1 0) ∧
          t = State.answered ⟨word (s.nextHandle + T.size - 1), consumed, 0, 0⟩
            { s with
              nodes := t.nodes
              nextHandle := s.nextHandle + T.size
              root := word (s.nextHandle + T.size - 1)
              cursor := t.cursor
              code := [] }))

/-- 44_tree_serialization.md R227: the bytes that HT.SER writes, read by HT.DESER on an engine of the same mode with room for
the tree, give the same tree, and CT.GEN on the two trees the same code table whenever it completes on both. In CHAR mode it
does; in WORD mode it may fault where the words of an engine's symbol table do not fit its trie (45_code_table.md R241). -/
def Obligations.TreeFormatRoundTrip : Prop :=
  ∀ (s t u : State) (addr a : Word) (T : Machine.Tree), s.Inv → s.status.fault = false → s.rootTree = some T →
    exec (.htSer addr) s = .next t → t.status.fault = false →
    u.Inv → u.status.fault = false → u.mode = s.mode → (∀ x ∈ T.syms, symbolFits u.mode u.symtab x) →
    a.toNat + t.res.r0.toNat ≤ u.inLen.toNat → u.InReadable a.toNat t.res.r0.toNat →
    (∀ k, k < t.res.r0.toNat → u.inByte (a.toNat + k) = t.outByte (addr.toNat + k)) →
    u.nodes.length + T.size ≤ u.cfg.nodeMax → u.nextHandle + T.size ≤ 0xFFFFFFFF →
    ∃ v, exec (.htDeser a (a + t.res.r0)) u = .next v ∧ v.status.fault = false ∧ v.rootTree = some T ∧
      (∀ p q, exec .ctGen s = .next p → exec .ctGen v = .next q → p.status.fault = false → q.status.fault = false →
        q.code = p.code) ∧
      (s.mode = .char → ∃ p q, exec .ctGen s = .next p ∧ exec .ctGen v = .next q ∧ p.status.fault = false ∧
        q.status.fault = false)

/-! ## CT -/

/-- 45_code_table.md R240, R241 in CHAR mode, and its refusal in both modes: each symbol gets the path of its first leaf in
the walk, the lone leaf the code `0`; SCR is emptied, its capacity grown for the longest path. -/
def Obligations.CtGenDerivesTheCodes : Prop :=
  ∀ s : State, s.status.fault = false →
    (s.rootTree = none → ∃ t, exec .ctGen s = .next t ∧ t.FaultedWith 9 0x60 8 5) ∧
    (∀ T D, s.rootTree = some T → s.mode = .char → (∀ e ∈ T.codes, e.2.length ≤ D) → (∃ e ∈ T.codes, e.2.length = D) →
      ∃ code, exec .ctGen s = .next (State.answered ⟨word code.length, 0, 0, 0⟩
          { s with code := code, bb := s.bb.set 1 ⟨[], grow s.cfg (s.buf 1).cap ((D + 7) / 8)⟩ }) ∧
        ∀ sym, mapFind sym code = (T.codes.find? fun e => e.1 == sym).map Prod.snd)

/-- 45_code_table.md R241 in WORD mode: SCR as in CHAR mode; the trie holds exactly the words of the symbol table, each with
its last index; when their prefixes are more than TRIE_MAX the command faults at the first word that does not fit, with the
number of nodes that the words before it made. -/
def Obligations.CtGenLoadsTheTrie : Prop :=
  ∀ (s : State) (T : Machine.Tree) (D : Nat), s.status.fault = false → s.TablesOk → s.rootTree = some T → s.mode = .word →
    (∀ e ∈ T.codes, e.2.length ≤ D) → (∃ e ∈ T.codes, e.2.length = D) →
    let covers := fun (ps : List Bytes) (words : List Bytes) => ∀ w ∈ words, ∀ p, p ≠ [] → p <+: w → p ∈ ps
    (∀ k ps, ps.Nodup → covers ps (s.symtab.take k) → (∀ p ∈ ps, p ≠ [] ∧ ∃ w ∈ s.symtab.take k, p <+: w) →
      ps.length ≤ s.cfg.trieMax → (∀ qs, covers qs (s.symtab.take (k + 1)) → s.cfg.trieMax < qs.length) →
      ∃ t, exec .ctGen s = .next t ∧ t.FaultedWith 7 0x60 4 (word ps.length)) ∧
    (∀ ps, covers ps s.symtab → ps.length ≤ s.cfg.trieMax →
      ∃ code trie, exec .ctGen s = .next (State.answered ⟨word code.length, 0, 0, 0⟩
          { s with
            code := code
            bb := s.bb.set 1 ⟨[], grow s.cfg (s.buf 1).cap ((D + 7) / 8)⟩
            trie := trie }) ∧
        (∀ sym, mapFind sym code = (T.codes.find? fun e => e.1 == sym).map Prod.snd) ∧
        (∀ p, p ∈ trie.paths ↔ p = [] ∨ ∃ w ∈ s.symtab, p <+: w) ∧
        (∀ w, w ∉ s.symtab → mapFind w trie.payload = none) ∧
        (∀ k w, s.symtab[k]? = some w → (∀ j, k < j → s.symtab[j]? ≠ some w) →
          mapFind w trie.payload = some (word k)))

/-- 45_code_table.md R243: the codes of a tree of at least two leaves with different symbols: one per leaf, none a prefix of
another, and their Kraft sum is 1. -/
def Obligations.CodesArePrefixFreeAndComplete : Prop :=
  ∀ T : Machine.Tree, 2 ≤ T.syms.length → T.syms.Nodup →
    T.codes.map Prod.fst = T.syms ∧
    (∀ e ∈ T.codes, mapFind e.1 T.codeTable = some e.2) ∧
    T.codes.Pairwise (fun x y => ¬x.2 <+: y.2 ∧ ¬y.2 <+: x.2) ∧
    ∀ D, (∀ e ∈ T.codes, e.2.length ≤ D) → (T.codes.map fun e => 2 ^ (D - e.2.length)).sum = 2 ^ D

/-- 45_code_table.md R242, 44_tree_serialization.md R224, in every configuration. -/
def Obligations.CtGetAndCtStstore : Prop :=
  ∀ (s : State) (sym b addr : Word), s.status.fault = false →
    let v := s.symtab.flatMap fun w => u32le (word w.length) ++ w
    (s.cfg.nb ≤ b.toNat → exec (.ctGet sym b) s = .next (s.faulted 9 0x61 2 b)) ∧
    (b.toNat < s.cfg.nb → mapFind sym s.code = none → exec (.ctGet sym b) s = .next (s.faulted 4 0x61 sym 0)) ∧
    (b.toNat < s.cfg.nb → ∀ c, mapFind sym s.code = some c →
      exec (.ctGet sym b) s = .next (State.answered ⟨word c.length, 0, 0, 0⟩
        { s with bb := s.bb.set b.toNat ⟨c, max s.cfg.bbMinCap ((c.length + 7) / 8)⟩ })) ∧
    (∀ x, s.LeastUnwritable addr.toNat v.length x → exec (.ctStstore addr) s = .next (s.faulted 8 0x63 (word x) 1)) ∧
    (s.OutWritable addr.toNat v.length →
      exec (.ctStstore addr) s = .next (State.answered ⟨word v.length, word s.symtab.length, 0, 0⟩
        (s.wrote addr.toNat v)))

/-- 44_tree_serialization.md R223, R225; 30_encoding.md R112; 20_memory.md R71: CT.STLOAD accepts exactly the sections that are
the table of a list of non-empty words. After the entries of such a list, a length prefix that does not fit, is 0 or whose
entry does not fit is CorruptContainer at that prefix, and an unreadable byte of a prefix or an entry that fits is IOError at
that byte. -/
def Obligations.CtStloadReadsExactlyTheTables : Prop :=
  ∀ (s : State) (a b : Word), s.status.fault = false →
    let range := a.toNat ≤ b.toNat ∧ b.toNat ≤ s.inLen.toNat
    let readable := s.InReadable a.toNat (b.toNat - a.toNat)
    let section_ := s.inBytes a.toNat (b.toNat - a.toNat)
    let table := fun list : List Bytes => list.flatMap fun w => u32le (word w.length) ++ w
    (¬range → exec (.ctStload a b) s = .next (s.faulted 9 0x62 4 a)) ∧
    (range → readable → ∀ list : List Bytes, (∀ w ∈ list, w ≠ []) → section_ = table list →
      exec (.ctStload a b) s = .next (State.answered ⟨word list.length, 0, 0, 0⟩ { s with symtab := list })) ∧
    (range → readable → (∀ list : List Bytes, (∀ w ∈ list, w ≠ []) → section_ ≠ table list) →
      ∃ p, a.toNat ≤ p ∧ p < b.toNat ∧ exec (.ctStload a b) s = .next (s.faulted 6 0x62 (word p) 2)) ∧
    (range → ∀ (list : List Bytes) (rest : Bytes), (∀ w ∈ list, w ≠ []) → section_ = table list ++ rest → rest ≠ [] →
      let p := a.toNat + (table list).length
      let n := (le32 (rest.take 4)).toNat
      (s.InReadable a.toNat (table list).length → rest.length < 4 →
        exec (.ctStload a b) s = .next (s.faulted 6 0x62 (word p) 2)) ∧
      (s.InReadable a.toNat ((table list).length + 4) → 4 ≤ rest.length → (n = 0 ∨ rest.length < 4 + n) →
        exec (.ctStload a b) s = .next (s.faulted 6 0x62 (word p) 2)) ∧
      (∀ x, s.LeastUnreadable a.toNat (b.toNat - a.toNat) x → p ≤ x → 4 ≤ rest.length →
        (x < p + 4 ∨ (n ≠ 0 ∧ 4 + n ≤ rest.length ∧ x < p + 4 + n)) →
        exec (.ctStload a b) s = .next (s.faulted 8 0x62 (word x) 0)))

/-! ## CD -/

/-- 46_codec_encode.md R250, R251: PAY holds the codes of the tokens in order, SYMCOUNT their number; a token without a code,
or input at which no token starts, is UnknownSymbol at its first byte. -/
def Obligations.CdEpassAppendsTheCodes : Prop :=
  ∀ (s : State) (a b : Word), s.status.fault = false → s.cfg.wellFormed = true → s.BuffersOk → s.TrieOk →
    let range := a.toNat ≤ b.toNat ∧ b.toNat ≤ s.inLen.toNat
    let data := s.inBytes a.toNat (b.toNat - a.toNat)
    let coded := fun (id : Word) (c : Bits) => mapFind id s.code = some c
    (¬range → ∃ t, exec (.cdEpass a b) s = .next t ∧ t.FaultedWith 9 0x72 4 a) ∧
    (range → ∀ x, s.LeastUnreadable a.toNat (b.toNat - a.toNat) x →
      ∃ t, exec (.cdEpass a b) s = .next t ∧ t.FaultedWith 8 0x72 (word x) 0) ∧
    (range → s.InReadable a.toNat (b.toNat - a.toNat) → ∀ ids codes, s.Tokens data ids [] →
      List.Forall₂ coded ids codes → codes.flatten.length ≤ s.cfg.bbMaxBits →
      exec (.cdEpass a b) s = .next (State.answered ⟨word ids.length, word codes.flatten.length, 0, 0⟩
        { s with
          symCount := word ids.length
          bb := s.bb.set 0 ⟨codes.flatten, grow s.cfg (s.buf 0).cap ((codes.flatten.length + 7) / 8)⟩ })) ∧
    (range → s.InReadable a.toNat (b.toNat - a.toNat) → ∀ ids codes first rest, s.Tokens data ids (first :: rest) →
      List.Forall₂ coded ids codes → codes.flatten.length ≤ s.cfg.bbMaxBits →
      (∀ id n, s.SymbolAt (first :: rest) id n → mapFind id s.code = none) →
      ∃ t, exec (.cdEpass a b) s = .next t ∧
        t.FaultedWith 4 0x72 (word (a.toNat + (data.length - (first :: rest).length))) (first.setWidth 32))

/-- 47_codec_decode.md R265, R267; 45_code_table.md R243: fed the codes of symbols, whatever follows them, the automaton emits
exactly these symbols, appends their bytes at OUT_LEN and stands after their last bit; when the payload ends inside the count,
or a 1 comes under a single leaf, it is CorruptStream at that bit. -/
def Obligations.CdDpassInvertsTheCodes : Prop :=
  ∀ (s : State) (a b count : Word), s.status.fault = false → s.cfg.wellFormed = true → s.NodesOk →
    let range := a.toNat ≤ b.toNat ∧ b.toNat ≤ s.inLen.toNat
    let bits := unpack (s.inBytes a.toNat (b.toNat - a.toNat))
    (¬range → ∃ t, exec (.cdDpass a b count) s = .next t ∧ t.FaultedWith 9 0x73 4 a) ∧
    (range → s.root = 0xFFFFFFFF → ∃ t, exec (.cdDpass a b count) s = .next t ∧ t.FaultedWith 9 0x73 8 5) ∧
    (range → s.InReadable a.toNat (b.toNat - a.toNat) → ∀ T ids codes outs rest, s.rootTree = some T →
      List.Forall₂ (fun id c => (id, c) ∈ T.codes) ids codes →
      List.Forall₂ (fun id v => s.symbolBytes id = some v) ids outs →
      bits = codes.flatten ++ rest → s.OutWritable s.outLen.toNat outs.flatten.length →
      (count.toNat = ids.length →
        exec (.cdDpass a b count) s = .next (State.answered ⟨word outs.flatten.length, count, 0, 0⟩
          (s.wrote s.outLen.toNat outs.flatten |> fun s' => { s' with
            cursor := s.root
            dpos := word (a.toNat + codes.flatten.length / 8)
            dbit := word (codes.flatten.length % 8)
            emitted := count }))) ∧
      (ids.length < count.toNat → (∃ id c, (id, c) ∈ T.codes ∧ rest <+: c ∧ rest ≠ c) →
        ∃ t, exec (.cdDpass a b count) s = .next t ∧ t.FaultedWith 5 0x73 b 0) ∧
      (ids.length < count.toNat → (∃ sym more, T = .leaf sym ∧ rest = true :: more) →
        ∃ t, exec (.cdDpass a b count) s = .next t ∧
          t.FaultedWith 5 0x73 (word (a.toNat + codes.flatten.length / 8)) (word (codes.flatten.length % 8))))

/-- 46_codec_encode.md R252; 30_encoding.md R110 to R117: with a table whose words the input splits into, and room for the
result, CD.ENCODE writes header, symbol table (WORD mode), tree and payload from OUT address 0. -/
def Obligations.CdEncodeWritesTheContainer : Prop :=
  ∀ s : State, s.Inv → s.status.fault = false → s.InReadable 0 s.inLen.toNat →
    let keys := s.ft.map Prod.fst
    let n := s.ft.length
    let table := if s.mode = .word then keys.flatMap fun w => u32le (word w.length) ++ w else []
    let treeBits := (2 * n - 1) + n * (match s.mode with | .char => 8 | .word => 32)
    (s.ft = [] → s.inLen = 0 → s.OutWritable 0 16 →
      ∃ t, exec .cdEncode s = .next t ∧ t.completedWith ⟨16, 0, 16, 16⟩ ∧ t.outLen = 16 ∧ t.status.empty = true ∧
        (List.range 16).map t.outByte = u32le 16 ++ u32le 16 ++ u32le 16 ++ u32le 0) ∧
    (s.ft = [] → s.inLen ≠ 0 →
      ∃ t, exec .cdEncode s = .next t ∧ t.FaultedWith 4 0x70 0 ((s.inByte 0).setWidth 32)) ∧
    (s.ft ≠ [] → (s.mode = .char → ∀ k ∈ keys, k.length = 1) → n ≤ s.cfg.pqMaxCap →
      s.nodes.length + (2 * n - 1) ≤ s.cfg.nodeMax → s.nextHandle + (2 * n - 1) ≤ 0xFFFFFFFF →
      (s.ft.map fun e => e.2.toNat).sum < 2 ^ 32 → (s.mode = .word → (keys.map List.length).sum ≤ s.cfg.trieMax) →
      ∀ words, LongestSplit keys (s.inBytes 0 s.inLen.toNat) words →
      treeBits ≤ s.cfg.bbMaxBits → n * words.length ≤ s.cfg.bbMaxBits →
      s.OutWritable 0 (16 + table.length + (treeBits + 7) / 8 + (n * words.length + 7) / 8) →
      ∃ t T codes, exec .cdEncode s = .next t ∧ t.rootTree = some T ∧ T.syms.Perm (symbolIds s.mode keys) ∧
        List.Forall₂ (fun w c => ∃ id, (w, id) ∈ keys.zip (symbolIds s.mode keys) ∧ (id, c) ∈ T.codes) words codes ∧
        let tree := 16 + table.length
        let payload := tree + ((T.ser s.mode).length + 7) / 8
        let container := u32le (word tree) ++ u32le 16 ++ u32le (word payload) ++ u32le (word words.length) ++ table ++
          pack (T.ser s.mode) ++ pack codes.flatten
        t.completedWith ⟨word container.length, word words.length, word tree, word payload⟩ ∧
        t.outLen = word container.length ∧ t.symCount = word words.length ∧ t.status.empty = false ∧
        (List.range container.length).map t.outByte = container)

/-- 47_codec_decode.md R266, 30_encoding.md R111: CD.DECODE refuses a header that is too short or out of order, answers the
empty output for a count of 0, and reads every container whose sections are a symbol table, a tree and the codes of symbols,
whatever fills the sections' ends. -/
def Obligations.CdDecodeReadsTheContainer : Prop :=
  ∀ (s : State) (tree table payload count : Word), s.Inv → s.status.fault = false →
    s.InReadable 0 s.inLen.toNat →
    (s.inLen.toNat < 16 → ∃ t, exec .cdDecode s = .next t ∧ t.FaultedWith 6 0x71 s.inLen 0) ∧
    (16 ≤ s.inLen.toNat → s.inBytes 0 16 = u32le tree ++ u32le table ++ u32le payload ++ u32le count →
      (table.toNat < 16 → ∃ t, exec .cdDecode s = .next t ∧ t.FaultedWith 6 0x71 4 1) ∧
      (16 ≤ table.toNat → tree.toNat < table.toNat → ∃ t, exec .cdDecode s = .next t ∧ t.FaultedWith 6 0x71 0 1) ∧
      (16 ≤ table.toNat → table.toNat ≤ tree.toNat → payload.toNat < tree.toNat ∨ s.inLen.toNat < payload.toNat →
        ∃ t, exec .cdDecode s = .next t ∧ t.FaultedWith 6 0x71 8 1) ∧
      (16 ≤ table.toNat → table.toNat ≤ tree.toNat → tree.toNat ≤ payload.toNat → payload.toNat ≤ s.inLen.toNat →
        (count = 0 → ∃ t, exec .cdDecode s = .next t ∧ s.Freed [s.root] t ∧ t = State.answered ⟨0, 0, 0, 0⟩
          { s with
            nodes := t.nodes
            root := 0xFFFFFFFF
            cursor := 0xFFFFFFFF
            code := []
            symtab := []
            outLen := 0
            emitted := 0
            symCount := 0
            dpos := payload
            dbit := 0
            status := { s.status with empty := true } }) ∧
        (count ≠ 0 → ∀ T list ids codes outs,
          (∀ w ∈ list, w ≠ []) →
          (s.mode = .char → list = []) →
          (s.mode = .word → s.inBytes table.toNat (tree.toNat - table.toNat) =
            list.flatMap fun w => u32le (word w.length) ++ w) →
          (∀ x ∈ T.syms, symbolFits s.mode list x) →
          T.ser s.mode <+: unpack (s.inBytes tree.toNat (payload.toNat - tree.toNat)) →
          s.nodes.length + T.size ≤ s.cfg.nodeMax → s.nextHandle + T.size ≤ 0xFFFFFFFF →
          count.toNat = ids.length →
          List.Forall₂ (fun id c => (id, c) ∈ T.codes) ids codes →
          codes.flatten <+: unpack (s.inBytes payload.toNat (s.inLen.toNat - payload.toNat)) →
          List.Forall₂ (fun id v => { s with symtab := list }.symbolBytes id = some v) ids outs →
          s.OutWritable 0 outs.flatten.length →
          ∃ t, exec .cdDecode s = .next t ∧ t.completedWith ⟨word outs.flatten.length, count, 0, 0⟩ ∧
            t.outLen = word outs.flatten.length ∧ (List.range outs.flatten.length).map t.outByte = outs.flatten ∧
            t.rootTree = some T ∧ t.symtab = list ∧ t.symCount = count ∧ t.emitted = count ∧ t.code = [] ∧
            t.status.empty = false ∧ t.ft = s.ft ∧ t.trie = s.trie ∧ t.pq = s.pq ∧ t.bb = s.bb ∧ t.mode = s.mode)))

/-- 46_codec_encode.md R253 (2), 47_codec_decode.md R268 (5): decoding what CD.ENCODE wrote, on an engine of the same mode
with the resources for it, gives the encoder's input. -/
def Obligations.DecodeOfEncodeIsTheInput : Prop :=
  ∀ s t u : State, s.Inv → s.status.fault = false → exec .cdEncode s = .next t → t.status.fault = false →
    u.Inv → u.status.fault = false → u.mode = s.mode → u.inLen = t.outLen →
    (∀ a, a < t.outLen.toNat → u.inByte a = t.outByte a) → u.InReadable 0 u.inLen.toNat →
    u.nodes.length + (2 * s.ft.length - 1) ≤ u.cfg.nodeMax → u.nextHandle + (2 * s.ft.length - 1) ≤ 0xFFFFFFFF →
    u.OutWritable 0 s.inLen.toNat →
    ∃ v, exec .cdDecode u = .next v ∧ v.status.fault = false ∧ v.outLen = s.inLen ∧
      ∀ a, a < s.inLen.toNat → v.outByte a = s.inByte a

/-! ## Faults -/

/-- 60_exceptions.md R312, R313: a command of the precise class that does not complete leaves every piece of state but the
fault registers and the response as it was. -/
def Obligations.PreciseFaultsChangeOnlyFaultRegisters : Prop :=
  ∀ (i : Instr) (s t : State), commandClass i = .precise → s.status.fault = false → exec i s = .next t →
    t.status.fault = true →
    ∃ code info0 info1, 1 ≤ code.toNat ∧ code.toNat ≤ 9 ∧ t = s.faulted code (encode i |> wordW0) info0 info1

/-- 60_exceptions.md R312, R313, R314; 44_tree_serialization.md R226: what a fault of a cleanup command leaves. The nodes that
existed before and that the queue or ROOT reached are gone with every node the command allocated; OUT bytes are unspecified
(log 7). -/
def Obligations.CleanupFaultsReleaseWhatWasBuilt : Prop :=
  ∀ (i : Instr) (s t : State), commandClass i = .cleanup → s.status.fault = false → s.cfg.wellFormed = true →
    s.NodesOk → exec i s = .next t → t.status.fault = true →
    (∃ code info0 info1, 1 ≤ code.toNat ∧ code.toNat ≤ 9 ∧ t.FaultedWith code (encode i |> wordW0) info0 info1) ∧
    t.res = s.res ∧ t.root = 0xFFFFFFFF ∧ t.cursor = 0xFFFFFFFF ∧ t.dpos = 0 ∧ t.dbit = 0 ∧ t.emitted = 0 ∧
    t.symCount = 0 ∧ t.code = [] ∧ t.symtab = [] ∧ t.trie = ⟨[[]], []⟩ ∧ t.outLen = 0 ∧
    t.pq = ⟨[], s.cfg.pqMinCap, 0⟩ ∧
    (∀ k, t.bb[k]? = if k < 2 ∧ k < s.bb.length then some ⟨[], s.cfg.bbMinCap⟩ else s.bb[k]?) ∧
    (∀ h, mapFind h t.nodes = none ∨ mapFind h t.nodes = mapFind h s.nodes) ∧
    (∀ h, mapFind h t.nodes = none ↔
      mapFind h s.nodes = none ∨ ∃ x ∈ s.queuedHandles ++ [s.root], Reachable s.nodes x h) ∧
    s.nextHandle ≤ t.nextHandle ∧ t.ft = s.ft ∧ t.mode = s.mode ∧ t.inLen = s.inLen ∧ t.inMem = s.inMem ∧
    t.status.found = s.status.found ∧ (t.pqOrder = s.pqOrder ∨ t.pqOrder = .minFirst)

/-! ## The whole machine -/

/-- 48_system.md R280: `exec` is total: every command on every state gives a next state and a response, which is 0 for
completion, 1 to 9 for a fault, 0xFF for a command ignored; RES changes on completion only (10_state.md R22). -/
def Obligations.EveryCommandIsAnswered : Prop :=
  ∀ (i : Instr) (s : State), ∃ t code, exec i s = .next t ∧ t.resp = some ⟨code, t.res⟩ ∧
    (code.toNat ≤ 9 ∨ code = 0xFF) ∧ (code ≠ 0 → t.res = s.res) ∧
    (code = 0xFF → s.status.fault = true ∧ t = { s with resp := some ⟨0xFF, s.res⟩ }) ∧
    (1 ≤ code.toNat → code.toNat ≤ 9 → t.status.fault = true)

/-- The writers of the control registers, the frequency table and IN (10_state.md R24, R32, R33, R35, R53, R58; 20_memory.md
R70): no other command changes them. The port, and that no command changes it, is the model's choice (log 2); that the
configuration rides in the state is log 1. -/
def Obligations.OnlyTheNamedCommandsWrite : Prop :=
  ∀ (i : Instr) (s t : State), exec i s = .next t →
    t.cfg = s.cfg ∧ t.inMem = s.inMem ∧ t.port = s.port ∧
    (t.mode ≠ s.mode → i = .sysReset ∨ ∃ v, i = .sysWrcr 6 v) ∧
    (t.inLen ≠ s.inLen → i = .sysReset ∨ ∃ v, i = .sysWrcr 7 v) ∧
    (t.pqOrder ≠ s.pqOrder → i = .sysReset ∨ i = .htBuild ∨ i = .cdEncode ∨ ∃ v, i = .sysWrcr 9 v) ∧
    (t.status.found ≠ s.status.found → i = .sysReset ∨ ∃ a n g, i = .ptSearch a n g) ∧
    (t.status.empty ≠ s.status.empty → i = .sysReset ∨ i = .htBuild ∨ i = .cdEncode ∨ i = .cdDecode) ∧
    (s.status.fault = true → t.status.fault = false → i = .sysReset ∨ i = .sysClrerr) ∧
    (t.ft ≠ s.ft → i = .sysReset ∨ i = .ftClear ∨ ∃ a n c, i = .ftSet a n c)

/-- 10_state.md R44: the bit-buffer registers from 2 on are touched only by commands that name them (and by SYS.RESET). -/
def Obligations.UpperBuffersAreTheHosts : Prop :=
  ∀ (i : Instr) (s t : State) (k : Nat), i ≠ .sysReset → 2 ≤ k → exec i s = .next t →
    (∀ b, bufferWritten i = some b → b.toNat ≠ k) → t.bb[k]? = s.bb[k]?

/-- 20_memory.md R70, R72, R81: the bytes of OUT. A completed command that is no writer leaves every byte; the primitive
writers change exactly the bytes of their range, CD.DPASS only bytes from OUT_LEN on, CD.ENCODE and CD.DECODE only bytes
below the OUT_LEN they leave. -/
def Obligations.OutBytesChangeOnlyWhereWritten : Prop :=
  ∀ s t : State, s.status.fault = false → t.status.fault = false → s.MemoryOk → s.cfg.wellFormed = true →
    (∀ i, exec i s = .next t → writesOut i = false → ∀ a, t.outByte a = s.outByte a) ∧
    (∀ b addr, exec (.bbFlush b addr) s = .next t →
      let v := pack (s.buf b.toNat).bits
      ∀ a, t.outByte a = if addr.toNat ≤ a ∧ a < addr.toNat + v.length then v.getD (a - addr.toNat) 0 else s.outByte a) ∧
    (∀ addr, exec (.ptKeys addr) s = .next t →
      let v := (s.trie.payload.map Prod.fst).flatMap fun w => u32le (word w.length) ++ w
      ∀ a, t.outByte a = if addr.toNat ≤ a ∧ a < addr.toNat + v.length then v.getD (a - addr.toNat) 0 else s.outByte a) ∧
    (∀ addr, exec (.ctStstore addr) s = .next t →
      let v := s.symtab.flatMap fun w => u32le (word w.length) ++ w
      ∀ a, t.outByte a = if addr.toNat ≤ a ∧ a < addr.toNat + v.length then v.getD (a - addr.toNat) 0 else s.outByte a) ∧
    (∀ addr T, s.rootTree = some T → exec (.htSer addr) s = .next t →
      let v := pack (T.ser s.mode)
      ∀ a, t.outByte a = if addr.toNat ≤ a ∧ a < addr.toNat + v.length then v.getD (a - addr.toNat) 0 else s.outByte a) ∧
    (∀ a b c, exec (.cdDpass a b c) s = .next t →
      ∀ x, x < s.outLen.toNat ∨ t.outLen.toNat ≤ x → t.outByte x = s.outByte x) ∧
    (∀ i, i = .cdEncode ∨ i = .cdDecode → exec i s = .next t → ∀ x, t.outLen.toNat ≤ x → t.outByte x = s.outByte x)

/-! ## Invariants -/

/-- 10_state.md R59: the reset state of every well-formed configuration meets every invariant. Well-formed is R7 with the
constraints of logs 10 and 14; the canonical form of the memories is log 4. -/
def Obligations.ResetMeetsTheInvariants : Prop :=
  State.reset.Inv ∧ ∀ (c : Config) (inEra outEra : Nat), c.wellFormed = true →
    (State.resetOf c inEra outEra).Inv

/-- 20_memory.md R70, R72; 10_state.md R33, R34: every step keeps every byte of the memories and the two lengths inside their
spaces; and it keeps the memories in the canonical form, which is the model's choice (log 4). -/
def Obligations.StepKeepsTheMemories : Prop :=
  ∀ s t : State, s.cfg.wellFormed = true → s.MemoryOk → step s = .next t → t.MemoryOk

/-- 10_state.md R37, R47 to R50: every step keeps the node store a forest with falling handles, and ROOT and CURSOR NULL or
live. -/
def Obligations.StepKeepsTheNodeStore : Prop :=
  ∀ s t : State, s.cfg.wellFormed = true → s.NodesOk → step s = .next t → t.NodesOk

/-- 10_state.md R29, R36, R37, R43, R47 to R55; 20_memory.md R70: every step keeps everything the spec says of the state at
all times. The canonical form of the memories is log 4; that the configuration lets every code fit a buffer, without which
R43 and 45_code_table.md R242 contradict each other, is log 14. -/
def Obligations.StepKeepsEveryInvariant : Prop := ∀ s t : State, s.Inv → step s = .next t → t.Inv
end

