-- ==== Sys2Proof/Laws/State.lean ====
section
/-! SUPPORT. One lemma per field and update of the state, by which later proofs never unfold an update. -/

namespace Sys2Proof.Machine

/-! ## setEmpty -/

@[simp] theorem setEmpty_cfg (b : Bool) (s : State) : (s.setEmpty b).cfg = s.cfg := rfl
@[simp] theorem setEmpty_res (b : Bool) (s : State) : (s.setEmpty b).res = s.res := rfl
@[simp] theorem setEmpty_status (b : Bool) (s : State) : (s.setEmpty b).status = { s.status with empty := b } := rfl
@[simp] theorem setEmpty_err (b : Bool) (s : State) : (s.setEmpty b).err = s.err := rfl
@[simp] theorem setEmpty_errInfo0 (b : Bool) (s : State) : (s.setEmpty b).errInfo0 = s.errInfo0 := rfl
@[simp] theorem setEmpty_errInfo1 (b : Bool) (s : State) : (s.setEmpty b).errInfo1 = s.errInfo1 := rfl
@[simp] theorem setEmpty_errOp (b : Bool) (s : State) : (s.setEmpty b).errOp = s.errOp := rfl
@[simp] theorem setEmpty_mode (b : Bool) (s : State) : (s.setEmpty b).mode = s.mode := rfl
@[simp] theorem setEmpty_inLen (b : Bool) (s : State) : (s.setEmpty b).inLen = s.inLen := rfl
@[simp] theorem setEmpty_outLen (b : Bool) (s : State) : (s.setEmpty b).outLen = s.outLen := rfl
@[simp] theorem setEmpty_pqOrder (b : Bool) (s : State) : (s.setEmpty b).pqOrder = s.pqOrder := rfl
@[simp] theorem setEmpty_root (b : Bool) (s : State) : (s.setEmpty b).root = s.root := rfl
@[simp] theorem setEmpty_cursor (b : Bool) (s : State) : (s.setEmpty b).cursor = s.cursor := rfl
@[simp] theorem setEmpty_dpos (b : Bool) (s : State) : (s.setEmpty b).dpos = s.dpos := rfl
@[simp] theorem setEmpty_dbit (b : Bool) (s : State) : (s.setEmpty b).dbit = s.dbit := rfl
@[simp] theorem setEmpty_emitted (b : Bool) (s : State) : (s.setEmpty b).emitted = s.emitted := rfl
@[simp] theorem setEmpty_symCount (b : Bool) (s : State) : (s.setEmpty b).symCount = s.symCount := rfl
@[simp] theorem setEmpty_bb (b : Bool) (s : State) : (s.setEmpty b).bb = s.bb := rfl
@[simp] theorem setEmpty_pq (b : Bool) (s : State) : (s.setEmpty b).pq = s.pq := rfl
@[simp] theorem setEmpty_nodes (b : Bool) (s : State) : (s.setEmpty b).nodes = s.nodes := rfl
@[simp] theorem setEmpty_nextHandle (b : Bool) (s : State) : (s.setEmpty b).nextHandle = s.nextHandle := rfl
@[simp] theorem setEmpty_trie (b : Bool) (s : State) : (s.setEmpty b).trie = s.trie := rfl
@[simp] theorem setEmpty_ft (b : Bool) (s : State) : (s.setEmpty b).ft = s.ft := rfl
@[simp] theorem setEmpty_symtab (b : Bool) (s : State) : (s.setEmpty b).symtab = s.symtab := rfl
@[simp] theorem setEmpty_code (b : Bool) (s : State) : (s.setEmpty b).code = s.code := rfl
@[simp] theorem setEmpty_inMem (b : Bool) (s : State) : (s.setEmpty b).inMem = s.inMem := rfl
@[simp] theorem setEmpty_outMem (b : Bool) (s : State) : (s.setEmpty b).outMem = s.outMem := rfl
@[simp] theorem setEmpty_port (b : Bool) (s : State) : (s.setEmpty b).port = s.port := rfl
@[simp] theorem setEmpty_resp (b : Bool) (s : State) : (s.setEmpty b).resp = s.resp := rfl

/-! ## setFound -/

@[simp] theorem setFound_cfg (b : Bool) (s : State) : (s.setFound b).cfg = s.cfg := rfl
@[simp] theorem setFound_res (b : Bool) (s : State) : (s.setFound b).res = s.res := rfl
@[simp] theorem setFound_status (b : Bool) (s : State) : (s.setFound b).status = { s.status with found := b } := rfl
@[simp] theorem setFound_err (b : Bool) (s : State) : (s.setFound b).err = s.err := rfl
@[simp] theorem setFound_errInfo0 (b : Bool) (s : State) : (s.setFound b).errInfo0 = s.errInfo0 := rfl
@[simp] theorem setFound_errInfo1 (b : Bool) (s : State) : (s.setFound b).errInfo1 = s.errInfo1 := rfl
@[simp] theorem setFound_errOp (b : Bool) (s : State) : (s.setFound b).errOp = s.errOp := rfl
@[simp] theorem setFound_mode (b : Bool) (s : State) : (s.setFound b).mode = s.mode := rfl
@[simp] theorem setFound_inLen (b : Bool) (s : State) : (s.setFound b).inLen = s.inLen := rfl
@[simp] theorem setFound_outLen (b : Bool) (s : State) : (s.setFound b).outLen = s.outLen := rfl
@[simp] theorem setFound_pqOrder (b : Bool) (s : State) : (s.setFound b).pqOrder = s.pqOrder := rfl
@[simp] theorem setFound_root (b : Bool) (s : State) : (s.setFound b).root = s.root := rfl
@[simp] theorem setFound_cursor (b : Bool) (s : State) : (s.setFound b).cursor = s.cursor := rfl
@[simp] theorem setFound_dpos (b : Bool) (s : State) : (s.setFound b).dpos = s.dpos := rfl
@[simp] theorem setFound_dbit (b : Bool) (s : State) : (s.setFound b).dbit = s.dbit := rfl
@[simp] theorem setFound_emitted (b : Bool) (s : State) : (s.setFound b).emitted = s.emitted := rfl
@[simp] theorem setFound_symCount (b : Bool) (s : State) : (s.setFound b).symCount = s.symCount := rfl
@[simp] theorem setFound_bb (b : Bool) (s : State) : (s.setFound b).bb = s.bb := rfl
@[simp] theorem setFound_pq (b : Bool) (s : State) : (s.setFound b).pq = s.pq := rfl
@[simp] theorem setFound_nodes (b : Bool) (s : State) : (s.setFound b).nodes = s.nodes := rfl
@[simp] theorem setFound_nextHandle (b : Bool) (s : State) : (s.setFound b).nextHandle = s.nextHandle := rfl
@[simp] theorem setFound_trie (b : Bool) (s : State) : (s.setFound b).trie = s.trie := rfl
@[simp] theorem setFound_ft (b : Bool) (s : State) : (s.setFound b).ft = s.ft := rfl
@[simp] theorem setFound_symtab (b : Bool) (s : State) : (s.setFound b).symtab = s.symtab := rfl
@[simp] theorem setFound_code (b : Bool) (s : State) : (s.setFound b).code = s.code := rfl
@[simp] theorem setFound_inMem (b : Bool) (s : State) : (s.setFound b).inMem = s.inMem := rfl
@[simp] theorem setFound_outMem (b : Bool) (s : State) : (s.setFound b).outMem = s.outMem := rfl
@[simp] theorem setFound_port (b : Bool) (s : State) : (s.setFound b).port = s.port := rfl
@[simp] theorem setFound_resp (b : Bool) (s : State) : (s.setFound b).resp = s.resp := rfl

/-! ## setFault -/

@[simp] theorem setFault_cfg (b : Bool) (s : State) : (s.setFault b).cfg = s.cfg := rfl
@[simp] theorem setFault_res (b : Bool) (s : State) : (s.setFault b).res = s.res := rfl
@[simp] theorem setFault_status (b : Bool) (s : State) : (s.setFault b).status = { s.status with fault := b } := rfl
@[simp] theorem setFault_err (b : Bool) (s : State) : (s.setFault b).err = s.err := rfl
@[simp] theorem setFault_errInfo0 (b : Bool) (s : State) : (s.setFault b).errInfo0 = s.errInfo0 := rfl
@[simp] theorem setFault_errInfo1 (b : Bool) (s : State) : (s.setFault b).errInfo1 = s.errInfo1 := rfl
@[simp] theorem setFault_errOp (b : Bool) (s : State) : (s.setFault b).errOp = s.errOp := rfl
@[simp] theorem setFault_mode (b : Bool) (s : State) : (s.setFault b).mode = s.mode := rfl
@[simp] theorem setFault_inLen (b : Bool) (s : State) : (s.setFault b).inLen = s.inLen := rfl
@[simp] theorem setFault_outLen (b : Bool) (s : State) : (s.setFault b).outLen = s.outLen := rfl
@[simp] theorem setFault_pqOrder (b : Bool) (s : State) : (s.setFault b).pqOrder = s.pqOrder := rfl
@[simp] theorem setFault_root (b : Bool) (s : State) : (s.setFault b).root = s.root := rfl
@[simp] theorem setFault_cursor (b : Bool) (s : State) : (s.setFault b).cursor = s.cursor := rfl
@[simp] theorem setFault_dpos (b : Bool) (s : State) : (s.setFault b).dpos = s.dpos := rfl
@[simp] theorem setFault_dbit (b : Bool) (s : State) : (s.setFault b).dbit = s.dbit := rfl
@[simp] theorem setFault_emitted (b : Bool) (s : State) : (s.setFault b).emitted = s.emitted := rfl
@[simp] theorem setFault_symCount (b : Bool) (s : State) : (s.setFault b).symCount = s.symCount := rfl
@[simp] theorem setFault_bb (b : Bool) (s : State) : (s.setFault b).bb = s.bb := rfl
@[simp] theorem setFault_pq (b : Bool) (s : State) : (s.setFault b).pq = s.pq := rfl
@[simp] theorem setFault_nodes (b : Bool) (s : State) : (s.setFault b).nodes = s.nodes := rfl
@[simp] theorem setFault_nextHandle (b : Bool) (s : State) : (s.setFault b).nextHandle = s.nextHandle := rfl
@[simp] theorem setFault_trie (b : Bool) (s : State) : (s.setFault b).trie = s.trie := rfl
@[simp] theorem setFault_ft (b : Bool) (s : State) : (s.setFault b).ft = s.ft := rfl
@[simp] theorem setFault_symtab (b : Bool) (s : State) : (s.setFault b).symtab = s.symtab := rfl
@[simp] theorem setFault_code (b : Bool) (s : State) : (s.setFault b).code = s.code := rfl
@[simp] theorem setFault_inMem (b : Bool) (s : State) : (s.setFault b).inMem = s.inMem := rfl
@[simp] theorem setFault_outMem (b : Bool) (s : State) : (s.setFault b).outMem = s.outMem := rfl
@[simp] theorem setFault_port (b : Bool) (s : State) : (s.setFault b).port = s.port := rfl
@[simp] theorem setFault_resp (b : Bool) (s : State) : (s.setFault b).resp = s.resp := rfl

/-! ## setBuf -/

@[simp] theorem setBuf_cfg (b : Nat) (v : BitBuffer) (s : State) : (s.setBuf b v).cfg = s.cfg := rfl
@[simp] theorem setBuf_res (b : Nat) (v : BitBuffer) (s : State) : (s.setBuf b v).res = s.res := rfl
@[simp] theorem setBuf_status (b : Nat) (v : BitBuffer) (s : State) : (s.setBuf b v).status = s.status := rfl
@[simp] theorem setBuf_err (b : Nat) (v : BitBuffer) (s : State) : (s.setBuf b v).err = s.err := rfl
@[simp] theorem setBuf_errInfo0 (b : Nat) (v : BitBuffer) (s : State) : (s.setBuf b v).errInfo0 = s.errInfo0 := rfl
@[simp] theorem setBuf_errInfo1 (b : Nat) (v : BitBuffer) (s : State) : (s.setBuf b v).errInfo1 = s.errInfo1 := rfl
@[simp] theorem setBuf_errOp (b : Nat) (v : BitBuffer) (s : State) : (s.setBuf b v).errOp = s.errOp := rfl
@[simp] theorem setBuf_mode (b : Nat) (v : BitBuffer) (s : State) : (s.setBuf b v).mode = s.mode := rfl
@[simp] theorem setBuf_inLen (b : Nat) (v : BitBuffer) (s : State) : (s.setBuf b v).inLen = s.inLen := rfl
@[simp] theorem setBuf_outLen (b : Nat) (v : BitBuffer) (s : State) : (s.setBuf b v).outLen = s.outLen := rfl
@[simp] theorem setBuf_pqOrder (b : Nat) (v : BitBuffer) (s : State) : (s.setBuf b v).pqOrder = s.pqOrder := rfl
@[simp] theorem setBuf_root (b : Nat) (v : BitBuffer) (s : State) : (s.setBuf b v).root = s.root := rfl
@[simp] theorem setBuf_cursor (b : Nat) (v : BitBuffer) (s : State) : (s.setBuf b v).cursor = s.cursor := rfl
@[simp] theorem setBuf_dpos (b : Nat) (v : BitBuffer) (s : State) : (s.setBuf b v).dpos = s.dpos := rfl
@[simp] theorem setBuf_dbit (b : Nat) (v : BitBuffer) (s : State) : (s.setBuf b v).dbit = s.dbit := rfl
@[simp] theorem setBuf_emitted (b : Nat) (v : BitBuffer) (s : State) : (s.setBuf b v).emitted = s.emitted := rfl
@[simp] theorem setBuf_symCount (b : Nat) (v : BitBuffer) (s : State) : (s.setBuf b v).symCount = s.symCount := rfl
@[simp] theorem setBuf_bb (b : Nat) (v : BitBuffer) (s : State) : (s.setBuf b v).bb = s.bb.set b v := rfl
@[simp] theorem setBuf_pq (b : Nat) (v : BitBuffer) (s : State) : (s.setBuf b v).pq = s.pq := rfl
@[simp] theorem setBuf_nodes (b : Nat) (v : BitBuffer) (s : State) : (s.setBuf b v).nodes = s.nodes := rfl
@[simp] theorem setBuf_nextHandle (b : Nat) (v : BitBuffer) (s : State) : (s.setBuf b v).nextHandle = s.nextHandle := rfl
@[simp] theorem setBuf_trie (b : Nat) (v : BitBuffer) (s : State) : (s.setBuf b v).trie = s.trie := rfl
@[simp] theorem setBuf_ft (b : Nat) (v : BitBuffer) (s : State) : (s.setBuf b v).ft = s.ft := rfl
@[simp] theorem setBuf_symtab (b : Nat) (v : BitBuffer) (s : State) : (s.setBuf b v).symtab = s.symtab := rfl
@[simp] theorem setBuf_code (b : Nat) (v : BitBuffer) (s : State) : (s.setBuf b v).code = s.code := rfl
@[simp] theorem setBuf_inMem (b : Nat) (v : BitBuffer) (s : State) : (s.setBuf b v).inMem = s.inMem := rfl
@[simp] theorem setBuf_outMem (b : Nat) (v : BitBuffer) (s : State) : (s.setBuf b v).outMem = s.outMem := rfl
@[simp] theorem setBuf_port (b : Nat) (v : BitBuffer) (s : State) : (s.setBuf b v).port = s.port := rfl
@[simp] theorem setBuf_resp (b : Nat) (v : BitBuffer) (s : State) : (s.setBuf b v).resp = s.resp := rfl

/-! ## allocated -/

@[simp] theorem allocated_cfg (n : Node) (s : State) : (s.allocated n).cfg = s.cfg := rfl
@[simp] theorem allocated_res (n : Node) (s : State) : (s.allocated n).res = s.res := rfl
@[simp] theorem allocated_status (n : Node) (s : State) : (s.allocated n).status = s.status := rfl
@[simp] theorem allocated_err (n : Node) (s : State) : (s.allocated n).err = s.err := rfl
@[simp] theorem allocated_errInfo0 (n : Node) (s : State) : (s.allocated n).errInfo0 = s.errInfo0 := rfl
@[simp] theorem allocated_errInfo1 (n : Node) (s : State) : (s.allocated n).errInfo1 = s.errInfo1 := rfl
@[simp] theorem allocated_errOp (n : Node) (s : State) : (s.allocated n).errOp = s.errOp := rfl
@[simp] theorem allocated_mode (n : Node) (s : State) : (s.allocated n).mode = s.mode := rfl
@[simp] theorem allocated_inLen (n : Node) (s : State) : (s.allocated n).inLen = s.inLen := rfl
@[simp] theorem allocated_outLen (n : Node) (s : State) : (s.allocated n).outLen = s.outLen := rfl
@[simp] theorem allocated_pqOrder (n : Node) (s : State) : (s.allocated n).pqOrder = s.pqOrder := rfl
@[simp] theorem allocated_root (n : Node) (s : State) : (s.allocated n).root = s.root := rfl
@[simp] theorem allocated_cursor (n : Node) (s : State) : (s.allocated n).cursor = s.cursor := rfl
@[simp] theorem allocated_dpos (n : Node) (s : State) : (s.allocated n).dpos = s.dpos := rfl
@[simp] theorem allocated_dbit (n : Node) (s : State) : (s.allocated n).dbit = s.dbit := rfl
@[simp] theorem allocated_emitted (n : Node) (s : State) : (s.allocated n).emitted = s.emitted := rfl
@[simp] theorem allocated_symCount (n : Node) (s : State) : (s.allocated n).symCount = s.symCount := rfl
@[simp] theorem allocated_bb (n : Node) (s : State) : (s.allocated n).bb = s.bb := rfl
@[simp] theorem allocated_pq (n : Node) (s : State) : (s.allocated n).pq = s.pq := rfl
@[simp] theorem allocated_nodes (n : Node) (s : State) : (s.allocated n).nodes = mapInsert wordLt s.newHandle n s.nodes := rfl
@[simp] theorem allocated_nextHandle (n : Node) (s : State) : (s.allocated n).nextHandle = s.nextHandle + 1 := rfl
@[simp] theorem allocated_trie (n : Node) (s : State) : (s.allocated n).trie = s.trie := rfl
@[simp] theorem allocated_ft (n : Node) (s : State) : (s.allocated n).ft = s.ft := rfl
@[simp] theorem allocated_symtab (n : Node) (s : State) : (s.allocated n).symtab = s.symtab := rfl
@[simp] theorem allocated_code (n : Node) (s : State) : (s.allocated n).code = s.code := rfl
@[simp] theorem allocated_inMem (n : Node) (s : State) : (s.allocated n).inMem = s.inMem := rfl
@[simp] theorem allocated_outMem (n : Node) (s : State) : (s.allocated n).outMem = s.outMem := rfl
@[simp] theorem allocated_port (n : Node) (s : State) : (s.allocated n).port = s.port := rfl
@[simp] theorem allocated_resp (n : Node) (s : State) : (s.allocated n).resp = s.resp := rfl

/-! ## freeTree -/

@[simp] theorem freeTree_cfg (h : Word) (s : State) : (freeTree h s).cfg = s.cfg := rfl
@[simp] theorem freeTree_res (h : Word) (s : State) : (freeTree h s).res = s.res := rfl
@[simp] theorem freeTree_status (h : Word) (s : State) : (freeTree h s).status = s.status := rfl
@[simp] theorem freeTree_err (h : Word) (s : State) : (freeTree h s).err = s.err := rfl
@[simp] theorem freeTree_errInfo0 (h : Word) (s : State) : (freeTree h s).errInfo0 = s.errInfo0 := rfl
@[simp] theorem freeTree_errInfo1 (h : Word) (s : State) : (freeTree h s).errInfo1 = s.errInfo1 := rfl
@[simp] theorem freeTree_errOp (h : Word) (s : State) : (freeTree h s).errOp = s.errOp := rfl
@[simp] theorem freeTree_mode (h : Word) (s : State) : (freeTree h s).mode = s.mode := rfl
@[simp] theorem freeTree_inLen (h : Word) (s : State) : (freeTree h s).inLen = s.inLen := rfl
@[simp] theorem freeTree_outLen (h : Word) (s : State) : (freeTree h s).outLen = s.outLen := rfl
@[simp] theorem freeTree_pqOrder (h : Word) (s : State) : (freeTree h s).pqOrder = s.pqOrder := rfl
@[simp] theorem freeTree_root (h : Word) (s : State) : (freeTree h s).root = if s.root ∈ NodeMap.subtree s.nodes h then nullHandle else s.root := rfl
@[simp] theorem freeTree_cursor (h : Word) (s : State) : (freeTree h s).cursor = if s.cursor ∈ NodeMap.subtree s.nodes h then nullHandle else s.cursor := rfl
@[simp] theorem freeTree_dpos (h : Word) (s : State) : (freeTree h s).dpos = s.dpos := rfl
@[simp] theorem freeTree_dbit (h : Word) (s : State) : (freeTree h s).dbit = s.dbit := rfl
@[simp] theorem freeTree_emitted (h : Word) (s : State) : (freeTree h s).emitted = s.emitted := rfl
@[simp] theorem freeTree_symCount (h : Word) (s : State) : (freeTree h s).symCount = s.symCount := rfl
@[simp] theorem freeTree_bb (h : Word) (s : State) : (freeTree h s).bb = s.bb := rfl
@[simp] theorem freeTree_pq (h : Word) (s : State) : (freeTree h s).pq = s.pq := rfl
@[simp] theorem freeTree_nodes (h : Word) (s : State) : (freeTree h s).nodes = NodeMap.without s.nodes (NodeMap.subtree s.nodes h) := rfl
@[simp] theorem freeTree_nextHandle (h : Word) (s : State) : (freeTree h s).nextHandle = s.nextHandle := rfl
@[simp] theorem freeTree_trie (h : Word) (s : State) : (freeTree h s).trie = s.trie := rfl
@[simp] theorem freeTree_ft (h : Word) (s : State) : (freeTree h s).ft = s.ft := rfl
@[simp] theorem freeTree_symtab (h : Word) (s : State) : (freeTree h s).symtab = s.symtab := rfl
@[simp] theorem freeTree_code (h : Word) (s : State) : (freeTree h s).code = s.code := rfl
@[simp] theorem freeTree_inMem (h : Word) (s : State) : (freeTree h s).inMem = s.inMem := rfl
@[simp] theorem freeTree_outMem (h : Word) (s : State) : (freeTree h s).outMem = s.outMem := rfl
@[simp] theorem freeTree_port (h : Word) (s : State) : (freeTree h s).port = s.port := rfl
@[simp] theorem freeTree_resp (h : Word) (s : State) : (freeTree h s).resp = s.resp := rfl

/-! ## ignored -/

@[simp] theorem ignored_cfg (s : State) : (s.ignored).cfg = s.cfg := rfl
@[simp] theorem ignored_res (s : State) : (s.ignored).res = s.res := rfl
@[simp] theorem ignored_status (s : State) : (s.ignored).status = s.status := rfl
@[simp] theorem ignored_err (s : State) : (s.ignored).err = s.err := rfl
@[simp] theorem ignored_errInfo0 (s : State) : (s.ignored).errInfo0 = s.errInfo0 := rfl
@[simp] theorem ignored_errInfo1 (s : State) : (s.ignored).errInfo1 = s.errInfo1 := rfl
@[simp] theorem ignored_errOp (s : State) : (s.ignored).errOp = s.errOp := rfl
@[simp] theorem ignored_mode (s : State) : (s.ignored).mode = s.mode := rfl
@[simp] theorem ignored_inLen (s : State) : (s.ignored).inLen = s.inLen := rfl
@[simp] theorem ignored_outLen (s : State) : (s.ignored).outLen = s.outLen := rfl
@[simp] theorem ignored_pqOrder (s : State) : (s.ignored).pqOrder = s.pqOrder := rfl
@[simp] theorem ignored_root (s : State) : (s.ignored).root = s.root := rfl
@[simp] theorem ignored_cursor (s : State) : (s.ignored).cursor = s.cursor := rfl
@[simp] theorem ignored_dpos (s : State) : (s.ignored).dpos = s.dpos := rfl
@[simp] theorem ignored_dbit (s : State) : (s.ignored).dbit = s.dbit := rfl
@[simp] theorem ignored_emitted (s : State) : (s.ignored).emitted = s.emitted := rfl
@[simp] theorem ignored_symCount (s : State) : (s.ignored).symCount = s.symCount := rfl
@[simp] theorem ignored_bb (s : State) : (s.ignored).bb = s.bb := rfl
@[simp] theorem ignored_pq (s : State) : (s.ignored).pq = s.pq := rfl
@[simp] theorem ignored_nodes (s : State) : (s.ignored).nodes = s.nodes := rfl
@[simp] theorem ignored_nextHandle (s : State) : (s.ignored).nextHandle = s.nextHandle := rfl
@[simp] theorem ignored_trie (s : State) : (s.ignored).trie = s.trie := rfl
@[simp] theorem ignored_ft (s : State) : (s.ignored).ft = s.ft := rfl
@[simp] theorem ignored_symtab (s : State) : (s.ignored).symtab = s.symtab := rfl
@[simp] theorem ignored_code (s : State) : (s.ignored).code = s.code := rfl
@[simp] theorem ignored_inMem (s : State) : (s.ignored).inMem = s.inMem := rfl
@[simp] theorem ignored_outMem (s : State) : (s.ignored).outMem = s.outMem := rfl
@[simp] theorem ignored_port (s : State) : (s.ignored).port = s.port := rfl
@[simp] theorem ignored_resp (s : State) : (s.ignored).resp = some ⟨0xFF#8, s.res⟩ := rfl

/-! ## completed -/

@[simp] theorem completed_cfg (r : Results) (s : State) : (s.completed r).cfg = s.cfg := rfl
@[simp] theorem completed_res (r : Results) (s : State) : (s.completed r).res = r := rfl
@[simp] theorem completed_status (r : Results) (s : State) : (s.completed r).status = s.status := rfl
@[simp] theorem completed_err (r : Results) (s : State) : (s.completed r).err = s.err := rfl
@[simp] theorem completed_errInfo0 (r : Results) (s : State) : (s.completed r).errInfo0 = s.errInfo0 := rfl
@[simp] theorem completed_errInfo1 (r : Results) (s : State) : (s.completed r).errInfo1 = s.errInfo1 := rfl
@[simp] theorem completed_errOp (r : Results) (s : State) : (s.completed r).errOp = s.errOp := rfl
@[simp] theorem completed_mode (r : Results) (s : State) : (s.completed r).mode = s.mode := rfl
@[simp] theorem completed_inLen (r : Results) (s : State) : (s.completed r).inLen = s.inLen := rfl
@[simp] theorem completed_outLen (r : Results) (s : State) : (s.completed r).outLen = s.outLen := rfl
@[simp] theorem completed_pqOrder (r : Results) (s : State) : (s.completed r).pqOrder = s.pqOrder := rfl
@[simp] theorem completed_root (r : Results) (s : State) : (s.completed r).root = s.root := rfl
@[simp] theorem completed_cursor (r : Results) (s : State) : (s.completed r).cursor = s.cursor := rfl
@[simp] theorem completed_dpos (r : Results) (s : State) : (s.completed r).dpos = s.dpos := rfl
@[simp] theorem completed_dbit (r : Results) (s : State) : (s.completed r).dbit = s.dbit := rfl
@[simp] theorem completed_emitted (r : Results) (s : State) : (s.completed r).emitted = s.emitted := rfl
@[simp] theorem completed_symCount (r : Results) (s : State) : (s.completed r).symCount = s.symCount := rfl
@[simp] theorem completed_bb (r : Results) (s : State) : (s.completed r).bb = s.bb := rfl
@[simp] theorem completed_pq (r : Results) (s : State) : (s.completed r).pq = s.pq := rfl
@[simp] theorem completed_nodes (r : Results) (s : State) : (s.completed r).nodes = s.nodes := rfl
@[simp] theorem completed_nextHandle (r : Results) (s : State) : (s.completed r).nextHandle = s.nextHandle := rfl
@[simp] theorem completed_trie (r : Results) (s : State) : (s.completed r).trie = s.trie := rfl
@[simp] theorem completed_ft (r : Results) (s : State) : (s.completed r).ft = s.ft := rfl
@[simp] theorem completed_symtab (r : Results) (s : State) : (s.completed r).symtab = s.symtab := rfl
@[simp] theorem completed_code (r : Results) (s : State) : (s.completed r).code = s.code := rfl
@[simp] theorem completed_inMem (r : Results) (s : State) : (s.completed r).inMem = s.inMem := rfl
@[simp] theorem completed_outMem (r : Results) (s : State) : (s.completed r).outMem = s.outMem := rfl
@[simp] theorem completed_port (r : Results) (s : State) : (s.completed r).port = s.port := rfl
@[simp] theorem completed_resp (r : Results) (s : State) : (s.completed r).resp = some ⟨0, r⟩ := rfl

/-! ## clearFault -/

@[simp] theorem clearFault_cfg (s : State) : (clearFault s).cfg = s.cfg := rfl
@[simp] theorem clearFault_res (s : State) : (clearFault s).res = s.res := rfl
@[simp] theorem clearFault_status (s : State) : (clearFault s).status = { s.status with fault := false } := rfl
@[simp] theorem clearFault_err (s : State) : (clearFault s).err = 0 := rfl
@[simp] theorem clearFault_errInfo0 (s : State) : (clearFault s).errInfo0 = 0 := rfl
@[simp] theorem clearFault_errInfo1 (s : State) : (clearFault s).errInfo1 = 0 := rfl
@[simp] theorem clearFault_errOp (s : State) : (clearFault s).errOp = 0 := rfl
@[simp] theorem clearFault_mode (s : State) : (clearFault s).mode = s.mode := rfl
@[simp] theorem clearFault_inLen (s : State) : (clearFault s).inLen = s.inLen := rfl
@[simp] theorem clearFault_outLen (s : State) : (clearFault s).outLen = s.outLen := rfl
@[simp] theorem clearFault_pqOrder (s : State) : (clearFault s).pqOrder = s.pqOrder := rfl
@[simp] theorem clearFault_root (s : State) : (clearFault s).root = s.root := rfl
@[simp] theorem clearFault_cursor (s : State) : (clearFault s).cursor = s.cursor := rfl
@[simp] theorem clearFault_dpos (s : State) : (clearFault s).dpos = s.dpos := rfl
@[simp] theorem clearFault_dbit (s : State) : (clearFault s).dbit = s.dbit := rfl
@[simp] theorem clearFault_emitted (s : State) : (clearFault s).emitted = s.emitted := rfl
@[simp] theorem clearFault_symCount (s : State) : (clearFault s).symCount = s.symCount := rfl
@[simp] theorem clearFault_bb (s : State) : (clearFault s).bb = s.bb := rfl
@[simp] theorem clearFault_pq (s : State) : (clearFault s).pq = s.pq := rfl
@[simp] theorem clearFault_nodes (s : State) : (clearFault s).nodes = s.nodes := rfl
@[simp] theorem clearFault_nextHandle (s : State) : (clearFault s).nextHandle = s.nextHandle := rfl
@[simp] theorem clearFault_trie (s : State) : (clearFault s).trie = s.trie := rfl
@[simp] theorem clearFault_ft (s : State) : (clearFault s).ft = s.ft := rfl
@[simp] theorem clearFault_symtab (s : State) : (clearFault s).symtab = s.symtab := rfl
@[simp] theorem clearFault_code (s : State) : (clearFault s).code = s.code := rfl
@[simp] theorem clearFault_inMem (s : State) : (clearFault s).inMem = s.inMem := rfl
@[simp] theorem clearFault_outMem (s : State) : (clearFault s).outMem = s.outMem := rfl
@[simp] theorem clearFault_port (s : State) : (clearFault s).port = s.port := rfl
@[simp] theorem clearFault_resp (s : State) : (clearFault s).resp = s.resp := rfl

/-! ## answered -/

@[simp] theorem answered_cfg (r : Results) (s : State) : (s.answered r).cfg = s.cfg := rfl
@[simp] theorem answered_res (r : Results) (s : State) : (s.answered r).res = r := rfl
@[simp] theorem answered_status (r : Results) (s : State) : (s.answered r).status = s.status := rfl
@[simp] theorem answered_err (r : Results) (s : State) : (s.answered r).err = s.err := rfl
@[simp] theorem answered_errInfo0 (r : Results) (s : State) : (s.answered r).errInfo0 = s.errInfo0 := rfl
@[simp] theorem answered_errInfo1 (r : Results) (s : State) : (s.answered r).errInfo1 = s.errInfo1 := rfl
@[simp] theorem answered_errOp (r : Results) (s : State) : (s.answered r).errOp = s.errOp := rfl
@[simp] theorem answered_mode (r : Results) (s : State) : (s.answered r).mode = s.mode := rfl
@[simp] theorem answered_inLen (r : Results) (s : State) : (s.answered r).inLen = s.inLen := rfl
@[simp] theorem answered_outLen (r : Results) (s : State) : (s.answered r).outLen = s.outLen := rfl
@[simp] theorem answered_pqOrder (r : Results) (s : State) : (s.answered r).pqOrder = s.pqOrder := rfl
@[simp] theorem answered_root (r : Results) (s : State) : (s.answered r).root = s.root := rfl
@[simp] theorem answered_cursor (r : Results) (s : State) : (s.answered r).cursor = s.cursor := rfl
@[simp] theorem answered_dpos (r : Results) (s : State) : (s.answered r).dpos = s.dpos := rfl
@[simp] theorem answered_dbit (r : Results) (s : State) : (s.answered r).dbit = s.dbit := rfl
@[simp] theorem answered_emitted (r : Results) (s : State) : (s.answered r).emitted = s.emitted := rfl
@[simp] theorem answered_symCount (r : Results) (s : State) : (s.answered r).symCount = s.symCount := rfl
@[simp] theorem answered_bb (r : Results) (s : State) : (s.answered r).bb = s.bb := rfl
@[simp] theorem answered_pq (r : Results) (s : State) : (s.answered r).pq = s.pq := rfl
@[simp] theorem answered_nodes (r : Results) (s : State) : (s.answered r).nodes = s.nodes := rfl
@[simp] theorem answered_nextHandle (r : Results) (s : State) : (s.answered r).nextHandle = s.nextHandle := rfl
@[simp] theorem answered_trie (r : Results) (s : State) : (s.answered r).trie = s.trie := rfl
@[simp] theorem answered_ft (r : Results) (s : State) : (s.answered r).ft = s.ft := rfl
@[simp] theorem answered_symtab (r : Results) (s : State) : (s.answered r).symtab = s.symtab := rfl
@[simp] theorem answered_code (r : Results) (s : State) : (s.answered r).code = s.code := rfl
@[simp] theorem answered_inMem (r : Results) (s : State) : (s.answered r).inMem = s.inMem := rfl
@[simp] theorem answered_outMem (r : Results) (s : State) : (s.answered r).outMem = s.outMem := rfl
@[simp] theorem answered_port (r : Results) (s : State) : (s.answered r).port = s.port := rfl
@[simp] theorem answered_resp (r : Results) (s : State) : (s.answered r).resp = some ⟨0, r⟩ := rfl

/-! ## faulted -/

@[simp] theorem faulted_cfg (c : Byte) (w0 i0 i1 : Word) (s : State) : (s.faulted c w0 i0 i1).cfg = s.cfg := rfl
@[simp] theorem faulted_res (c : Byte) (w0 i0 i1 : Word) (s : State) : (s.faulted c w0 i0 i1).res = s.res := rfl
@[simp] theorem faulted_status (c : Byte) (w0 i0 i1 : Word) (s : State) : (s.faulted c w0 i0 i1).status = { s.status with fault := true } := rfl
@[simp] theorem faulted_err (c : Byte) (w0 i0 i1 : Word) (s : State) : (s.faulted c w0 i0 i1).err = c.setWidth 32 := rfl
@[simp] theorem faulted_errInfo0 (c : Byte) (w0 i0 i1 : Word) (s : State) : (s.faulted c w0 i0 i1).errInfo0 = i0 := rfl
@[simp] theorem faulted_errInfo1 (c : Byte) (w0 i0 i1 : Word) (s : State) : (s.faulted c w0 i0 i1).errInfo1 = i1 := rfl
@[simp] theorem faulted_errOp (c : Byte) (w0 i0 i1 : Word) (s : State) : (s.faulted c w0 i0 i1).errOp = w0 := rfl
@[simp] theorem faulted_mode (c : Byte) (w0 i0 i1 : Word) (s : State) : (s.faulted c w0 i0 i1).mode = s.mode := rfl
@[simp] theorem faulted_inLen (c : Byte) (w0 i0 i1 : Word) (s : State) : (s.faulted c w0 i0 i1).inLen = s.inLen := rfl
@[simp] theorem faulted_outLen (c : Byte) (w0 i0 i1 : Word) (s : State) : (s.faulted c w0 i0 i1).outLen = s.outLen := rfl
@[simp] theorem faulted_pqOrder (c : Byte) (w0 i0 i1 : Word) (s : State) : (s.faulted c w0 i0 i1).pqOrder = s.pqOrder := rfl
@[simp] theorem faulted_root (c : Byte) (w0 i0 i1 : Word) (s : State) : (s.faulted c w0 i0 i1).root = s.root := rfl
@[simp] theorem faulted_cursor (c : Byte) (w0 i0 i1 : Word) (s : State) : (s.faulted c w0 i0 i1).cursor = s.cursor := rfl
@[simp] theorem faulted_dpos (c : Byte) (w0 i0 i1 : Word) (s : State) : (s.faulted c w0 i0 i1).dpos = s.dpos := rfl
@[simp] theorem faulted_dbit (c : Byte) (w0 i0 i1 : Word) (s : State) : (s.faulted c w0 i0 i1).dbit = s.dbit := rfl
@[simp] theorem faulted_emitted (c : Byte) (w0 i0 i1 : Word) (s : State) : (s.faulted c w0 i0 i1).emitted = s.emitted := rfl
@[simp] theorem faulted_symCount (c : Byte) (w0 i0 i1 : Word) (s : State) : (s.faulted c w0 i0 i1).symCount = s.symCount := rfl
@[simp] theorem faulted_bb (c : Byte) (w0 i0 i1 : Word) (s : State) : (s.faulted c w0 i0 i1).bb = s.bb := rfl
@[simp] theorem faulted_pq (c : Byte) (w0 i0 i1 : Word) (s : State) : (s.faulted c w0 i0 i1).pq = s.pq := rfl
@[simp] theorem faulted_nodes (c : Byte) (w0 i0 i1 : Word) (s : State) : (s.faulted c w0 i0 i1).nodes = s.nodes := rfl
@[simp] theorem faulted_nextHandle (c : Byte) (w0 i0 i1 : Word) (s : State) : (s.faulted c w0 i0 i1).nextHandle = s.nextHandle := rfl
@[simp] theorem faulted_trie (c : Byte) (w0 i0 i1 : Word) (s : State) : (s.faulted c w0 i0 i1).trie = s.trie := rfl
@[simp] theorem faulted_ft (c : Byte) (w0 i0 i1 : Word) (s : State) : (s.faulted c w0 i0 i1).ft = s.ft := rfl
@[simp] theorem faulted_symtab (c : Byte) (w0 i0 i1 : Word) (s : State) : (s.faulted c w0 i0 i1).symtab = s.symtab := rfl
@[simp] theorem faulted_code (c : Byte) (w0 i0 i1 : Word) (s : State) : (s.faulted c w0 i0 i1).code = s.code := rfl
@[simp] theorem faulted_inMem (c : Byte) (w0 i0 i1 : Word) (s : State) : (s.faulted c w0 i0 i1).inMem = s.inMem := rfl
@[simp] theorem faulted_outMem (c : Byte) (w0 i0 i1 : Word) (s : State) : (s.faulted c w0 i0 i1).outMem = s.outMem := rfl
@[simp] theorem faulted_port (c : Byte) (w0 i0 i1 : Word) (s : State) : (s.faulted c w0 i0 i1).port = s.port := rfl
@[simp] theorem faulted_resp (c : Byte) (w0 i0 i1 : Word) (s : State) : (s.faulted c w0 i0 i1).resp = some ⟨c, s.res⟩ := rfl

/-! ## takeFault -/

@[simp] theorem takeFault_cfg (w0 : Word) (r : Raise) (before after : State) : (takeFault w0 r before after).cfg = after.cfg := by
  unfold takeFault; split <;> rfl
@[simp] theorem takeFault_res (w0 : Word) (r : Raise) (before after : State) : (takeFault w0 r before after).res = before.res := by
  unfold takeFault; split <;> rfl
@[simp] theorem takeFault_mode (w0 : Word) (r : Raise) (before after : State) : (takeFault w0 r before after).mode = after.mode := by
  unfold takeFault; split <;> rfl
@[simp] theorem takeFault_inLen (w0 : Word) (r : Raise) (before after : State) : (takeFault w0 r before after).inLen = after.inLen := by
  unfold takeFault; split <;> rfl
@[simp] theorem takeFault_outLen (w0 : Word) (r : Raise) (before after : State) : (takeFault w0 r before after).outLen = after.outLen := by
  unfold takeFault; split <;> rfl
@[simp] theorem takeFault_pqOrder (w0 : Word) (r : Raise) (before after : State) : (takeFault w0 r before after).pqOrder = after.pqOrder := by
  unfold takeFault; split <;> rfl
@[simp] theorem takeFault_root (w0 : Word) (r : Raise) (before after : State) : (takeFault w0 r before after).root = after.root := by
  unfold takeFault; split <;> rfl
@[simp] theorem takeFault_cursor (w0 : Word) (r : Raise) (before after : State) : (takeFault w0 r before after).cursor = after.cursor := by
  unfold takeFault; split <;> rfl
@[simp] theorem takeFault_dpos (w0 : Word) (r : Raise) (before after : State) : (takeFault w0 r before after).dpos = after.dpos := by
  unfold takeFault; split <;> rfl
@[simp] theorem takeFault_dbit (w0 : Word) (r : Raise) (before after : State) : (takeFault w0 r before after).dbit = after.dbit := by
  unfold takeFault; split <;> rfl
@[simp] theorem takeFault_emitted (w0 : Word) (r : Raise) (before after : State) : (takeFault w0 r before after).emitted = after.emitted := by
  unfold takeFault; split <;> rfl
@[simp] theorem takeFault_symCount (w0 : Word) (r : Raise) (before after : State) : (takeFault w0 r before after).symCount = after.symCount := by
  unfold takeFault; split <;> rfl
@[simp] theorem takeFault_bb (w0 : Word) (r : Raise) (before after : State) : (takeFault w0 r before after).bb = after.bb := by
  unfold takeFault; split <;> rfl
@[simp] theorem takeFault_pq (w0 : Word) (r : Raise) (before after : State) : (takeFault w0 r before after).pq = after.pq := by
  unfold takeFault; split <;> rfl
@[simp] theorem takeFault_nodes (w0 : Word) (r : Raise) (before after : State) : (takeFault w0 r before after).nodes = after.nodes := by
  unfold takeFault; split <;> rfl
@[simp] theorem takeFault_nextHandle (w0 : Word) (r : Raise) (before after : State) : (takeFault w0 r before after).nextHandle = after.nextHandle := by
  unfold takeFault; split <;> rfl
@[simp] theorem takeFault_trie (w0 : Word) (r : Raise) (before after : State) : (takeFault w0 r before after).trie = after.trie := by
  unfold takeFault; split <;> rfl
@[simp] theorem takeFault_ft (w0 : Word) (r : Raise) (before after : State) : (takeFault w0 r before after).ft = after.ft := by
  unfold takeFault; split <;> rfl
@[simp] theorem takeFault_symtab (w0 : Word) (r : Raise) (before after : State) : (takeFault w0 r before after).symtab = after.symtab := by
  unfold takeFault; split <;> rfl
@[simp] theorem takeFault_code (w0 : Word) (r : Raise) (before after : State) : (takeFault w0 r before after).code = after.code := by
  unfold takeFault; split <;> rfl
@[simp] theorem takeFault_inMem (w0 : Word) (r : Raise) (before after : State) : (takeFault w0 r before after).inMem = after.inMem := by
  unfold takeFault; split <;> rfl
@[simp] theorem takeFault_outMem (w0 : Word) (r : Raise) (before after : State) : (takeFault w0 r before after).outMem = after.outMem := by
  unfold takeFault; split <;> rfl
@[simp] theorem takeFault_port (w0 : Word) (r : Raise) (before after : State) : (takeFault w0 r before after).port = after.port := by
  unfold takeFault; split <;> rfl
@[simp] theorem takeFault_resp (w0 : Word) (r : Raise) (before after : State) :
    (takeFault w0 r before after).resp = some ⟨r.cause.code, before.res⟩ := by
  unfold takeFault; split <;> rfl

end Sys2Proof.Machine
end

