-- ==== Sys2Proof/Laws/Rulings.lean ====
section
/-! SUPPORT. What a rule, its checks and its memory accesses can come to, and how the execution of a rule ends
(spec/48_system.md R280; spec/60_exceptions.md R312, R313; spec/20_memory.md R71, R72). -/

namespace Sys2Proof.Machine

/-! ## Rulings -/

@[simp] theorem bind_ok {α β : Type} (a : α) (s : State) (k : α → State → Ruling β) : (Ruling.ok a s).bind k = k a s := rfl

@[simp] theorem bind_raise {α β : Type} (r : Raise) (s : State) (k : α → State → Ruling β) :
    (Ruling.raise r s : Ruling α).bind k = .raise r s := rfl

theorem bind_eq_ok {α β : Type} {x : Ruling α} {k : α → State → Ruling β} {b : β} {t : State} :
    x.bind k = .ok b t ↔ ∃ a s, x = .ok a s ∧ k a s = .ok b t := by
  cases x <;> simp

theorem bind_eq_raise {α β : Type} {x : Ruling α} {k : α → State → Ruling β} {r : Raise} {t : State} :
    x.bind k = .raise r t ↔ x = .raise r t ∨ ∃ a s, x = .ok a s ∧ k a s = .raise r t := by
  cases x <;> simp

@[simp] theorem need_pos {α : Type} {c : Prop} [Decidable c] (h : c) (r : Raise) (s : State) (k : Ruling α) :
    need c r s k = k := if_pos h

@[simp] theorem need_neg {α : Type} {c : Prop} [Decidable c] (h : ¬c) (r : Raise) (s : State) (k : Ruling α) :
    need c r s k = .raise r s := if_neg h

theorem need_eq_ok {α : Type} {c : Prop} [Decidable c] {r : Raise} {s : State} {k : Ruling α} {a : α} {t : State} :
    need c r s k = .ok a t ↔ c ∧ k = .ok a t := by
  unfold need; split <;> simp [*]

theorem need_eq_raise {α : Type} {c : Prop} [Decidable c] {r q : Raise} {s : State} {k : Ruling α} {t : State} :
    need c r s k = .raise q t ↔ (¬c ∧ r = q ∧ s = t) ∨ (c ∧ k = .raise q t) := by
  unfold need; split <;> simp [*]

/-! ## Memory accesses -/

theorem leastBad_eq_none {bad : List Nat} {addr n : Nat} :
    leastBad bad addr n = none ↔ ∀ x ∈ bad, ¬(addr ≤ x ∧ x < addr + n) := by
  simp [leastBad, List.min?_eq_none_iff, List.filter_eq_nil_iff]

theorem leastBad_eq_some {bad : List Nat} {addr n x : Nat} :
    leastBad bad addr n = some x ↔
      (addr ≤ x ∧ x < addr + n ∧ x ∈ bad) ∧ ∀ y ∈ bad, addr ≤ y → y < addr + n → x ≤ y := by
  rw [leastBad, List.min?_eq_some_iff]
  simp only [List.mem_filter, decide_eq_true_eq]
  constructor
  · rintro ⟨⟨h, h1, h2⟩, h3⟩
    exact ⟨⟨h1, h2, h⟩, fun y hy a b => h3 y ⟨hy, a, b⟩⟩
  · rintro ⟨⟨h1, h2, h⟩, h3⟩
    exact ⟨⟨h, h1, h2⟩, fun y hy => h3 y hy.1 hy.2.1 hy.2.2⟩

theorem memRead_ok {addr n : Nat} {s : State} (h : s.InReadable addr n) :
    memRead addr n s = .ok (s.inBytes addr n) s := by
  have := leastBad_eq_none.2 h
  simp [memRead, this, State.inBytes]

theorem memRead_raise {addr n x : Nat} {s : State} (h : s.LeastUnreadable addr n x) :
    memRead addr n s = .raise (ioError x false) s := by
  have := leastBad_eq_some.2 h
  simp [memRead, this]

/-- Everything a read can come to: it changes nothing. -/
theorem memRead_cases (addr n : Nat) (s : State) :
    (s.InReadable addr n ∧ memRead addr n s = .ok (s.inBytes addr n) s) ∨
    ∃ x, s.LeastUnreadable addr n x ∧ memRead addr n s = .raise (ioError x false) s := by
  cases h : leastBad s.cfg.ioBadIn addr n with
  | none => exact .inl ⟨leastBad_eq_none.1 h, memRead_ok (leastBad_eq_none.1 h)⟩
  | some x => exact .inr ⟨x, leastBad_eq_some.1 h, memRead_raise (leastBad_eq_some.1 h)⟩

@[simp] theorem inBytes_length (s : State) (addr n : Nat) : (s.inBytes addr n).length = n := by simp [State.inBytes]

theorem leastUnwritable_eq_none {c : Config} {addr n : Nat} (hn : n ≠ 0) :
    leastUnwritable c addr n = none ↔ addr + n ≤ c.outCap ∧ ∀ x ∈ c.ioBadOut, ¬(addr ≤ x ∧ x < addr + n) := by
  unfold leastUnwritable
  cases h : leastBad c.ioBadOut addr n with
  | none =>
    have := leastBad_eq_none.1 h
    simp only [ite_eq_right_iff, reduceCtorEq, imp_false]
    exact ⟨fun g => ⟨by omega, this⟩, fun g h => by omega⟩
  | some x =>
    obtain ⟨⟨h1, h2, h3⟩, -⟩ := leastBad_eq_some.1 h
    constructor
    · intro g
      dsimp only at g
      split at g <;> cases g
    · intro g
      exact absurd ⟨h1, h2⟩ (g.2 x h3)

theorem leastUnwritable_eq_some {c : Config} {addr n x : Nat} (h : leastUnwritable c addr n = some x) :
    (addr ≤ x ∧ x < addr + n ∧ (c.outCap ≤ x ∨ x ∈ c.ioBadOut)) ∧
      ∀ y, addr ≤ y → y < x → y < c.outCap ∧ y ∉ c.ioBadOut := by
  unfold leastUnwritable at h
  cases hb : leastBad c.ioBadOut addr n with
  | none =>
    have hb := leastBad_eq_none.1 hb
    simp only [*] at h
    split at h
    · cases h
      refine ⟨by omega, fun y h1 h2 => ⟨by omega, fun h3 => hb y h3 ⟨h1, by omega⟩⟩⟩
    · cases h
  | some z =>
    obtain ⟨⟨h1, h2, h3⟩, h4⟩ := leastBad_eq_some.1 hb
    simp only [*] at h
    split at h
    · cases h
      refine ⟨⟨h1, h2, .inr h3⟩, fun y a b => ⟨by omega, fun g => ?_⟩⟩
      have := h4 y g a (by omega)
      omega
    · cases h
      refine ⟨by omega, fun y a b => ⟨by omega, fun g => ?_⟩⟩
      have := h4 y g a (by omega)
      omega

theorem leastUnwritable_unique {c : Config} {addr n x : Nat}
    (h : (addr ≤ x ∧ x < addr + n ∧ (c.outCap ≤ x ∨ x ∈ c.ioBadOut)) ∧
      ∀ y, addr ≤ y → y < x → y < c.outCap ∧ y ∉ c.ioBadOut) : leastUnwritable c addr n = some x := by
  obtain ⟨⟨h1, h2, h3⟩, h4⟩ := h
  cases g : leastUnwritable c addr n with
  | none =>
    have := (leastUnwritable_eq_none (by omega)).1 g
    rcases h3 with h3 | h3
    · omega
    · exact absurd ⟨h1, h2⟩ (this.2 x h3)
  | some z =>
    obtain ⟨⟨g1, g2, g3⟩, g4⟩ := leastUnwritable_eq_some g
    rcases Nat.lt_trichotomy x z with hl | hl | hl
    · have := g4 x h1 hl
      rcases h3 with h3 | h3
      · omega
      · exact absurd h3 this.2
    · rw [hl]
    · have := h4 z g1 hl
      rcases g3 with g3 | g3
      · omega
      · exact absurd g3 this.2

@[simp] theorem putAll_nil (m : Memory) (addr : Nat) : m.putAll addr [] = m := rfl

@[simp] theorem wrote_nil (addr : Nat) (s : State) : s.wrote addr [] = s := rfl

theorem memWrite_ok {addr : Nat} {v : Bytes} {s : State} (h : s.OutWritable addr v.length) :
    memWrite addr v s = .ok () (s.wrote addr v) := by
  unfold memWrite
  split
  · next hv => subst hv; rfl
  · next hv =>
    have hl : v.length ≠ 0 := by simpa using hv
    rcases h with h | h
    · exact absurd h hl
    · rw [(leastUnwritable_eq_none hl).2 h]
      simp [State.wrote, hv]

theorem memWrite_raise {addr x : Nat} {v : Bytes} {s : State} (h : s.LeastUnwritable addr v.length x) :
    memWrite addr v s = .raise (ioError x true) s := by
  have hv : v ≠ [] := by
    rintro rfl
    have := h.1
    simp at this
    omega
  simp [memWrite, hv, leastUnwritable_unique h]

/-- Everything a write can come to: all of it, or nothing. -/
theorem memWrite_cases (addr : Nat) (v : Bytes) (s : State) :
    (s.OutWritable addr v.length ∧ memWrite addr v s = .ok () (s.wrote addr v)) ∨
    ∃ x, s.LeastUnwritable addr v.length x ∧ memWrite addr v s = .raise (ioError x true) s := by
  by_cases hv : v = []
  · subst hv
    exact .inl ⟨.inl rfl, rfl⟩
  · have hl : v.length ≠ 0 := by simpa using hv
    cases h : leastUnwritable s.cfg addr v.length with
    | none =>
      have := (leastUnwritable_eq_none hl).1 h
      exact .inl ⟨.inr this, memWrite_ok (.inr this)⟩
    | some x => exact .inr ⟨x, leastUnwritable_eq_some h, memWrite_raise (leastUnwritable_eq_some h)⟩

/-! ## Executing a rule -/

/-- The rule of each command. -/
def ruleOf : Instr → State → Ruling Results
  | .sysNop => ruleSysNop
  | .sysReset => ruleSysReset
  | .sysClrerr => ruleSysClrerr
  | .sysRdcr cr => ruleSysRdcr cr
  | .sysWrcr cr v => ruleSysWrcr cr v
  | .bbCreate b n => ruleBbCreate b n
  | .bbGet b i => ruleBbGet b i
  | .bbSet b i v => ruleBbSet b i v
  | .bbAppend b v => ruleBbAppend b v
  | .bbCopy d src => ruleBbCopy d src
  | .bbConcat d src => ruleBbConcat d src
  | .bbReset b => ruleBbReset b
  | .bbSize b => ruleBbSize b
  | .bbFlush b addr => ruleBbFlush b addr
  | .pqInsert h k => rulePqInsert h k
  | .pqExtract => rulePqExtract
  | .pqPeek => rulePqPeek
  | .pqSize => rulePqSize
  | .pqIsempty => rulePqIsempty
  | .pqDestroy d => rulePqDestroy d
  | .ptInsert a n v => rulePtInsert a n v
  | .ptSearch a n g => rulePtSearch a n g
  | .ptRemove a n => rulePtRemove a n
  | .ptKeys a => rulePtKeys a
  | .ptClear => rulePtClear
  | .ftSet a n c => ruleFtSet a n c
  | .ftClear => ruleFtClear
  | .htLeaf sym freq => ruleHtLeaf sym freq
  | .htMerge => ruleHtMerge
  | .htBuild => ruleHtBuild
  | .htFree h => ruleHtFree h
  | .htSer a => ruleHtSer a
  | .htDeser a b => ruleHtDeser a b
  | .htNode h => ruleHtNode h
  | .ctGen => ruleCtGen
  | .ctGet sym b => ruleCtGet sym b
  | .ctStload a b => ruleCtStload a b
  | .ctStstore a => ruleCtStstore a
  | .cdEncode => ruleCdEncode
  | .cdDecode => ruleCdDecode
  | .cdEpass a b => ruleCdEpass a b
  | .cdDpass a b c => ruleCdDpass a b c

/-- Every meaning is the execution of the command's rule. -/
theorem exec_eq_runRule (i : Instr) (s : State) : exec i s = runRule i (ruleOf i) s := by cases i <;> rfl

theorem runRule_ignored {i : Instr} {rule : State → Ruling Results} {s : State} (hf : s.status.fault = true)
    (hp : passesFilter i.fields.opcode = false) : runRule i rule s = .next s.ignored := by
  simp [runRule, hf, hp]

theorem runRule_ok {i : Instr} {rule : State → Ruling Results} {s t : State} {res : Results}
    (hf : s.status.fault = false) (h : rule s = .ok res t) : runRule i rule s = .next (t.answered res) := by
  simp [runRule, hf, h]; rfl

theorem runRule_raise {i : Instr} {rule : State → Ruling Results} {s t : State} {r : Raise}
    (hf : s.status.fault = false) (h : rule s = .raise r t) :
    runRule i rule s = .next (takeFault i.w0 r s (afterRaise (commandClass i) s t)) := by
  simp [runRule, hf, h]

/-- A precise command's fault changes the fault registers and the response alone (60_exceptions.md R313). -/
theorem runRule_precise {i : Instr} {rule : State → Ruling Results} {s t : State} {r : Raise}
    (hc : commandClass i = .precise) (hf : s.status.fault = false) (h : rule s = .raise r t) :
    runRule i rule s = .next (s.faulted r.cause.code i.w0 r.info0 r.info1) := by
  rw [runRule_raise hf h, hc]
  simp [afterRaise, takeFault, hf, State.faulted, State.setFault]

/-- Everything the execution of a rule can come to. -/
theorem runRule_cases {i : Instr} {rule : State → Ruling Results} {s t : State} (h : runRule i rule s = .next t) :
    (s.status.fault = true ∧ passesFilter i.fields.opcode = false ∧ t = s.ignored) ∨
    (∃ res s', rule s = .ok res s' ∧ t = s'.completed res) ∨
    (∃ r s', rule s = .raise r s' ∧ t = takeFault i.w0 r s (afterRaise (commandClass i) s s')) := by
  unfold runRule at h
  split at h
  · next hf =>
    simp only [Bool.and_eq_true, Bool.not_eq_true'] at hf
    exact .inl ⟨hf.1, hf.2, by simpa using h.symm⟩
  · split at h
    · next res s' hr => exact .inr (.inl ⟨res, s', hr, by simpa using h.symm⟩)
    · next r s' hr => exact .inr (.inr ⟨r, s', hr, by simpa using h.symm⟩)

/-- The execution of a rule always answers a next state. -/
theorem runRule_next (i : Instr) (rule : State → Ruling Results) (s : State) : ∃ t, runRule i rule s = .next t := by
  unfold runRule
  split
  · exact ⟨_, rfl⟩
  · split <;> exact ⟨_, rfl⟩

/-- Every command on every state answers a next state (48_system.md R280, "`exec` is total"). -/
theorem exec_next (i : Instr) (s : State) : ∃ t, exec i s = .next t := exec_eq_runRule i s ▸ runRule_next i _ s

/-- The state after a fault of a command on an engine with none pending. -/
theorem takeFault_faulted {w0 : Word} {r : Raise} {before after : State} (hf : before.status.fault = false) :
    takeFault w0 r before after =
      ({ after with res := before.res } : State).faulted r.cause.code w0 r.info0 r.info1 := by
  simp [takeFault, hf, State.faulted, State.setFault]

/-- The registers that fault entry records (60_exceptions.md R312). -/
theorem takeFault_records {w0 : Word} {r : Raise} {before after : State} (hf : before.status.fault = false) :
    (takeFault w0 r before after).FaultedWith r.cause.code w0 r.info0 r.info1 := by
  rw [takeFault_faulted hf]
  exact ⟨rfl, rfl, rfl, rfl, rfl, rfl⟩

end Sys2Proof.Machine
end

