-- ==== Sys2Proof/Laws/Maps.lean ====
section
/-! SUPPORT. Laws of the sorted maps and sets, of the orders they are sorted by, and of the memories (spec/00_scope.md R14;
spec/20_memory.md R70, R72). -/

namespace Sys2Proof.Machine

/-! ## Orders -/

/-- What the laws of maps need of an order. -/
structure IsOrder {κ : Type} (lt : κ → κ → Bool) : Prop where
  irrefl : ∀ a, lt a a = false
  trans : ∀ a b c, lt a b = true → lt b c = true → lt a c = true
  total : ∀ a b, lt a b = false → lt b a = false → a = b

theorem IsOrder.asymm {κ : Type} {lt : κ → κ → Bool} (o : IsOrder lt) {a b : κ} (h : lt a b = true) : lt b a = false := by
  cases h' : lt b a with
  | false => rfl
  | true => simpa [o.irrefl] using o.trans a b a h h'

theorem IsOrder.ne {κ : Type} {lt : κ → κ → Bool} (o : IsOrder lt) {a b : κ} (h : lt a b = true) : a ≠ b := by
  rintro rfl; simp [o.irrefl] at h

theorem addrLt_order : IsOrder addrLt where
  irrefl a := by simp [addrLt]
  trans a b c h h' := by simp [addrLt] at *; omega
  total a b h h' := by simp [addrLt] at *; omega

theorem wordLt_order : IsOrder wordLt where
  irrefl a := by simp [wordLt]
  trans a b c h h' := by simp only [wordLt, decide_eq_true_eq] at *; omega
  total a b h h' := by
    simp only [wordLt, decide_eq_false_iff_not] at *
    exact BitVec.eq_of_toNat_eq (by omega)

theorem lexLt_irrefl : ∀ a : Bytes, lexLt a a = false
  | [] => rfl
  | x :: a => by simp [lexLt, lexLt_irrefl a]

theorem lexLt_trans : ∀ a b c : Bytes, lexLt a b = true → lexLt b c = true → lexLt a c = true
  | _, [], _ => by simp [lexLt]
  | _, _ :: _, [] => by simp [lexLt]
  | [], _ :: _, _ :: _ => by simp [lexLt]
  | x :: a, y :: b, z :: c => by
    have ih := lexLt_trans a b c
    simp only [lexLt, Bool.or_eq_true, decide_eq_true_eq, Bool.and_eq_true, beq_iff_eq]
    rintro (h | ⟨rfl, h⟩) (h' | ⟨rfl, h'⟩)
    · exact .inl (by omega)
    · exact .inl h
    · exact .inl h'
    · exact .inr ⟨rfl, ih h h'⟩

theorem lexLt_total : ∀ a b : Bytes, lexLt a b = false → lexLt b a = false → a = b
  | [], [] => by simp
  | [], _ :: _ => by simp [lexLt]
  | _ :: _, [] => by simp [lexLt]
  | x :: a, y :: b => by
    have ih := lexLt_total a b
    simp only [lexLt, Bool.or_eq_false_iff, decide_eq_false_iff_not, Bool.and_eq_false_iff, beq_eq_false_iff_ne]
    rintro ⟨h1, h2⟩ ⟨h3, h4⟩
    have hxy : x = y := BitVec.eq_of_toNat_eq (by omega)
    subst hxy
    have := ih (by simpa using h2) (by simpa using h4)
    rw [this]

theorem lexLt_order : IsOrder lexLt := ⟨lexLt_irrefl, lexLt_trans, lexLt_total⟩

/-! ## Sorted lists -/

/-- Rising lists are the pairwise ordered ones. -/
theorem rising_iff {κ : Type} {lt : κ → κ → Bool} (o : IsOrder lt) :
    ∀ l : List κ, rising lt l = true ↔ l.Pairwise fun a b => lt a b = true
  | [] => by simp [rising]
  | [a] => by simp [rising]
  | a :: b :: rest => by
    have ih := rising_iff o (b :: rest)
    simp only [rising, Bool.and_eq_true, ih, List.pairwise_cons, List.mem_cons, forall_eq_or_imp]
    constructor
    · rintro ⟨h, h1, h2⟩
      exact ⟨⟨h, fun x hx => o.trans _ _ _ h (h1 x hx)⟩, h1, h2⟩
    · rintro ⟨⟨h, -⟩, h1, h2⟩
      exact ⟨h, h1, h2⟩

theorem rising_nodup {κ : Type} {lt : κ → κ → Bool} (o : IsOrder lt) {l : List κ} (h : rising lt l = true) : l.Nodup :=
  ((rising_iff o l).1 h).imp fun hab => o.ne hab

/-! ## Maps -/

section maps
variable {κ α : Type} {lt : κ → κ → Bool}

theorem mapInsert_keys (k x : κ) (v : α) (m : List (κ × α)) (o : IsOrder lt) :
    x ∈ (mapInsert lt k v m).map Prod.fst ↔ x = k ∨ x ∈ m.map Prod.fst := by
  induction m with
  | nil => simp [mapInsert]
  | cons e rest ih =>
    simp only [mapInsert]
    split
    · simp
    · split
      · simp only [List.map_cons, List.mem_cons, ih]
        tauto
      · next h1 h2 =>
        have : k = e.1 := o.total _ _ (by simpa using h1) (by simpa using h2)
        simp [this]

theorem mapInsert_mem {k : κ} {v : α} {m : List (κ × α)} {e : κ × α} (h : e ∈ mapInsert lt k v m) :
    e = (k, v) ∨ e ∈ m := by
  induction m with
  | nil => simpa [mapInsert] using h
  | cons x rest ih =>
    simp only [mapInsert] at h
    split at h
    · simpa using h
    · split at h
      · rcases List.mem_cons.1 h with h | h
        · exact .inr (by simp [h])
        · rcases ih h with h | h
          · exact .inl h
          · exact .inr (by simp [h])
      · rcases List.mem_cons.1 h with h | h
        · exact .inl h
        · exact .inr (by simp [h])

/-- Storing under a key keeps a map sorted. -/
theorem mapInsert_rising (o : IsOrder lt) (k : κ) (v : α) {m : List (κ × α)} (h : rising lt (m.map Prod.fst) = true) :
    rising lt ((mapInsert lt k v m).map Prod.fst) = true := by
  rw [rising_iff o] at *
  induction m with
  | nil => simp [mapInsert]
  | cons e rest ih =>
    obtain ⟨h1, h2⟩ := List.pairwise_cons.1 h
    simp only [mapInsert]
    split
    · next hk =>
      refine List.pairwise_cons.2 ⟨fun x hx => ?_, h⟩
      rcases List.mem_cons.1 hx with rfl | hx
      · exact hk
      · exact o.trans _ _ _ hk (h1 x hx)
    · split
      · next hk =>
        refine List.pairwise_cons.2 ⟨fun x hx => ?_, ih h2⟩
        rcases (mapInsert_keys k x v rest o).1 hx with rfl | hx
        · exact hk
        · exact h1 x hx
      · next hk hk' =>
        have : k = e.1 := o.total _ _ (by simpa using hk) (by simpa using hk')
        subst this
        exact List.pairwise_cons.2 ⟨h1, h2⟩

/-- A key above every key of a map is stored at its end. -/
theorem mapInsert_above (o : IsOrder lt) {k : κ} (v : α) {m : List (κ × α)} (h : ∀ e ∈ m, lt e.1 k = true) :
    mapInsert lt k v m = m ++ [(k, v)] := by
  induction m with
  | nil => rfl
  | cons e rest ih =>
    have he := h e (by simp)
    simp [mapInsert, o.asymm he, he, ih fun x hx => h x (by simp [hx])]

variable [DecidableEq κ]

/-- Looking up after storing. -/
theorem mapFind_mapInsert (o : IsOrder lt) (k x : κ) (v : α) (m : List (κ × α)) :
    mapFind x (mapInsert lt k v m) = if x = k then some v else mapFind x m := by
  induction m with
  | nil =>
    by_cases h : x = k
    · subst h; simp [mapInsert, mapFind]
    · simp [mapInsert, mapFind, h, Ne.symm h]
  | cons e rest ih =>
    simp only [mapInsert]
    split
    · by_cases h : x = k
      · subst h; simp [mapFind]
      · simp [mapFind, h, Ne.symm h]
    · split
      · next hk =>
        simp only [mapFind, ih]
        have hne : e.1 ≠ k := o.ne hk
        by_cases hx : e.1 = x
        · subst hx; simp [hne]
        · simp [hx]
      · next hk hk' =>
        have : k = e.1 := o.total _ _ (by simpa using hk) (by simpa using hk')
        subst this
        by_cases h : x = e.1
        · subst h; simp [mapFind]
        · simp [mapFind, h, Ne.symm h]

/-- Looking up after keeping only some keys. -/
theorem mapFind_filter (p : κ → Bool) (x : κ) (m : List (κ × α)) :
    mapFind x (m.filter fun e => p e.1) = if p x = true then mapFind x m else none := by
  induction m with
  | nil => simp [mapFind]
  | cons e rest ih =>
    by_cases hp : p e.1 = true
    · simp only [List.filter_cons, hp, if_true, mapFind, ih]
      by_cases hx : e.1 = x
      · subst hx; simp [hp]
      · simp [hx]
    · rw [List.filter_cons, if_neg hp, ih, mapFind]
      by_cases hx : e.1 = x
      · subst hx; simp [hp]
      · simp [hx]

/-- Looking up after erasing. -/
theorem mapFind_mapErase (k x : κ) (m : List (κ × α)) :
    mapFind x (mapErase k m) = if x = k then none else mapFind x m := by
  have := mapFind_filter (fun y => decide (y ≠ k)) x m
  rw [mapErase]
  rw [this]
  by_cases h : x = k <;> simp [h]

theorem mapFind_mem {k : κ} {v : α} {m : List (κ × α)} (h : mapFind k m = some v) : (k, v) ∈ m := by
  induction m with
  | nil => simp [mapFind] at h
  | cons e rest ih =>
    simp only [mapFind] at h
    split at h
    · next he => cases h; subst he; simp
    · exact List.mem_cons_of_mem _ (ih h)

theorem mapFind_eq_none {k : κ} {m : List (κ × α)} : mapFind k m = none ↔ k ∉ m.map Prod.fst := by
  induction m with
  | nil => simp [mapFind]
  | cons e rest ih =>
    simp only [mapFind]
    split
    · next h => simp [h]
    · next h => simp only [ih, List.map_cons, List.mem_cons, not_or]; exact ⟨fun g => ⟨fun e => h e.symm, g⟩, fun g => g.2⟩

/-- In a map without repeated keys, the value of an entry is the value at its key. -/
theorem mapFind_of_mem {k : κ} {v : α} {m : List (κ × α)} (hn : (m.map Prod.fst).Nodup) (h : (k, v) ∈ m) :
    mapFind k m = some v := by
  induction m with
  | nil => simp at h
  | cons e rest ih =>
    simp only [List.map_cons, List.nodup_cons] at hn
    simp only [mapFind]
    rcases List.mem_cons.1 h with rfl | h
    · simp
    · have : e.1 ≠ k := by
        intro he
        exact hn.1 (he ▸ List.mem_map_of_mem (f := Prod.fst) h)
      rw [if_neg this]
      exact ih hn.2 h

end maps

/-! ## Sets -/

theorem setInsert_mem {κ : Type} {lt : κ → κ → Bool} (o : IsOrder lt) (k x : κ) (l : List κ) :
    x ∈ setInsert lt k l ↔ x = k ∨ x ∈ l := by
  induction l with
  | nil => simp [setInsert]
  | cons y rest ih =>
    simp only [setInsert]
    split
    · simp
    · split
      · simp only [List.mem_cons, ih]; tauto
      · next h1 h2 =>
        have : k = y := o.total _ _ (by simpa using h1) (by simpa using h2)
        simp [this]

theorem setInsert_rising {κ : Type} {lt : κ → κ → Bool} (o : IsOrder lt) (k : κ) {l : List κ} (h : rising lt l = true) :
    rising lt (setInsert lt k l) = true := by
  rw [rising_iff o] at *
  induction l with
  | nil => simp [setInsert]
  | cons y rest ih =>
    obtain ⟨h1, h2⟩ := List.pairwise_cons.1 h
    simp only [setInsert]
    split
    · next hk =>
      refine List.pairwise_cons.2 ⟨fun x hx => ?_, h⟩
      rcases List.mem_cons.1 hx with rfl | hx
      · exact hk
      · exact o.trans _ _ _ hk (h1 x hx)
    · split
      · next hk =>
        refine List.pairwise_cons.2 ⟨fun x hx => ?_, ih h2⟩
        rcases (setInsert_mem o k x rest).1 hx with rfl | hx
        · exact hk
        · exact h1 x hx
      · exact h

/-- A new element makes a set one larger. -/
theorem setInsert_length {κ : Type} {lt : κ → κ → Bool} (o : IsOrder lt) {k : κ} {l : List κ} (h : k ∉ l) :
    (setInsert lt k l).length = l.length + 1 := by
  induction l with
  | nil => rfl
  | cons y rest ih =>
    simp only [List.mem_cons, not_or] at h
    simp only [setInsert]
    split
    · simp
    · split
      · simp [ih h.2]
      · next h1 h2 => exact absurd (o.total _ _ (by simpa using h1) (by simpa using h2)) h.1

/-! ## Memories -/

/-- A byte read back, or another left alone. -/
theorem cell_put (m : Memory) (a x : Nat) (b : Byte) : (m.put a b).cell x = if x = a then some b else m.cell x :=
  mapFind_mapInsert addrLt_order a x b m.cells

/-- Writing one byte keeps the canonical form. -/
theorem put_wf (m : Memory) (a : Nat) (b : Byte) (h : m.wf = true) : (m.put a b).wf = true :=
  mapInsert_rising addrLt_order a b h

/-- Writing bytes keeps the canonical form. -/
theorem putAll_wf (v : Bytes) (m : Memory) (a : Nat) (h : m.wf = true) : (m.putAll a v).wf = true := by
  induction v generalizing m a with
  | nil => exact h
  | cons b bs ih => exact ih _ _ (put_wf m a b h)

/-- Forgetting every byte keeps the canonical form. -/
theorem forget_wf (m : Memory) : m.forget.wf = true := rfl

/-- The memory that lists nothing is in canonical form. -/
theorem empty_wf (era : Nat) : (Memory.mk [] era).wf = true := rfl

/-- The memories of the reset state are in canonical form. -/
theorem reset_memories_wf (c : Config) (inEra outEra : Nat) :
    (State.resetOf c inEra outEra).inMem.wf = true ∧ (State.resetOf c inEra outEra).outMem.wf = true := ⟨rfl, rfl⟩

@[simp] theorem put_era (m : Memory) (a : Nat) (b : Byte) : (m.put a b).era = m.era := rfl

@[simp] theorem putAll_era (v : Bytes) (m : Memory) (a : Nat) : (m.putAll a v).era = m.era := by
  induction v generalizing m a with
  | nil => rfl
  | cons b bs ih => exact ih _ _

/-- The bytes written, and every other byte, after a write. -/
theorem cell_putAll (v : Bytes) (m : Memory) (a x : Nat) :
    (m.putAll a v).cell x = if a ≤ x ∧ x < a + v.length then v[x - a]? else m.cell x := by
  induction v generalizing m a with
  | nil => rw [if_neg (by simp)]; rfl
  | cons b bs ih =>
    show ((m.put a b).putAll (a + 1) bs).cell x = _
    rw [ih, cell_put]
    by_cases hx : x = a
    · subst hx; simp [show ¬(x + 1 ≤ x) by omega]
    · by_cases hlt : a ≤ x ∧ x < a + (bs.length + 1)
      · have h1 : a + 1 ≤ x ∧ x < a + 1 + bs.length := by omega
        have h2 : x - a = (x - (a + 1)) + 1 := by omega
        simp [h1, hlt, h2]
      · have h1 : ¬(a + 1 ≤ x ∧ x < a + 1 + bs.length) := by omega
        simp only [List.length_cons, hlt, h1, if_false, hx]

theorem cells_put_mem {m : Memory} {a : Nat} {b : Byte} {e : Host.Cell} (h : e ∈ (m.put a b).cells) :
    e = (a, b) ∨ e ∈ m.cells := mapInsert_mem h

/-- A write puts no cell outside its range. -/
theorem cells_putAll_mem {v : Bytes} {m : Memory} {a : Nat} {e : Host.Cell} (h : e ∈ (m.putAll a v).cells) :
    (a ≤ e.1 ∧ e.1 < a + v.length) ∨ e ∈ m.cells := by
  induction v generalizing m a with
  | nil => exact .inr h
  | cons b bs ih =>
    rcases ih (m := m.put a b) (a := a + 1) h with h | h
    · exact .inl (by simp; omega)
    · rcases cells_put_mem h with rfl | h
      · exact .inl (by simp)
      · exact .inr h

/-- Two writes, one after the other, are one. -/
theorem putAll_append (v w : Bytes) (m : Memory) (a : Nat) :
    m.putAll a (v ++ w) = (m.putAll a v).putAll (a + v.length) w := by
  induction v generalizing m a with
  | nil => rfl
  | cons b bs ih =>
    show (m.put a b).putAll (a + 1) (bs ++ w) = ((m.put a b).putAll (a + 1) bs).putAll (a + (bs.length + 1)) w
    rw [ih]
    congr 1
    omega

/-- The byte of OUT that the host reads after a write. -/
theorem outByte_wrote (s : State) (a x : Nat) (v : Bytes) :
    (s.wrote a v).outByte x = if a ≤ x ∧ x < a + v.length then v.getD (x - a) 0 else s.outByte x := by
  simp only [State.outByte, State.wrote, cell_putAll, putAll_era]
  split
  · next h =>
    have : x - a < v.length := by omega
    simp [List.getD_eq_getElem?_getD, this]
  · rfl

end Sys2Proof.Machine
end

