-- ==== Sys2Proof/Laws/Bytes.lean ====
section
/-! SUPPORT. Laws of bits, bytes and byte order (spec/00_scope.md R12; spec/20_memory.md R73 to R76), of the search for a
prefix (spec/00_scope.md R11) and of the growth of a buffer (spec/10_state.md R43). -/

namespace Sys2Proof.Machine

/-! ## Bits -/

@[simp] theorem bitsLSB_length (n v : Nat) : (bitsLSB n v).length = n := by simp [bitsLSB]

theorem bitsLSB_getElem (n v i : Nat) (h : i < (bitsLSB n v).length) : (bitsLSB n v)[i] = v.testBit i := by
  simp [bitsLSB]

theorem bitsLSB_getD {n v i : Nat} (h : i < n) : (bitsLSB n v).getD i false = v.testBit i := by
  simp [bitsLSB, List.getD_eq_getElem?_getD, h]

theorem natOfBits_testBit (bits : Bits) (k : Nat) : (natOfBits bits).testBit k = bits.getD k false := by
  induction bits generalizing k with
  | nil => simp [natOfBits]
  | cons b bs ih =>
    have h : natOfBits (b :: bs) = Nat.bit b (natOfBits bs) := by
      cases b
      · simp [natOfBits, Nat.bit]
      · simp [natOfBits, Nat.bit, Nat.add_comm]
    rw [h]
    cases k with
    | zero => simp
    | succ k => simp [Nat.testBit_bit_succ, ih]

theorem natOfBits_lt (bits : Bits) : natOfBits bits < 2 ^ bits.length := by
  induction bits with
  | nil => simp [natOfBits]
  | cons b bs ih =>
    simp only [natOfBits, List.length_cons, Nat.pow_succ]
    have : b.toNat ≤ 1 := by cases b <;> simp
    omega

/-- Reading back a number from its low bits. -/
theorem natOfBits_bitsLSB (n v : Nat) : natOfBits (bitsLSB n v) = v % 2 ^ n := by
  apply Nat.eq_of_testBit_eq
  intro i
  rw [natOfBits_testBit, Nat.testBit_mod_two_pow]
  by_cases h : i < n
  · rw [bitsLSB_getD h]; simp [h]
  · rw [List.getD_eq_default _ _ (by simpa using h)]; simp [h]

theorem natOfBits_bitsLSB_of_lt {n v : Nat} (h : v < 2 ^ n) : natOfBits (bitsLSB n v) = v := by
  rw [natOfBits_bitsLSB, Nat.mod_eq_of_lt h]

/-! ## Packing -/

@[simp] theorem pack_length (bits : Bits) : (pack bits).length = bytesFor bits.length := by simp [pack]

@[simp] theorem pack_nil : pack [] = [] := rfl

/-- Where each bit goes (20_memory.md R74, R75). -/
theorem pack_getLsbD {bits : Bits} {j k : Nat} (hj : j < (pack bits).length) (hk : k < 8) :
    ((pack bits).getD j 0).getLsbD k = bits.getD (8 * j + k) false := by
  rw [pack_length] at hj
  have : (pack bits).getD j 0 = BitVec.ofNat 8 (natOfBits ((bits.drop (8 * j)).take 8)) := by
    simp [pack, List.getD_eq_getElem?_getD, hj]
  rw [this, BitVec.getLsbD_ofNat, natOfBits_testBit]
  simp [hk, List.getD_eq_getElem?_getD, List.getElem?_drop]

@[simp] theorem unpack_length (bytes : Bytes) : (unpack bytes).length = 8 * bytes.length := by
  induction bytes with
  | nil => rfl
  | cons b bs ih =>
    simp only [unpack, List.flatMap_cons, List.length_append, bitsLSB_length, List.length_cons] at ih ⊢
    omega

@[simp] theorem unpack_nil : unpack [] = [] := rfl

@[simp] theorem unpack_cons (b : Byte) (bs : Bytes) : unpack (b :: bs) = bitsLSB 8 b.toNat ++ unpack bs := rfl

theorem unpack_append (a b : Bytes) : unpack (a ++ b) = unpack a ++ unpack b := by simp [unpack]

/-- Which byte each bit comes from (20_memory.md R74). -/
theorem unpack_getD {bytes : Bytes} {i : Nat} (h : i < 8 * bytes.length) :
    (unpack bytes).getD i false = (bytes.getD (i / 8) 0).getLsbD (i % 8) := by
  induction bytes generalizing i with
  | nil => simp at h
  | cons b bs ih =>
    rw [unpack_cons]
    by_cases hi : i < 8
    · rw [List.getD_append _ _ _ _ (by simpa using hi), bitsLSB_getD hi]
      have h0 : i / 8 = 0 := by omega
      have h1 : i % 8 = i := by omega
      rw [h0, h1]
      simp [BitVec.getLsbD]
    · rw [List.getD_append_right _ _ _ _ (by simpa using hi), bitsLSB_length,
        ih (i := i - 8) (by simp only [List.length_cons] at h; omega)]
      have h0 : i / 8 = (i - 8) / 8 + 1 := by omega
      have h1 : i % 8 = (i - 8) % 8 := by omega
      rw [h0, h1]
      simp

/-- Unpacking packed bits gives them back, followed by the padding (20_memory.md R75). -/
theorem unpack_pack (bits : Bits) :
    unpack (pack bits) = bits ++ List.replicate (8 * bytesFor bits.length - bits.length) false := by
  have hle : bits.length ≤ 8 * bytesFor bits.length := by unfold bytesFor; omega
  apply List.ext_getElem
  · simp only [unpack_length, pack_length, List.length_append, List.length_replicate]; omega
  · intro i h1 h2
    have hi : i < 8 * (pack bits).length := by simpa using h1
    have e := unpack_getD hi
    rw [pack_getLsbD (by omega) (by omega), show 8 * (i / 8) + i % 8 = i by omega,
      List.getD_eq_getElem _ _ h1] at e
    rw [e]
    by_cases hb : i < bits.length
    · rw [List.getElem_append_left hb, List.getD_eq_getElem _ _ hb]
    · rw [List.getElem_append_right (by omega), List.getD_eq_default _ _ (by omega)]
      simp

theorem prefix_unpack_pack (bits : Bits) : bits <+: unpack (pack bits) := by
  rw [unpack_pack]; exact List.prefix_append _ _

/-! ## Words as bytes -/

@[simp] theorem u32le_length (v : Word) : (u32le v).length = 4 := rfl

theorem u32le_ne_nil (v : Word) : u32le v ≠ [] := by simp [u32le]

@[simp] theorem le32_u32le (v : Word) : le32 (u32le v) = v := by
  apply BitVec.eq_of_toNat_eq
  have := v.isLt
  simp only [le32, u32le, natOfBytesLE, BitVec.extractLsb'_toNat, BitVec.toNat_ofNat, Nat.shiftRight_eq_div_pow]
  omega

theorem natOfBytesLE_lt (b : Bytes) : natOfBytesLE b < 256 ^ b.length := by
  induction b with
  | nil => simp [natOfBytesLE]
  | cons x xs ih =>
    have := x.isLt
    simp only [natOfBytesLE, List.length_cons, Nat.pow_succ]
    omega

/-- Four bytes are the bytes of the word they spell. -/
theorem u32le_le32 {b : Bytes} (h : b.length = 4) : u32le (le32 b) = b := by
  obtain ⟨x0, x1, x2, x3, rfl⟩ : ∃ x0 x1 x2 x3, b = [x0, x1, x2, x3] := by
    match b, h with
    | [x0, x1, x2, x3], _ => exact ⟨x0, x1, x2, x3, rfl⟩
  have := x0.isLt
  have := x1.isLt
  have := x2.isLt
  have := x3.isLt
  simp only [u32le, le32, natOfBytesLE, List.cons.injEq, and_true]
  refine ⟨?_, ?_, ?_, ?_⟩ <;> apply BitVec.eq_of_toNat_eq <;>
    simp only [BitVec.extractLsb'_toNat, BitVec.toNat_ofNat, Nat.shiftRight_eq_div_pow] <;> omega

theorem u32le_inj {v w : Word} (h : u32le v = u32le w) : v = w := by
  have := congrArg le32 h
  simpa using this

theorem pack_bitsLSB_word (v : Word) : pack (bitsLSB 32 v.toNat) = u32le v := by
  apply List.ext_getElem
  · simp [bytesFor]
  · intro j h1 h2
    have hj : j < 4 := by simpa using h2
    apply BitVec.eq_of_getLsbD_eq
    intro k hk
    have e := pack_getLsbD h1 hk
    rw [List.getD_eq_getElem _ _ h1] at e
    rw [e, bitsLSB_getD (by omega)]
    have low : ∀ n : Nat, (n % 256).testBit k = n.testBit k := by
      intro n
      rw [show (256 : Nat) = 2 ^ 8 from rfl, Nat.testBit_mod_two_pow]
      simp [hk]
    rcases (by omega : j = 0 ∨ j = 1 ∨ j = 2 ∨ j = 3) with rfl | rfl | rfl | rfl <;>
      simp [u32le, BitVec.getLsbD, low, Nat.testBit_shiftRight]

/-! ## Prefixes and matches -/

theorem startsWith_iff (a s : Bytes) : startsWith a s = true ↔ a <+: s := by
  induction a generalizing s with
  | nil => simp [startsWith]
  | cons x xs ih =>
    cases s with
    | nil => simp [startsWith]
    | cons y ys => simp [startsWith, ih, List.cons_prefix_cons]

/-! ## Growth -/

/-- `doubleUntil` with enough fuel answers the least doubling (10_state.md R43). -/
theorem doubleUntil_spec (fuel cap need : Nat) (h : need ≤ cap * 2 ^ fuel) :
    ∃ k, k ≤ fuel ∧ need ≤ cap * 2 ^ k ∧ (∀ j, j < k → cap * 2 ^ j < need) ∧ doubleUntil fuel cap need = cap * 2 ^ k := by
  induction fuel generalizing cap with
  | zero => exact ⟨0, Nat.le_refl 0, h, fun j hj => absurd hj (by omega), by simp [doubleUntil]⟩
  | succ fuel ih =>
    unfold doubleUntil
    split
    · next hle => exact ⟨0, by omega, by simpa using hle, fun j hj => absurd hj (by omega), by simp⟩
    · next hle =>
      have h' : need ≤ 2 * cap * 2 ^ fuel := by rw [Nat.pow_succ] at h; linarith
      obtain ⟨k, hk, h1, h2, h3⟩ := ih (2 * cap) h'
      refine ⟨k + 1, by omega, by rw [Nat.pow_succ]; linarith, fun j hj => ?_, by rw [h3, Nat.pow_succ]; ring⟩
      cases j with
      | zero => simpa using hle
      | succ j =>
        have := h2 j (by omega)
        rw [Nat.pow_succ]
        linarith

theorem need_le_doubling {cap : Nat} (need : Nat) (h : 1 ≤ cap) : need ≤ cap * 2 ^ need := by
  have h1 : need < 2 ^ need := Nat.lt_two_pow_self
  calc need ≤ 1 * 2 ^ need := by omega
    _ ≤ cap * 2 ^ need := Nat.mul_le_mul_right _ h

/-- `grow` holds what it was asked to hold, within the greatest capacity. -/
theorem grow_holds {c : Config} {cap need : Nat} (h : 1 ≤ cap) (hn : need ≤ max c.bbMinCap c.bbMaxBytes) :
    need ≤ grow c cap need := by
  obtain ⟨k, -, h1, -, h3⟩ := doubleUntil_spec need cap need (need_le_doubling need h)
  rw [grow, h3]
  omega

theorem grow_le (c : Config) (cap need : Nat) : grow c cap need ≤ max c.bbMinCap c.bbMaxBytes := Nat.min_le_right _ _

theorem le_doubleUntil (fuel cap need : Nat) : cap ≤ doubleUntil fuel cap need := by
  induction fuel generalizing cap with
  | zero => exact Nat.le_refl _
  | succ fuel ih =>
    unfold doubleUntil
    split
    · exact Nat.le_refl _
    · exact Nat.le_trans (by omega) (ih (2 * cap))

/-- Growing never shrinks a capacity that is within the greatest. -/
theorem le_grow {c : Config} {cap : Nat} (need : Nat) (h : cap ≤ max c.bbMinCap c.bbMaxBytes) : cap ≤ grow c cap need := by
  have := le_doubleUntil need cap need
  rw [grow]
  omega

end Sys2Proof.Machine
end

