-- ==== Sys2Proof/Laws/Encoding.lean ====
section
/-! SUPPORT. Laws of the command word: its fields after assembling, its bytes, the rows of the opcode map. -/

namespace Sys2Proof

@[simp] theorem wordW0_assemble (w0 a b c : Word) : wordW0 (assemble w0 a b c) = w0 := by
  ext i hi
  simp only [wordW0, assemble, BitVec.getElem_extractLsb', BitVec.getLsbD_append, Nat.zero_add]
  simp [hi, BitVec.getLsbD_eq_getElem]

@[simp] theorem wordA_assemble (w0 a b c : Word) : wordA (assemble w0 a b c) = a := by
  ext i hi
  simp only [wordA, assemble, BitVec.getElem_extractLsb', BitVec.getLsbD_append]
  simp [hi, BitVec.getLsbD_eq_getElem]

@[simp] theorem wordB_assemble (w0 a b c : Word) : wordB (assemble w0 a b c) = b := by
  ext i hi
  have h : ¬64 + i < 32 := by omega
  have h' : ¬64 + i - 32 < 32 := by omega
  have h'' : 64 + i - 32 - 32 = i := by omega
  simp only [wordB, assemble, BitVec.getElem_extractLsb', BitVec.getLsbD_append, h, h', h'', if_false, hi, if_true]
  simp [BitVec.getLsbD_eq_getElem, hi]

@[simp] theorem wordC_assemble (w0 a b c : Word) : wordC (assemble w0 a b c) = c := by
  ext i hi
  have h : ¬96 + i < 32 := by omega
  have h' : ¬96 + i - 32 < 32 := by omega
  have h'' : ¬96 + i - 32 - 32 < 32 := by omega
  have h3 : 96 + i - 32 - 32 - 32 = i := by omega
  simp only [wordC, assemble, BitVec.getElem_extractLsb', BitVec.getLsbD_append, h, h', h'', h3, if_false]
  simp [BitVec.getLsbD_eq_getElem, hi]

@[simp] theorem opcode_headWord (op : Byte) (f0 : Bool) : (headWord op f0).extractLsb' 0 8 = op := by
  ext i hi
  simp only [headWord, BitVec.getElem_extractLsb', BitVec.getLsbD_append, Nat.zero_add, hi, if_true]
  simp [BitVec.getLsbD_eq_getElem, hi]

@[simp] theorem f0_headWord (op : Byte) (f0 : Bool) : (headWord op f0).getLsbD 8 = f0 := by
  simp only [headWord, BitVec.getLsbD_append]
  cases f0 <;> simp

/-- The four words of a command word put it together again. -/
theorem assemble_words (w : CommandWord) : assemble (wordW0 w) (wordA w) (wordB w) (wordC w) = w := by
  ext i hi
  simp only [assemble, wordW0, wordA, wordB, wordC, ← BitVec.getLsbD_eq_getElem, BitVec.getLsbD_append,
    BitVec.getLsbD_extractLsb']
  split
  · simp [*]
  · split
    · have : 32 + (i - 32) = i := by omega
      simp [*]
    · split
      · have : 64 + (i - 32 - 32) = i := by omega
        simp [*]
      · have : 96 + (i - 32 - 32 - 32) = i := by omega
        have : i - 32 - 32 - 32 < 32 := by omega
        simp [*]

/-- Two command words are equal when their four words are. -/
theorem word_ext {v w : CommandWord} (h0 : wordW0 v = wordW0 w) (ha : wordA v = wordA w) (hb : wordB v = wordB w)
    (hc : wordC v = wordC w) : v = w := by
  rw [← assemble_words v, ← assemble_words w, h0, ha, hb, hc]

theorem wordOpcode_eq (w : CommandWord) : wordOpcode w = (wordW0 w).extractLsb' 0 8 := by
  ext i hi
  simp only [wordOpcode, wordW0, BitVec.getElem_extractLsb', BitVec.getLsbD_extractLsb', Nat.zero_add]
  have : i < 32 := by omega
  simp [this]

theorem wordF0_eq (w : CommandWord) : wordF0 w = (wordW0 w).getLsbD 8 := by
  simp [wordF0, wordW0]

@[simp] theorem wordW0_encode (i : Instr) : wordW0 (encode i) = i.w0 := wordW0_assemble ..
@[simp] theorem wordA_encode (i : Instr) : wordA (encode i) = i.fields.a := wordA_assemble ..
@[simp] theorem wordB_encode (i : Instr) : wordB (encode i) = i.fields.b := wordB_assemble ..
@[simp] theorem wordC_encode (i : Instr) : wordC (encode i) = i.fields.c := wordC_assemble ..

@[simp] theorem wordOpcode_encode (i : Instr) : wordOpcode (encode i) = i.fields.opcode := by
  rw [wordOpcode_eq, wordW0_encode, Instr.w0, opcode_headWord]

@[simp] theorem wordF0_encode (i : Instr) : wordF0 (encode i) = i.fields.f0 := by
  rw [wordF0_eq, wordW0_encode, Instr.w0, f0_headWord]

@[simp] theorem wordW0_and (v w : CommandWord) : wordW0 (v &&& w) = wordW0 v &&& wordW0 w := by
  ext i hi; simp [wordW0, BitVec.getElem_extractLsb']
@[simp] theorem wordA_and (v w : CommandWord) : wordA (v &&& w) = wordA v &&& wordA w := by
  ext i hi; simp [wordA, BitVec.getElem_extractLsb']
@[simp] theorem wordB_and (v w : CommandWord) : wordB (v &&& w) = wordB v &&& wordB w := by
  ext i hi; simp [wordB, BitVec.getElem_extractLsb']
@[simp] theorem wordC_and (v w : CommandWord) : wordC (v &&& w) = wordC v &&& wordC w := by
  ext i hi; simp [wordC, BitVec.getElem_extractLsb']

/-- A masked comparison of command words is four comparisons of their words. -/
theorem masked_eq_iff (v m p : CommandWord) :
    v &&& m = p ↔ wordW0 v &&& wordW0 m = wordW0 p ∧ wordA v &&& wordA m = wordA p ∧
      wordB v &&& wordB m = wordB p ∧ wordC v &&& wordC m = wordC p := by
  constructor
  · rintro rfl
    simp
  · rintro ⟨h0, ha, hb, hc⟩
    exact word_ext (by simpa using h0) (by simpa using ha) (by simpa using hb) (by simpa using hc)

/-- The row of every command, by the opcode it is spelled with. -/
theorem rowOf_opcode (i : Instr) : ∃ r, rowOf i.fields.opcode = some r ∧ r.opcode = i.fields.opcode ∧
    r.build i.fields.f0 i.fields.a i.fields.b i.fields.c = i := by
  cases i <;> exact ⟨_, rfl, rfl, rfl⟩

/-- A row is found under its own opcode. -/
theorem rowOf_some {op : Byte} {r : Row} (h : rowOf op = some r) : r ∈ rows ∧ r.opcode = op := by
  refine ⟨List.mem_of_find?_eq_some h, ?_⟩
  simpa using List.find?_some h

/-- The 42 opcodes are pairwise different, so no two rows overlap (30_encoding.md R105). -/
theorem opcodes_nodup : (rows.map Row.opcode).Nodup := by decide

/-! ## Patterns and masks -/

@[simp] theorem wordW0_pattern (r : Row) : wordW0 r.pattern = r.opcode.setWidth 32 := by
  ext i hi
  simp [wordW0, Row.pattern, BitVec.getElem_extractLsb', BitVec.getLsbD_setWidth]
  omega

@[simp] theorem wordA_pattern (r : Row) : wordA r.pattern = 0 := by
  ext i hi
  simp [wordA, Row.pattern, BitVec.getElem_extractLsb', BitVec.getLsbD_setWidth]
  exact fun _ => BitVec.getLsbD_of_ge _ _ (by omega)

@[simp] theorem wordB_pattern (r : Row) : wordB r.pattern = 0 := by
  ext i hi
  simp [wordB, Row.pattern, BitVec.getElem_extractLsb', BitVec.getLsbD_setWidth]
  exact fun _ => BitVec.getLsbD_of_ge _ _ (by omega)

@[simp] theorem wordC_pattern (r : Row) : wordC r.pattern = 0 := by
  ext i hi
  simp [wordC, Row.pattern, BitVec.getElem_extractLsb', BitVec.getLsbD_setWidth]
  exact fun _ => BitVec.getLsbD_of_ge _ _ (by omega)

/-- Without F0 the low word is the opcode alone. -/
theorem headWord_false (op : Byte) : headWord op false = op.setWidth 32 := by
  revert op; decide

/-- Without F0 the full mask leaves the opcode. -/
theorem headWord_unflagged (op : Byte) : headWord op false &&& 0xFFFFFFFF#32 = op.setWidth 32 := by
  revert op; decide

/-- Masking F0 out of the low word leaves the opcode. -/
theorem headWord_masked (op : Byte) (f0 : Bool) : headWord op f0 &&& 0xFFFFFEFF#32 = op.setWidth 32 := by
  revert op f0; decide

/-- A low word that is an opcode but for F0 is the low word of that opcode and its own F0. -/
theorem headWord_of_masked {x : Word} {op : Byte} (h : x &&& 0xFFFFFEFF#32 = op.setWidth 32) :
    headWord op (x.getLsbD 8) = x := by
  have bit : ∀ k, k < 32 → k ≠ 8 → (0xFFFFFEFF#32).getLsbD k = true := by decide
  ext i hi
  have hbit := congrArg (fun v => v.getLsbD i) h
  simp only [BitVec.getLsbD_and, BitVec.getLsbD_setWidth, hi, decide_true, Bool.true_and] at hbit
  simp only [← BitVec.getLsbD_eq_getElem, headWord, BitVec.getLsbD_append]
  rcases Nat.lt_trichotomy i 8 with h8 | h8 | h8
  · rw [bit i hi (by omega), Bool.and_true] at hbit
    simp [h8, hbit]
  · subst h8
    cases x.getLsbD 8 <;> simp
  · rw [bit i hi (by omega), Bool.and_true, BitVec.getLsbD_of_ge op i (by omega)] at hbit
    simp [show ¬i < 8 by omega, show ¬i - 8 < 1 by omega, hbit]

/-- The word of a command matches the mask and pattern of its row (30_encoding.md R102). -/
theorem encode_matches {i : Instr} {r : Row} (h : rowOf i.fields.opcode = some r) :
    encode i &&& r.format.mask = r.pattern := by
  rw [masked_eq_iff]
  simp only [wordW0_encode, wordA_encode, wordB_encode, wordC_encode, Instr.w0, wordW0_pattern, wordA_pattern,
    wordB_pattern, wordC_pattern]
  cases i <;> cases h <;> refine ⟨?_, ?_, ?_, ?_⟩ <;>
    simp only [Format.mask, wordW0_assemble, wordA_assemble, wordB_assemble, wordC_assemble] <;>
    first | exact headWord_masked _ _ | exact headWord_unflagged _ | exact BitVec.and_zero | exact BitVec.zero_and

end Sys2Proof
end

