-- ==== Sys2Proof/Laws/Nodes.lean ====
section
/-! SUPPORT. Laws of the node store: its walks, allocating, freeing, and the invariant of the store (spec/10_state.md R47 to
R51). -/

namespace Sys2Proof.Machine

/-! ## Walks -/

/-- Every child's number is below its parent's (10_state.md R49). -/
def NodeMap.Down (m : NodeMap) : Prop := ∀ e ∈ m, ∀ c ∈ e.2.children, c.toNat < e.1.toNat

/-- The number of live nodes up to a handle; it bounds every walk down from the handle. -/
def NodeMap.rank (m : NodeMap) (h : Word) : Nat := (m.filter fun e => decide (e.1.toNat ≤ h.toNat)).length

theorem rank_le (m : NodeMap) (h : Word) : m.rank h ≤ m.length := List.length_filter_le _ _

theorem rank_lt {m : NodeMap} {c h : Word} {n : Node} (hf : mapFind h m = some n) (hc : c.toNat < h.toNat) :
    m.rank c < m.rank h := by
  have hm := mapFind_mem hf
  clear hf
  unfold NodeMap.rank
  induction m with
  | nil => simp at hm
  | cons e rest ih =>
    have mono : (rest.filter fun e => decide (e.1.toNat ≤ c.toNat)).length ≤
        (rest.filter fun e => decide (e.1.toNat ≤ h.toNat)).length := by
      have hs : (rest.filter fun e => decide (e.1.toNat ≤ c.toNat)).Sublist
          (rest.filter fun e => decide (e.1.toNat ≤ h.toNat)) :=
        List.monotone_filter_right _ fun e he => by simp only [decide_eq_true_eq] at *; omega
      exact hs.length_le
    rcases List.mem_cons.1 hm with rfl | hm
    · simp only [List.filter_cons, Nat.le_refl, decide_true, if_true, List.length_cons]
      have : ¬h.toNat ≤ c.toNat := by omega
      simp only [this, decide_false, Bool.false_eq_true, if_false]
      omega
    · have := ih hm
      simp only [List.filter_cons]
      by_cases h1 : e.1.toNat ≤ c.toNat
      · have h2 : e.1.toNat ≤ h.toNat := by omega
        simp only [h1, h2, decide_true, if_true, List.length_cons]
        omega
      · simp only [h1, decide_false, Bool.false_eq_true, if_false]
        split
        · simp only [List.length_cons]; omega
        · exact this

theorem rank_pos {m : NodeMap} {h : Word} {n : Node} (hf : mapFind h m = some n) : 0 < m.rank h := by
  have hm := mapFind_mem hf
  exact List.length_pos_of_mem (a := (h, n)) (List.mem_filter.2 ⟨hm, by simp⟩)

/-- A walk that reaches something starts at a live handle. -/
theorem Reachable.live {m : NodeMap} {h x : Word} (hr : Reachable m h x) : NodeMap.live m h = true := by
  cases hr with
  | here hl => exact hl
  | left hf _ => simp [NodeMap.live, hf]
  | right hf _ => simp [NodeMap.live, hf]

theorem Reachable.target_live {m : NodeMap} {h x : Word} (hr : Reachable m h x) : NodeMap.live m x = true := by
  induction hr with
  | here hl => exact hl
  | left _ _ ih => exact ih
  | right _ _ ih => exact ih

theorem Reachable.trans {m : NodeMap} {a b c : Word} (h : Reachable m a b) (h' : Reachable m b c) : Reachable m a c := by
  induction h with
  | here _ => exact h'
  | left hf _ ih => exact .left hf (ih h')
  | right hf _ ih => exact .right hf (ih h')

theorem Reachable.cases_iff {m : NodeMap} {h x : Word} : Reachable m h x ↔
    (x = h ∧ NodeMap.live m h = true) ∨
      ∃ l r freq, mapFind h m = some (.internal l r freq) ∧ (Reachable m l x ∨ Reachable m r x) := by
  constructor
  · intro hr
    cases hr with
    | here hl => exact .inl ⟨rfl, hl⟩
    | left hf h' => exact .inr ⟨_, _, _, hf, .inl h'⟩
    | right hf h' => exact .inr ⟨_, _, _, hf, .inr h'⟩
  · rintro (⟨rfl, hl⟩ | ⟨l, r, freq, hf, h' | h'⟩)
    · exact .here hl
    · exact .left hf h'
    · exact .right hf h'

theorem mem_reach {m : NodeMap} (hd : m.Down) {fuel : Nat} {h x : Word} (hf : m.rank h ≤ fuel) :
    x ∈ m.reach fuel h ↔ Reachable m h x := by
  induction fuel generalizing h with
  | zero =>
    simp only [NodeMap.reach, List.not_mem_nil, false_iff]
    intro hr
    have hl := hr.live
    simp only [NodeMap.live, Option.isSome_iff_exists] at hl
    obtain ⟨n, hn⟩ := hl
    have := rank_pos hn
    omega
  | succ fuel ih =>
    rw [Reachable.cases_iff]
    unfold NodeMap.reach
    cases hn : mapFind h m with
    | none => simp [NodeMap.live, hn]
    | some n =>
      cases n with
      | leaf sym freq => simp [NodeMap.live, hn]
      | internal l r freq =>
        have hm := mapFind_mem hn
        have hl := rank_lt hn (hd _ hm l (by simp [Node.children]))
        have hr := rank_lt hn (hd _ hm r (by simp [Node.children]))
        simp [NodeMap.live, hn, ih (h := l) (by omega), ih (h := r) (by omega)]

/-- The set `S` of `free_tree` is the set of reachable handles (10_state.md R50). -/
theorem mem_subtree {m : NodeMap} (hd : m.Down) {h x : Word} : x ∈ m.subtree h ↔ Reachable m h x :=
  mem_reach hd (rank_le m h)

theorem treeAt_iff {m : NodeMap} (hd : m.Down) {fuel : Nat} {h : Word} {T : Tree} (hf : m.rank h ≤ fuel) :
    m.treeAt fuel h = some T ↔ IsTree m h T := by
  induction fuel generalizing h T with
  | zero =>
    simp only [NodeMap.treeAt, reduceCtorEq, false_iff]
    intro ht
    cases ht with
    | leaf hn => have := rank_pos hn; omega
    | node hn _ _ => have := rank_pos hn; omega
  | succ fuel ih =>
    unfold NodeMap.treeAt
    cases hn : mapFind h m with
    | none =>
      simp only [reduceCtorEq, false_iff]
      intro ht
      cases ht with
      | leaf hx => rw [hn] at hx; cases hx
      | node hx _ _ => rw [hn] at hx; cases hx
    | some n =>
      cases n with
      | leaf sym freq =>
        simp only [Option.some.injEq]
        constructor
        · rintro rfl; exact .leaf hn
        · intro ht
          cases ht with
          | leaf hx => rw [hn] at hx; cases hx; rfl
          | node hx _ _ => rw [hn] at hx; cases hx
      | internal l r freq =>
        have hm := mapFind_mem hn
        have hl := rank_lt hn (hd _ hm l (by simp [Node.children]))
        have hr := rank_lt hn (hd _ hm r (by simp [Node.children]))
        dsimp only
        constructor
        · intro h'
          cases ha : m.treeAt fuel l with
          | none => rw [ha] at h'; cases h'
          | some a =>
            cases hb : m.treeAt fuel r with
            | none => rw [ha, hb] at h'; cases h'
            | some b =>
              rw [ha, hb] at h'
              cases h'
              exact .node hn ((ih (by omega)).1 ha) ((ih (by omega)).1 hb)
        · intro ht
          cases ht with
          | leaf hx => rw [hn] at hx; cases hx
          | node hx ha hb =>
            rw [hn] at hx
            cases hx
            rw [(ih (by omega)).2 ha, (ih (by omega)).2 hb]

/-- A handle names at most one tree. -/
theorem IsTree.unique {m : NodeMap} {h : Word} {T U : Tree} (ht : IsTree m h T) (hu : IsTree m h U) : T = U := by
  induction ht generalizing U with
  | leaf hn =>
    cases hu with
    | leaf hx => rw [hn] at hx; cases hx; rfl
    | node hx _ _ => rw [hn] at hx; cases hx
  | node hn _ _ iha ihb =>
    cases hu with
    | leaf hx => rw [hn] at hx; cases hx
    | node hx ha hb => rw [hn] at hx; cases hx; rw [iha ha, ihb hb]

theorem IsTree.live {m : NodeMap} {h : Word} {T : Tree} (ht : IsTree m h T) : NodeMap.live m h = true := by
  cases ht with
  | leaf hn => simp [NodeMap.live, hn]
  | node hn _ _ => simp [NodeMap.live, hn]

/-- A tree stays where every node reachable from its root stays. -/
theorem IsTree.mono {m m' : NodeMap} {h : Word} {T : Tree} (ht : IsTree m h T)
    (hs : ∀ x n, Reachable m h x → mapFind x m = some n → mapFind x m' = some n) : IsTree m' h T := by
  induction ht with
  | leaf hn => exact .leaf (hs _ _ (.here (by simp [NodeMap.live, hn])) hn)
  | node hn _ _ iha ihb =>
    exact .node (hs _ _ (.here (by simp [NodeMap.live, hn])) hn) (iha fun x n hx => hs x n (.left hn hx))
      (ihb fun x n hx => hs x n (.right hn hx))

/-! ## The invariant -/

theorem State.NodesOk.nodup {s : State} (h : s.NodesOk) : (s.nodes.map Prod.fst).Nodup := rising_nodup wordLt_order h.listed

theorem State.NodesOk.isDown {s : State} (h : s.NodesOk) : NodeMap.Down s.nodes := h.down

/-- A live handle is below the counter. -/
theorem State.NodesOk.lt {s : State} (h : s.NodesOk) {x : Word} {n : Node} (hx : mapFind x s.nodes = some n) :
    x.toNat < s.nextHandle := h.counted _ (mapFind_mem hx)

/-- NULL is never live. -/
theorem State.NodesOk.null {s : State} (h : s.NodesOk) : mapFind nullHandle s.nodes = none := by
  cases hn : mapFind nullHandle s.nodes with
  | none => rfl
  | some n =>
    have h1 := h.lt hn
    have h2 := h.counter
    have : nullHandle.toNat = 0xFFFFFFFF := rfl
    omega

/-- The tree at ROOT is the well-formed tree there. -/
theorem State.NodesOk.rootTree {s : State} (h : s.NodesOk) (T : Tree) : s.rootTree = some T ↔ IsTree s.nodes s.root T := by
  unfold State.rootTree
  split
  · next hr =>
    simp only [reduceCtorEq, false_iff]
    intro ht
    have := ht.live
    rw [hr] at this
    simp [NodeMap.live, h.null] at this
  · exact treeAt_iff h.isDown (rank_le _ _)

/-- The invariant looks at the nodes, the counter, NODE_MAX and the two registers alone. -/
theorem State.NodesOk.congr {s t : State} (h : s.NodesOk) (hn : t.nodes = s.nodes) (hc : t.nextHandle = s.nextHandle)
    (hm : t.cfg.nodeMax = s.cfg.nodeMax) (hr : t.root = s.root) (hcur : t.cursor = s.cursor) : t.NodesOk := by
  obtain ⟨h1, h2, h3, h4, h5, h6, h7, h8⟩ := h
  exact ⟨hn ▸ h1, by rw [hn, hc]; exact h2, hc ▸ h3, by rw [hn, hm]; exact h4, hn ▸ h5, hn ▸ h6, by rw [hr, hn]; exact h7,
    by rw [hcur, hn]; exact h8⟩

/-! ## Freeing -/

theorem mapFind_without (m : NodeMap) (hs : List Word) (x : Word) :
    mapFind x (m.without hs) = if x ∈ hs then none else mapFind x m := by
  unfold NodeMap.without
  rw [mapFind_filter (fun y => decide (y ∉ hs)) x m]
  by_cases h : x ∈ hs <;> simp [h]

theorem flatMap_sublist {α β : Type} {l l' : List α} (h : l.Sublist l') (f : α → List β) :
    (l.flatMap f).Sublist (l'.flatMap f) := by
  induction h with
  | slnil => exact List.Sublist.refl _
  | cons a _ ih => rw [List.flatMap_cons]; exact ih.trans (List.sublist_append_right _ _)
  | cons_cons a _ ih => rw [List.flatMap_cons, List.flatMap_cons]; exact (List.Sublist.refl _).append ih

/-- Keeping only some nodes keeps the invariant, if ROOT and CURSOR stay NULL or live. -/
theorem State.NodesOk.filter {s t : State} (h : s.NodesOk) (hn : t.nodes.Sublist s.nodes)
    (hc : t.nextHandle = s.nextHandle) (hm : t.cfg.nodeMax = s.cfg.nodeMax)
    (hr : t.root = nullHandle ∨ NodeMap.live t.nodes t.root = true)
    (hcur : t.cursor = nullHandle ∨ NodeMap.live t.nodes t.cursor = true) : t.NodesOk := by
  refine ⟨?_, fun e he => hc ▸ h.counted e (hn.subset he), hc ▸ h.counter, ?_,
    fun e he => h.down e (hn.subset he), ?_, hr, hcur⟩
  · rw [rising_iff wordLt_order]
    exact ((rising_iff wordLt_order _).1 h.listed).sublist (hn.map _)
  · rw [hm]; exact Nat.le_trans hn.length_le h.fits
  · exact h.forest.sublist (flatMap_sublist hn _)

theorem freeTree_find {s : State} (h : s.NodesOk) (x y : Word) :
    (Reachable s.nodes x y → mapFind y (freeTree x s).nodes = none) ∧
    (¬Reachable s.nodes x y → mapFind y (freeTree x s).nodes = mapFind y s.nodes) := by
  have key : mapFind y (freeTree x s).nodes = if y ∈ NodeMap.subtree s.nodes x then none else mapFind y s.nodes :=
    mapFind_without s.nodes _ y
  rw [key]
  exact ⟨fun hr => if_pos ((mem_subtree h.isDown).2 hr), fun hr => if_neg fun hm => hr ((mem_subtree h.isDown).1 hm)⟩

theorem freeTree_sublist (x : Word) (s : State) : (freeTree x s).nodes.Sublist s.nodes := List.filter_sublist

theorem freeTree_ok {s : State} (h : s.NodesOk) (x : Word) : (freeTree x s).NodesOk := by
  have live_of : ∀ r : Word, (r = nullHandle ∨ NodeMap.live s.nodes r = true) →
      ((if r ∈ NodeMap.subtree s.nodes x then nullHandle else r) = nullHandle ∨
        NodeMap.live (freeTree x s).nodes (if r ∈ NodeMap.subtree s.nodes x then nullHandle else r) = true) := by
    intro r hr
    by_cases hm : r ∈ NodeMap.subtree s.nodes x
    · simp [hm]
    · simp only [hm, if_false]
      refine hr.imp id fun hl => ?_
      have := (freeTree_find h x r).2 fun hx => hm ((mem_subtree h.isDown).2 hx)
      unfold NodeMap.live at hl ⊢
      rw [this]
      exact hl
  exact h.filter (freeTree_sublist x s) rfl rfl (live_of _ h.root) (live_of _ h.cursor)

/-- Freeing changes the nodes, ROOT and CURSOR alone. -/
theorem freeTree_eq (x : Word) (s : State) : freeTree x s =
    { s with
      nodes := (freeTree x s).nodes
      root := (freeTree x s).root
      cursor := (freeTree x s).cursor } := rfl

theorem freeItems_eq (items : List QItem) (s : State) : freeItems items s =
    { s with
      nodes := (freeItems items s).nodes
      root := (freeItems items s).root
      cursor := (freeItems items s).cursor } := by
  induction items generalizing s with
  | nil => rfl
  | cons t rest ih =>
    unfold freeItems
    rw [ih]
    rfl

theorem freeItems_ok {s : State} (h : s.NodesOk) (items : List QItem) : (freeItems items s).NodesOk := by
  induction items generalizing s with
  | nil => exact h
  | cons t rest ih => exact ih (freeTree_ok h t.handle)

theorem freeItems_sublist (items : List QItem) (s : State) : (freeItems items s).nodes.Sublist s.nodes := by
  induction items generalizing s with
  | nil => exact List.Sublist.refl _
  | cons t rest ih => exact (ih (freeTree t.handle s)).trans (freeTree_sublist _ _)

/-- What stays reachable after some nodes are gone was reachable before. -/
theorem Reachable.of_sub {m m' : NodeMap} (hs : ∀ x n, mapFind x m' = some n → mapFind x m = some n) {a b : Word}
    (h : Reachable m' a b) : Reachable m a b := by
  induction h with
  | here hl =>
    obtain ⟨n, hn⟩ := Option.isSome_iff_exists.1 hl
    exact .here (by simp [NodeMap.live, hs _ _ hn])
  | left hf _ ih => exact .left (hs _ _ hf) ih
  | right hf _ ih => exact .right (hs _ _ hf) ih

/-- A node found after freeing was there before. -/
theorem freeTree_find_of {s : State} (h : s.NodesOk) {x y : Word} {n : Node} (hf : mapFind y (freeTree x s).nodes = some n) :
    mapFind y s.nodes = some n ∧ ¬Reachable s.nodes x y := by
  by_cases hr : Reachable s.nodes x y
  · rw [(freeTree_find h x y).1 hr] at hf; cases hf
  · rw [(freeTree_find h x y).2 hr] at hf; exact ⟨hf, hr⟩

/-- After one tree is freed, what another handle reaches is what it reached before and is not freed. -/
theorem reachable_freeTree {s : State} (h : s.NodesOk) (x a y : Word) :
    Reachable s.nodes a y → Reachable s.nodes x y ∨ Reachable (freeTree x s).nodes a y := by
  intro hr
  induction hr with
  | @here a' hl =>
    by_cases hx : Reachable s.nodes x a'
    · exact .inl hx
    · refine .inr (.here ?_)
      have := (freeTree_find h x a').2 hx
      unfold NodeMap.live at hl ⊢
      rw [this]
      exact hl
  | @left a' l r freq y' hf h' ih =>
    by_cases hx : Reachable s.nodes x a'
    · exact .inl (hx.trans (.left hf h'))
    · exact ih.imp id fun ih => .left (((freeTree_find h x a').2 hx).trans hf) ih
  | @right a' l r freq y' hf h' ih =>
    by_cases hx : Reachable s.nodes x a'
    · exact .inl (hx.trans (.right hf h'))
    · exact ih.imp id fun ih => .right (((freeTree_find h x a').2 hx).trans hf) ih

/-- `free_tree` of several handles, one after another, frees what any of them reached (10_state.md R50). -/
theorem freeItems_find {s : State} (h : s.NodesOk) (items : List QItem) (y : Word) :
    ((∃ x ∈ items.map QItem.handle, Reachable s.nodes x y) → mapFind y (freeItems items s).nodes = none) ∧
    ((¬∃ x ∈ items.map QItem.handle, Reachable s.nodes x y) →
      mapFind y (freeItems items s).nodes = mapFind y s.nodes) := by
  induction items generalizing s with
  | nil => simp [freeItems]
  | cons t rest ih =>
    have ih := ih (freeTree_ok h t.handle)
    unfold freeItems
    constructor
    · rintro ⟨x, hx, hr⟩
      by_cases ht : Reachable s.nodes t.handle y
      · by_cases hr' : ∃ x ∈ rest.map QItem.handle, Reachable (freeTree t.handle s).nodes x y
        · exact ih.1 hr'
        · rw [ih.2 hr']; exact (freeTree_find h _ _).1 ht
      · simp only [List.map_cons, List.mem_cons] at hx
        rcases hx with rfl | hx
        · exact absurd hr ht
        · refine ih.1 ⟨x, hx, ?_⟩
          exact (reachable_freeTree h t.handle x y hr).resolve_left ht
    · intro hn
      have ht : ¬Reachable s.nodes t.handle y := fun ht => hn ⟨t.handle, by simp, ht⟩
      rw [ih.2, (freeTree_find h _ _).2 ht]
      rintro ⟨x, hx, hr⟩
      exact hn ⟨x, by simp [hx], hr.of_sub fun z n hz => (freeTree_find_of h hz).1⟩

/-- The register that a freed node leaves. -/
theorem freeTree_register {s : State} (h : s.NodesOk) (x : Word) :
    s.FreedRegister [x] s.root (freeTree x s).root ∧ s.FreedRegister [x] s.cursor (freeTree x s).cursor := by
  have key : ∀ r : Word, s.FreedRegister [x] r (if r ∈ NodeMap.subtree s.nodes x then nullHandle else r) := by
    intro r
    constructor <;> intro hr <;> simp only [List.mem_singleton, exists_eq_left] at hr
    · rw [if_pos ((mem_subtree h.isDown).2 hr)]; rfl
    · rw [if_neg fun hm => hr ((mem_subtree h.isDown).1 hm)]
  exact ⟨key _, key _⟩

theorem freeItems_register {s : State} (h : s.NodesOk) (items : List QItem) :
    s.FreedRegister (items.map QItem.handle) s.root (freeItems items s).root ∧
    s.FreedRegister (items.map QItem.handle) s.cursor (freeItems items s).cursor := by
  induction items generalizing s with
  | nil => exact ⟨⟨by simp, fun _ => rfl⟩, ⟨by simp, fun _ => rfl⟩⟩
  | cons t rest ih =>
    have ih := ih (freeTree_ok h t.handle)
    have h1 := freeTree_register h t.handle
    have null_stays : ∀ {a b : Word}, (freeTree t.handle s).FreedRegister (rest.map QItem.handle) a b →
        a = nullHandle → b = nullHandle := by
      intro a b hab ha
      refine (hab.kept ?_).trans ha
      rintro ⟨x, -, hx⟩
      have hl := hx.target_live
      unfold NodeMap.live at hl
      rw [ha, (freeTree_ok h t.handle).null] at hl
      cases hl
    have key : ∀ {a b c : Word}, s.FreedRegister [t.handle] a b →
        (freeTree t.handle s).FreedRegister (rest.map QItem.handle) b c →
        s.FreedRegister ((t :: rest).map QItem.handle) a c := by
      intro a b c hab hbc
      constructor
      · rintro ⟨x, hx, hr⟩
        by_cases ht : Reachable s.nodes t.handle a
        · exact null_stays hbc (hab.gone ⟨_, by simp, ht⟩)
        · have hb : b = a := hab.kept (by simpa using ht)
          simp only [List.map_cons, List.mem_cons] at hx
          rcases hx with rfl | hx
          · exact absurd hr ht
          · exact hbc.gone ⟨x, hx, hb ▸ (reachable_freeTree h t.handle x a hr).resolve_left ht⟩
      · intro hn
        have ht : ¬Reachable s.nodes t.handle a := fun ht => hn ⟨t.handle, by simp, ht⟩
        have hb : b = a := hab.kept (by simpa using ht)
        rw [hbc.kept, hb]
        rintro ⟨x, hx, hr⟩
        rw [hb] at hr
        exact hn ⟨x, by simp [hx], hr.of_sub fun z n hz => (freeTree_find_of h hz).1⟩
    exact ⟨key h1.1 ih.1, key h1.2 ih.2⟩

/-! ## What freeing leaves -/

theorem freeTree_left {s : State} (h : s.NodesOk) (x : Word) : s.LeftAfterFreeing [x] (freeTree x s).nodes := by
  refine ⟨freeTree_sublist x s, fun y => ?_⟩
  simp only [List.mem_singleton, exists_eq_left]
  by_cases hr : Reachable s.nodes x y
  · simp only [hr, or_true, iff_true]; exact (freeTree_find h x y).1 hr
  · simp only [hr, or_false]; exact iff_of_eq (congrArg (· = none) ((freeTree_find h x y).2 hr))

theorem freeItems_left {s : State} (h : s.NodesOk) (items : List QItem) :
    s.LeftAfterFreeing (items.map QItem.handle) (freeItems items s).nodes := by
  refine ⟨freeItems_sublist items s, fun y => ?_⟩
  by_cases hr : ∃ x ∈ items.map QItem.handle, Reachable s.nodes x y
  · simp only [(freeItems_find h items y).1 hr, hr, or_true]
  · simp only [(freeItems_find h items y).2 hr, hr, or_false]

/-- Freeing NULL frees nothing. -/
theorem State.LeftAfterFreeing.of_null {s : State} (h : s.NodesOk) {handles : List Word}
    (hn : ∀ x ∈ handles, x = nullHandle) : s.LeftAfterFreeing handles s.nodes := by
  refine ⟨List.Sublist.refl _, fun y => ⟨.inl, fun hy => hy.resolve_right ?_⟩⟩
  rintro ⟨x, hx, hr⟩
  have hl := hr.live
  rw [hn x hx] at hl
  simp [NodeMap.live, h.null] at hl

/-- What freeing leaves has one size. -/
theorem State.LeftAfterFreeing.length_eq {s : State} (h : s.NodesOk) {handles : List Word} {m m' : NodeMap}
    (hm : s.LeftAfterFreeing handles m) (hm' : s.LeftAfterFreeing handles m') : m.length = m'.length := by
  have mem : ∀ {a b : NodeMap}, s.LeftAfterFreeing handles a → s.LeftAfterFreeing handles b →
      a.map Prod.fst ⊆ b.map Prod.fst := by
    intro a b ha hb y hy
    have hne : mapFind y a ≠ none := fun hn => (mapFind_eq_none.1 hn) hy
    by_contra hc
    exact hne ((ha.gone y).2 ((hb.gone y).1 (mapFind_eq_none.2 hc)))
  have le : ∀ {a b : NodeMap}, s.LeftAfterFreeing handles a → s.LeftAfterFreeing handles b → a.length ≤ b.length := by
    intro a b ha hb
    have := (List.subperm_of_subset (h.nodup.sublist (ha.sub.map _)) (mem ha hb)).length_le
    simpa using this
  exact Nat.le_antisymm (le hm hm') (le hm' hm)

/-! ## Tokens of a serialized tree -/

@[simp] theorem leafCount_nil : leafCount [] = 0 := rfl
@[simp] theorem leafCount_inner (l : List TreeToken) : leafCount (.inner :: l) = leafCount l := rfl
@[simp] theorem leafCount_leaf (x : Word) (l : List TreeToken) : leafCount (.leaf x :: l) = leafCount l + 1 := rfl
@[simp] theorem TreeToken.bits_inner (m : Mode) : TreeToken.bits m .inner = [false] := rfl
@[simp] theorem TreeToken.bits_leaf (m : Mode) (x : Word) : (TreeToken.leaf x).bits m = true :: symBits m x := rfl

theorem leafCount_append (l l' : List TreeToken) : leafCount (l ++ l') = leafCount l + leafCount l' := by
  induction l with
  | nil => simp
  | cons t l ih =>
    cases t with
    | inner => simpa using ih
    | leaf x => simp only [List.cons_append, leafCount_leaf, ih]; omega

theorem treeOpen_iff (l : List TreeToken) : treeOpen l = true ↔ ∀ k, k ≤ l.length → 2 * leafCount (l.take k) ≤ k := by
  simp only [treeOpen, List.all_eq_true, List.mem_range, decide_eq_true_eq, Nat.lt_succ_iff]

/-- A tree that is open has been open all along. -/
theorem treeOpen_take {l : List TreeToken} (h : treeOpen l = true) (n : Nat) : treeOpen (l.take n) = true := by
  rw [treeOpen_iff] at h ⊢
  intro k hk
  rw [List.take_take, Nat.min_eq_left (hk.trans (List.length_take_le _ _))]
  exact h k (hk.trans (List.length_take_le' _ _))

theorem openNodes_le (l : List TreeToken) : openNodes l ≤ l.length := by
  unfold openNodes
  exact (List.length_filter_le _ _).trans (by simp)

/-! ## Allocating -/

theorem newHandle_toNat {s : State} (h : s.nextHandle ≤ 0xFFFFFFFF) : s.newHandle.toNat = s.nextHandle := by
  simp only [State.newHandle, word, BitVec.toNat_ofNat]
  exact Nat.mod_eq_of_lt (by omega)

/-- A new node is listed last. -/
theorem allocated_nodes_eq {s : State} (h : s.NodesOk) (n : Node) :
    (s.allocated n).nodes = s.nodes ++ [(s.newHandle, n)] := by
  refine mapInsert_above wordLt_order n fun e he => ?_
  have := h.counted e he
  simp only [wordLt, decide_eq_true_eq, newHandle_toNat h.counter]
  exact this

theorem allocated_find {s : State} (n : Node) (x : Word) :
    mapFind x (s.allocated n).nodes = if x = s.newHandle then some n else mapFind x s.nodes :=
  mapFind_mapInsert wordLt_order _ _ _ _

theorem newHandle_dead {s : State} (h : s.NodesOk) : mapFind s.newHandle s.nodes = none := by
  cases hn : mapFind s.newHandle s.nodes with
  | none => rfl
  | some n =>
    have := h.lt hn
    rw [newHandle_toNat h.counter] at this
    omega

theorem owned_iff {m : NodeMap} {h : Word} : m.owned h = true ↔ ∃ e ∈ m, h ∈ e.2.children := by
  simp only [NodeMap.owned, List.any_eq_true]
  constructor
  · rintro ⟨e, he, hc⟩
    refine ⟨e, he, ?_⟩
    cases hn : e.2 with
    | leaf => simp [hn] at hc
    | internal l r f =>
      simp only [hn, Bool.or_eq_true, beq_iff_eq] at hc
      simp only [Node.children, List.mem_cons, List.not_mem_nil, or_false]
      exact hc.imp Eq.symm Eq.symm
  · rintro ⟨e, he, hc⟩
    refine ⟨e, he, ?_⟩
    cases hn : e.2 with
    | leaf => simp [hn, Node.children] at hc
    | internal l r f =>
      simp only [hn, Node.children, List.mem_cons, List.not_mem_nil, or_false] at hc
      simp only [Bool.or_eq_true, beq_iff_eq]
      exact hc.imp Eq.symm Eq.symm

/-- No node owns a handle that is not allocated yet. -/
theorem newHandle_unowned {s : State} (h : s.NodesOk) : NodeMap.owned s.nodes s.newHandle = false := by
  rw [Bool.eq_false_iff]
  intro ho
  obtain ⟨e, he, hc⟩ := owned_iff.1 ho
  have h1 := h.down e he _ hc
  have h2 := h.counted e he
  rw [newHandle_toNat h.counter] at h1
  omega

/-- Allocating a node whose children are live, different and unowned keeps the invariant (10_state.md R48, R49). -/
theorem allocated_ok {s : State} (h : s.NodesOk) (hroom : s.canAlloc = true) {n : Node}
    (hlive : ∀ c ∈ n.children, NodeMap.live s.nodes c = true) (hnd : n.children.Nodup)
    (hown : ∀ c ∈ n.children, NodeMap.owned s.nodes c = false) : (s.allocated n).NodesOk := by
  simp only [State.canAlloc, decide_eq_true_eq] at hroom
  have hnodes := allocated_nodes_eq h n
  have hnew := newHandle_toNat h.counter
  have stays : ∀ r : Word, (r = nullHandle ∨ NodeMap.live s.nodes r = true) →
      (r = nullHandle ∨ NodeMap.live (s.allocated n).nodes r = true) := by
    intro r hr
    refine hr.imp id fun hl => ?_
    unfold NodeMap.live
    rw [allocated_find]
    split
    · rfl
    · exact hl
  refine ⟨?_, ?_, ?_, ?_, ?_, ?_, stays _ h.root, stays _ h.cursor⟩
  · rw [hnodes, rising_iff wordLt_order, List.map_append]
    refine List.pairwise_append.2 ⟨(rising_iff wordLt_order _).1 h.listed, by simp, ?_⟩
    intro x hx y hy
    simp only [List.map_cons, List.map_nil, List.mem_singleton] at hy
    subst hy
    obtain ⟨e, he, rfl⟩ := List.mem_map.1 hx
    have := h.counted e he
    simp only [wordLt, decide_eq_true_eq, hnew]
    exact this
  · intro e he
    rw [hnodes] at he
    show e.1.toNat < s.nextHandle + 1
    rcases List.mem_append.1 he with he | he
    · have := h.counted e he; omega
    · simp only [List.mem_singleton] at he
      subst he
      show s.newHandle.toNat < _
      omega
  · show s.nextHandle + 1 ≤ _
    omega
  · rw [hnodes, List.length_append]
    show _ ≤ s.cfg.nodeMax
    simp only [List.length_singleton]
    omega
  · intro e he c hc
    rw [hnodes] at he
    rcases List.mem_append.1 he with he | he
    · exact h.down e he c hc
    · simp only [List.mem_singleton] at he
      subst he
      obtain ⟨m, hm⟩ := Option.isSome_iff_exists.1 (hlive c hc)
      show c.toNat < s.newHandle.toNat
      rw [hnew]
      exact h.lt hm
  · rw [hnodes, List.flatMap_append, List.nodup_append]
    refine ⟨h.forest, by simpa using hnd, ?_⟩
    rintro a ha b hb rfl
    simp only [List.flatMap_cons, List.flatMap_nil, List.append_nil] at hb
    have := hown a hb
    rw [Bool.eq_false_iff] at this
    refine this (owned_iff.2 ?_)
    simpa using ha

theorem allocated_leaf_ok {s : State} (h : s.NodesOk) (hroom : s.canAlloc = true) (sym freq : Word) :
    (s.allocated (.leaf sym freq)).NodesOk :=
  allocated_ok h hroom (by simp [Node.children]) (by simp [Node.children]) (by simp [Node.children])

/-- Everything `alloc` can come to. -/
theorem alloc_cases (n : Node) (s : State) :
    (s.canAlloc = true ∧ alloc n s = .ok s.newHandle (s.allocated n)) ∨
    (s.canAlloc = false ∧ alloc n s = .raise (allocFail 3 s.nodes.length) s) := by
  unfold alloc need
  cases h : s.canAlloc <;> simp

/-- Removing what was allocated since the counter stood at `n`, in a store that lies below its counter (60_exceptions.md
R314). -/
theorem dropAllocated_find {s : State} (h : s.NodesOk) (n : Nat) (x : Word) :
    mapFind x (dropAllocated n s).nodes = if x.toNat < n then mapFind x s.nodes else none := by
  unfold dropAllocated
  have := mapFind_filter (fun y : Word => decide (y.toNat < n ∨ s.nextHandle ≤ y.toNat)) x s.nodes
  refine this.trans ?_
  by_cases hx : x.toNat < n
  · simp [hx]
  · simp only [hx, false_or, if_false, decide_eq_true_eq]
    split
    · next hge =>
      cases hf : mapFind x s.nodes with
      | none => rfl
      | some m => have := h.lt hf; omega
    · rfl

end Sys2Proof.Machine
end

