-- ==== Sys2Proof/Laws/PerInstr.lean ====
section
/-! SUPPORT. The family EncodedFields: where every command's opcode, flag and operands stand in its word (spec/30_encoding.md
R100 to R103). -/

namespace Sys2Proof.Laws.EncodedFields

/-- The command is well-formed, and its word carries its opcode, F0 and operands in the fields of R101. -/
def Statement (i : Instr) : Prop :=
  i.wellFormed = true ∧ wordOpcode (encode i) = i.fields.opcode ∧ wordF0 (encode i) = i.fields.f0 ∧
  wordA (encode i) = i.fields.a ∧ wordB (encode i) = i.fields.b ∧ wordC (encode i) = i.fields.c

/-- The statement for every command at once. -/
theorem of_any (i : Instr) : Statement i :=
  ⟨rfl, wordOpcode_encode i, wordF0_encode i, wordA_encode i, wordB_encode i, wordC_encode i⟩

theorem sysNop : Statement .sysNop := of_any _
theorem sysReset : Statement .sysReset := of_any _
theorem sysClrerr : Statement .sysClrerr := of_any _
theorem sysRdcr (cr : Word) : Statement (.sysRdcr cr) := of_any _
theorem sysWrcr (cr value : Word) : Statement (.sysWrcr cr value) := of_any _
theorem bbCreate (buffer reserve : Word) : Statement (.bbCreate buffer reserve) := of_any _
theorem bbGet (buffer index : Word) : Statement (.bbGet buffer index) := of_any _
theorem bbSet (buffer index bit : Word) : Statement (.bbSet buffer index bit) := of_any _
theorem bbAppend (buffer bit : Word) : Statement (.bbAppend buffer bit) := of_any _
theorem bbCopy (dst src : Word) : Statement (.bbCopy dst src) := of_any _
theorem bbConcat (dst src : Word) : Statement (.bbConcat dst src) := of_any _
theorem bbReset (buffer : Word) : Statement (.bbReset buffer) := of_any _
theorem bbSize (buffer : Word) : Statement (.bbSize buffer) := of_any _
theorem bbFlush (buffer addr : Word) : Statement (.bbFlush buffer addr) := of_any _
theorem pqInsert (handle key : Word) : Statement (.pqInsert handle key) := of_any _
theorem pqExtract : Statement .pqExtract := of_any _
theorem pqPeek : Statement .pqPeek := of_any _
theorem pqSize : Statement .pqSize := of_any _
theorem pqIsempty : Statement .pqIsempty := of_any _
theorem pqDestroy (destructor : Bool) : Statement (.pqDestroy destructor) := of_any _
theorem ptInsert (addr len payload : Word) : Statement (.ptInsert addr len payload) := of_any _
theorem ptSearch (addr len : Word) (greedy : Bool) : Statement (.ptSearch addr len greedy) := of_any _
theorem ptRemove (addr len : Word) : Statement (.ptRemove addr len) := of_any _
theorem ptKeys (addr : Word) : Statement (.ptKeys addr) := of_any _
theorem ptClear : Statement .ptClear := of_any _
theorem ftSet (addr len count : Word) : Statement (.ftSet addr len count) := of_any _
theorem ftClear : Statement .ftClear := of_any _
theorem htLeaf (sym freq : Word) : Statement (.htLeaf sym freq) := of_any _
theorem htMerge : Statement .htMerge := of_any _
theorem htBuild : Statement .htBuild := of_any _
theorem htFree (handle : Word) : Statement (.htFree handle) := of_any _
theorem htSer (addr : Word) : Statement (.htSer addr) := of_any _
theorem htDeser (start stop : Word) : Statement (.htDeser start stop) := of_any _
theorem htNode (handle : Word) : Statement (.htNode handle) := of_any _
theorem ctGen : Statement .ctGen := of_any _
theorem ctGet (sym buffer : Word) : Statement (.ctGet sym buffer) := of_any _
theorem ctStload (start stop : Word) : Statement (.ctStload start stop) := of_any _
theorem ctStstore (addr : Word) : Statement (.ctStstore addr) := of_any _
theorem cdEncode : Statement .cdEncode := of_any _
theorem cdDecode : Statement .cdDecode := of_any _
theorem cdEpass (start stop : Word) : Statement (.cdEpass start stop) := of_any _
theorem cdDpass (start stop count : Word) : Statement (.cdDpass start stop count) := of_any _

end Sys2Proof.Laws.EncodedFields
end

