-- ==== Sys2Proof/Laws/Queue.lean ====
section
/-! SUPPORT. Laws of the priority queue: the order of its items, its top, and what an insert and an extract leave
(spec/10_state.md R45, R46; spec/41_priority_queue.md R160, R161, R168). -/

namespace Sys2Proof.Machine

/-! ## The order -/

theorem before_iff (o : PqOrder) (x y : QItem) :
    x.before o y = true ↔ o.keyBefore x.key y.key = true ∨ (x.key = y.key ∧ x.seq < y.seq) := by
  simp [QItem.before]

theorem keyBefore_irrefl (o : PqOrder) (k : Word) : o.keyBefore k k = false := by cases o <;> simp [PqOrder.keyBefore]

theorem keyBefore_asymm {o : PqOrder} {j k : Word} (h : o.keyBefore j k = true) : o.keyBefore k j = false := by
  cases o <;> simp only [PqOrder.keyBefore, decide_eq_true_eq, decide_eq_false_iff_not] at * <;> omega

theorem before_asymm {o : PqOrder} {x y : QItem} (h : x.before o y = true) : y.before o x = false := by
  rw [Bool.eq_false_iff]
  intro h'
  rw [before_iff] at h h'
  rcases h with h | ⟨h1, h2⟩ <;> rcases h' with h' | ⟨h3, h4⟩
  · simp [keyBefore_asymm h] at h'
  · rw [h3, keyBefore_irrefl] at h; cases h
  · rw [h1, keyBefore_irrefl] at h'; cases h'
  · omega

theorem before_trans {o : PqOrder} {x y z : QItem} (h : x.before o y = true) (h' : y.before o z = true) :
    x.before o z = true := by
  rw [before_iff] at *
  cases o <;> simp only [PqOrder.keyBefore, decide_eq_true_eq] at * <;> rcases h with h | ⟨h1, h2⟩ <;>
    rcases h' with h' | ⟨h3, h4⟩
  · exact .inl (by omega)
  · exact .inl (h3 ▸ h)
  · exact .inl (h1 ▸ h')
  · exact .inr ⟨h1.trans h3, by omega⟩
  · exact .inl (by omega)
  · exact .inl (h3 ▸ h)
  · exact .inl (h1 ▸ h')
  · exact .inr ⟨h1.trans h3, by omega⟩

/-- Of two items with different sequence numbers one is before the other (10_state.md R46). -/
theorem before_total {o : PqOrder} {x y : QItem} (h : x.seq ≠ y.seq) : x.before o y = true ∨ y.before o x = true := by
  rw [before_iff, before_iff]
  by_cases hk : x.key = y.key
  · rcases Nat.lt_or_gt_of_ne h with h | h
    · exact .inl (.inr ⟨hk, h⟩)
    · exact .inr (.inr ⟨hk.symm, h⟩)
  · have : x.key.toNat ≠ y.key.toNat := fun e => hk (BitVec.eq_of_toNat_eq e)
    cases o <;> simp only [PqOrder.keyBefore, decide_eq_true_eq] <;> omega

/-! ## The top -/

theorem queueTop_eq_none {o : PqOrder} {items : List QItem} : queueTop o items = none ↔ items = [] := by
  cases items with
  | nil => simp [queueTop]
  | cons x rest =>
    simp only [queueTop, reduceCtorEq, iff_false]
    cases queueTop o rest with
    | none => simp
    | some y => dsimp only; split <;> simp

/-- The item that is before every other is the one found. -/
theorem queueTop_of_isTop {o : PqOrder} {items : List QItem} {x : QItem} (h : QueueTop o items x) :
    queueTop o items = some x := by
  induction items with
  | nil => exact absurd h.1 (by simp)
  | cons a rest ih =>
    obtain ⟨hm, ht⟩ := h
    simp only [queueTop]
    by_cases hx : x ∈ rest
    · rw [ih ⟨hx, fun y hy => ht y (by simp [hy])⟩]
      dsimp only
      split
      · rfl
      · next hn =>
        by_cases ha : a = x
        · rw [ha]
        · exact absurd (ht a (by simp) ha) hn
    · have hax : x = a := by simpa [hx] using hm
      subst hax
      cases hr : queueTop o rest with
      | none => rfl
      | some y =>
        dsimp only
        have hy : y ∈ rest := by
          clear ih hx ht hm
          induction rest generalizing y with
          | nil => simp [queueTop] at hr
          | cons b rest ih =>
            simp only [queueTop] at hr
            cases hb : queueTop o rest with
            | none => simp [hb] at hr; simp [hr]
            | some z =>
              rw [hb] at hr
              dsimp only at hr
              split at hr
              · cases hr; exact List.mem_cons_of_mem _ (ih _ hb)
              · cases hr; simp
        have hne : y ≠ x := fun e => hx (e ▸ hy)
        rw [before_asymm (ht y (by simp [hy]) hne)]
        simp

/-- In a queue with different sequence numbers the item found is before every other. -/
theorem queueTop_isTop {o : PqOrder} {items : List QItem} {x : QItem} (hs : items.Pairwise fun x y => x.seq ≠ y.seq)
    (h : queueTop o items = some x) : QueueTop o items x := by
  induction items generalizing x with
  | nil => simp [queueTop] at h
  | cons a rest ih =>
    obtain ⟨h1, h2⟩ := List.pairwise_cons.1 hs
    simp only [queueTop] at h
    cases hr : queueTop o rest with
    | none =>
      rw [hr] at h
      cases h
      have := queueTop_eq_none.1 hr
      subst this
      exact ⟨by simp, fun y hy hne => absurd (by simpa using hy) hne⟩
    | some y =>
      rw [hr] at h
      obtain ⟨hm, ht⟩ := ih h2 hr
      dsimp only at h
      split at h
      · next hb =>
        cases h
        refine ⟨by simp [hm], fun z hz hne => ?_⟩
        rcases List.mem_cons.1 hz with rfl | hz
        · exact hb
        · exact ht z hz hne
      · next hb =>
        cases h
        have hay : a.before o y = true := by
          rcases before_total (o := o) (h1 y hm) with h | h
          · exact h
          · exact absurd h hb
        refine ⟨by simp, fun z hz hne => ?_⟩
        rcases List.mem_cons.1 hz with rfl | hz
        · exact absurd rfl hne
        · by_cases hzy : z = y
          · exact hzy ▸ hay
          · exact before_trans hay (ht z hz hzy)

theorem QueueTop.unique {o : PqOrder} {items : List QItem} {x y : QItem} (hx : QueueTop o items x)
    (hy : QueueTop o items y) : x = y := by
  have := (queueTop_of_isTop hx).symm.trans (queueTop_of_isTop hy)
  simpa using this

/-! ## Inserting and extracting -/

theorem State.QueueOk.distinct {s : State} (h : s.QueueOk) : s.pq.entries.Pairwise fun x y => x.seq ≠ y.seq :=
  h.inOrder.imp fun h => Nat.ne_of_lt h

/-- A queue with an item has a top. -/
theorem State.QueueOk.top {s : State} (h : s.QueueOk) (hne : s.pq.entries ≠ []) :
    ∃ x, s.top = some x ∧ QueueTop s.pqOrder s.pq.entries x := by
  cases ht : s.top with
  | none => exact absurd (queueTop_eq_none.1 ht) hne
  | some x => exact ⟨x, rfl, queueTop_isTop h.distinct ht⟩

/-- Everything `pq_insert` can come to. -/
theorem pqInsert_cases (k h : Word) (s : State) :
    (s.pq.entries.length = s.pq.cap ∧ s.pq.cap = s.cfg.pqMaxCap ∧
      pqInsert k h s = .raise (allocFail 2 s.pq.entries.length) s) ∨
    (¬(s.pq.entries.length = s.pq.cap ∧ s.pq.cap = s.cfg.pqMaxCap) ∧
      pqInsert k h s = .ok () { s with pq := s.pq.push k h }) := by
  unfold pqInsert
  split
  · next hc => exact .inl ⟨hc.1, hc.2, rfl⟩
  · next hc => exact .inr ⟨hc, rfl⟩

/-- Everything `pq_extract` can come to. -/
theorem pqExtract_cases (s : State) :
    (s.pq.entries = [] ∧ pqExtract s = .raise ⟨.emptyQueue, 0, 0⟩ s) ∨
    ∃ t, s.top = some t ∧ pqExtract s = .ok t { s with pq := s.pq.take s.cfg t } := by
  unfold pqExtract
  cases ht : s.top with
  | none => exact .inl ⟨queueTop_eq_none.1 ht, rfl⟩
  | some t => exact .inr ⟨t, rfl, rfl⟩

/-- An insert that does not raise keeps the queue's bounds (10_state.md R36, 41_priority_queue.md R168). -/
theorem push_ok {s t : State} (h : s.QueueOk) (hq : s.cfg.queueOk = true) {k d : Word}
    (hc : ¬(s.pq.entries.length = s.pq.cap ∧ s.pq.cap = s.cfg.pqMaxCap)) (hcfg : t.cfg = s.cfg)
    (hpq : t.pq = s.pq.push k d) : t.QueueOk := by
  obtain ⟨j, hj⟩ := h.doubling
  have hfit := h.fits
  have hmost := h.most
  refine ⟨?_, ?_, ?_, ?_, ?_⟩
  · rw [hpq]
    refine List.pairwise_append.2 ⟨h.inOrder, by simp, fun x hx y hy => ?_⟩
    have := h.counted x hx
    simp only [List.mem_singleton] at hy
    subst hy
    exact this
  · intro x hx
    rw [hpq] at hx ⊢
    rcases List.mem_append.1 hx with hx | hx
    · exact Nat.lt_succ_of_lt (h.counted x hx)
    · simp only [List.mem_singleton] at hx
      subst hx
      exact Nat.lt_succ_self _
  · rw [hpq]
    simp only [PQueue.push, List.length_append, List.length_singleton]
    split
    · next he =>
      have : 1 ≤ s.pq.cap := by
        rw [hj]
        have : 1 ≤ s.cfg.pqMinCap := by
          simp only [Config.queueOk, decide_eq_true_eq] at hq
          exact hq.1
        exact Nat.mul_pos this (Nat.two_pow_pos j)
      omega
    · omega
  · rw [hpq, hcfg]
    simp only [PQueue.push]
    split
    · exact ⟨j + 1, by rw [hj, Nat.pow_succ]; ring⟩
    · exact ⟨j, hj⟩
  · rw [hpq, hcfg]
    simp only [PQueue.push]
    split
    · next he =>
      have hlt : s.pq.cap < s.cfg.pqMaxCap := by
        rcases Nat.lt_or_eq_of_le hmost with h | h
        · exact h
        · exact absurd ⟨he, h⟩ hc
      simp only [Config.queueOk, decide_eq_true_eq] at hq
      obtain ⟨h1, h2⟩ := hq
      generalize Nat.log2 (s.cfg.pqMaxCap / s.cfg.pqMinCap) = k at h2
      rw [hj, ← h2] at hlt ⊢
      have hjk : j < k := by
        by_contra hn
        have := Nat.pow_le_pow_right (n := 2) (by omega) (Nat.not_lt.1 hn)
        have := Nat.mul_le_mul_left s.cfg.pqMinCap this
        omega
      have := Nat.pow_le_pow_right (n := 2) (by omega) (Nat.succ_le_of_lt hjk)
      have h3 := Nat.mul_le_mul_left s.cfg.pqMinCap this
      rw [Nat.succ_eq_add_one, Nat.pow_succ] at h3
      linarith
    · exact hmost

theorem take_ok {s t : State} (h : s.QueueOk) (hq : s.cfg.queueOk = true) {x : QItem} (hcfg : t.cfg = s.cfg)
    (hpq : t.pq = s.pq.take s.cfg x) : t.QueueOk := by
  obtain ⟨j, hj⟩ := h.doubling
  have hfit := h.fits
  have hmost := h.most
  have hlen : (s.pq.entries.erase x).length ≤ s.pq.entries.length := List.length_erase_le
  have hsub : (s.pq.entries.erase x).Sublist s.pq.entries := List.erase_sublist
  have h1 : 1 ≤ s.cfg.pqMinCap := by
    simp only [Config.queueOk, decide_eq_true_eq] at hq
    exact hq.1
  refine ⟨?_, ?_, ?_, ?_, ?_⟩
  · rw [hpq]; exact h.inOrder.sublist hsub
  · intro y hy
    rw [hpq] at hy ⊢
    exact h.counted y (hsub.subset hy)
  · rw [hpq]
    simp only [PQueue.take, shrinkCap]
    split <;> omega
  · rw [hpq, hcfg]
    simp only [PQueue.take, shrinkCap]
    split
    · next hc =>
      cases j with
      | zero => simp only [Nat.pow_zero, Nat.mul_one] at hj; omega
      | succ j => exact ⟨j, by rw [hj, Nat.pow_succ, ← Nat.mul_assoc]; omega⟩
    · exact ⟨j, hj⟩
  · rw [hpq, hcfg]
    simp only [PQueue.take, shrinkCap]
    split <;> omega

/-- A fresh queue is within its bounds. -/
theorem fresh_ok {s : State} (hq : s.cfg.queueOk = true) (hpq : s.pq = PQueue.fresh s.cfg) : s.QueueOk := by
  simp only [Config.queueOk, decide_eq_true_eq] at hq
  obtain ⟨h1, h2⟩ := hq
  refine ⟨by simp [hpq, PQueue.fresh], by simp [hpq, PQueue.fresh], by simp [hpq, PQueue.fresh],
    ⟨0, by simp [hpq, PQueue.fresh]⟩, ?_⟩
  rw [hpq, ← h2]
  have := Nat.two_pow_pos (Nat.log2 (s.cfg.pqMaxCap / s.cfg.pqMinCap))
  simp only [PQueue.fresh]
  nlinarith

end Sys2Proof.Machine
end

