-- ==== Sys2Proof/Laws/Trees.lean ====
section
/-! SUPPORT. Laws of the trees in the node store: one parent for each node, their size, and the length of their codes
(spec/10_state.md R49, R51; spec/45_code_table.md R241). -/

namespace Sys2Proof.Machine

/-- Below 2^32 the number of a tree's bits is what RES1 shows (44_tree_serialization.md R221). -/
@[simp] theorem treeBitsWord_of_lt {n : Nat} (h : n < 2 ^ 32) : treeBitsWord n = word n := if_pos h

/-! ## The size of a tree -/

theorem Reachable.le {m : NodeMap} (hd : m.Down) {a x : Word} (h : Reachable m a x) : x.toNat ≤ a.toNat := by
  induction h with
  | here _ => exact Nat.le_refl _
  | left hf _ ih => have := hd _ (mapFind_mem hf) _ (List.mem_cons_self ..); exact ih.trans this.le
  | right hf _ ih =>
    have := hd _ (mapFind_mem hf) _ (List.mem_cons_of_mem _ (List.mem_cons_self ..))
    exact ih.trans this.le

/-- The last edge of a walk. -/
theorem Reachable.last {m : NodeMap} {a x : Word} (h : Reachable m a x) :
    x = a ∨ ∃ p n, mapFind p m = some n ∧ x ∈ n.children ∧ Reachable m a p := by
  induction h with
  | here _ => exact .inl rfl
  | left hf _ ih =>
    rcases ih with rfl | ⟨p, n, hp, hx, hr⟩
    · exact .inr ⟨_, _, hf, by simp [Node.children], .here (by simp [NodeMap.live, hf])⟩
    · exact .inr ⟨p, n, hp, hx, .left hf hr⟩
  | right hf _ ih =>
    rcases ih with rfl | ⟨p, n, hp, hx, hr⟩
    · exact .inr ⟨_, _, hf, by simp [Node.children], .here (by simp [NodeMap.live, hf])⟩
    · exact .inr ⟨p, n, hp, hx, .right hf hr⟩

/-- Where no element stands twice in a flattened list, each comes from one part. -/
theorem flatMap_owner {α β : Type} {f : α → List β} {l : List α} (h : (l.flatMap f).Nodup) {a b : α} {x : β} (ha : a ∈ l)
    (hb : b ∈ l) (hx : x ∈ f a) (hx' : x ∈ f b) : a = b := by
  induction l with
  | nil => cases ha
  | cons c l ih =>
    rw [List.flatMap_cons, List.nodup_append] at h
    obtain ⟨-, h2, h3⟩ := h
    rcases List.mem_cons.1 ha with ha | ha <;> rcases List.mem_cons.1 hb with hb | hb
    · rw [ha, hb]
    · exact absurd rfl (h3 x (ha ▸ hx) x (List.mem_flatMap.2 ⟨b, hb, hx'⟩))
    · exact absurd rfl (h3 x (hb ▸ hx') x (List.mem_flatMap.2 ⟨a, ha, hx⟩))
    · exact ih h2 ha hb

/-- A node has one parent (10_state.md R49). -/
theorem State.NodesOk.parent_unique {s : State} (h : s.NodesOk) {x p q : Word} {n k : Node}
    (hp : mapFind p s.nodes = some n) (hq : mapFind q s.nodes = some k) (hx : x ∈ n.children) (hx' : x ∈ k.children) :
    p = q := by
  exact congrArg Prod.fst (flatMap_owner h.forest (mapFind_mem hp) (mapFind_mem hq) hx hx')

/-- Of two nodes that reach a third one reaches the other. -/
theorem State.NodesOk.reach_chain {s : State} (h : s.NodesOk) {a b x : Word} (ha : Reachable s.nodes a x)
    (hb : Reachable s.nodes b x) : Reachable s.nodes a b ∨ Reachable s.nodes b a := by
  generalize hn : a.toNat - x.toNat = n
  induction n using Nat.strongRecOn generalizing x with
  | _ n ih =>
    rcases ha.last with rfl | ⟨p, k, hp, hx, har⟩
    · exact .inr hb
    rcases hb.last with rfl | ⟨q, k', hq, hx', hbr⟩
    · exact .inl ha
    obtain rfl := h.parent_unique hp hq hx hx'
    have := h.down _ (mapFind_mem hp) x hx
    have := har.le h.isDown
    exact ih _ (by subst hn; simp only [] at *; omega) har hbr rfl

/-- The subtrees of the two children of a node have no node in common. -/
theorem State.NodesOk.children_apart {s : State} (h : s.NodesOk) {p l r f x : Word}
    (hp : mapFind p s.nodes = some (.internal l r f)) (hl : Reachable s.nodes l x) (hr : Reachable s.nodes r x) : False := by
  have hne : l ≠ r := by
    have := (List.nodup_flatMap.1 h.forest).1 _ (mapFind_mem hp)
    simpa [Node.children] using this
  have up : ∀ {a b : Word}, a ∈ (Node.internal l r f).children → b ∈ (Node.internal l r f).children → a ≠ b →
      Reachable s.nodes a b → False := by
    intro a b ha hb hab har
    rcases har.last with rfl | ⟨q, k, hq, hx, hqr⟩
    · exact hab rfl
    obtain rfl := h.parent_unique hq hp hx hb
    have h1 := hqr.le h.isDown
    have h2 := h.down _ (mapFind_mem hp) a ha
    simp only at h2
    omega
  rcases h.reach_chain hl hr with hlr | hrl
  · exact up (by simp [Node.children]) (by simp [Node.children]) hne hlr
  · exact up (by simp [Node.children]) (by simp [Node.children]) hne.symm hrl

theorem State.NodesOk.reach_nodup {s : State} (h : s.NodesOk) {fuel : Nat} {x : Word}
    (hf : NodeMap.rank s.nodes x ≤ fuel) : (NodeMap.reach s.nodes fuel x).Nodup := by
  induction fuel generalizing x with
  | zero => simp [NodeMap.reach]
  | succ fuel ih =>
    unfold NodeMap.reach
    cases hn : mapFind x s.nodes with
    | none => simp
    | some n =>
      cases n with
      | leaf sym freq => simp
      | internal l r freq =>
        have hm := mapFind_mem hn
        have dl := h.down _ hm l (by simp [Node.children])
        have dr := h.down _ hm r (by simp [Node.children])
        have hl := rank_lt hn dl
        have hr := rank_lt hn dr
        simp only at dl dr
        have ml : ∀ y, y ∈ NodeMap.reach s.nodes fuel l ↔ Reachable s.nodes l y := fun y => mem_reach h.isDown (by omega)
        have mr : ∀ y, y ∈ NodeMap.reach s.nodes fuel r ↔ Reachable s.nodes r y := fun y => mem_reach h.isDown (by omega)
        refine List.nodup_cons.2 ⟨fun hx => ?_, List.nodup_append.2 ⟨ih (by omega), ih (by omega), ?_⟩⟩
        · rcases List.mem_append.1 hx with hx | hx
          · have := ((ml x).1 hx).le h.isDown; omega
          · have := ((mr x).1 hx).le h.isDown; omega
        · rintro y hy z hz rfl
          exact h.children_apart hn ((ml y).1 hy) ((mr y).1 hz)

theorem IsTree.size_eq {m : NodeMap} (hd : m.Down) {fuel : Nat} {x : Word} {T : Tree} (ht : IsTree m x T)
    (hf : m.rank x ≤ fuel) : (m.reach fuel x).length = T.size := by
  induction ht generalizing fuel with
  | leaf hn =>
    have := rank_pos hn
    obtain ⟨k, rfl⟩ : ∃ k, fuel = k + 1 := ⟨fuel - 1, by omega⟩
    simp [NodeMap.reach, hn, Tree.size]
  | node hn _ _ iha ihb =>
    have := rank_pos hn
    obtain ⟨k, rfl⟩ : ∃ k, fuel = k + 1 := ⟨fuel - 1, by omega⟩
    have hm := mapFind_mem hn
    have hl := rank_lt hn (hd _ hm _ (List.mem_cons_self ..))
    have hr := rank_lt hn (hd _ hm _ (List.mem_cons_of_mem _ (List.mem_cons_self ..)))
    simp [NodeMap.reach, hn, Tree.size, iha (fuel := k) (by omega), ihb (fuel := k) (by omega)]

/-- A tree has at most as many nodes as are live (10_state.md R49, R51). -/
theorem State.NodesOk.tree_size {s : State} (h : s.NodesOk) {x : Word} {T : Tree} (ht : IsTree s.nodes x T) :
    T.size ≤ s.nodes.length := by
  have hnd := h.reach_nodup (rank_le s.nodes x)
  suffices hs : NodeMap.reach s.nodes s.nodes.length x ⊆ s.nodes.map Prod.fst by
    have := (List.subperm_of_subset hnd hs).length_le
    rwa [List.length_map, ht.size_eq h.isDown (rank_le s.nodes x)] at this
  intro y hy
  have := ((mem_reach h.isDown (rank_le s.nodes x)).1 hy).target_live
  obtain ⟨n, hn⟩ := Option.isSome_iff_exists.1 this
  exact List.mem_map.2 ⟨_, mapFind_mem hn, rfl⟩

theorem Tree.size_pos (T : Tree) : 1 ≤ T.size := by cases T <;> simp [Tree.size]

theorem Tree.walk_length {T : Tree} {path : Bits} {e : Word × Bits} (he : e ∈ T.walk path) :
    2 * e.2.length + 1 ≤ 2 * path.length + T.size := by
  induction T generalizing path with
  | leaf sym => simp only [Tree.walk, List.mem_singleton] at he; subst he; simp [Tree.size]
  | node l r ihl ihr =>
    have h1 := l.size_pos
    have h2 := r.size_pos
    simp only [Tree.walk, List.mem_append] at he
    rcases he with he | he
    · have := ihl he; simp only [List.length_append, List.length_singleton, Tree.size] at this ⊢; omega
    · have := ihr he; simp only [List.length_append, List.length_singleton, Tree.size] at this ⊢; omega

/-- The longest code of a tree (45_code_table.md R241, R243). -/
theorem Tree.codes_length {T : Tree} {e : Word × Bits} (he : e ∈ T.codes) : e.2.length ≤ max 1 ((T.size - 1) / 2) := by
  cases T with
  | leaf sym => simp only [Tree.codes, List.mem_singleton] at he; subst he; simp
  | node l r => have := Tree.walk_length (T := .node l r) he; simp only [List.length_nil] at this; omega

/-- The codes of a tree in the store keep within the bound of `TablesOk` (log 14). -/
theorem State.NodesOk.codes_fit {s : State} (h : s.NodesOk) {x : Word} {T : Tree} (ht : IsTree s.nodes x T)
    {e : Word × Bits} (he : e ∈ T.codes) : e.2.length ≤ max 1 ((s.cfg.nodeMax - 1) / 2) := by
  have h1 := T.codes_length he
  have h2 := h.tree_size ht
  have h3 := h.fits
  omega

end Sys2Proof.Machine
end

