-- ==== Sys2Proof/Tests/Slice0.lean ====
section
/-! SUPPORT. The model's own tests: the well-formedness checks, every constructor's decoding, single steps with expected
values from spec/95_test_vectors.md, and the witnesses that the hypotheses of the obligations can be met. -/

namespace Sys2Proof.Tests
open Sys2Proof Sys2Proof.Machine

set_option Elab.async false

/-! ## Well-formed configurations (00_scope.md R7): the defaults pass, one ill-formed term for each check is refused -/

theorem test_defaults_wellFormed : Config.defaults.wellFormed = true := by decide
theorem test_inCap_too_small : { Config.defaults with inCap := 15 }.wellFormed = false := by decide
theorem test_outCap_too_large : { Config.defaults with outCap := 2 ^ 32 }.wellFormed = false := by decide
theorem test_one_buffer : { Config.defaults with nb := 1 }.wellFormed = false := by decide
theorem test_33_buffers : { Config.defaults with nb := 33 }.wellFormed = false := by decide
theorem test_no_least_capacity : { Config.defaults with bbMinCap := 0 }.wellFormed = false := by decide
theorem test_buffer_smaller_than_least : { Config.defaults with bbMaxBits := 63 }.wellFormed = false := by decide
theorem test_queue_not_a_doubling : { Config.defaults with pqMaxCap := 48 }.wellFormed = false := by decide +kernel
theorem test_no_nodes : { Config.defaults with nodeMax := 0 }.wellFormed = false := by decide +kernel
theorem test_bad_address_outside_in : { Config.defaults with ioBadIn := [2 ^ 24] }.wellFormed = false := by
  decide +kernel
theorem test_trie_count_not_a_u32 : { Config.defaults with trieMax := 2 ^ 32 }.wellFormed = false := by decide +kernel
theorem test_code_longer_than_a_buffer : { Config.defaults with bbMaxBits := 64, nodeMax := 131 }.wellFormed = false := by
  decide +kernel
theorem test_every_command_wellFormed (i : Instr) : i.wellFormed = true := rfl

/-! ## Decoding: words written out from 30_encoding.md R100 to R103, as `C B A W0` -/

theorem test_decode_sys :
    decodeWord 0x00000000_00000000_00000000_00000000#128 = .command .sysNop ∧
    decodeWord 0x00000000_00000000_00000000_00000001#128 = .command .sysReset ∧
    decodeWord 0x00000000_00000000_00000000_00000002#128 = .command .sysClrerr ∧
    decodeWord 0x00000000_00000000_00000021_00000003#128 = .command (.sysRdcr 0x21) ∧
    decodeWord 0x00000000_00000001_00000006_00000004#128 = .command (.sysWrcr 6 1) := by decide +kernel

theorem test_decode_bb :
    decodeWord 0x00000000_00000064_00000002_00000010#128 = .command (.bbCreate 2 100) ∧
    decodeWord 0x00000000_00000008_00000001_00000011#128 = .command (.bbGet 1 8) ∧
    decodeWord 0x00000001_00000009_00000002_00000012#128 = .command (.bbSet 2 9 1) ∧
    decodeWord 0x00000000_00000001_00000003_00000013#128 = .command (.bbAppend 3 1) ∧
    decodeWord 0x00000000_00000001_00000004_00000014#128 = .command (.bbCopy 4 1) ∧
    decodeWord 0x00000000_00000002_00000005_00000015#128 = .command (.bbConcat 5 2) ∧
    decodeWord 0x00000000_00000000_00000006_00000016#128 = .command (.bbReset 6) ∧
    decodeWord 0x00000000_00000000_00000007_00000017#128 = .command (.bbSize 7) ∧
    decodeWord 0x00000000_FFFFFFFF_00000006_00000018#128 = .command (.bbFlush 6 0xFFFFFFFF) := by decide +kernel

theorem test_decode_pq :
    decodeWord 0x00000000_00000005_00000007_00000020#128 = .command (.pqInsert 7 5) ∧
    decodeWord 0x00000000_00000000_00000000_00000021#128 = .command .pqExtract ∧
    decodeWord 0x00000000_00000000_00000000_00000022#128 = .command .pqPeek ∧
    decodeWord 0x00000000_00000000_00000000_00000023#128 = .command .pqSize ∧
    decodeWord 0x00000000_00000000_00000000_00000024#128 = .command .pqIsempty ∧
    decodeWord 0x00000000_00000000_00000000_00000025#128 = .command (.pqDestroy false) ∧
    decodeWord 0x00000000_00000000_00000000_00000125#128 = .command (.pqDestroy true) := by decide +kernel

theorem test_decode_pt :
    decodeWord 0x00000002_00000005_00000000_00000030#128 = .command (.ptInsert 0 5 2) ∧
    decodeWord 0x00000000_00000005_00000003_00000031#128 = .command (.ptSearch 3 5 false) ∧
    decodeWord 0x00000000_00000005_00000003_00000131#128 = .command (.ptSearch 3 5 true) ∧
    decodeWord 0x00000000_00000004_00000001_00000032#128 = .command (.ptRemove 1 4) ∧
    decodeWord 0x00000000_00000000_00000010_00000033#128 = .command (.ptKeys 16) ∧
    decodeWord 0x00000000_00000000_00000000_00000034#128 = .command .ptClear := by decide +kernel

theorem test_decode_ft_ht :
    decodeWord 0x00000009_00000001_00000002_00000040#128 = .command (.ftSet 2 1 9) ∧
    decodeWord 0x00000000_00000000_00000000_00000041#128 = .command .ftClear ∧
    decodeWord 0x00000000_00000005_00000061_00000050#128 = .command (.htLeaf 0x61 5) ∧
    decodeWord 0x00000000_00000000_00000000_00000051#128 = .command .htMerge ∧
    decodeWord 0x00000000_00000000_00000000_00000052#128 = .command .htBuild ∧
    decodeWord 0x00000000_00000000_0000000A_00000053#128 = .command (.htFree 10) ∧
    decodeWord 0x00000000_00000000_00000010_00000054#128 = .command (.htSer 16) ∧
    decodeWord 0x00000000_00000013_00000010_00000055#128 = .command (.htDeser 16 19) ∧
    decodeWord 0x00000000_00000000_0000000B_00000056#128 = .command (.htNode 11) := by decide +kernel

theorem test_decode_ct_cd :
    decodeWord 0x00000000_00000000_00000000_00000060#128 = .command .ctGen ∧
    decodeWord 0x00000000_00000002_00000061_00000061#128 = .command (.ctGet 0x61 2) ∧
    decodeWord 0x00000000_0000000C_00000004_00000062#128 = .command (.ctStload 4 12) ∧
    decodeWord 0x00000000_00000000_00000010_00000063#128 = .command (.ctStstore 16) ∧
    decodeWord 0x00000000_00000000_00000000_00000070#128 = .command .cdEncode ∧
    decodeWord 0x00000000_00000000_00000000_00000071#128 = .command .cdDecode ∧
    decodeWord 0x00000000_00000007_00000003_00000072#128 = .command (.cdEpass 3 7) ∧
    decodeWord 0x00000002_00000004_00000003_00000073#128 = .command (.cdDpass 3 4 2) := by decide +kernel

/-- V-ENC7 to V-ENC13: the reserved opcodes and the unused bits. -/
theorem test_decode_refuses :
    decodeWord 0x00000000_00000000_00000000_00000005#128 = .reservedOpcode 0x05 ∧
    decodeWord 0x00000000_00000000_00000000_000000FF#128 = .reservedOpcode 0xFF ∧
    decodeWord 0x00000000_00000000_00000001_00000000#128 = .unusedBitSet 0x00 ∧
    decodeWord 0x00000000_00000000_00000000_00000123#128 = .unusedBitSet 0x23 ∧
    decodeWord 0x00000000_00000000_00000000_00010021#128 = .unusedBitSet 0x21 ∧
    decodeWord 0x00000001_00000000_00000002_00000017#128 = .unusedBitSet 0x17 ∧
    decodeWord 0x00000000_00000000_00000000_00000231#128 = .unusedBitSet 0x31 ∧
    decodeBytes [0x31, 1, 0, 0, 3, 0, 0, 0, 5, 0, 0, 0, 0, 0, 0] =
      (.tooShort, [0x31, 1, 0, 0, 3, 0, 0, 0, 5, 0, 0, 0, 0, 0, 0]) := by decide +kernel

/-- V-ENC2 as the bytes of the table row and as the table's number (R101). -/
theorem test_decode_table_word :
    decodeTableWord 128 0x00000000_00000005_00000003_00000131 = some (.ptSearch 3 5 true) ∧
    decodeTableWord 128 0x05 = none := by decide +kernel

/-! ## Single steps -/

/-- The state after a command, the state itself if the model stops. -/
def after (i : Instr) (s : State) : State :=
  match exec i s with
  | .next t => t
  | .fault _ => s
  | .refused _ => s

theorem exec_after (i : Instr) (s : State) : exec i s = .next (after i s) := by
  obtain ⟨t, h⟩ := exec_next i s
  simp only [after, h]

/-- The code and the results of a response. -/
def answer (s : State) : Option (Nat × List Nat) :=
  s.resp.map fun r => (r.code.toNat, [r.res.r0.toNat, r.res.r1.toNat, r.res.r2.toNat, r.res.r3.toNat])

/-- The fault registers. -/
def faultWords (s : State) : List Nat := [s.err.toNat, s.errInfo0.toNat, s.errInfo1.toNat, s.errOp.toNat]

/-- An engine with the default parameters, right after reset, with bytes placed from IN address 0 and IN_LEN set. -/
def input (v : List Nat) : State :=
  { State.reset with
    inMem := ⟨(List.range v.length).map fun k => (k, BitVec.ofNat 8 (v.getD k 0)), 0⟩
    inLen := word v.length }

/-- OUT from an address on, as written cells. -/
def outCells (s : State) (addr n : Nat) : List (Option Nat) := (List.range n).map fun k => (s.outMem.cell (addr + k)).map (·.toNat)

/-- The nodes of V-DES1's tree: a leaf for each of two symbols under one parent. -/
def twoLeaves (a b : Word) : NodeMap := [(0, .leaf a 0), (1, .leaf b 0), (2, .internal 0 1 0)]

/-- An engine that holds the tree of V-DES1 at ROOT. -/
def withTree (s : State) : State := { s with nodes := twoLeaves 0x61 0x62, nextHandle := 3, root := 2 }

/-- The bytes of `hello, world` (V-PT). -/
def hello : List Nat := [0x68, 0x65, 0x6C, 0x6C, 0x6F, 0x2C, 0x20, 0x77, 0x6F, 0x72, 0x6C, 0x64]

/-- The trie of V-PT2: keys "h", "hell", "hello". -/
def helloTrie : Trie where
  paths := [[], [0x68], [0x68, 0x65], [0x68, 0x65, 0x6C], [0x68, 0x65, 0x6C, 0x6C], [0x68, 0x65, 0x6C, 0x6C, 0x6F]]
  payload := [([0x68], 1), ([0x68, 0x65, 0x6C, 0x6C], 4), ([0x68, 0x65, 0x6C, 0x6C, 0x6F], 5)]

/-- An engine with a recorded fault: V-SYS5 after PQ.EXTRACT. -/
def pending : State := { State.reset with status := ⟨true, false, false⟩, err := 2, errOp := 0x21 }

/-- V-SYS7. -/
theorem test_sysNop : answer (after .sysNop { State.reset with res := ⟨3, 0, 0, 0⟩ }) = some (0, [0, 0, 0, 0]) := by
  decide +kernel

/-- V-SYS5: the filter ignores a command that the faulted engine does not run. -/
theorem test_pqSize_ignored : answer (after .pqSize pending) = some (0xFF, [0, 0, 0, 0]) := by decide +kernel

/-- V-SYS6. -/
theorem test_sysReset :
    (after .sysReset (withTree (input [0x61]))).nodes = [] ∧ (after .sysReset (withTree (input [0x61]))).inLen = 0 ∧
    (after .sysReset (withTree (input [0x61]))).inByte 0 = 0x61 := by decide +kernel

/-- V-SYS5. -/
theorem test_sysClrerr :
    faultWords (after .sysClrerr pending) = [0, 0, 0, 0] ∧ (after .sysClrerr pending).status.fault = false := by
  decide +kernel

/-- V-SYS1. -/
theorem test_sysRdcr :
    answer (after (.sysRdcr 0x00) State.reset) = some (0, [0x48554607, 0, 0, 0]) ∧
    answer (after (.sysRdcr 0x0B) State.reset) = some (0, [16, 0, 0, 0]) ∧
    answer (after (.sysRdcr 0x40) State.reset) = some (0, [8, 0, 0, 0]) := by decide +kernel

/-- V-SYS5: a fault of a command that passes the filter leaves the first fault recorded (60_exceptions.md R316). -/
theorem test_sysRdcr_first_fault_kept :
    answer (after (.sysRdcr 0x99) pending) = some (9, [0, 0, 0, 0]) ∧
    faultWords (after (.sysRdcr 0x99) pending) = [2, 0, 0, 0x21] := by decide +kernel

/-- V-SYS3. -/
theorem test_sysWrcr :
    (after (.sysWrcr 6 1) State.reset).mode = .word ∧ (after (.sysWrcr 7 0x01000000) State.reset).inLen = 0x01000000 := by
  decide +kernel

/-- V-SYS3. -/
theorem test_sysWrcr_refuses :
    faultWords (after (.sysWrcr 6 2) State.reset) = [9, 7, 2, 4] ∧
    faultWords (after (.sysWrcr 1 0) State.reset) = [9, 6, 1, 4] ∧
    faultWords (after (.sysWrcr 7 0x01000001) State.reset) = [9, 7, 0x01000001, 4] := by decide +kernel

/-- An engine whose buffer 0 holds the given bits. -/
def bits0 (v : Bits) (cap : Nat) : State := { State.reset with bb := State.reset.bb.set 0 ⟨v, cap⟩ }

/-- V-BB2. -/
theorem test_bbCreate :
    ((after (.bbCreate 2 100) State.reset).buf 2).cap = 13 ∧ ((after (.bbCreate 2 65) State.reset).buf 2).cap = 9 ∧
    ((after (.bbCreate 2 64) State.reset).buf 2).cap = 8 := by decide +kernel

/-- V-BB1. -/
theorem test_bbGet :
    answer (after (.bbGet 0 8) (bits0 [true, false, true, true, false, false, false, true, true] 8)) =
      some (0, [1, 0, 0, 0]) ∧
    faultWords (after (.bbGet 0 9) (bits0 [true, false, true, true, false, false, false, true, true] 8)) =
      [1, 9, 9, 0x11] := by decide +kernel

/-- V-BB3. -/
theorem test_bbSet :
    ((after (.bbSet 0 1 1) (bits0 [false, false, false] 8)).buf 0).bits = [false, true, false] ∧
    faultWords (after (.bbSet 0 3 1) (bits0 [false, false, false] 8)) = [1, 3, 3, 0x12] ∧
    faultWords (after (.bbSet 0 3 2) (bits0 [false, false, false] 8)) = [9, 3, 2, 0x12] := by decide +kernel

/-- V-BB2: the 65th bit doubles the capacity, the 64th does not. -/
theorem test_bbAppend :
    ((after (.bbAppend 0 1) (bits0 (List.replicate 64 false) 8)).buf 0).cap = 16 ∧
    ((after (.bbAppend 0 1) (bits0 (List.replicate 63 false) 8)).buf 0).cap = 8 ∧
    answer (after (.bbAppend 0 1) (bits0 (List.replicate 64 false) 8)) = some (0, [65, 0, 0, 0]) := by decide +kernel

/-- V-BB4, V-BB5. -/
theorem test_bbCopy :
    ((after (.bbCopy 4 0) (bits0 [true, true, false] 8)).buf 4).bits = [true, true, false] ∧
    faultWords (after (.bbCopy 9 8) State.reset) = [9, 2, 9, 0x14] := by decide +kernel

/-- V-BB6. -/
theorem test_bbConcat :
    ((after (.bbConcat 2 0) (bits0 [true, false] 8)).buf 2).bits = [true, false] ∧
    faultWords (after (.bbConcat 0 0) (bits0 [true] 8)) = [9, 8, 1, 0x15] := by decide +kernel

/-- V-BB2: the capacity is kept. -/
theorem test_bbReset : (after (.bbReset 0) (bits0 [true] 32)).buf 0 = ⟨[], 32⟩ := by decide +kernel

/-- V-BB4. -/
theorem test_bbSize :
    answer (after (.bbSize 0) (bits0 [true, false, true] 8)) = some (0, [3, 0, 0, 0]) ∧
    faultWords (after (.bbSize 8) State.reset) = [9, 2, 8, 0x17] := by decide +kernel

/-- V-BB1. -/
theorem test_bbFlush :
    outCells (after (.bbFlush 0 0x20) (bits0 [true, false, true, true, false, false, false, true, true] 8)) 0x20 2 =
      [some 0x8D, some 0x01] ∧
    (after (.bbFlush 0 0x20) (bits0 [true, false, true, true, false, false, false, true, true] 8)).outLen = 0x22 := by
  decide +kernel

/-- V-BB7: all or nothing, and nothing at all for an empty buffer. -/
theorem test_bbFlush_at_the_end :
    faultWords (after (.bbFlush 0 0x00FFFFFF) (bits0 (List.replicate 9 true) 8)) = [8, 0x01000000, 1, 0x18] ∧
    (after (.bbFlush 0 0x00FFFFFF) (bits0 (List.replicate 9 true) 8)).outMem = State.reset.outMem ∧
    answer (after (.bbFlush 6 0xFFFFFFFF) State.reset) = some (0, [0, 0, 0, 0]) := by decide +kernel

/-- The queue of V-PQ1. -/
def queue1 : State := { State.reset with pq := ⟨[⟨5, 0, 7⟩, ⟨3, 1, 8⟩, ⟨3, 2, 9⟩], 16, 3⟩ }

/-- V-PQ1, V-PQ3: the 17th item doubles the capacity. -/
theorem test_pqInsert :
    answer (after (.pqInsert 9 3) queue1) = some (0, [4, 0, 0, 0]) ∧
    (after (.pqInsert 1 1) { State.reset with pq := ⟨List.replicate 16 ⟨0, 0, 0⟩, 16, 16⟩ }).pq.cap = 32 := by
  decide +kernel

/-- V-PQ1: of equal keys the earlier leaves first. -/
theorem test_pqExtract :
    answer (after .pqExtract queue1) = some (0, [8, 3, 2, 0]) ∧
    (after .pqExtract queue1).pq.entries = [⟨5, 0, 7⟩, ⟨3, 2, 9⟩] ∧
    answer (after .pqExtract { queue1 with pqOrder := .maxFirst }) = some (0, [7, 5, 2, 0]) := by decide +kernel

/-- V-PQ3: seven items left of a capacity of 32 halve it, eight do not, and 16 is the least. -/
theorem test_pqExtract_shrinks :
    (after .pqExtract { State.reset with pq := ⟨(List.range 8).map fun k => ⟨1, k, 0⟩, 32, 8⟩ }).pq.cap = 16 ∧
    (after .pqExtract { State.reset with pq := ⟨(List.range 9).map fun k => ⟨1, k, 0⟩, 32, 9⟩ }).pq.cap = 32 ∧
    (after .pqExtract queue1).pq.cap = 16 := by decide +kernel

/-- V-PQ1. -/
theorem test_pqPeek :
    answer (after .pqPeek queue1) = some (0, [8, 3, 3, 0]) ∧ (after .pqPeek queue1).pq = queue1.pq ∧
    faultWords (after .pqPeek State.reset) = [2, 0, 0, 0x22] := by decide +kernel

/-- V-PQ1. -/
theorem test_pqSize_pqIsempty :
    answer (after .pqSize queue1) = some (0, [3, 0, 0, 0]) ∧ answer (after .pqIsempty queue1) = some (0, [0, 0, 0, 0]) ∧
    answer (after .pqIsempty State.reset) = some (0, [1, 0, 0, 0]) := by decide +kernel

/-- Two leaves, both queued (V-PQ5). -/
def twoQueued : State :=
  { State.reset with
    nodes := [(0, .leaf 0x61 5), (1, .leaf 0x62 9)]
    nextHandle := 2
    pq := ⟨[⟨5, 0, 0⟩, ⟨9, 1, 1⟩], 16, 2⟩ }

/-- V-PQ5, V-PQ4. -/
theorem test_pqDestroy :
    answer (after (.pqDestroy true) twoQueued) = some (0, [2, 2, 0, 0]) ∧ (after (.pqDestroy true) twoQueued).nodes = [] ∧
    answer (after (.pqDestroy false) twoQueued) = some (0, [2, 0, 0, 0]) ∧
    (after (.pqDestroy false) twoQueued).pq = ⟨[], 16, 0⟩ := by decide +kernel

/-- V-PT1. -/
theorem test_ptInsert :
    (after (.ptInsert 0 5 77) { input hello with trie := helloTrie }).trie.payload =
      [([0x68], 1), ([0x68, 0x65, 0x6C, 0x6C], 4), ([0x68, 0x65, 0x6C, 0x6C, 0x6F], 77)] ∧
    (after (.ptInsert 0 5 2) (input hello)).trie.size = 5 := by decide +kernel

/-- V-PT5. -/
theorem test_ptInsert_refuses :
    faultWords (after (.ptInsert 10 3 0) (input hello)) = [9, 4, 10, 0x30] ∧
    faultWords (after (.ptInsert 0 0 1) (input hello)) = [9, 5, 0, 0x30] ∧
    faultWords (after (.ptInsert 0xFFFFFFFF 2 0) (input hello)) = [9, 4, 0xFFFFFFFF, 0x30] := by decide +kernel

/-- V-PT2: longest and shallowest match. -/
theorem test_ptSearch :
    answer (after (.ptSearch 0 12 false) { input hello with trie := helloTrie }) = some (0, [5, 5, 1, 0]) ∧
    answer (after (.ptSearch 0 12 true) { input hello with trie := helloTrie }) = some (0, [1, 1, 1, 0]) ∧
    answer (after (.ptSearch 0 3 false) { input hello with trie := helloTrie }) = some (0, [1, 1, 1, 0]) := by
  decide +kernel

/-- V-PT2: no match is a result. -/
theorem test_ptSearch_none :
    answer (after (.ptSearch 1 4 false) { input hello with trie := helloTrie }) = some (0, [0, 0, 0, 0]) ∧
    (after (.ptSearch 1 4 false) { input hello with status := ⟨false, false, true⟩ }).status.found = false := by
  decide +kernel

/-- V-PT4. -/
theorem test_ptRemove :
    (after (.ptRemove 0 4) { input hello with trie := helloTrie }).trie =
      ⟨helloTrie.paths, [([0x68], 1), ([0x68, 0x65, 0x6C, 0x6C, 0x6F], 5)]⟩ ∧
    faultWords (after (.ptRemove 0 2) { input hello with trie := helloTrie }) = [3, 0, 2, 0x32] := by decide +kernel

/-- V-PT6. -/
theorem test_ptKeys :
    answer (after (.ptKeys 0) { State.reset with trie := helloTrie }) = some (0, [3, 22, 0, 0]) ∧
    outCells (after (.ptKeys 0) { State.reset with trie := helloTrie }) 0 9 =
      [some 1, some 0, some 0, some 0, some 0x68, some 4, some 0, some 0, some 0] := by decide +kernel

/-- V-PT7. -/
theorem test_ptClear : (after .ptClear { State.reset with trie := helloTrie }).trie.size = 0 := by decide +kernel

/-- V-FT1. -/
theorem test_ftSet :
    answer (after (.ftSet 1 1 9) { input [0x61, 0x62] with ft := [([0x61], 5)] }) = some (0, [2, 0, 0, 0]) ∧
    answer (after (.ftSet 0 1 0) { input [0x61, 0x62] with ft := [([0x61], 7)] }) = some (0, [0, 0, 0, 0]) ∧
    faultWords (after (.ftSet 0 0 3) (input [0x61, 0x62])) = [9, 5, 0, 0x40] ∧
    faultWords (after (.ftSet 1 2 3) (input [0x61, 0x62])) = [9, 4, 1, 0x40] := by decide +kernel

/-- V-FT1. -/
theorem test_ftClear : (after .ftClear { State.reset with ft := [([0x61], 7)] }).ft = [] := by decide +kernel

/-- V-PQ5, V-HT7. -/
theorem test_htLeaf :
    answer (after (.htLeaf 0x61 5) State.reset) = some (0, [0, 0, 0, 0]) ∧
    (after (.htLeaf 0x61 5) State.reset).pq.entries = [⟨5, 0, 0⟩] ∧
    faultWords (after (.htLeaf 5 0) State.reset) = [9, 9, 5, 0x50] := by decide +kernel

/-- V-HT1: the first merge of the source's table. -/
theorem test_htMerge :
    answer (after .htMerge twoQueued) = some (0, [2, 14, 0, 0]) ∧
    mapFind 2 (after .htMerge twoQueued).nodes = some (.internal 0 1 14) ∧
    (after .htMerge twoQueued).pq.entries = [⟨14, 2, 2⟩] := by decide +kernel

/-- V-HT6. -/
theorem test_htMerge_refuses :
    faultWords (after .htMerge State.reset) = [2, 0, 0, 0x51] ∧
    faultWords (after .htMerge { twoQueued with pqOrder := .maxFirst }) = [9, 8, 3, 0x51] ∧
    faultWords (after .htMerge { twoQueued with pq := ⟨[⟨1, 0, 0⟩, ⟨1, 1, 0⟩], 16, 2⟩ }) = [9, 8, 4, 0x51] ∧
    faultWords (after .htMerge { twoQueued with pq := ⟨[⟨0xFFFFFFFF, 0, 0⟩, ⟨1, 1, 1⟩], 16, 2⟩ }) =
      [7, 6, 1, 0x51] := by decide +kernel

/-- V-HT2: ties decide the shape. -/
theorem test_htBuild :
    answer (after .htBuild { State.reset with ft := [([0x69], 4), ([0x6D], 1), ([0x70], 2), ([0x73], 4)] }) =
      some (0, [6, 4, 0, 0]) ∧
    ((after .htBuild { State.reset with ft := [([0x69], 4), ([0x6D], 1), ([0x70], 2), ([0x73], 4)] }).nodes.drop 4) =
      [(4, .internal 1 2 3), (5, .internal 4 0 7), (6, .internal 3 5 11)] := by decide +kernel

/-- V-HT3, V-HT5. -/
theorem test_htBuild_edges :
    answer (after .htBuild State.reset) = some (0, [0xFFFFFFFF, 0, 0, 0]) ∧ (after .htBuild State.reset).status.empty = true ∧
    answer (after .htBuild { State.reset with ft := [([0x61], 4)] }) = some (0, [0, 1, 0, 0]) ∧
    faultWords (after .htBuild { State.reset with ft := [([0x61, 0x62], 1)] }) = [9, 8, 7, 0x52] := by decide +kernel

/-- V-HT8. -/
theorem test_htFree :
    answer (after (.htFree 2) (withTree State.reset)) = some (0, [3, 0, 0, 0]) ∧
    (after (.htFree 2) (withTree State.reset)).root = 0xFFFFFFFF ∧
    faultWords (after (.htFree 0xFFFFFFFF) (withTree State.reset)) = [3, 0xFFFFFFFF, 0, 0x53] := by decide +kernel

/-- V-SER3. -/
theorem test_htSer :
    answer (after (.htSer 16) (withTree State.reset)) = some (0, [3, 19, 0, 0]) ∧
    outCells (after (.htSer 16) (withTree State.reset)) 16 3 = [some 0x86, some 0x15, some 0x03] := by decide +kernel

/-- V-SER5. -/
theorem test_htSer_refuses :
    faultWords (after (.htSer 0) State.reset) = [9, 8, 5, 0x54] ∧
    faultWords (after (.htSer 0x00FFFFFF) (withTree State.reset)) = [8, 0x01000000, 1, 0x54] := by decide +kernel

/-- V-DES1. -/
theorem test_htDeser :
    answer (after (.htDeser 0 3) (input [0x86, 0x15, 0x03])) = some (0, [2, 19, 0, 0]) ∧
    (after (.htDeser 0 3) (input [0x86, 0x15, 0x03])).nodes = twoLeaves 0x61 0x62 := by decide +kernel

/-- V-DES3, V-DES5. -/
theorem test_htDeser_refuses :
    faultWords (after (.htDeser 0 2) (input [0x86, 0x15])) = [6, 2, 3, 0x55] ∧
    (after (.htDeser 0 2) (input [0x86, 0x15])).nextHandle = 1 ∧
    (after (.htDeser 0 2) (input [0x86, 0x15])).nodes = [] ∧
    faultWords (after (.htDeser 0 5) { input [0x0B, 0, 0, 0, 0] with mode := .word, symtab := [[1], [2]] }) =
      [6, 0, 4, 0x55] := by decide +kernel

/-- V-HT1. -/
theorem test_htNode :
    answer (after (.htNode 2) (withTree State.reset)) = some (0, [0, 0, 1, 0]) ∧
    answer (after (.htNode 1) (withTree State.reset)) = some (0, [1, 0x62, 0xFFFFFFFF, 0]) ∧
    faultWords (after (.htNode 11) (withTree State.reset)) = [3, 11, 0, 0x56] := by decide +kernel

/-- V-CT5, V-CD2: the first visited leaf wins; left is 0 and right is 1. -/
theorem test_ctGen :
    (after .ctGen (withTree State.reset)).code = [(0x61, [false]), (0x62, [true])] ∧
    (after .ctGen { State.reset with nodes := twoLeaves 0x61 0x61, nextHandle := 3, root := 2 }).code =
      [(0x61, [false])] := by decide +kernel

/-- V-CT2, V-CT3. -/
theorem test_ctGen_edges :
    (after .ctGen { State.reset with nodes := [(0, .leaf 0x61 4)], nextHandle := 1, root := 0 }).code =
      [(0x61, [false])] ∧
    faultWords (after .ctGen State.reset) = [9, 8, 5, 0x60] := by decide +kernel

/-- V-CT1. -/
theorem test_ctGet :
    (after (.ctGet 0x61 2) { State.reset with code := [(0x61, [true, true, false, false])] }).buf 2 =
      ⟨[true, true, false, false], 8⟩ ∧
    faultWords (after (.ctGet 0x7A 2) State.reset) = [4, 0x7A, 0, 0x61] ∧
    faultWords (after (.ctGet 0x61 8) State.reset) = [9, 2, 8, 0x61] := by decide +kernel

/-- V-ST1. -/
theorem test_ctStload :
    (after (.ctStload 0 12) (input [1, 0, 0, 0, 0x20, 3, 0, 0, 0, 0x74, 0x68, 0x65])).symtab =
      [[0x20], [0x74, 0x68, 0x65]] ∧
    faultWords (after (.ctStload 0 11) (input [1, 0, 0, 0, 0x20, 3, 0, 0, 0, 0x74, 0x68, 0x65])) = [6, 5, 2, 0x62] ∧
    faultWords (after (.ctStload 0 4) (input [0, 0, 0, 0])) = [6, 0, 2, 0x62] := by decide +kernel

/-- V-ST2. -/
theorem test_ctStstore :
    answer (after (.ctStstore 16) { State.reset with symtab := [[0x20], [0x2C]] }) = some (0, [10, 2, 0, 0]) ∧
    outCells (after (.ctStstore 16) { State.reset with symtab := [[0x20], [0x2C]] }) 16 10 =
      [some 1, some 0, some 0, some 0, some 0x20, some 1, some 0, some 0, some 0, some 0x2C] := by decide +kernel

/-- The container of V-CD2. -/
def containerAb : List Nat :=
  [0x10, 0, 0, 0, 0x10, 0, 0, 0, 0x13, 0, 0, 0, 2, 0, 0, 0, 0x86, 0x15, 0x03, 0x02]

/-- V-CD2. -/
theorem test_cdEncode :
    answer (after .cdEncode { input [0x61, 0x62] with ft := [([0x61], 1), ([0x62], 1)] }) = some (0, [20, 2, 16, 19]) ∧
    outCells (after .cdEncode { input [0x61, 0x62] with ft := [([0x61], 1), ([0x62], 1)] }) 0 20 =
      containerAb.map some := by decide +kernel

/-- V-CD12, V-CD4. -/
theorem test_cdEncode_edges :
    faultWords (after .cdEncode { input [0x61, 0x62, 0x61] with mode := .word, ft := [([0x61, 0x62], 1)] }) =
      [4, 2, 0x61, 0x70] ∧
    answer (after .cdEncode State.reset) = some (0, [16, 0, 16, 16]) := by decide +kernel

/-- V-CD2, V-CD10: the trailing bytes are ignored. -/
theorem test_cdDecode :
    answer (after .cdDecode (input containerAb)) = some (0, [2, 2, 0, 0]) ∧
    outCells (after .cdDecode (input (containerAb ++ [0xAA, 0xBB]))) 0 2 = [some 0x61, some 0x62] ∧
    (after .cdDecode (input (containerAb ++ [0xAA, 0xBB]))).dbit = 2 := by decide +kernel

/-- V-CD7. -/
theorem test_cdDecode_truncated :
    faultWords (after .cdDecode (input (containerAb.take 19))) = [5, 19, 0, 0x71] ∧
    faultWords (after .cdDecode (input (containerAb.take 18))) = [6, 8, 1, 0x71] ∧
    faultWords (after .cdDecode (input (containerAb.take 15))) = [6, 15, 0, 0x71] ∧
    (after .cdDecode (input (containerAb.take 19))).outLen = 0 := by decide +kernel

/-- The codes of V-CD3's `a`, `c` and `d`. -/
def codesAcd : List (Word × Bits) :=
  [(0x61, [false]), (0x63, [true, false, false]), (0x64, [true, false, true])]

/-- V-CD11. -/
theorem test_cdEpass :
    answer (after (.cdEpass 0 4) { input [0x61, 0x63, 0x61, 0x64] with code := codesAcd }) = some (0, [4, 8, 0, 0]) ∧
    pack ((after (.cdEpass 0 4) { input [0x61, 0x63, 0x61, 0x64] with code := codesAcd }).buf 0).bits = [0xA2] ∧
    faultWords (after (.cdEpass 0 4) { input [0x61, 0x63, 0x78, 0x61] with code := codesAcd }) = [4, 2, 0x78, 0x72] := by
  decide +kernel

/-- V-CD11. -/
theorem test_cdDpass :
    answer (after (.cdDpass 3 4 2) (withTree (input [0, 0, 0, 2]))) = some (0, [2, 2, 0, 0]) ∧
    outCells (after (.cdDpass 3 4 2) (withTree (input [0, 0, 0, 2]))) 0 2 = [some 0x61, some 0x62] ∧
    faultWords (after (.cdDpass 3 4 9) (withTree (input [0, 0, 0, 2]))) = [5, 4, 0, 0x73] ∧
    faultWords (after (.cdDpass 3 4 2) (input [0, 0, 0, 2])) = [9, 8, 5, 0x73] := by decide +kernel

/-- The state after a step, the state itself if the model stops. -/
def afterStep (s : State) : State :=
  match step s with
  | .next t => t
  | .fault _ => s
  | .refused _ => s

/-- A word at the command port runs as the first command after reset (48_system.md R280). -/
theorem test_step_runs_the_word :
    answer (afterStep (State.reset.withFetchWord 128 0x00000000_00000009_00000061_00000050)) = some (0, [0, 0, 0, 0]) ∧
    (afterStep (State.reset.withFetchWord 128 0x00000000_00000009_00000061_00000050)).nodes = [(0, .leaf 0x61 9)] := by
  decide +kernel

/-! ## Witnesses: for every obligation with hypotheses, states and operands that meet them, clause by clause, at the ends of
the ranges. `base` is the reset state of a small configuration whose bounds are near. -/

/-- A small configuration: bounds that a few commands reach, two failing addresses in each space. -/
def tiny : Config where
  inCap := 64
  outCap := 64
  nb := 4
  bbMinCap := 1
  bbMaxBits := 160
  pqMinCap := 1
  pqMaxCap := 2
  nodeMax := 3
  trieMax := 3
  ftMax := 2
  ioBadIn := [40, 50]
  ioBadOut := [40, 50]

/-- The small engine right after reset. -/
def base : State := State.resetOf tiny 0 0

/-- The small engine with bytes placed from IN address 0 and IN_LEN set. -/
def placed (v : List Nat) : State := { base with inMem := (input v).inMem, inLen := word v.length }

/-- The small engine with a command word waiting. -/
def waiting (w : CommandWord) : State := { base with port := [.command w] }

/-- The invariants as a check that runs, but for the one about the queue's doublings. -/
def checked (s : State) : Bool :=
  decide (s.cfg.wellFormed = true ∧ s.dbit.toNat ≤ 7 ∧ s.resp = none) &&
  decide (s.inMem.wf = true ∧ s.outMem.wf = true ∧ (∀ e ∈ s.inMem.cells, e.1 < s.cfg.inCap) ∧
    (∀ e ∈ s.outMem.cells, e.1 < s.cfg.outCap) ∧ s.inLen.toNat ≤ s.cfg.inCap ∧ s.outLen.toNat ≤ s.cfg.outCap) &&
  decide ((s.err = 0 ↔ s.status.fault = false) ∧ s.err.toNat ≤ 9 ∧
    (s.status.fault = false → s.errInfo0 = 0 ∧ s.errInfo1 = 0 ∧ s.errOp = 0)) &&
  decide (s.bb.length = s.cfg.nb ∧ ∀ v ∈ s.bb, v.bits.length ≤ s.cfg.bbMaxBits ∧ v.bits.length ≤ 8 * v.cap ∧
    s.cfg.bbMinCap ≤ v.cap ∧ v.cap ≤ max s.cfg.bbMinCap s.cfg.bbMaxBytes) &&
  decide ((s.pq.entries.Pairwise fun x y => x.seq < y.seq) ∧ (∀ x ∈ s.pq.entries, x.seq < s.pq.nextSeq) ∧
    s.pq.entries.length ≤ s.pq.cap ∧ s.pq.cap ≤ s.cfg.pqMaxCap) &&
  decide (rising wordLt (s.nodes.map Prod.fst) = true ∧ (∀ e ∈ s.nodes, e.1.toNat < s.nextHandle) ∧
    s.nextHandle ≤ 0xFFFFFFFF ∧ s.nodes.length ≤ s.cfg.nodeMax ∧
    (s.nodes.all fun e => e.2.children.all fun c => decide (c.toNat < e.1.toNat)) = true ∧ (s.nodes.flatMap fun e => e.2.children).Nodup ∧
    (s.root = nullHandle ∨ NodeMap.live s.nodes s.root = true) ∧
    (s.cursor = nullHandle ∨ NodeMap.live s.nodes s.cursor = true)) &&
  decide (rising lexLt s.trie.paths = true ∧ [] ∈ s.trie.paths ∧ (∀ p ∈ s.trie.paths, p.dropLast ∈ s.trie.paths) ∧
    rising lexLt (s.trie.payload.map Prod.fst) = true ∧
    (∀ e ∈ s.trie.payload, e.1 ∈ s.trie.paths ∧ e.1 ≠ []) ∧ s.trie.size ≤ s.cfg.trieMax) &&
  decide (rising lexLt (s.ft.map Prod.fst) = true ∧ (∀ e ∈ s.ft, e.1 ≠ [] ∧ e.2 ≠ 0) ∧ s.ft.length ≤ s.cfg.ftMax ∧
    (∀ w ∈ s.symtab, w ≠ []) ∧ rising wordLt (s.code.map Prod.fst) = true ∧
    ∀ e ∈ s.code, e.2 ≠ [] ∧ e.2.length ≤ max 1 ((s.cfg.nodeMax - 1) / 2))

/-- A check over a list of words, run over the list and not over all words. -/
theorem forall_of_all {α : Type} {l : List α} {p : α → Prop} [DecidablePred p]
    (h : (l.all fun x => decide (p x)) = true) : ∀ x ∈ l, p x :=
  fun x hx => of_decide_eq_true (List.all_eq_true.1 h x hx)

theorem inv_of_checked {s : State} (h : checked s = true) (hd : ∃ j, s.pq.cap = s.cfg.pqMinCap * 2 ^ j) : s.Inv := by
  simp only [checked, Bool.and_eq_true, decide_eq_true_eq] at h
  obtain ⟨⟨⟨⟨⟨⟨⟨h1, h2⟩, h3⟩, h4⟩, h5⟩, h6⟩, h7⟩, h8⟩ := h
  obtain ⟨a1, a3, a4⟩ := h1
  obtain ⟨b1, b2, b3, b4, b5, b6⟩ := h2
  obtain ⟨c1, c2, c3⟩ := h3
  obtain ⟨e1, e2, e3, e4⟩ := h5
  obtain ⟨f1, f2, f3, f4, f5, f6, f7, f8⟩ := h6
  obtain ⟨g1, g2, g3, g4, g5, g6⟩ := h7
  obtain ⟨i1, i2, i3, i4, i5, i6⟩ := h8
  refine ⟨a1, ⟨b1, b2, b3, b4, b5, b6⟩, ⟨c1, c2, c3, fun r hr => ?_⟩, ⟨h4.1, fun v hv => ?_⟩, ⟨e1, e2, e3, hd, e4⟩,
    ⟨f1, f2, f3, f4, fun e he c hc => ?_, f6, f7, f8⟩, ⟨g1, g2, g3, g4, g5, g6⟩, ⟨i1, i2, i3, i4, i5, i6⟩, a3⟩
  · rw [a4] at hr
    cases hr
  · obtain ⟨d1, d2, d3, d4⟩ := h4.2 v hv
    exact ⟨d1, d2, d3, d4⟩
  · exact of_decide_eq_true (List.all_eq_true.1 (List.all_eq_true.1 f5 e he) c hc)

theorem base_inv : base.Inv := inv_of_checked (by decide +kernel) ⟨0, rfl⟩

/-- A low word with a bit outside the opcode and F0 is no command's. -/
theorem no_command {w : CommandWord} (h : wordW0 w &&& 0xFFFFFE00#32 ≠ 0) (i : Instr) : encode i ≠ w := by
  rintro rfl
  refine h ?_
  rw [wordW0_encode, Instr.w0]
  generalize i.fields.opcode = op
  generalize i.fields.f0 = f
  revert op f
  decide

theorem witness_EncodeOfDecodedIsTheWord :
    decodeWord 0x00000000_FFFFFFFF_00000000_00000131#128 = .command (.ptSearch 0 0xFFFFFFFF true) := by decide +kernel

theorem witness_WordsThatSpellNoCommandFault :
    (waiting 0x05).port = [.command 0x05] ∧ (waiting 0x05).status.fault = false ∧
    wordOpcode 0x05 ∉ definedOpcodes ∧ wordOpcode 0x74 ∉ definedOpcodes ∧ wordOpcode 0xFF ∉ definedOpcodes ∧
    wordOpcode 0x10021 ∈ definedOpcodes ∧ (∀ i, encode i ≠ 0x10021) ∧
    wordOpcode 0x80000073 ∈ definedOpcodes ∧ (∀ i, encode i ≠ 0x80000073) :=
  ⟨rfl, rfl, by decide +kernel, by decide +kernel, by decide +kernel, by decide +kernel, no_command (by decide +kernel),
    by decide +kernel, no_command (by decide +kernel)⟩

theorem witness_StepRunsTheDecodedCommand :
    (waiting 0x24).port = [.command 0x24] ∧ decodeWord 0x24 = .command .pqIsempty := ⟨rfl, by decide +kernel⟩

theorem witness_HostMovesBetweenCommands :
    base.port = [] ∧
    (let s : State := { base with port := [.writeIn 60 [1, 2, 3, 4]] };
      s.port = [.writeIn 60 [1, 2, 3, 4]] ∧ 60 + 4 ≤ s.cfg.inCap) ∧
    (let s : State := { base with port := [.writeIn 61 [1, 2, 3, 4]] };
      s.port = [.writeIn 61 [1, 2, 3, 4]] ∧ [1#8, 2#8, 3#8, 4#8] ≠ [] ∧ s.cfg.inCap < 61 + 4) ∧
    (let s : State := { base with port := [.writeIn 65 []] }; s.port = [.writeIn 65 []] ∧ s.cfg.inCap < 65 + 0) ∧
    ({ base with port := [.hardwareReset] } : State).port = [.hardwareReset] :=
  ⟨rfl, ⟨rfl, by decide⟩, ⟨rfl, by decide, by decide⟩, ⟨rfl, by decide⟩, rfl⟩

/-- The small engine with a fault recorded, and a word that spells no command waiting. -/
def stuck : State :=
  { base with
    status := ⟨true, false, false⟩
    err := 2
    errOp := 0x21
    port := [.command 0x10003] }

theorem witness_FirstFaultIsKeptUntilCleared :
    stuck.status.fault = true ∧
    (Instr.pqSize ≠ .sysReset ∧ Instr.pqSize ≠ .sysClrerr ∧ ∀ cr, Instr.pqSize ≠ .sysRdcr cr) ∧
    stuck.controlValue 0x18 = none ∧ stuck.controlValue 0x1F = none ∧ stuck.controlValue 0x24 = none ∧
    stuck.controlValue 0x3F = none ∧ stuck.controlValue 0x44 = none ∧
    stuck.port = [.command 0x10003] ∧ (∀ i, encode i ≠ 0x10003) :=
  ⟨rfl, ⟨by decide, by decide, by simp⟩, rfl, rfl, rfl, rfl, rfl, rfl, no_command (by decide +kernel)⟩

theorem witness_SysNopAndClrerr : base.status.fault = false := rfl

theorem witness_RdcrReadsTheMap :
    base.controlValue 0x00 = some 0x48554607 ∧ base.controlValue 0x17 = some 0 ∧ base.controlValue 0x20 = some 0 ∧
    base.controlValue 0x23 = some 0 ∧ base.controlValue 0x40 = some 1 ∧ base.controlValue 0x43 = some 1 ∧
    base.controlValue 0x18 = none ∧ base.controlValue 0x24 = none ∧ base.controlValue 0x44 = none ∧
    base.status.fault = false := by decide +kernel

/-- The small engine with one item queued. -/
def oneQueued : State := { base with pq := ⟨[⟨5, 0, 7⟩], 1, 1⟩ }

theorem witness_WrcrWritesFourRegisters :
    base.status.fault = false ∧
    ((5 : Word) ≠ 6 ∧ (5 : Word) ≠ 7 ∧ (5 : Word) ≠ 8 ∧ (5 : Word) ≠ 9 ∧ (10 : Word) ≠ 9) ∧
    (1 < (2 : Word).toNat ∧ base.cfg.inCap < (65 : Word).toNat ∧ base.cfg.outCap < (65 : Word).toNat) ∧
    ((1 : Word).toNat ≤ 1 ∧ oneQueued.pq.entries ≠ [] ∧ oneQueued.status.fault = false) ∧
    ((64 : Word).toNat ≤ base.cfg.inCap ∧ (64 : Word).toNat ≤ base.cfg.outCap) ∧ base.pq.entries = [] := by decide +kernel

theorem witness_BbCreateResetSize :
    base.status.fault = false ∧ base.cfg.nb ≤ (4 : Word).toNat ∧ (3 : Word).toNat < base.cfg.nb ∧
    base.cfg.bbMaxBits < (161 : Word).toNat ∧ (160 : Word).toNat ≤ base.cfg.bbMaxBits := by decide +kernel

/-- The small engine with three bits in buffer 0 and a full buffer 1. -/
def twoBuffers : State :=
  { base with bb := [⟨[true, false, true], 1⟩, ⟨List.replicate 160 true, 32⟩, ⟨[], 1⟩, ⟨[], 1⟩] }

theorem witness_BbGetAndSet :
    twoBuffers.status.fault = false ∧ twoBuffers.cfg.nb ≤ (4 : Word).toNat ∧ (0 : Word).toNat < twoBuffers.cfg.nb ∧
    (twoBuffers.buf 0).bits.length ≤ (3 : Word).toNat ∧ (twoBuffers.buf 0).bits[(2 : Word).toNat]? = some true ∧
    (2 : Word).toNat < (twoBuffers.buf 0).bits.length ∧ 1 < (2 : Word).toNat ∧ (1 : Word).toNat ≤ 1 := by decide +kernel

theorem witness_BbAppendAddsOneBit :
    twoBuffers.status.fault = false ∧ twoBuffers.cfg.nb ≤ (4 : Word).toNat ∧ (1 : Word).toNat < twoBuffers.cfg.nb ∧
    1 < (2 : Word).toNat ∧ (1 : Word).toNat ≤ 1 ∧ twoBuffers.cfg.bbMaxBits ≤ (twoBuffers.buf 1).bits.length ∧
    (twoBuffers.buf 0).bits.length < twoBuffers.cfg.bbMaxBits := by decide +kernel

theorem witness_BbCopyAndConcat :
    twoBuffers.status.fault = false ∧ twoBuffers.cfg.nb ≤ (4 : Word).toNat ∧ (0 : Word).toNat < twoBuffers.cfg.nb ∧
    (1 : Word).toNat < twoBuffers.cfg.nb ∧ (0 : Word) ≠ 1 ∧
    twoBuffers.cfg.bbMaxBits < (twoBuffers.buf 0).bits.length + (twoBuffers.buf 1).bits.length ∧
    (twoBuffers.buf 1).bits.length + (twoBuffers.buf 2).bits.length ≤ twoBuffers.cfg.bbMaxBits := by decide +kernel

theorem witness_BbFlushWritesThePackedBytes :
    twoBuffers.status.fault = false ∧ twoBuffers.cfg.nb ≤ (4 : Word).toNat ∧ (1 : Word).toNat < twoBuffers.cfg.nb ∧
    twoBuffers.LeastUnwritable 21 (((twoBuffers.buf 1).bits.length + 7) / 8) 40 ∧
    twoBuffers.LeastUnwritable 64 (((twoBuffers.buf 0).bits.length + 7) / 8) 64 ∧
    twoBuffers.OutWritable 20 (((twoBuffers.buf 1).bits.length + 7) / 8) ∧
    twoBuffers.OutWritable 63 (((twoBuffers.buf 0).bits.length + 7) / 8) ∧
    twoBuffers.OutWritable 0xFFFFFFFF (((twoBuffers.buf 2).bits.length + 7) / 8) := by
  refine ⟨rfl, by decide, by decide, ?_, ?_, ?_, ?_, ?_⟩
  · refine ⟨by decide +kernel, fun y h h' => ?_⟩
    have : y < 64 ∧ y ≠ 40 ∧ y ≠ 50 := by omega
    simpa [twoBuffers, base, tiny, State.resetOf] using this
  · exact ⟨by decide +kernel, fun y h h' => by omega⟩
  · exact .inr (by decide +kernel)
  · exact .inr (by decide +kernel)
  · exact .inl (by decide +kernel)

theorem witness_GrowIsTheLeastDoubling : 1 ≤ tiny.bbMinCap := by decide

theorem witness_PackingAndByteOrder :
    0 < (pack [true, false, true]).length ∧ 7 < 8 ∧ 7 < 8 * [0x80#8].length ∧ 31 < 32 := by decide +kernel

theorem witness_LexIsATotalOrder : [0x61#8] ≠ [0x61#8, 0x62#8] := by decide

/-- The small engine with a full queue: equal keys, the queue at its greatest capacity. -/
def queueFull : State := { base with pq := ⟨[⟨3, 0, 8⟩, ⟨3, 1, 9⟩], 2, 2⟩ }

theorem queueFull_inv : queueFull.Inv := inv_of_checked (by decide +kernel) ⟨1, rfl⟩

theorem witness_PqInsertAddsAnItem :
    queueFull.status.fault = false ∧ queueFull.pq.entries.length = queueFull.pq.cap ∧
    queueFull.pq.cap = queueFull.cfg.pqMaxCap ∧
    ¬(oneQueued.pq.entries.length = oneQueued.pq.cap ∧ oneQueued.pq.cap = oneQueued.cfg.pqMaxCap) := by decide +kernel

theorem witness_PqExtractAndPeekAnswerTheTop :
    base.status.fault = false ∧ base.pq.entries = [] ∧ queueFull.status.fault = false ∧ queueFull.pq.entries ≠ [] ∧
    queueFull.QueueOk ∧ QueueTop queueFull.pqOrder queueFull.pq.entries ⟨3, 0, 8⟩ :=
  ⟨rfl, rfl, rfl, by decide, queueFull_inv.queue, by unfold QueueTop; decide +kernel⟩

theorem witness_ConsecutiveExtractsAreInOrder :
    queueFull.status.fault = false ∧ queueFull.QueueOk ∧ 2 ≤ queueFull.pq.entries.length ∧
    queueFull.pqOrder = .minFirst := ⟨rfl, queueFull_inv.queue, by decide, rfl⟩

/-- The small engine with two queued leaves. -/
def twoLeavesQueued : State :=
  { base with
    nodes := [(0, .leaf 0x61 1), (1, .leaf 0x62 0xFFFFFFFE)]
    nextHandle := 2
    pq := ⟨[⟨1, 0, 0⟩, ⟨0xFFFFFFFE, 1, 1⟩], 2, 2⟩ }

theorem twoLeavesQueued_inv : twoLeavesQueued.Inv := inv_of_checked (by decide +kernel) ⟨1, rfl⟩

theorem witness_PqSizeIsemptyDestroy : twoLeavesQueued.status.fault = false ∧ twoLeavesQueued.NodesOk :=
  ⟨rfl, twoLeavesQueued_inv.nodes⟩

/-- The small engine with 48 bytes of IN, so that the failing address 40 is inside IN_LEN. -/
def wide : State := { placed [0x61, 0x62, 0x63, 0x64] with inLen := 48 }

/-- The trie with the keys "a" and "ab". -/
def trieAb : Trie := ⟨[[], [0x61], [0x61, 0x62]], [([0x61], 1), ([0x61, 0x62], 2)]⟩

theorem wide_inv : wide.Inv := inv_of_checked (by decide +kernel) ⟨0, rfl⟩

theorem wide_unreadable : wide.LeastUnreadable 36 5 40 := ⟨by decide +kernel, by decide +kernel⟩

theorem wide_readable {n : Nat} (h : n ≤ 40) : wide.InReadable 0 n := by
  intro x hx
  simp [wide, placed, base, tiny, State.resetOf] at hx
  omega

theorem witness_PtInsertStoresAtTheKey :
    wide.status.fault = false ∧ ¬(47 + (2 : Word).toNat ≤ wide.inLen.toNat) ∧ 46 + (2 : Word).toNat ≤ wide.inLen.toNat ∧
    (3 : Word) ≠ 0 ∧ wide.LeastUnreadable 36 5 40 ∧ wide.InReadable 0 4 ∧ wide.InReadable 0 3 ∧
    wide.cfg.trieMax < wide.trie.paths.length - 1 +
      ((List.range 4).filter fun j => (wide.inBytes 0 4).take (j + 1) ∉ wide.trie.paths).length ∧
    wide.trie.paths.length - 1 +
      ((List.range 3).filter fun j => (wide.inBytes 0 3).take (j + 1) ∉ wide.trie.paths).length ≤ wide.cfg.trieMax :=
  ⟨rfl, by decide +kernel, by decide +kernel, by decide, wide_unreadable, wide_readable (by omega),
    wide_readable (by omega), by decide +kernel, by decide +kernel⟩

/-- The small engine with IN "abcd" and the keys "a" and "ab". -/
def wideTrie : State := { wide with trie := trieAb }

theorem wideTrie_inv : wideTrie.Inv := inv_of_checked (by decide +kernel) ⟨0, rfl⟩

theorem witness_PtSearchFindsTheBestPrefix :
    wideTrie.status.fault = false ∧ ¬(47 + (2 : Word).toNat ≤ wideTrie.inLen.toNat) ∧
    46 + (2 : Word).toNat ≤ wideTrie.inLen.toNat ∧ wideTrie.LeastUnreadable 36 5 40 ∧
    wideTrie.InReadable 0 4 ∧ wideTrie.InReadable 1 3 ∧ (∀ e ∈ wideTrie.trie.payload, ¬e.1 <+: wideTrie.inBytes 1 3) ∧
    wideTrie.TrieOk ∧
    (∀ x ∈ wideTrie.trie.payload, x.1 <+: wideTrie.inBytes 0 4 → x.1.length ≤ [0x61#8, 0x62#8].length) ∧
    (∀ x ∈ wideTrie.trie.payload, x.1 <+: wideTrie.inBytes 0 4 → [0x61#8].length ≤ x.1.length) ∧
    (∀ e ∈ wideTrie.trie.payload, e.1 <+: wideTrie.inBytes 0 4) :=
  ⟨rfl, by decide +kernel, by decide +kernel, wide_unreadable, wide_readable (n := 4) (by omega),
    fun x hx h => wide_readable (n := 4) (by omega) x hx (by omega), by decide +kernel, wideTrie_inv.trie,
    by decide +kernel, by decide +kernel, by decide +kernel⟩

theorem witness_PtRemoveAndClear :
    wideTrie.status.fault = false ∧ ¬(47 + (2 : Word).toNat ≤ wideTrie.inLen.toNat) ∧
    46 + (2 : Word).toNat ≤ wideTrie.inLen.toNat ∧ wideTrie.LeastUnreadable 36 5 40 ∧ wideTrie.InReadable 0 3 ∧
    mapFind (wideTrie.inBytes 0 3) wideTrie.trie.payload = none ∧
    mapFind (wideTrie.inBytes 0 2) wideTrie.trie.payload ≠ none :=
  ⟨rfl, by decide +kernel, by decide +kernel, wide_unreadable, wide_readable (n := 3) (by omega), by decide +kernel,
    by decide +kernel⟩

theorem witness_PtKeysWritesTheKeysInOrder :
    wideTrie.status.fault = false ∧ wideTrie.TrieOk ∧
    (∀ k, k ∈ [[0x61#8], [0x61#8, 0x62#8]] ↔ mapFind k wideTrie.trie.payload ≠ none) ∧
    ([[0x61#8], [0x61#8, 0x62#8]]).Pairwise (fun x y => lexLt x y = true) ∧
    wideTrie.LeastUnwritable 30 11 40 ∧ wideTrie.OutWritable 29 11 := by
  refine ⟨rfl, wideTrie_inv.trie, fun k => ?_, by decide, ⟨by decide +kernel, fun y h h' => ?_⟩, .inr (by decide +kernel)⟩
  · simp only [Ne, mapFind_eq_none, Decidable.not_not]
    rfl
  · have : y < 64 ∧ y ≠ 40 ∧ y ≠ 50 := by omega
    simpa [wideTrie, wide, placed, base, tiny, State.resetOf] using this

/-- The small engine with IN "abcd" and a full frequency table. -/
def wideTable : State := { wide with ft := [([0x61], 1), ([0x62], 0xFFFFFFFE)] }

theorem wideTable_inv : wideTable.Inv := inv_of_checked (by decide +kernel) ⟨0, rfl⟩

theorem witness_FtSetAndClear :
    wideTable.status.fault = false ∧ ¬(47 + (2 : Word).toNat ≤ wideTable.inLen.toNat) ∧
    46 + (2 : Word).toNat ≤ wideTable.inLen.toNat ∧ wideTable.LeastUnreadable 36 5 40 ∧ wideTable.InReadable 0 4 ∧
    (1 : Word) ≠ 0 ∧ mapFind (wideTable.inBytes 0 2) wideTable.ft = none ∧ wideTable.cfg.ftMax ≤ wideTable.ft.length ∧
    mapFind (wideTable.inBytes 0 1) wideTable.ft ≠ none ∧ base.ft.length < base.cfg.ftMax :=
  ⟨rfl, by decide +kernel, by decide +kernel, wide_unreadable, wide_readable (n := 4) (by omega), by decide,
    by decide +kernel, by decide +kernel, by decide +kernel, by decide +kernel⟩

theorem witness_HtLeafAllocatesAndQueues :
    base.status.fault = false ∧ (0 : Word) = 0 ∧ (1 : Word) ≠ 0 ∧
    ¬({ base with nextHandle := 0xFFFFFFFF } : State).nextHandle < 0xFFFFFFFF ∧
    (twoLeavesQueued.nodes.length < twoLeavesQueued.cfg.nodeMax ∧ twoLeavesQueued.nextHandle < 0xFFFFFFFF) ∧
    twoLeavesQueued.cfg.pqMaxCap ≤ twoLeavesQueued.pq.entries.length ∧
    oneQueued.pq.entries.length < oneQueued.cfg.pqMaxCap ∧
    ({ oneQueued with nextHandle := 0xFFFFFFFE } : State).nextHandle < 0xFFFFFFFF := by decide +kernel

/-- The small engine with the other comparator. -/
def maxFirst : State := { base with pqOrder := .maxFirst }

theorem maxFirst_inv : maxFirst.Inv := inv_of_checked (by decide +kernel) ⟨0, rfl⟩

theorem witness_HtMergeJoinsTheTwoFirstItems :
    twoLeavesQueued.status.fault = false ∧ twoLeavesQueued.QueueOk ∧
    maxFirst.QueueOk ∧ base.QueueOk ∧ base.pq.entries.length < 2 ∧
    (let s := twoLeavesQueued;
      QueueTop .minFirst s.pq.entries ⟨1, 0, 0⟩ ∧ QueueTop .minFirst (s.pq.entries.erase ⟨1, 0, 0⟩) ⟨0xFFFFFFFE, 1, 1⟩ ∧
      (NodeMap.live s.nodes 0 = true ∧ NodeMap.live s.nodes 1 = true ∧ (0 : Word) ≠ 1 ∧
        ∀ e ∈ s.nodes, (0 : Word) ∉ e.2.children ∧ (1 : Word) ∉ e.2.children) ∧
      (1 : Word).toNat + (0xFFFFFFFE : Word).toNat < 2 ^ 32 ∧ 2 ^ 32 ≤ (2 : Word).toNat + (0xFFFFFFFE : Word).toNat ∧
      s.nodes.length < s.cfg.nodeMax ∧ s.nextHandle < 0xFFFFFFFF) ∧
    (QueueTop .minFirst queueFull.pq.entries ⟨3, 0, 8⟩ ∧
      QueueTop .minFirst (queueFull.pq.entries.erase ⟨3, 0, 8⟩) ⟨3, 1, 9⟩ ∧ ¬NodeMap.live queueFull.nodes 8 = true) ∧
    ¬({ twoLeavesQueued with nextHandle := 0xFFFFFFFF } : State).nextHandle < 0xFFFFFFFF := by
  refine ⟨rfl, twoLeavesQueued_inv.queue, maxFirst_inv.queue, base_inv.queue, by decide, ⟨?_, ?_, ?_⟩, ⟨?_, ?_, ?_⟩, by decide⟩
  · unfold QueueTop; decide +kernel
  · unfold QueueTop; decide +kernel
  · decide +kernel
  · unfold QueueTop; decide +kernel
  · unfold QueueTop; decide +kernel
  · decide +kernel

/-- The small engine with the tree of V-DES1 at ROOT. -/
def small : State := { base with nodes := twoLeaves 0x61 0x62, nextHandle := 3, root := 2 }

theorem small_inv : small.Inv := inv_of_checked (by decide +kernel) ⟨0, rfl⟩

/-- The tree of V-DES1. -/
def treeAb : Machine.Tree := .node (.leaf 0x61) (.leaf 0x62)

theorem small_rootTree : small.rootTree = some treeAb := by decide +kernel

theorem witness_HtNodeReadsAndHtFreeReleases :
    small.status.fault = false ∧ mapFind 3 small.nodes = none ∧ mapFind 0 small.nodes = some (.leaf 0x61 0) ∧
    mapFind 2 small.nodes = some (.internal 0 1 0) ∧ mapFind 2 small.nodes ≠ none ∧ small.NodesOk :=
  ⟨rfl, by decide +kernel, by decide +kernel, by decide +kernel, by decide +kernel, small_inv.nodes⟩

theorem witness_RootTreeIsTheWellFormedTree : small.NodesOk ∧ small.rootTree = some treeAb :=
  ⟨small_inv.nodes, small_rootTree⟩

theorem witness_HandlesAreNeverReusedNorNodesChanged :
    Instr.htFree 0 ≠ .sysReset ∧ exec (.htFree 0) small = .next (after (.htFree 0) small) ∧
    (2 : Word).toNat < small.nextHandle ∧ mapFind 2 (after (.htFree 0) small).nodes = some (.internal 0 1 0) :=
  ⟨by decide, exec_after _ _, by decide, by decide +kernel⟩

/-- The small engine at the bounds of HT.BUILD: two symbols, the greatest sum of counts, the last handles. -/
def buildEdge : State := { wideTable with nextHandle := 0xFFFFFFFC }

theorem buildEdge_inv : buildEdge.Inv := inv_of_checked (by decide +kernel) ⟨0, rfl⟩

/-- The same with a symbol of two bytes. -/
def longKey : State := { base with ft := [([0x61, 0x62], 1)] }

theorem longKey_inv : longKey.Inv := inv_of_checked (by decide +kernel) ⟨0, rfl⟩

/-- The small engine with one leaf in the store that no register names, two symbols and the last but one handle. -/
def buildNoRoom : State := { wideTable with nodes := [(0, .leaf 0x61 1)], nextHandle := 1 }

theorem buildNoRoom_inv : buildNoRoom.Inv := inv_of_checked (by decide +kernel) ⟨0, rfl⟩

/-- The small engine whose two counts sum to 2^32. -/
def buildBigSum : State := { buildEdge with ft := [([0x61], 1), ([0x62], 0xFFFFFFFF)] }

theorem buildBigSum_inv : buildBigSum.Inv := inv_of_checked (by decide +kernel) ⟨0, rfl⟩

/-- The small engine with a queue of at most one item and two symbols. -/
def buildNoQueue : State := { wideTable with cfg := { tiny with pqMaxCap := 1 } }

theorem buildNoQueue_inv : buildNoQueue.Inv := inv_of_checked (by decide +kernel) ⟨0, rfl⟩

/-- With no item queued and no tree nothing is freed. -/
theorem nothing_freed {s : State} (h : s.NodesOk) (hq : s.pq.entries = []) (hr : s.root = nullHandle) :
    s.LeftAfterFreeing (s.queuedHandles ++ [s.root]) s.nodes :=
  .of_null h (by simp [State.queuedHandles, hq, hr])

theorem witness_HtBuildBuildsTheTreeOfTheTable :
    (buildEdge.status.fault = false ∧ buildEdge.cfg.wellFormed = true ∧ buildEdge.NodesOk ∧ buildEdge.TablesOk ∧
      buildEdge.LeftAfterFreeing (buildEdge.queuedHandles ++ [buildEdge.root]) buildEdge.nodes) ∧
    (longKey.NodesOk ∧ longKey.TablesOk ∧ longKey.LeftAfterFreeing (longKey.queuedHandles ++ [longKey.root]) longKey.nodes ∧
      ¬(longKey.mode = .char → ∀ k ∈ longKey.ft.map Prod.fst, k.length = 1)) ∧
    (base.NodesOk ∧ base.TablesOk ∧ base.LeftAfterFreeing (base.queuedHandles ++ [base.root]) base.nodes ∧ base.ft = []) ∧
    (let s := buildNoRoom;
      s.NodesOk ∧ s.TablesOk ∧ s.LeftAfterFreeing (s.queuedHandles ++ [s.root]) s.nodes ∧ 2 < 2 * s.ft.length - 1 ∧
      s.ft.length ≤ 2 ∧ s.ft.length ≤ s.cfg.pqMaxCap ∧ (s.ft.map fun e => e.2.toNat).sum < 2 ^ 32 ∧
      s.nextHandle + 2 ≤ 0xFFFFFFFF ∧ s.nodes.length + 2 = s.cfg.nodeMax) ∧
    (let s : State := { buildEdge with nextHandle := 0xFFFFFFFE };
      1 < s.ft.length ∧ 1 ≤ s.cfg.pqMaxCap ∧ s.nodes.length + 1 ≤ s.cfg.nodeMax ∧ s.nextHandle + 1 = 0xFFFFFFFF) ∧
    (let s := buildNoQueue;
      s.NodesOk ∧ s.TablesOk ∧ s.cfg.wellFormed = true ∧ s.LeftAfterFreeing (s.queuedHandles ++ [s.root]) s.nodes ∧
      s.cfg.pqMaxCap < s.ft.length ∧ s.nodes.length + s.cfg.pqMaxCap < s.cfg.nodeMax ∧
      s.nextHandle + s.cfg.pqMaxCap < 0xFFFFFFFF) ∧
    (buildBigSum.NodesOk ∧ buildBigSum.TablesOk ∧
      buildBigSum.LeftAfterFreeing (buildBigSum.queuedHandles ++ [buildBigSum.root]) buildBigSum.nodes ∧
      2 ^ 32 ≤ (buildBigSum.ft.map fun e => e.2.toNat).sum) ∧
    (buildEdge.ft ≠ [] ∧ (∀ k ∈ buildEdge.ft.map Prod.fst, k.length = 1) ∧
      buildEdge.ft.length ≤ buildEdge.cfg.pqMaxCap ∧
      buildEdge.nodes.length + (2 * buildEdge.ft.length - 1) ≤ buildEdge.cfg.nodeMax ∧
      buildEdge.nextHandle + (2 * buildEdge.ft.length - 1) ≤ 0xFFFFFFFF ∧
      (buildEdge.ft.map fun e => e.2.toNat).sum < 2 ^ 32) :=
  ⟨⟨rfl, buildEdge_inv.config, buildEdge_inv.nodes, buildEdge_inv.tables, nothing_freed buildEdge_inv.nodes rfl rfl⟩,
    ⟨longKey_inv.nodes, longKey_inv.tables, nothing_freed longKey_inv.nodes rfl rfl, by decide +kernel⟩,
    ⟨base_inv.nodes, base_inv.tables, nothing_freed base_inv.nodes rfl rfl, rfl⟩,
    ⟨buildNoRoom_inv.nodes, buildNoRoom_inv.tables, nothing_freed buildNoRoom_inv.nodes rfl rfl, by decide +kernel⟩,
    by decide +kernel,
    ⟨buildNoQueue_inv.nodes, buildNoQueue_inv.tables, buildNoQueue_inv.config, nothing_freed buildNoQueue_inv.nodes rfl rfl,
      by decide +kernel⟩,
    ⟨buildBigSum_inv.nodes, buildBigSum_inv.tables, nothing_freed buildBigSum_inv.nodes rfl rfl, by decide +kernel⟩,
    by decide +kernel⟩

theorem witness_HtBuildIsLeavesMergesAndExtract :
    (buildEdge.Inv ∧ buildEdge.status.fault = false ∧ buildEdge.pq.entries = [] ∧ buildEdge.pqOrder = .minFirst ∧
      buildEdge.root = 0xFFFFFFFF ∧ buildEdge.ft ≠ [] ∧ exec .htBuild buildEdge = .next (after .htBuild buildEdge) ∧
      (after .htBuild buildEdge).status.fault = false) ∧
    (buildBigSum.Inv ∧ buildBigSum.status.fault = false ∧ buildBigSum.pq.entries = [] ∧ buildBigSum.pqOrder = .minFirst ∧
      buildBigSum.root = 0xFFFFFFFF ∧ buildBigSum.ft ≠ [] ∧
      exec .htBuild buildBigSum = .next (after .htBuild buildBigSum) ∧ (after .htBuild buildBigSum).err = 7) :=
  ⟨⟨buildEdge_inv, rfl, rfl, rfl, rfl, by decide, exec_after _ _, by decide +kernel⟩,
    ⟨buildBigSum_inv, rfl, rfl, rfl, rfl, by decide, exec_after _ _, by decide +kernel⟩⟩

theorem witness_HtSerWritesTheTree :
    small.status.fault = false ∧ base.rootTree = none ∧ small.rootTree = some treeAb ∧
    ({ base with nodes := [(0, .leaf 256 1)], nextHandle := 1, root := 0 } : State).rootTree = some (.leaf 256) ∧
    ¬(256 : Word).toNat ≤ 255 ∧ (∀ x ∈ treeAb.syms, x.toNat ≤ 255) ∧ (treeAb.ser .char).length = 19 ∧
    ({ small with cfg := { tiny with bbMaxBits := 18 } } : State).rootTree = some treeAb ∧ 19 ≤ small.cfg.bbMaxBits ∧
    small.LeastUnwritable 38 3 40 ∧ small.LeastUnwritable 62 3 64 ∧ small.OutWritable 37 3 ∧ small.OutWritable 61 3 := by
  refine ⟨rfl, by decide +kernel, by decide +kernel, by decide +kernel, by decide, forall_of_all (by decide +kernel),
    by decide +kernel, by decide +kernel, by decide, ⟨by decide +kernel, fun y h h' => ?_⟩, ⟨by decide +kernel, fun y h h' => ?_⟩,
    .inr (by decide +kernel), .inr (by decide +kernel)⟩
  · have : y < 64 ∧ y ≠ 40 ∧ y ≠ 50 := by omega
    simpa [small, base, tiny, State.resetOf] using this
  · have : y < 64 ∧ y ≠ 40 ∧ y ≠ 50 := by omega
    simpa [small, base, tiny, State.resetOf] using this

/-- The small engine with the tree bytes of V-DES1 in IN, at the bounds of the node store. -/
def deserEdge : State := { placed [0x86, 0x15, 0x03] with nextHandle := 0xFFFFFFFC }

theorem deserEdge_inv : deserEdge.Inv := inv_of_checked (by decide +kernel) ⟨0, rfl⟩

theorem deserEdge_readable : deserEdge.InReadable 0 3 := by unfold State.InReadable; decide +kernel

/-- With no tree nothing is freed. -/
theorem no_tree_freed {s : State} (h : s.NodesOk) (hr : s.root = nullHandle) : s.LeftAfterFreeing [s.root] s.nodes :=
  .of_null h (by simp [hr])

/-- The small engine in WORD mode with no words and the bits of a tree whose right leaf is word 0. -/
def deserNoWord : State := { placed [0x02, 0, 0, 0, 0, 0] with mode := .word }

theorem deserNoWord_inv : deserNoWord.Inv := inv_of_checked (by decide +kernel) ⟨0, rfl⟩

/-- The small engine with room for one node and the tree bytes of V-DES1 in IN. -/
def deserNoRoom : State := { deserEdge with nodes := [(0, .leaf 0x61 0), (1, .leaf 0x62 0)] }

theorem deserNoRoom_inv : deserNoRoom.Inv := inv_of_checked (by decide +kernel) ⟨0, rfl⟩

theorem witness_HtDeserReadsTheTreeBack :
    (deserEdge.status.fault = false ∧ deserEdge.NodesOk ∧ deserEdge.LeftAfterFreeing [deserEdge.root] deserEdge.nodes) ∧
    (¬((0 : Word).toNat ≤ (4 : Word).toNat ∧ (4 : Word).toNat ≤ deserEdge.inLen.toNat)) ∧
    (wide.NodesOk ∧ wide.LeftAfterFreeing [wide.root] wide.nodes ∧ (36 : Word).toNat ≤ (41 : Word).toNat ∧
      (41 : Word).toNat ≤ wide.inLen.toNat ∧ wide.LeastUnreadable 36 5 40) ∧
    (let s := deserNoRoom;
      s.NodesOk ∧ s.LeftAfterFreeing [s.root] s.nodes ∧ s.InReadable 0 3 ∧ treeOpen [.inner] = true ∧
      unpack (s.inBytes 0 3) = [TreeToken.inner].flatMap (TreeToken.bits s.mode) ++ (unpack (s.inBytes 0 3)).drop 1 ∧
      s.nextHandle + 1 ≤ 0xFFFFFFFF ∧ s.nodes.length + 1 = s.cfg.nodeMax) ∧
    (let s := deserEdge;
      s.InReadable 0 2 ∧ treeOpen [.inner, .leaf 0x61] = true ∧ symbolFits s.mode s.symtab 0x61 ∧
      unpack (s.inBytes 0 2) = [TreeToken.inner, .leaf 0x61].flatMap (TreeToken.bits s.mode) ++
        true :: [false, true, false, false, false] ∧
      [false, true, false, false, false].length < symWidth s.mode ∧ s.nextHandle + 2 ≤ 0xFFFFFFFF ∧
      s.nodes.length + 2 < s.cfg.nodeMax) ∧
    (let s := deserNoWord;
      s.NodesOk ∧ s.LeftAfterFreeing [s.root] s.nodes ∧ s.InReadable 0 6 ∧ treeOpen [.inner] = true ∧ s.mode = .word ∧
      unpack (s.inBytes 0 6) = [TreeToken.inner].flatMap (TreeToken.bits s.mode) ++
        ((TreeToken.leaf 0).bits s.mode ++ List.replicate 14 false) ∧
      s.symtab.length ≤ (0 : Word).toNat ∧ s.nextHandle + 1 ≤ 0xFFFFFFFF ∧ s.nodes.length + 1 < s.cfg.nodeMax) ∧
    (deserEdge.InReadable 0 0 ∧ ∀ T : Machine.Tree, ¬T.ser deserEdge.mode <+: unpack (deserEdge.inBytes 0 0)) ∧
    (deserEdge.InReadable 0 3 ∧ (∀ x ∈ treeAb.syms, symbolFits deserEdge.mode deserEdge.symtab x) ∧
      treeAb.ser deserEdge.mode <+: unpack (deserEdge.inBytes 0 3) ∧
      deserEdge.nodes.length + treeAb.size ≤ deserEdge.cfg.nodeMax ∧
      deserEdge.nextHandle + treeAb.size ≤ 0xFFFFFFFF ∧ 0xFFFFFFFF < (0xFFFFFFFD + treeAb.size)) := by
  refine ⟨⟨rfl, deserEdge_inv.nodes, no_tree_freed deserEdge_inv.nodes rfl⟩, by decide +kernel,
    ⟨wide_inv.nodes, no_tree_freed wide_inv.nodes rfl, by decide, by decide +kernel, wide_unreadable⟩,
    ⟨deserNoRoom_inv.nodes, no_tree_freed deserNoRoom_inv.nodes rfl, by unfold State.InReadable; decide +kernel, by decide +kernel⟩,
    ⟨by unfold State.InReadable; decide +kernel, by decide +kernel, show (0x61 : Word).toNat ≤ 255 by decide, by decide +kernel⟩,
    ⟨deserNoWord_inv.nodes, no_tree_freed deserNoWord_inv.nodes rfl, by unfold State.InReadable; decide +kernel, by decide +kernel⟩,
    ⟨by unfold State.InReadable; decide +kernel, fun T => ?_⟩,
    ⟨deserEdge_readable, forall_of_all (p := fun x : Word => x.toNat ≤ 255) (by decide +kernel), by decide +kernel, by decide +kernel, by decide +kernel, by decide +kernel⟩⟩
  have : unpack (deserEdge.inBytes 0 0) = [] := by decide +kernel
  rw [this]
  cases T <;> simp [Tree.ser]

theorem witness_TreeFormatRoundTrip :
    small.Inv ∧ small.status.fault = false ∧ small.rootTree = some treeAb ∧
    exec (.htSer 61) small = .next (after (.htSer 61) small) ∧ (after (.htSer 61) small).status.fault = false ∧
    deserEdge.Inv ∧ deserEdge.status.fault = false ∧ deserEdge.mode = small.mode ∧
    (∀ x ∈ treeAb.syms, symbolFits deserEdge.mode deserEdge.symtab x) ∧
    0 + (after (.htSer 61) small).res.r0.toNat ≤ deserEdge.inLen.toNat ∧
    deserEdge.InReadable 0 (after (.htSer 61) small).res.r0.toNat ∧
    (∀ k, k < (after (.htSer 61) small).res.r0.toNat → deserEdge.inByte (0 + k) = (after (.htSer 61) small).outByte (61 + k)) ∧
    deserEdge.nodes.length + treeAb.size ≤ deserEdge.cfg.nodeMax ∧ deserEdge.nextHandle + treeAb.size ≤ 0xFFFFFFFF :=
  ⟨small_inv, rfl, small_rootTree, exec_after _ _, by decide +kernel, deserEdge_inv, rfl, rfl,
    forall_of_all (p := fun x : Word => x.toNat ≤ 255) (by decide +kernel), by decide +kernel, by unfold State.InReadable; decide +kernel,
    by decide +kernel, by decide +kernel, by decide +kernel⟩

theorem witness_CtGenDerivesTheCodes :
    base.status.fault = false ∧ base.rootTree = none ∧ small.rootTree = some treeAb ∧ small.mode = .char ∧
    (∀ e ∈ treeAb.codes, e.2.length ≤ 1) ∧ ∃ e ∈ treeAb.codes, e.2.length = 1 := by decide +kernel

/-- The small engine in WORD mode with a tree and a symbol table. -/
def wordTree (list : List Bytes) : State :=
  { base with mode := .word, nodes := twoLeaves 0 1, nextHandle := 3, root := 2, symtab := list }

/-- Two words whose prefixes fill the trie. -/
def words3 : List Bytes := [[0x61], [0x62, 0x63]]

/-- Two words whose prefixes are one more than the trie holds. -/
def words4 : List Bytes := [[0x61], [0x62, 0x63, 0x64]]

theorem wordTree_inv : (wordTree words3).Inv ∧ (wordTree words4).Inv :=
  ⟨inv_of_checked (by decide +kernel) ⟨0, rfl⟩, inv_of_checked (by decide +kernel) ⟨0, rfl⟩⟩

/-- The small engine in WORD mode with the two words loaded and the tree that `wordTree` serializes to in IN. -/
def wordBytes : State := { placed [0x02, 0, 0, 0, 0x0C, 0, 0, 0, 0] with mode := .word, symtab := words3 }

theorem wordBytes_inv : wordBytes.Inv := inv_of_checked (by decide +kernel) ⟨0, rfl⟩

theorem witness_TreeFormatRoundTrip_codes :
    (exec .ctGen small = .next (after .ctGen small) ∧
      exec .ctGen (after (.htDeser 0 3) deserEdge) = .next (after .ctGen (after (.htDeser 0 3) deserEdge)) ∧
      (after .ctGen small).status.fault = false ∧ (after .ctGen (after (.htDeser 0 3) deserEdge)).status.fault = false) ∧
    (let s := wordTree words3;
      s.Inv ∧ s.rootTree = some (.node (.leaf 0) (.leaf 1)) ∧ exec (.htSer 0) s = .next (after (.htSer 0) s) ∧
      (after (.htSer 0) s).status.fault = false ∧ wordBytes.Inv ∧ wordBytes.mode = s.mode ∧
      (after (.htSer 0) s).res.r0.toNat = wordBytes.inLen.toNat ∧ wordBytes.InReadable 0 9 ∧
      (∀ k, k < 9 → wordBytes.inByte (0 + k) = (after (.htSer 0) s).outByte (0 + k)) ∧
      exec .ctGen s = .next (after .ctGen s) ∧
      exec .ctGen (after (.htDeser 0 9) wordBytes) = .next (after .ctGen (after (.htDeser 0 9) wordBytes)) ∧
      (after .ctGen s).status.fault = false ∧ (after .ctGen (after (.htDeser 0 9) wordBytes)).status.fault = false) :=
  ⟨⟨exec_after _ _, exec_after _ _, by decide +kernel, by decide +kernel⟩,
    ⟨wordTree_inv.1, by decide +kernel, exec_after _ _, by decide +kernel, wordBytes_inv, rfl, by decide +kernel,
      by unfold State.InReadable; decide +kernel, by decide +kernel, exec_after _ _, exec_after _ _, by decide +kernel,
      by decide +kernel⟩⟩

theorem witness_CtGenLoadsTheTrie :
    (let T := Machine.Tree.node (.leaf 0) (.leaf 1);
      (∀ e ∈ T.codes, e.2.length ≤ 1) ∧ ∃ e ∈ T.codes, e.2.length = 1) ∧
    ((wordTree words4).status.fault = false ∧ (wordTree words4).TablesOk ∧
      (wordTree words4).rootTree = some (.node (.leaf 0) (.leaf 1)) ∧
      [[0x61#8]].Nodup ∧ (∀ w ∈ words4.take 1, ∀ p, p ≠ [] → p <+: w → p ∈ [[0x61#8]]) ∧
      (∀ p ∈ [[0x61#8]], p ≠ [] ∧ ∃ w ∈ words4.take 1, p <+: w) ∧ 1 ≤ (wordTree words4).cfg.trieMax ∧
      ∀ ps : List Bytes, (∀ w ∈ words4.take 2, ∀ p, p ≠ [] → p <+: w → p ∈ ps) → (wordTree words4).cfg.trieMax < ps.length) ∧
    ((wordTree words3).TablesOk ∧ (wordTree words3).rootTree = some (.node (.leaf 0) (.leaf 1)) ∧
      ∃ ps : List Bytes, (∀ w ∈ words3, ∀ p, p ≠ [] → p <+: w → p ∈ ps) ∧ ps.length ≤ (wordTree words3).cfg.trieMax) ∧
    (words3[1]? = some [0x62, 0x63] ∧ [0x62] ∉ words3) := by
  refine ⟨by decide +kernel, ⟨rfl, wordTree_inv.2.tables, by decide +kernel, by decide, fun w hw p hp hpw => ?_, ?_, by decide, fun ps h => ?_⟩,
    ⟨wordTree_inv.1.tables, by decide +kernel, [[0x61], [0x62], [0x62, 0x63]], ?_, by decide⟩, by decide⟩
  · have : p ∈ w.inits := (List.mem_inits p w).2 hpw
    simp only [words4, List.take_succ_cons, List.take_zero, List.mem_cons, List.not_mem_nil, or_false] at hw
    subst hw
    simp [List.inits] at this ⊢
    tauto
  · intro p hp
    simp only [List.mem_cons, List.not_mem_nil, or_false] at hp
    subst hp
    exact ⟨by decide, [0x61], by decide, List.prefix_refl _⟩
  · have hsub : [[0x61#8], [0x62#8], [0x62#8, 0x63#8], [0x62#8, 0x63#8, 0x64#8]] ⊆ ps := by
      intro p hp
      simp only [List.mem_cons, List.not_mem_nil, or_false] at hp
      rcases hp with rfl | rfl | rfl | rfl
      · exact h [0x61] (by decide) _ (by decide) (by decide)
      · exact h [0x62, 0x63, 0x64] (by decide) _ (by decide) (by decide)
      · exact h [0x62, 0x63, 0x64] (by decide) _ (by decide) (by decide)
      · exact h [0x62, 0x63, 0x64] (by decide) _ (by decide) (by decide)
    have := (List.subperm_of_subset (by decide) hsub).length_le
    exact this
  · intro w hw p hp hpw
    have : p ∈ w.inits := (List.mem_inits p w).2 hpw
    simp only [words3, List.mem_cons, List.not_mem_nil, or_false] at hw
    rcases hw with rfl | rfl <;> simp [List.inits] at this ⊢ <;> tauto

theorem witness_CodesArePrefixFreeAndComplete :
    2 ≤ treeAb.syms.length ∧ treeAb.syms.Nodup ∧ ∀ e ∈ treeAb.codes, e.2.length ≤ 1 := by decide +kernel

theorem witness_CtGetAndCtStstore :
    (let s : State := { wordTree words3 with code := [(0, [false]), (1, [true])] };
      s.status.fault = false ∧ s.cfg.nb ≤ (4 : Word).toNat ∧ (3 : Word).toNat < s.cfg.nb ∧ mapFind 2 s.code = none ∧
      mapFind 1 s.code = some [true] ∧ s.symtab.flatMap (fun w => u32le (word w.length) ++ w) =
        [1, 0, 0, 0, 0x61, 2, 0, 0, 0, 0x62, 0x63]) ∧
    base.LeastUnwritable 30 11 40 ∧ base.OutWritable 29 11 := by
  refine ⟨by decide +kernel, ⟨by decide +kernel, fun y h h' => ?_⟩, .inr (by decide +kernel)⟩
  have : y < 64 ∧ y ≠ 40 ∧ y ≠ 50 := by omega
  simpa [base, tiny, State.resetOf] using this

/-- The small engine with the entry of one byte at IN address 35, so that a prefix lies at the unreadable address 40. -/
def tableEdge : State := { wide with inMem := ⟨[(35, 1), (36, 0), (37, 0), (38, 0), (39, 0x61)], 0⟩ }

theorem witness_CtStloadReadsExactlyTheTables :
    (let s := placed [1, 0, 0, 0, 0x61, 2, 0, 0, 0, 0x62, 0x63];
      s.status.fault = false ∧ ¬((0 : Word).toNat ≤ (12 : Word).toNat ∧ (12 : Word).toNat ≤ s.inLen.toNat) ∧
      (11 : Word).toNat ≤ s.inLen.toNat ∧ s.InReadable 0 11 ∧ (∀ w ∈ words3, w ≠ []) ∧
      s.inBytes 0 11 = words3.flatMap (fun w => u32le (word w.length) ++ w) ∧
      s.inBytes 0 8 = [[0x61#8]].flatMap (fun w => u32le (word w.length) ++ w) ++ [2, 0, 0] ∧ s.InReadable 0 5 ∧
      s.inBytes 0 10 = [[0x61#8]].flatMap (fun w => u32le (word w.length) ++ w) ++ [2, 0, 0, 0, 0x62] ∧
      s.InReadable 0 (5 + 4) ∧ [2#8, 0, 0, 0, 0x62].length < 4 + (le32 [2, 0, 0, 0]).toNat) ∧
    (let s := placed [0, 0, 0, 0];
      s.InReadable 0 4 ∧ (le32 ((s.inBytes 0 4).take 4)).toNat = 0 ∧ ∀ list : List Bytes, (∀ w ∈ list, w ≠ []) →
        s.inBytes 0 4 ≠ list.flatMap fun w => u32le (word w.length) ++ w) ∧
    (let s := tableEdge;
      s.status.fault = false ∧ (44 : Word).toNat ≤ s.inLen.toNat ∧ s.LeastUnreadable 35 9 40 ∧
      s.inBytes 35 9 = [[0x61#8]].flatMap (fun w => u32le (word w.length) ++ w) ++ s.inBytes 40 4 ∧
      35 + ([[0x61#8]].flatMap fun w => u32le (word w.length) ++ w).length = 40 ∧ (s.inBytes 40 4).length = 4) ∧
    (let s : State := { wide with inMem := ⟨[(36, 1), (37, 0), (38, 0), (39, 0)], 0⟩ };
      s.LeastUnreadable 36 5 40 ∧ (s.inBytes 36 5).take 4 = [1, 0, 0, 0] ∧ (s.inBytes 36 5).length = 5 ∧ 40 < 36 + 4 + 1) := by
  refine ⟨⟨rfl, by decide +kernel, by decide +kernel, by unfold State.InReadable; decide +kernel, by decide,
    by decide +kernel, by decide +kernel, by unfold State.InReadable; decide +kernel, by decide +kernel,
    by unfold State.InReadable; decide +kernel, by decide +kernel⟩,
    ⟨by unfold State.InReadable; decide +kernel, by decide +kernel, fun list h e => ?_⟩,
    ⟨rfl, by decide +kernel, ⟨by decide +kernel, by decide +kernel⟩, rfl, by decide +kernel, rfl⟩,
    ⟨⟨by decide +kernel, by decide +kernel⟩, rfl, rfl, by decide⟩⟩
  have hl := congrArg List.length e
  cases list with
  | nil => simp at hl
  | cons w rest =>
    have hw : w.length ≠ 0 := by simpa using h w (by simp)
    have h4 : (u32le (word w.length)).length = 4 := rfl
    simp only [inBytes_length, List.flatMap_cons, List.length_append, h4] at hl
    omega

/-- The small engine ready to encode "ab", with a third symbol that has no code. -/
def encReady : State := { placed [0x61, 0x62, 0x63] with code := [(0x61, [false]), (0x62, [true])] }

theorem encReady_inv : encReady.Inv := inv_of_checked (by decide +kernel) ⟨0, rfl⟩

/-- The small engine ready to encode words. -/
def encWords : State := { placed [0x61, 0x62, 0x61, 0x63] with mode := .word, trie := trieAb, code := [(1, [false]), (2, [true])] }

theorem encWords_inv : encWords.Inv := inv_of_checked (by decide +kernel) ⟨0, rfl⟩

theorem witness_CdEpassAppendsTheCodes :
    (encReady.status.fault = false ∧ encReady.cfg.wellFormed = true ∧ encReady.BuffersOk ∧ encReady.TrieOk) ∧
    ¬((0 : Word).toNat ≤ (4 : Word).toNat ∧ (4 : Word).toNat ≤ encReady.inLen.toNat) ∧
    (wide.BuffersOk ∧ wide.TrieOk ∧ (36 : Word).toNat ≤ (41 : Word).toNat ∧ (41 : Word).toNat ≤ wide.inLen.toNat ∧
      wide.LeastUnreadable 36 5 40) ∧
    (encReady.InReadable 0 2 ∧ encReady.Tokens (encReady.inBytes 0 2) [0x61, 0x62] [] ∧
      List.Forall₂ (fun id c => mapFind id encReady.code = some c) [0x61, 0x62] [[false], [true]]) ∧
    (encReady.InReadable 0 3 ∧ encReady.Tokens (encReady.inBytes 0 3) [0x61, 0x62] [0x63] ∧
      ∀ id n, encReady.SymbolAt [0x63] id n → mapFind id encReady.code = none) ∧
    (encWords.BuffersOk ∧ encWords.TrieOk ∧ encWords.InReadable 0 4 ∧
      encWords.Tokens (encWords.inBytes 0 4) [2, 1] [0x63] ∧
      List.Forall₂ (fun id c => mapFind id encWords.code = some c) [2, 1] [[true], [false]] ∧
      ∀ id n, encWords.SymbolAt [0x63] id n → mapFind id encWords.code = none) := by
  have e2 : encReady.inBytes 0 2 = [0x61, 0x62] := by decide +kernel
  have e3 : encReady.inBytes 0 3 = [0x61, 0x62, 0x63] := by decide +kernel
  have e4 : encWords.inBytes 0 4 = [0x61, 0x62, 0x61, 0x63] := by decide +kernel
  refine ⟨⟨rfl, encReady_inv.config, encReady_inv.buffers, encReady_inv.trie⟩, by decide +kernel,
    ⟨wide_inv.buffers, wide_inv.trie, by decide, by decide +kernel, wide_unreadable⟩,
    ⟨by unfold State.InReadable; decide +kernel, ?_, .cons (by decide +kernel) (.cons (by decide +kernel) .nil)⟩,
    ⟨by unfold State.InReadable; decide +kernel, ?_, ?_⟩,
    ⟨encWords_inv.buffers, encWords_inv.trie, by unfold State.InReadable; decide +kernel, ?_,
      .cons (by decide +kernel) (.cons (by decide +kernel) .nil), ?_⟩⟩
  · rw [e2]
    exact .symbol ⟨_, _, rfl, rfl, rfl⟩ (.symbol ⟨_, _, rfl, rfl, rfl⟩ (.done _))
  · rw [e3]
    exact .symbol ⟨_, _, rfl, rfl, rfl⟩ (.symbol ⟨_, _, rfl, rfl, rfl⟩ (.done _))
  · rintro id n ⟨b, rest, hb, rfl, -⟩
    cases hb
    decide +kernel
  · rw [e4]
    refine .symbol (n := 2) ⟨[0x61, 0x62], by decide +kernel, by decide +kernel, rfl, by decide +kernel⟩
      (.symbol (n := 1) ⟨[0x61], by decide +kernel, by decide +kernel, rfl, by decide +kernel⟩ (.done _))
  · rintro id n ⟨key, hk, hp, -⟩
    have : ∀ e ∈ encWords.trie.payload, ¬e.1 <+: [0x63#8] := by decide +kernel
    exact absurd hp (this _ hk)

/-- The small engine ready to decode: the tree of V-DES1 at ROOT, one payload byte in IN, OUT nearly up to a failing
address. -/
def decReady (payload : Nat) : State := { small with inMem := (input [payload]).inMem, inLen := 1, outLen := 38 }

/-- The same with OUT_LEN 0 and eight bits 0 to read. -/
def decLow : State := { decReady 0 with outLen := 0 }

/-- The same with a single leaf at ROOT. -/
def decLeaf : State := { decReady 4 with nodes := [(0, .leaf 0x61 0)], nextHandle := 1, root := 0 }

theorem decReady_inv : (decReady 2).Inv ∧ decLow.Inv ∧ decLeaf.Inv :=
  ⟨inv_of_checked (by decide +kernel) ⟨0, rfl⟩, inv_of_checked (by decide +kernel) ⟨0, rfl⟩,
    inv_of_checked (by decide +kernel) ⟨0, rfl⟩⟩

theorem witness_CdDpassInvertsTheCodes :
    ((decReady 2).status.fault = false ∧ (decReady 2).cfg.wellFormed = true ∧ (decReady 2).NodesOk) ∧
    ¬((0 : Word).toNat ≤ (2 : Word).toNat ∧ (2 : Word).toNat ≤ (decReady 2).inLen.toNat) ∧
    (base.NodesOk ∧ base.root = 0xFFFFFFFF) ∧
    ((decReady 2).InReadable 0 1 ∧ (decReady 2).rootTree = some treeAb ∧
      List.Forall₂ (fun id c => (id, c) ∈ treeAb.codes) [0x61, 0x62] [[false], [true]] ∧
      List.Forall₂ (fun id v => (decReady 2).symbolBytes id = some v) [0x61, 0x62] [[0x61], [0x62]] ∧
      unpack ((decReady 2).inBytes 0 1) = [false, true] ++ [false, false, false, false, false, false] ∧
      (decReady 2).OutWritable (decReady 2).outLen.toNat 2 ∧ (2 : Word).toNat = 2) ∧
    (let s := decLow;
      s.NodesOk ∧ s.rootTree = some treeAb ∧ unpack (s.inBytes 0 1) = List.replicate 8 false ++ [] ∧
      List.Forall₂ (fun id c => (id, c) ∈ treeAb.codes) (List.replicate 8 0x61) (List.replicate 8 [false]) ∧
      (8 < (9 : Word).toNat ∧ (0x61, [false]) ∈ treeAb.codes ∧ [] <+: [false] ∧ ([] : Bits) ≠ [false])) ∧
    (decLeaf.NodesOk ∧ decLeaf.rootTree = some (.leaf 0x61) ∧
      unpack (decLeaf.inBytes 0 1) = [false, false] ++ true :: [false, false, false, false, false] ∧
      List.Forall₂ (fun id c => (id, c) ∈ (Machine.Tree.leaf 0x61).codes) [0x61, 0x61] [[false], [false]]) := by
  refine ⟨⟨rfl, decReady_inv.1.config, decReady_inv.1.nodes⟩, by decide +kernel, ⟨base_inv.nodes, rfl⟩,
    ⟨by unfold State.InReadable; decide +kernel, by decide +kernel, .cons (by decide) (.cons (by decide) .nil),
      .cons (by decide +kernel) (.cons (by decide +kernel) .nil), by decide +kernel, .inr (by decide +kernel), rfl⟩,
    ⟨decReady_inv.2.1.nodes, by decide +kernel, by decide +kernel, ?_, by decide +kernel⟩,
    ⟨decReady_inv.2.2.nodes, by decide +kernel, by decide +kernel, .cons (by decide) (.cons (by decide) .nil)⟩⟩
  have h : ((0x61 : Word), [false]) ∈ treeAb.codes := by decide
  exact .cons h (.cons h (.cons h (.cons h (.cons h (.cons h (.cons h (.cons h .nil)))))))

/-- The small engine with a table of two words and an input that splits into them. -/
def jobWords : State :=
  { placed [0x61, 0x62, 0x63, 0x61] with mode := .word, ft := [([0x61], 1), ([0x62, 0x63], 0xFFFFFFFE)], nextHandle := 0xFFFFFFFC }

/-- The small engine with a table of two letters and an input of both. -/
def jobChars : State := { placed [0x61, 0x62] with ft := [([0x61], 1), ([0x62], 1)] }

theorem job_inv : jobWords.Inv ∧ jobChars.Inv :=
  ⟨inv_of_checked (by decide +kernel) ⟨0, rfl⟩, inv_of_checked (by decide +kernel) ⟨0, rfl⟩⟩

theorem witness_CdEncodeWritesTheContainer :
    (base.Inv ∧ base.status.fault = false ∧ base.InReadable 0 base.inLen.toNat ∧ base.ft = [] ∧ base.inLen = 0 ∧
      base.OutWritable 0 16) ∧
    ((placed [0x78]).Inv ∧ (placed [0x78]).InReadable 0 1 ∧ (placed [0x78]).inLen ≠ 0) ∧
    (let s := jobWords;
      let keys := s.ft.map Prod.fst;
      s.Inv ∧ s.InReadable 0 s.inLen.toNat ∧ s.ft ≠ [] ∧ s.ft.length ≤ s.cfg.pqMaxCap ∧
      s.nodes.length + (2 * s.ft.length - 1) ≤ s.cfg.nodeMax ∧ s.nextHandle + (2 * s.ft.length - 1) ≤ 0xFFFFFFFF ∧
      (s.ft.map fun e => e.2.toNat).sum < 2 ^ 32 ∧ (keys.map List.length).sum ≤ s.cfg.trieMax ∧
      LongestSplit keys (s.inBytes 0 s.inLen.toNat) [[0x61], [0x62, 0x63], [0x61]] ∧
      3 + 2 * 32 ≤ s.cfg.bbMaxBits ∧ 2 * 3 ≤ s.cfg.bbMaxBits ∧ s.OutWritable 0 (16 + 11 + (67 + 7) / 8 + (6 + 7) / 8)) ∧
    (let s := jobChars;
      let keys := s.ft.map Prod.fst;
      s.Inv ∧ s.InReadable 0 s.inLen.toNat ∧ (∀ k ∈ keys, k.length = 1) ∧
      LongestSplit keys (s.inBytes 0 s.inLen.toNat) [[0x61], [0x62]] ∧
      s.OutWritable 0 (16 + 0 + (19 + 7) / 8 + (4 + 7) / 8)) := by
  have ew : jobWords.inBytes 0 jobWords.inLen.toNat = [0x61] ++ ([0x62, 0x63] ++ ([0x61] ++ [])) := by decide +kernel
  have ec : jobChars.inBytes 0 jobChars.inLen.toNat = [0x61] ++ ([0x62] ++ []) := by decide +kernel
  refine ⟨⟨base_inv, rfl, by unfold State.InReadable; decide +kernel, rfl, rfl, .inr (by decide +kernel)⟩,
    ⟨inv_of_checked (by decide +kernel) ⟨0, rfl⟩, by unfold State.InReadable; decide +kernel, by decide +kernel⟩,
    ⟨job_inv.1, by unfold State.InReadable; decide +kernel, by decide, by decide, by decide, by decide, by decide +kernel,
      by decide +kernel, ?_, by decide, by decide, .inr (by decide +kernel)⟩,
    ⟨job_inv.2, by unfold State.InReadable; decide +kernel, by decide +kernel, ?_, .inr (by decide +kernel)⟩⟩
  · rw [ew]
    exact .word (by decide +kernel) (by decide) (by decide +kernel)
      (.word (by decide +kernel) (by decide) (by decide +kernel) (.word (by decide +kernel) (by decide) (by decide +kernel) .done))
  · rw [ec]
    exact .word (by decide +kernel) (by decide) (by decide +kernel) (.word (by decide +kernel) (by decide) (by decide +kernel) .done)

/-- The small engine with the container of V-CD2. -/
def decChars : State := placed containerAb

/-- The container of `jobWords`, laid out by 30_encoding.md R110 to R117: table at 16, tree at 27, payload `010` at 36. -/
def containerWords : List Nat :=
  [27, 0, 0, 0, 16, 0, 0, 0, 36, 0, 0, 0, 3, 0, 0, 0] ++ [1, 0, 0, 0, 0x61, 2, 0, 0, 0, 0x62, 0x63] ++
    [0x02, 0, 0, 0, 0x0C, 0, 0, 0, 0] ++ [0x02]

/-- The small engine in WORD mode with that container. -/
def decWords : State := { placed containerWords with mode := .word }

theorem dec_inv : decChars.Inv ∧ decWords.Inv :=
  ⟨inv_of_checked (by decide +kernel) ⟨0, rfl⟩, inv_of_checked (by decide +kernel) ⟨0, rfl⟩⟩

/-- A header and nothing behind it. -/
def header (t s p c : Nat) : State := placed [t, 0, 0, 0, s, 0, 0, 0, p, 0, 0, 0, c, 0, 0, 0]

theorem witness_CdDecodeReadsTheContainer :
    ((placed [0]).Inv ∧ (placed [0]).status.fault = false ∧ (placed [0]).InReadable 0 1 ∧ (placed [0]).inLen.toNat < 16) ∧
    ((header 16 15 16 1).Inv ∧ (header 16 15 16 1).inBytes 0 16 = u32le 16 ++ u32le 15 ++ u32le 16 ++ u32le 1) ∧
    ((header 15 16 16 1).Inv ∧ (header 15 16 16 1).inBytes 0 16 = u32le 15 ++ u32le 16 ++ u32le 16 ++ u32le 1) ∧
    ((header 17 16 16 1).Inv ∧ (header 17 16 16 1).inBytes 0 16 = u32le 17 ++ u32le 16 ++ u32le 16 ++ u32le 1 ∧
      (16 : Word).toNat < (17 : Word).toNat) ∧
    ((header 16 16 17 1).Inv ∧ (header 16 16 17 1).inBytes 0 16 = u32le 16 ++ u32le 16 ++ u32le 17 ++ u32le 1 ∧
      (header 16 16 17 1).inLen.toNat < 17) ∧
    ((header 16 16 16 0).Inv ∧ (header 16 16 16 0).inBytes 0 16 = u32le 16 ++ u32le 16 ++ u32le 16 ++ u32le 0 ∧
      16 ≤ (header 16 16 16 0).inLen.toNat) ∧
    (let s := decWords;
      let T := Machine.Tree.node (.leaf 0) (.leaf 1);
      s.Inv ∧ s.InReadable 0 s.inLen.toNat ∧ s.inBytes 0 16 = u32le 27 ++ u32le 16 ++ u32le 36 ++ u32le 3 ∧
      36 ≤ s.inLen.toNat ∧ (∀ w ∈ words3, w ≠ []) ∧
      s.inBytes 16 (27 - 16) = (words3.flatMap fun w => u32le (word w.length) ++ w) ∧
      (∀ x ∈ T.syms, symbolFits s.mode words3 x) ∧ T.ser s.mode <+: unpack (s.inBytes 27 (36 - 27)) ∧
      s.nodes.length + T.size ≤ s.cfg.nodeMax ∧ s.nextHandle + T.size ≤ 0xFFFFFFFF ∧
      List.Forall₂ (fun id c => (id, c) ∈ T.codes) [0, 1, 0] [[false], [true], [false]] ∧
      [[false], [true], [false]].flatten <+: unpack (s.inBytes 36 (s.inLen.toNat - 36)) ∧
      List.Forall₂ (fun id v => { s with symtab := words3 }.symbolBytes id = some v) [0, 1, 0] [[0x61], [0x62, 0x63], [0x61]] ∧
      s.OutWritable 0 4) ∧
    (let s := decChars;
      s.Inv ∧ s.InReadable 0 s.inLen.toNat ∧ s.inBytes 0 16 = u32le 16 ++ u32le 16 ++ u32le 19 ++ u32le 2 ∧
      (∀ x ∈ treeAb.syms, symbolFits s.mode [] x) ∧ treeAb.ser s.mode <+: unpack (s.inBytes 16 (19 - 16)) ∧
      List.Forall₂ (fun id c => (id, c) ∈ treeAb.codes) [0x61, 0x62] [[false], [true]] ∧
      [[false], [true]].flatten <+: unpack (s.inBytes 19 (s.inLen.toNat - 19)) ∧
      List.Forall₂ (fun id v => { s with symtab := [] }.symbolBytes id = some v) [0x61, 0x62] [[0x61], [0x62]]) := by
  refine ⟨⟨inv_of_checked (by decide +kernel) ⟨0, rfl⟩, rfl, by unfold State.InReadable; decide +kernel, by decide +kernel⟩,
    ⟨inv_of_checked (by decide +kernel) ⟨0, rfl⟩, by decide +kernel⟩,
    ⟨inv_of_checked (by decide +kernel) ⟨0, rfl⟩, by decide +kernel⟩,
    ⟨inv_of_checked (by decide +kernel) ⟨0, rfl⟩, by decide +kernel, by decide⟩,
    ⟨inv_of_checked (by decide +kernel) ⟨0, rfl⟩, by decide +kernel, by decide +kernel⟩,
    ⟨inv_of_checked (by decide +kernel) ⟨0, rfl⟩, by decide +kernel, by decide +kernel⟩,
    ⟨dec_inv.2, by unfold State.InReadable; decide +kernel, by decide +kernel, by decide +kernel, by decide,
      by decide +kernel, forall_of_all (p := fun x : Word => x.toNat < words3.length) (by decide +kernel), by decide +kernel, by decide +kernel, by decide +kernel,
      .cons (by decide) (.cons (by decide) (.cons (by decide) .nil)), by decide +kernel,
      .cons (by decide +kernel) (.cons (by decide +kernel) (.cons (by decide +kernel) .nil)), .inr (by decide +kernel)⟩,
    ⟨dec_inv.1, by unfold State.InReadable; decide +kernel, by decide +kernel, forall_of_all (p := fun x : Word => x.toNat ≤ 255) (by decide +kernel),
      by decide +kernel, .cons (by decide) (.cons (by decide) .nil), by decide +kernel,
      .cons (by decide +kernel) (.cons (by decide +kernel) .nil)⟩⟩

theorem witness_DecodeOfEncodeIsTheInput :
    jobChars.Inv ∧ jobChars.status.fault = false ∧ exec .cdEncode jobChars = .next (after .cdEncode jobChars) ∧
    (after .cdEncode jobChars).status.fault = false ∧ decChars.Inv ∧ decChars.status.fault = false ∧
    decChars.mode = jobChars.mode ∧ decChars.inLen = (after .cdEncode jobChars).outLen ∧
    (∀ a, a < (after .cdEncode jobChars).outLen.toNat → decChars.inByte a = (after .cdEncode jobChars).outByte a) ∧
    decChars.InReadable 0 decChars.inLen.toNat ∧
    decChars.nodes.length + (2 * jobChars.ft.length - 1) ≤ decChars.cfg.nodeMax ∧
    decChars.nextHandle + (2 * jobChars.ft.length - 1) ≤ 0xFFFFFFFF ∧ decChars.OutWritable 0 jobChars.inLen.toNat :=
  ⟨job_inv.2, rfl, exec_after _ _, by decide +kernel, dec_inv.1, rfl, rfl, by decide +kernel, by decide +kernel,
    by unfold State.InReadable; decide +kernel, by decide +kernel, by decide +kernel, .inr (by decide +kernel)⟩

theorem witness_PreciseFaultsChangeOnlyFaultRegisters :
    commandClass .pqExtract = .precise ∧ base.status.fault = false ∧
    exec .pqExtract base = .next (after .pqExtract base) ∧ (after .pqExtract base).status.fault = true :=
  ⟨rfl, rfl, exec_after _ _, by decide +kernel⟩

theorem witness_CleanupFaultsReleaseWhatWasBuilt :
    commandClass .htBuild = .cleanup ∧ longKey.status.fault = false ∧ longKey.cfg.wellFormed = true ∧ longKey.NodesOk ∧
    exec .htBuild longKey = .next (after .htBuild longKey) ∧ (after .htBuild longKey).status.fault = true :=
  ⟨rfl, rfl, longKey_inv.config, longKey_inv.nodes, exec_after _ _, by decide +kernel⟩

theorem witness_OnlyTheNamedCommandsWrite :
    exec (.sysWrcr 6 1) base = .next (after (.sysWrcr 6 1) base) ∧ (after (.sysWrcr 6 1) base).mode ≠ base.mode ∧
    (after (.sysWrcr 7 64) base).inLen ≠ base.inLen ∧ (after (.sysWrcr 9 1) base).pqOrder ≠ base.pqOrder ∧
    (after (.ptSearch 0 2 true) wideTrie).status.found ≠ wideTrie.status.found ∧
    (after .htBuild base).status.empty ≠ base.status.empty ∧ stuck.status.fault = true ∧
    (after .sysClrerr stuck).status.fault = false ∧ (after .ftClear wideTable).ft ≠ wideTable.ft :=
  ⟨exec_after _ _, by decide +kernel⟩

theorem witness_UpperBuffersAreTheHosts :
    Instr.bbAppend 3 1 ≠ .sysReset ∧ 2 ≤ 2 ∧ exec (.bbAppend 3 1) base = .next (after (.bbAppend 3 1) base) ∧
    ∀ b, bufferWritten (.bbAppend 3 1) = some b → b.toNat ≠ 2 := by
  refine ⟨by decide, Nat.le_refl 2, exec_after _ _, fun b hb => ?_⟩
  cases hb
  decide

theorem witness_OutBytesChangeOnlyWhereWritten :
    (base.status.fault = false ∧ base.MemoryOk ∧ base.cfg.wellFormed = true ∧ writesOut .pqSize = false ∧
      exec .pqSize base = .next (after .pqSize base) ∧ (after .pqSize base).status.fault = false) ∧
    (exec (.bbFlush 0 63) twoBuffers = .next (after (.bbFlush 0 63) twoBuffers) ∧ twoBuffers.MemoryOk ∧
      (after (.bbFlush 0 63) twoBuffers).status.fault = false) ∧
    (exec (.ptKeys 29) wideTrie = .next (after (.ptKeys 29) wideTrie) ∧ wideTrie.MemoryOk ∧
      (after (.ptKeys 29) wideTrie).status.fault = false) ∧
    (exec (.ctStstore 29) (wordTree words3) = .next (after (.ctStstore 29) (wordTree words3)) ∧
      (wordTree words3).MemoryOk ∧ (after (.ctStstore 29) (wordTree words3)).status.fault = false) ∧
    (exec (.htSer 61) small = .next (after (.htSer 61) small) ∧ small.MemoryOk ∧ small.rootTree = some treeAb ∧
      (after (.htSer 61) small).status.fault = false) ∧
    (exec (.cdDpass 0 1 2) (decReady 2) = .next (after (.cdDpass 0 1 2) (decReady 2)) ∧ (decReady 2).MemoryOk ∧
      (after (.cdDpass 0 1 2) (decReady 2)).status.fault = false) ∧
    (exec .cdEncode jobChars = .next (after .cdEncode jobChars) ∧ jobChars.MemoryOk ∧
      (after .cdEncode jobChars).status.fault = false) :=
  ⟨⟨rfl, base_inv.memory, base_inv.config, rfl, exec_after _ _, by decide +kernel⟩,
    ⟨exec_after _ _, ⟨rfl, rfl, by simp [twoBuffers, base, State.resetOf], by simp [twoBuffers, base, State.resetOf],
      by decide +kernel, by decide +kernel⟩, by decide +kernel⟩,
    ⟨exec_after _ _, wideTrie_inv.memory, by decide +kernel⟩,
    ⟨exec_after _ _, wordTree_inv.1.memory, by decide +kernel⟩,
    ⟨exec_after _ _, small_inv.memory, small_rootTree, by decide +kernel⟩,
    ⟨exec_after _ _, decReady_inv.1.memory, by decide +kernel⟩,
    ⟨exec_after _ _, job_inv.2.memory, by decide +kernel⟩⟩

theorem witness_ResetMeetsTheInvariants :
    tiny.wellFormed = true ∧ { tiny with bbMaxBits := 8, nodeMax := 18 }.wellFormed = true := by decide +kernel

/-- What `afterStep` is of. -/
theorem step_after {s : State}
    (h : (match step s with | .next _ => true | .fault _ => false | .refused _ => false) = true) :
    step s = .next (afterStep s) := by
  revert h
  simp only [afterStep]
  cases step s <;> simp

/-- The small engine with a tree and a command waiting that builds another. -/
def waitingJob : State := { jobChars with nodes := [(0, .leaf 0x61 1)], nextHandle := 1, root := 0, port := [.command 0x70] }

theorem witness_StepKeepsTheMemories :
    waitingJob.cfg.wellFormed = true ∧ waitingJob.MemoryOk ∧ step waitingJob = .next (afterStep waitingJob) := by
  have h : waitingJob.Inv := inv_of_checked (by decide +kernel) ⟨0, rfl⟩
  exact ⟨h.config, h.memory, step_after (by decide +kernel)⟩

theorem witness_StepKeepsTheNodeStore :
    waitingJob.cfg.wellFormed = true ∧ waitingJob.NodesOk ∧ step waitingJob = .next (afterStep waitingJob) := by
  have h : waitingJob.Inv := inv_of_checked (by decide +kernel) ⟨0, rfl⟩
  exact ⟨h.config, h.nodes, step_after (by decide +kernel)⟩

theorem witness_StepKeepsEveryInvariant : waitingJob.Inv ∧ step waitingJob = .next (afterStep waitingJob) :=
  ⟨inv_of_checked (by decide +kernel) ⟨0, rfl⟩, step_after (by decide +kernel)⟩

end Sys2Proof.Tests
end

section
/-! PROOFS. The BB family (spec/40_bitbuffer.md R140 to R149). A command's execution is read off what its rule comes to, and
a rule is walked check by check: each check is passed by its condition or raises its fault. -/

namespace Sys2Proof.Machine

/-! ## Executions and checks -/

/-- A command completes when its rule does (48_system.md R280 step 4). -/
theorem exec_of_ok {i : Instr} {s t : State} {res : Results} (hf : s.status.fault = false)
    (h : ruleOf i s = .ok res t) : exec i s = .next (t.answered res) :=
  (exec_eq_runRule i s).trans (runRule_ok hf h)

/-- W0 of a command without a flag is its opcode (30_encoding.md R100). -/
theorem w0_of_unflagged {i : Instr} (h : i.fields.f0 = false) : i.w0 = i.fields.opcode.setWidth 32 := by
  rw [Instr.w0, h, headWord_false]

/-- A precise command without a flag faults when its rule raises, and the fault is all it leaves (60_exceptions.md R312,
R313). -/
theorem exec_of_raise (c : Cause) {i : Instr} {s t : State} {i0 i1 : Word} (hc : commandClass i = .precise)
    (h0 : i.fields.f0 = false) (hf : s.status.fault = false) (h : ruleOf i s = .raise ⟨c, i0, i1⟩ t) :
    exec i s = .next (s.faulted c.code (i.fields.opcode.setWidth 32) i0 i1) := by
  rw [← w0_of_unflagged h0, exec_eq_runRule]
  exact runRule_precise hc hf h

@[simp] theorem word_toNat (w : Word) : word w.toNat = w := BitVec.ofNat_toNat 32 w

theorem needBuffer_pos {α : Type} {b : Word} {s : State} (h : b.toNat < s.cfg.nb) (k : Ruling α) :
    needBuffer b s k = k := need_pos h _ _ _

theorem needBuffer_neg {α : Type} {b : Word} {s : State} (h : s.cfg.nb ≤ b.toNat) (k : Ruling α) :
    needBuffer b s k = .raise (illegal 2 b) s := need_neg (Nat.not_lt.2 h) _ _ _

/-- A precise command that begins with the check of a buffer operand refuses an operand that names no buffer (R140). -/
theorem exec_of_invalid_buffer {i : Instr} {b : Word} {s : State} {k : Ruling Results}
    (hi : ruleOf i s = needBuffer b s k) (hc : commandClass i = .precise) (h0 : i.fields.f0 = false)
    (hf : s.status.fault = false) (hb : s.cfg.nb ≤ b.toNat) :
    exec i s = .next (s.faulted 9 (i.fields.opcode.setWidth 32) 2 b) :=
  exec_of_raise .illegalCommand hc h0 hf (hi.trans (needBuffer_neg hb k))

/-! ## Creating, clearing, counting -/

/-- Settles O13: after the check of the operand, BB.CREATE checks the number of bits and the other two commands complete. -/
theorem bbCreateResetSize : Obligations.BbCreateResetSize := by
  intro s b n hf
  refine ⟨fun hb => ⟨?_, ?_, ?_⟩, fun hb => ⟨fun hn => ?_, fun hn => ?_, ?_, ?_⟩⟩
  · exact exec_of_invalid_buffer rfl rfl rfl hf hb
  · exact exec_of_invalid_buffer rfl rfl rfl hf hb
  · exact exec_of_invalid_buffer rfl rfl rfl hf hb
  · have h : ruleOf (.bbCreate b n) s = .raise (allocFail 1 n.toNat) s :=
      (needBuffer_pos hb _).trans (need_neg (Nat.not_le.2 hn) _ _ _)
    rw [allocFail, word_toNat] at h
    exact exec_of_raise .allocationFailure rfl rfl hf h
  · exact exec_of_ok hf ((needBuffer_pos hb _).trans (need_pos hn _ _ _))
  · exact exec_of_ok hf (needBuffer_pos hb _)
  · exact exec_of_ok hf (needBuffer_pos hb _)

/-! ## One bit -/

/-- Settles O14: BB.GET checks the index alone, BB.SET the value and then the index. -/
theorem bbGetAndSet : Obligations.BbGetAndSet := by
  intro s b i v hf
  refine ⟨fun hb => ⟨?_, ?_⟩, fun hb => ⟨fun hi => ?_, fun x hx => ?_, fun hv => ?_, fun hv hi => ?_, fun hv hi => ?_⟩⟩
  · exact exec_of_invalid_buffer rfl rfl rfl hf hb
  · exact exec_of_invalid_buffer rfl rfl rfl hf hb
  · exact exec_of_raise .indexOutOfRange rfl rfl hf ((needBuffer_pos hb _).trans (need_neg (Nat.not_lt.2 hi) _ _ _))
  · obtain ⟨hi, hbit⟩ := List.getElem?_eq_some_iff.1 hx
    have h : ruleOf (.bbGet b i) s = .ok ⟨bitWord ((s.buf b.toNat).bits.getD i.toNat false), 0, 0, 0⟩ s :=
      (needBuffer_pos hb _).trans (need_pos hi _ _ _)
    rw [List.getD_eq_getElem _ _ hi, hbit] at h
    exact exec_of_ok hf h
  · exact exec_of_raise .illegalCommand rfl rfl hf ((needBuffer_pos hb _).trans (need_neg (Nat.not_le.2 hv) _ _ _))
  · exact exec_of_raise .indexOutOfRange rfl rfl hf
      ((needBuffer_pos hb _).trans ((need_pos hv _ _ _).trans (need_neg (Nat.not_lt.2 hi) _ _ _)))
  · exact exec_of_ok hf ((needBuffer_pos hb _).trans ((need_pos hv _ _ _).trans (need_pos hi _ _ _)))

/-- Settles O15: the value is checked before the room. -/
theorem bbAppendAddsOneBit : Obligations.BbAppendAddsOneBit := by
  intro s b v hf
  refine ⟨fun hb => ?_, fun hb => ⟨fun hv => ?_, fun hv hfull => ?_, fun hv hroom => ?_⟩⟩
  · exact exec_of_invalid_buffer rfl rfl rfl hf hb
  · exact exec_of_raise .illegalCommand rfl rfl hf ((needBuffer_pos hb _).trans (need_neg (Nat.not_le.2 hv) _ _ _))
  · exact exec_of_raise .allocationFailure rfl rfl hf
      ((needBuffer_pos hb _).trans ((need_pos hv _ _ _).trans (need_neg (Nat.not_lt.2 hfull) _ _ _)))
  · exact exec_of_ok hf ((needBuffer_pos hb _).trans ((need_pos hv _ _ _).trans (need_pos hroom _ _ _)))

/-! ## Two buffers -/

/-- Settles O16: destination, source, then for BB.CONCAT that they differ and that the sum of the sizes fits. -/
theorem bbCopyAndConcat : Obligations.BbCopyAndConcat := by
  intro s d src hf
  refine ⟨fun hd => ⟨?_, ?_⟩, fun hd hs => ⟨?_, ?_⟩, fun hd hs =>
    ⟨?_, fun heq => ?_, fun hne hfull => ?_, fun hne hroom => ?_⟩⟩
  · exact exec_of_invalid_buffer rfl rfl rfl hf hd
  · exact exec_of_invalid_buffer rfl rfl rfl hf hd
  · exact exec_of_invalid_buffer (needBuffer_pos hd _) rfl rfl hf hs
  · exact exec_of_invalid_buffer (needBuffer_pos hd _) rfl rfl hf hs
  · exact exec_of_ok hf ((needBuffer_pos hd _).trans (needBuffer_pos hs _))
  · exact exec_of_raise .illegalCommand rfl rfl hf
      ((needBuffer_pos hd _).trans ((needBuffer_pos hs _).trans (need_neg (not_not.2 heq) _ _ _)))
  · exact exec_of_raise .allocationFailure rfl rfl hf
      ((needBuffer_pos hd _).trans ((needBuffer_pos hs _).trans
        ((need_pos hne _ _ _).trans (need_neg (Nat.not_le.2 hfull) _ _ _))))
  · exact exec_of_ok hf
      ((needBuffer_pos hd _).trans ((needBuffer_pos hs _).trans ((need_pos hne _ _ _).trans (need_pos hroom _ _ _))))

/-! ## Writing a buffer to OUT -/

/-- What BB.FLUSH does with a valid operand: one write of the packed bytes, then the number of bytes as the result. -/
theorem ruleBbFlush_of_valid {b addr : Word} {s : State} (hb : b.toNat < s.cfg.nb) :
    ruleBbFlush b addr s = (memWrite addr.toNat (pack (s.buf b.toNat).bits) s).bind fun _ s' =>
      .ok ⟨word (bytesFor (s.buf b.toNat).bits.length), 0, 0, 0⟩ s' :=
  needBuffer_pos hb _

/-- Settles O17: the write of the packed bytes raises at the least unwritable address or puts them all. -/
theorem bbFlushWritesThePackedBytes : Obligations.BbFlushWritesThePackedBytes := by
  intro s b addr hf
  refine ⟨fun hb => ?_, fun hb => ⟨fun x hx => ?_, fun hw => ?_⟩⟩
  · exact exec_of_invalid_buffer rfl rfl rfl hf hb
  · have hwrite := memWrite_raise (v := pack (s.buf b.toNat).bits) (by rw [pack_length]; exact hx)
    have h : ruleOf (.bbFlush b addr) s = .raise (ioError x true) s := by
      rw [ruleOf, ruleBbFlush_of_valid hb, hwrite, bind_raise]
    exact exec_of_raise .ioError rfl rfl hf h
  · have hwrite := memWrite_ok (v := pack (s.buf b.toNat).bits) (by rw [pack_length]; exact hw)
    have h : ruleOf (.bbFlush b addr) s =
        .ok ⟨word (bytesFor (s.buf b.toNat).bits.length), 0, 0, 0⟩ (s.wrote addr.toNat (pack (s.buf b.toNat).bits)) := by
      rw [ruleOf, ruleBbFlush_of_valid hb, hwrite, bind_ok]
    exact exec_of_ok hf h

end Sys2Proof.Machine
end

section
/-! PROOFS. The PQ family (spec/41_priority_queue.md R160 to R167). An insert and an extract end as the queue's fullness or
its top decides; PQ.DESTROY is the queue made fresh on the store that the destructor loop leaves. -/

namespace Sys2Proof.Machine

/-! ## Inserting -/

/-- A queue full at PQ_MAX_CAP takes no item (R160). -/
theorem pqInsert_of_full {s : State} (hfull : s.pq.entries.length = s.pq.cap ∧ s.pq.cap = s.cfg.pqMaxCap) (k h : Word) :
    pqInsert k h s = .raise (allocFail 2 s.pq.entries.length) s := by
  obtain ⟨-, -, hraise⟩ | ⟨hroom, -⟩ := pqInsert_cases k h s
  · exact hraise
  · exact absurd hfull hroom

/-- Any other queue takes the item (R160). -/
theorem pqInsert_of_room {s : State} (hroom : ¬(s.pq.entries.length = s.pq.cap ∧ s.pq.cap = s.cfg.pqMaxCap)) (k h : Word) :
    pqInsert k h s = .ok () { s with pq := s.pq.push k h } := by
  obtain ⟨hlen, hcap, -⟩ | ⟨-, hok⟩ := pqInsert_cases k h s
  · exact absurd ⟨hlen, hcap⟩ hroom
  · exact hok

theorem push_length (q : PQueue) (k h : Word) : (q.push k h).entries.length = q.entries.length + 1 :=
  List.length_append

/-- Settles O21: the fault of a full queue is raised, and otherwise RES0 is the size after the push. -/
theorem pqInsertAddsAnItem : Obligations.PqInsertAddsAnItem := by
  intro s h k hf
  refine ⟨fun hlen hcap => ?_, fun hroom => ?_⟩
  · have hrule : ruleOf (.pqInsert h k) s = .raise (allocFail 2 s.pq.entries.length) s := by
      rw [ruleOf, rulePqInsert, pqInsert_of_full ⟨hlen, hcap⟩, bind_raise]
    exact exec_of_raise .allocationFailure rfl rfl hf hrule
  · have hrule : ruleOf (.pqInsert h k) s =
        .ok ⟨word (s.pq.entries.length + 1), 0, 0, 0⟩ { s with pq := s.pq.push k h } := by
      rw [ruleOf, rulePqInsert, pqInsert_of_room hroom, bind_ok, push_length]
    exact exec_of_ok hf hrule

/-! ## The top item -/

/-- An empty queue has no top. -/
theorem top_of_empty {s : State} (h : s.pq.entries = []) : s.top = none := queueTop_eq_none.2 h

/-- The top found is the item before every other (10_state.md R46). -/
theorem top_of_isTop {s : State} {x : QItem} (h : QueueTop s.pqOrder s.pq.entries x) : s.top = some x :=
  queueTop_of_isTop h

/-- An extract of an empty queue raises (R160). -/
theorem pqExtract_of_empty {s : State} (h : s.pq.entries = []) : pqExtract s = .raise ⟨.emptyQueue, 0, 0⟩ s := by
  obtain ⟨-, hraise⟩ | ⟨t, htop, -⟩ := pqExtract_cases s
  · exact hraise
  · rw [top_of_empty h] at htop; cases htop

/-- An extract answers the item before every other and takes it out (R160). -/
theorem pqExtract_of_isTop {s : State} {x : QItem} (h : QueueTop s.pqOrder s.pq.entries x) :
    pqExtract s = .ok x { s with pq := s.pq.take s.cfg x } := by
  have hx := top_of_isTop h
  obtain ⟨he, -⟩ | ⟨t, htop, hok⟩ := pqExtract_cases s
  · rw [top_of_empty he] at hx; cases hx
  · cases hx.symm.trans htop
    exact hok

/-- Taking out an item of the queue, its size written as one less than before (R160). -/
theorem take_of_mem {q : PQueue} {x : QItem} (hx : x ∈ q.entries) (c : Config) :
    q.take c x = ⟨q.entries.erase x, shrinkCap c (q.entries.length - 1) q.cap, q.nextSeq⟩ := by
  rw [PQueue.take, List.length_erase_of_mem hx]

/-- Settles O22: an empty queue has no top, a queue within its invariant has one, and the item before every other is the top
that the search finds. -/
theorem pqExtractAndPeekAnswerTheTop : Obligations.PqExtractAndPeekAnswerTheTop := by
  intro s hf
  refine ⟨fun he => ?_, fun hne hok => ?_, fun x hx => ⟨?_, ?_⟩⟩
  · have hextract : ruleOf .pqExtract s = .raise ⟨.emptyQueue, 0, 0⟩ s := by
      rw [ruleOf, rulePqExtract, pqExtract_of_empty he, bind_raise]
    have hpeek : ruleOf .pqPeek s = .raise ⟨.emptyQueue, 0, 0⟩ s := by
      rw [ruleOf, rulePqPeek, top_of_empty he]
    exact ⟨exec_of_raise .emptyQueue rfl rfl hf hextract, exec_of_raise .emptyQueue rfl rfl hf hpeek⟩
  · obtain ⟨x, -, hx⟩ := hok.top hne
    exact ⟨x, hx⟩
  · have hrule : ruleOf .pqPeek s = .ok ⟨x.handle, x.key, word s.pq.entries.length, 0⟩ s := by
      rw [ruleOf, rulePqPeek, top_of_isTop hx]
    exact exec_of_ok hf hrule
  · have hrule : ruleOf .pqExtract s = .ok ⟨x.handle, x.key, word (s.pq.entries.length - 1), 0⟩
        { s with pq := ⟨s.pq.entries.erase x, shrinkCap s.cfg (s.pq.entries.length - 1) s.pq.cap, s.pq.nextSeq⟩ } := by
      rw [ruleOf, rulePqExtract, pqExtract_of_isTop hx, bind_ok, take_of_mem hx.1, List.length_erase_of_mem hx.1]
    exact exec_of_ok hf hrule

/-! ## Counting and destroying -/

theorem bitWord_isEmpty {α : Type} [DecidableEq α] (l : List α) : bitWord l.isEmpty = if l = [] then 1 else 0 := by
  cases l <;> rfl

/-- PQ.DESTROY with the destructor: the queue fresh, the node store and its two registers as the destructor loop leaves them,
everything else as before (R167). -/
theorem pqDestroy_true_eq (s : State) : pqDestroy true s =
    { s with
      pq := ⟨[], s.cfg.pqMinCap, 0⟩
      nodes := (freeItems s.pq.entries s).nodes
      root := (freeItems s.pq.entries s).root
      cursor := (freeItems s.pq.entries s).cursor } := by
  have h : pqDestroy true s =
      { freeItems s.pq.entries s with pq := PQueue.fresh (freeItems s.pq.entries s).cfg } := rfl
  rw [h, freeItems_eq]
  rfl

/-- The destructor loop frees what the items' handles reach (10_state.md R50). -/
theorem freeItems_freed {s : State} (h : s.NodesOk) (items : List QItem) :
    s.Freed (items.map QItem.handle) (freeItems items s) :=
  ⟨fun y => (freeItems_find h items y).1, fun y _ => (freeItems_find h items y).2⟩

/-- What `State.Freed` says of the state after, it says of its nodes alone. -/
theorem State.Freed.congr {handles : List Word} {s t u : State} (h : s.Freed handles t) (hn : u.nodes = t.nodes) :
    s.Freed handles u :=
  ⟨hn ▸ h.gone, hn ▸ h.kept⟩

/-- Settles O24: the first three commands are read off their rules, and the destructor frees by the laws of its loop. -/
theorem pqSizeIsemptyDestroy : Obligations.PqSizeIsemptyDestroy := by
  intro s hf
  refine ⟨exec_of_ok hf rfl, ?_, ?_, fun hok => ?_⟩
  · have hrule : ruleOf .pqIsempty s = .ok ⟨bitWord s.pq.entries.isEmpty, 0, 0, 0⟩ s := rfl
    rw [bitWord_isEmpty] at hrule
    exact exec_of_ok hf hrule
  · have hrule : ruleOf (.pqDestroy false) s = .ok ⟨word s.pq.entries.length, word (s.nodes.length - s.nodes.length), 0, 0⟩
        { s with pq := ⟨[], s.cfg.pqMinCap, 0⟩ } := rfl
    rw [Nat.sub_self] at hrule
    exact exec_of_ok hf hrule
  · have hdestroy := pqDestroy_true_eq s
    obtain ⟨hroot, hcursor⟩ := freeItems_register hok s.pq.entries
    refine ⟨_, exec_of_ok hf rfl, (freeItems_freed hok s.pq.entries).congr rfl, hroot, hcursor,
      freeItems_sublist s.pq.entries s, ?_⟩
    exact congrArg (State.answered _) hdestroy

end Sys2Proof.Machine
end

section
/-! PROOFS. The PT family (spec/42_prefix_trie.md R180 to R186). The commands that take a key share its two checks, the range
and the read; what is left of each is a law of the trie: the nodes and the payload after an insert, the match that a search
ends with, the one listing of its keys. -/

namespace Sys2Proof.Machine

/-! ## Key operands -/

/-- A precise command whose rule raises, with or without a flag: the fault is all it leaves (60_exceptions.md R312, R313). -/
theorem exec_of_precise_raise (c : Cause) {i : Instr} {s t : State} {w i0 i1 : Word} (hc : commandClass i = .precise)
    (hw : i.w0 = w) (hf : s.status.fault = false) (h : ruleOf i s = .raise ⟨c, i0, i1⟩ t) :
    exec i s = .next (s.faulted c.code w i0 i1) := by
  rw [← hw, exec_eq_runRule]
  exact runRule_precise hc hf h

theorem needKeyRange_pos {α : Type} {a b : Word} {s : State} (h : a.toNat + b.toNat ≤ s.inLen.toNat) (k : Ruling α) :
    needKeyRange a b s k = k := need_pos h _ _ _

theorem needKeyRange_neg {α : Type} {a b : Word} {s : State} (h : ¬a.toNat + b.toNat ≤ s.inLen.toNat) (k : Ruling α) :
    needKeyRange a b s k = .raise (illegal 4 a) s := need_neg h _ _ _

/-- A precise command that begins with the range check of a key refuses a key that ends beyond IN_LEN (R185). -/
theorem exec_of_key_beyond_input {i : Instr} {a b w : Word} {s : State} {k : Ruling Results}
    (hi : ruleOf i s = needKeyRange a b s k) (hc : commandClass i = .precise) (hw : i.w0 = w)
    (hf : s.status.fault = false) (h : ¬a.toNat + b.toNat ≤ s.inLen.toNat) :
    exec i s = .next (s.faulted 9 w 4 a) :=
  exec_of_precise_raise .illegalCommand hc hw hf (hi.trans (needKeyRange_neg h k))

/-- A precise command that comes to a read of IN faults at the least unreadable address (20_memory.md R71). -/
theorem exec_of_unreadable {i : Instr} {addr n x : Nat} {w : Word} {s : State} {k : Bytes → State → Ruling Results}
    (hi : ruleOf i s = (memRead addr n s).bind k) (hc : commandClass i = .precise) (hw : i.w0 = w)
    (hf : s.status.fault = false) (hx : s.LeastUnreadable addr n x) :
    exec i s = .next (s.faulted 8 w (word x) 0) :=
  exec_of_precise_raise .ioError hc hw hf (hi.trans (congrArg (Ruling.bind · k) (memRead_raise hx)))

/-! ## Inserting a key -/

/-- The path nodes of a key are its non-empty prefixes (10_state.md R52). -/
theorem mem_keyPath {p key : Bytes} : p ∈ keyPath key ↔ p ≠ [] ∧ p <+: key := by
  simp only [keyPath, List.mem_map, List.mem_range]
  constructor
  · rintro ⟨j, hj, rfl⟩
    refine ⟨?_, List.take_prefix _ _⟩
    rw [← List.length_pos_iff, List.length_take]
    omega
  · rintro ⟨hne, hp⟩
    have hpos := List.length_pos_iff.2 hne
    have hle := hp.length_le
    refine ⟨p.length - 1, by omega, ?_⟩
    rw [Nat.sub_add_cancel hpos]
    exact (List.prefix_iff_eq_take.1 hp).symm

/-- The missing path nodes, counted by their lengths. -/
theorem missing_length (t : Trie) (key : Bytes) : (t.missing key).length =
    ((List.range key.length).filter fun j => key.take (j + 1) ∉ t.paths).length := by
  rw [Trie.missing, keyPath, List.filter_map, List.length_map]
  rfl

/-- Adding elements to a set one after another adds exactly these. -/
theorem mem_foldl_setInsert {κ : Type} {lt : κ → κ → Bool} (o : IsOrder lt) (x : κ) (new old : List κ) :
    x ∈ new.foldl (fun l k => setInsert lt k l) old ↔ x ∈ old ∨ x ∈ new := by
  induction new generalizing old with
  | nil => simp
  | cons k rest ih =>
    rw [List.foldl_cons, ih, setInsert_mem o, List.mem_cons]
    tauto

/-- The nodes after an insert (R180). -/
theorem mem_insert_paths (t : Trie) (key : Bytes) (v : Word) (p : Bytes) :
    p ∈ (t.insert key v).paths ↔ p ∈ t.paths ∨ (p ≠ [] ∧ p <+: key) := by
  rw [Trie.insert, mem_foldl_setInsert lexLt_order, Trie.missing, List.mem_filter, mem_keyPath, decide_eq_true_eq]
  tauto

/-- The payloads after an insert (R180). -/
theorem mapFind_insert_payload (t : Trie) (key : Bytes) (v : Word) (k : Bytes) :
    mapFind k (t.insert key v).payload = if k = key then some v else mapFind k t.payload :=
  mapFind_mapInsert lexLt_order key k v t.payload

/-- PT.INSERT of a key that passes its two checks is a read and then the insert. -/
theorem rulePtInsert_of_valid {addr len v : Word} {s : State} (hr : addr.toNat + len.toNat ≤ s.inLen.toNat)
    (hlen : len ≠ 0) : rulePtInsert addr len v s = (memRead addr.toNat len.toNat s).bind fun key s =>
      (trieInsert key v s).bind fun _ s => .ok Results.zero s :=
  (needKeyRange_pos hr _).trans (need_pos (by bv_omega) _ _ _)

/-- Settles O25: range, empty key, read and room in their order, then the laws of the insert. -/
theorem ptInsertStoresAtTheKey : Obligations.PtInsertStoresAtTheKey := by
  intro s addr len v hf key new range
  have hnew : (s.trie.missing key).length = new := missing_length s.trie key
  refine ⟨fun hr => ?_, fun hr hlen => ?_, fun hr hlen x hx => ?_, fun hr hlen hread hfull => ?_,
    fun hr hlen hread hroom => ?_⟩
  · exact exec_of_key_beyond_input rfl rfl (w0_of_unflagged rfl) hf hr
  · exact exec_of_raise .illegalCommand rfl rfl hf
      ((needKeyRange_pos hr _).trans (need_neg (by simp [hlen]) _ _ _))
  · exact exec_of_unreadable (rulePtInsert_of_valid hr hlen) rfl (w0_of_unflagged rfl) hf hx
  · have hraise : trieInsert key v s = .raise (allocFail 4 s.trie.size) s :=
      need_neg (by rw [hnew]; exact Nat.not_le.2 hfull) _ _ _
    have hrule : ruleOf (.ptInsert addr len v) s = .raise (allocFail 4 s.trie.size) s := by
      rw [ruleOf, rulePtInsert_of_valid hr hlen, memRead_ok hread, bind_ok, hraise, bind_raise]
    exact exec_of_raise .allocationFailure rfl rfl hf hrule
  · have hok : trieInsert key v s = .ok () { s with trie := s.trie.insert key v } :=
      need_pos (by rw [hnew]; exact hroom) _ _ _
    have hrule : ruleOf (.ptInsert addr len v) s = .ok Results.zero { s with trie := s.trie.insert key v } := by
      rw [ruleOf, rulePtInsert_of_valid hr hlen, memRead_ok hread, bind_ok, hok, bind_ok]
    exact ⟨s.trie.insert key v, exec_of_ok hf hrule, mem_insert_paths s.trie key v, mapFind_insert_payload s.trie key v⟩

/-! ## Searching -/

/-- Among matches, `x` is at least as good as `y`: not longer in greedy mode, not shorter in longest-match mode (R186). -/
def AsGoodMatch (greedy : Bool) (x y : Bytes × Word) : Prop :=
  if greedy then x.1.length ≤ y.1.length else y.1.length ≤ x.1.length

theorem AsGoodMatch.refl (greedy : Bool) (x : Bytes × Word) : AsGoodMatch greedy x x := by
  cases greedy <;> exact Nat.le_refl _

theorem AsGoodMatch.trans {greedy : Bool} {x y z : Bytes × Word} (h : AsGoodMatch greedy x y)
    (h' : AsGoodMatch greedy y z) : AsGoodMatch greedy x z := by
  cases greedy
  · exact Nat.le_trans h' h
  · exact Nat.le_trans h h'

/-- Two matches each as good as the other have keys of one length. -/
theorem AsGoodMatch.length_eq {greedy : Bool} {x y : Bytes × Word} (h : AsGoodMatch greedy x y)
    (h' : AsGoodMatch greedy y x) : x.1.length = y.1.length := by
  cases greedy
  · exact Nat.le_antisymm h' h
  · exact Nat.le_antisymm h h'

/-- The better of two matches is one of them, and as good as both. -/
theorem betterMatch_spec (greedy : Bool) (x y : Bytes × Word) :
    (betterMatch greedy x y = x ∨ betterMatch greedy x y = y) ∧
      AsGoodMatch greedy (betterMatch greedy x y) x ∧ AsGoodMatch greedy (betterMatch greedy x y) y := by
  cases greedy
  · by_cases h : x.1.length < y.1.length
    · simp [betterMatch, AsGoodMatch, h, h.le]
    · simp [betterMatch, AsGoodMatch, h, not_lt.1 h]
  · by_cases h : y.1.length < x.1.length
    · simp [betterMatch, AsGoodMatch, h, h.le]
    · simp [betterMatch, AsGoodMatch, h, not_lt.1 h]

/-- The best of a list of matches is in the list, and as good as each. -/
theorem foldl_betterMatch_spec (greedy : Bool) (rest : List (Bytes × Word)) (e : Bytes × Word) :
    rest.foldl (betterMatch greedy) e ∈ e :: rest ∧
      ∀ y ∈ e :: rest, AsGoodMatch greedy (rest.foldl (betterMatch greedy) e) y := by
  induction rest generalizing e with
  | nil => simp [AsGoodMatch.refl]
  | cons z rest ih =>
    obtain ⟨hmem, hbest⟩ := ih (betterMatch greedy e z)
    obtain ⟨hone, he, hz⟩ := betterMatch_spec greedy e z
    have hfold := hbest _ List.mem_cons_self
    rw [List.foldl_cons]
    constructor
    · rcases List.mem_cons.1 hmem with hfirst | hlater
      · rw [hfirst]
        rcases hone with hone | hone <;> simp [hone]
      · simp [hlater]
    · intro y hy
      rcases List.mem_cons.1 hy with rfl | hy
      · exact hfold.trans he
      · rcases List.mem_cons.1 hy with rfl | hy
        · exact hfold.trans hz
        · exact hbest y (List.mem_cons_of_mem _ hy)

/-- The matches that a search compares. -/
theorem mem_matches {t : Trie} {data : Bytes} {e : Bytes × Word} :
    e ∈ (t.payload.filter fun e => startsWith e.1 data) ↔ e ∈ t.payload ∧ e.1 <+: data := by
  rw [List.mem_filter, startsWith_iff]

/-- A search finds nothing where no stored key begins the input (R186). -/
theorem search_of_no_match {t : Trie} {data : Bytes} (h : ∀ e ∈ t.payload, ¬e.1 <+: data) (greedy : Bool) :
    t.search greedy data = none := by
  have hnil : (t.payload.filter fun e => startsWith e.1 data) = [] :=
    List.eq_nil_iff_forall_not_mem.2 fun e he => h e (mem_matches.1 he).1 (mem_matches.1 he).2
  rw [Trie.search, hnil]

/-- Where a stored key begins the input, a search finds a match as good as every match (R186). -/
theorem search_of_match {t : Trie} {data : Bytes} {e : Bytes × Word} (he : e ∈ t.payload) (hp : e.1 <+: data)
    (greedy : Bool) : ∃ x, t.search greedy data = some x ∧ x ∈ t.payload ∧ x.1 <+: data ∧
      ∀ y ∈ t.payload, y.1 <+: data → AsGoodMatch greedy x y := by
  have hmem := mem_matches.2 ⟨he, hp⟩
  cases hm : t.payload.filter fun e => startsWith e.1 data with
  | nil => rw [hm] at hmem; cases hmem
  | cons m rest =>
    obtain ⟨hin, hbest⟩ := foldl_betterMatch_spec greedy rest m
    rw [← hm] at hin hbest
    obtain ⟨hstored, hprefix⟩ := mem_matches.1 hin
    refine ⟨rest.foldl (betterMatch greedy) m, ?_, hstored, hprefix, fun y hy hyp => hbest y (mem_matches.2 ⟨hy, hyp⟩)⟩
    rw [Trie.search, hm]

/-- A trie within its invariant holds one payload at a key. -/
theorem State.TrieOk.keys_nodup {s : State} (h : s.TrieOk) : (s.trie.payload.map Prod.fst).Nodup :=
  rising_nodup lexLt_order h.payloadListed

/-- In a trie within its invariant the match as good as every match is the one that a search finds: prefixes of one input
and of one length are equal (R186). -/
theorem search_of_best {s : State} (hok : s.TrieOk) {greedy : Bool} {data : Bytes} {e : Bytes × Word}
    (he : e ∈ s.trie.payload) (hp : e.1 <+: data)
    (hbest : ∀ x ∈ s.trie.payload, x.1 <+: data → AsGoodMatch greedy e x) : s.trie.search greedy data = some e := by
  obtain ⟨x, hsearch, hx, hxp, hxbest⟩ := search_of_match he hp greedy
  have hlen : x.1.length = e.1.length := (hxbest e he hp).length_eq (hbest x hx hxp)
  have hkey : x.1 = e.1 := (List.prefix_of_prefix_length_le hxp hp hlen.le).eq_of_length hlen
  rw [hsearch, List.inj_on_of_nodup_map hok.keys_nodup hx he hkey]

/-- The low word of PT.SEARCH, with and without its flag (30_encoding.md R100). -/
theorem ptSearch_w0 (addr len : Word) (greedy : Bool) :
    (Instr.ptSearch addr len greedy).w0 = if greedy then 0x131 else 0x31 := by
  have hhead : ∀ f : Bool, headWord 0x31 f = if f then 0x131 else 0x31 := by decide
  exact hhead greedy

/-- Settles O26: after the two checks of the key the search decides. -/
theorem ptSearchFindsTheBestPrefix : Obligations.PtSearchFindsTheBestPrefix := by
  intro s addr len greedy hf data range w0
  refine ⟨fun hr => ?_, fun hr x hx => ?_, fun hr hread hno => ?_, fun hr hread hok e he hp hbest => ?_⟩
  · exact exec_of_key_beyond_input rfl rfl (ptSearch_w0 addr len greedy) hf hr
  · exact exec_of_unreadable (needKeyRange_pos hr _) rfl (ptSearch_w0 addr len greedy) hf hx
  · have hrule : ruleOf (.ptSearch addr len greedy) s = .ok Results.zero (s.setFound false) := by
      rw [ruleOf, rulePtSearch, needKeyRange_pos hr, memRead_ok hread, bind_ok, search_of_no_match hno]
    exact exec_of_ok hf hrule
  · have hrule : ruleOf (.ptSearch addr len greedy) s = .ok ⟨e.2, word e.1.length, 1, 0⟩ (s.setFound true) := by
      rw [ruleOf, rulePtSearch, needKeyRange_pos hr, memRead_ok hread, bind_ok, search_of_best hok he hp hbest]
    exact exec_of_ok hf hrule

/-! ## Listing the keys -/

/-- A set has one listing by rising element. -/
theorem eq_of_pairwise_of_mem_iff {κ : Type} {lt : κ → κ → Bool} (o : IsOrder lt) {l l' : List κ}
    (h : l.Pairwise fun x y => lt x y = true) (h' : l'.Pairwise fun x y => lt x y = true)
    (hmem : ∀ x, x ∈ l ↔ x ∈ l') : l = l' := by
  have hperm : l.Perm l' := (List.perm_ext_iff_of_nodup (h.imp o.ne) (h'.imp o.ne)).2 hmem
  refine hperm.eq_of_pairwise (fun x y _ _ hxy hyx => ?_) h h'
  rw [o.asymm hxy] at hyx
  cases hyx

/-- The payload of a trie within its invariant lists the keys that hold one by rising `lex`. -/
theorem State.TrieOk.keys_eq {s : State} (hok : s.TrieOk) {list : List Bytes}
    (hmem : ∀ k, k ∈ list ↔ mapFind k s.trie.payload ≠ none) (hlist : list.Pairwise fun x y => lexLt x y = true) :
    s.trie.payload.map Prod.fst = list :=
  eq_of_pairwise_of_mem_iff lexLt_order ((rising_iff lexLt_order _).1 hok.payloadListed) hlist fun k => by
    rw [hmem, Ne, mapFind_eq_none, not_not]

/-- Settles O28: the listing is the payload's own, and the write of its bytes raises or puts them all. -/
theorem ptKeysWritesTheKeysInOrder : Obligations.PtKeysWritesTheKeysInOrder := by
  intro s addr list hf hok hmem hlist v
  have hkeys := hok.keys_eq hmem hlist
  have hcount : s.trie.payload.length = list.length := by rw [← hkeys, List.length_map]
  have hrule : rulePtKeys addr s = (memWrite addr.toNat v s).bind fun _ s' =>
      .ok ⟨word list.length, word v.length, 0, 0⟩ s' := by
    rw [rulePtKeys, hkeys, hcount]
    rfl
  refine ⟨fun x hx => ?_, fun hw => ?_⟩
  · rw [memWrite_raise hx, bind_raise] at hrule
    exact exec_of_raise .ioError rfl rfl hf hrule
  · rw [memWrite_ok hw, bind_ok] at hrule
    exact exec_of_ok hf hrule

/-! ## Removing a key, clearing -/

/-- Settles O27: after the two checks of the key its payload decides, and erasing it leaves every other payload. -/
theorem ptRemoveAndClear : Obligations.PtRemoveAndClear := by
  intro s addr len hf key range
  refine ⟨fun hr => ?_, fun hr x hx => ?_, fun hr hread hnone => ?_, fun hr hread hsome => ?_, exec_of_ok hf rfl⟩
  · exact exec_of_key_beyond_input rfl rfl (w0_of_unflagged rfl) hf hr
  · exact exec_of_unreadable (needKeyRange_pos hr _) rfl (w0_of_unflagged rfl) hf hx
  · have hrule : ruleOf (.ptRemove addr len) s = .raise ⟨.notFound, addr, len⟩ s := by
      rw [ruleOf, rulePtRemove, needKeyRange_pos hr, memRead_ok hread, bind_ok, need_neg]
      rw [hnone]
      simp
    exact exec_of_raise .notFound rfl rfl hf hrule
  · have hrule : ruleOf (.ptRemove addr len) s =
        .ok Results.zero { s with trie := { s.trie with payload := mapErase key s.trie.payload } } := by
      rw [ruleOf, rulePtRemove, needKeyRange_pos hr, memRead_ok hread, bind_ok,
        need_pos (Option.isSome_iff_ne_none.2 hsome)]
    exact ⟨mapErase key s.trie.payload, exec_of_ok hf hrule, fun k => mapFind_mapErase key k s.trie.payload⟩

end Sys2Proof.Machine
end

section
/-! PROOFS. The FT family and the HT commands of one node (spec/43_huffman_tree.md R200, R202, R205 to R207). A count is
stored or erased by the laws of the maps, a leaf is one allocation and one insert into the queue, and HT.FREE is `free_tree`
of one live handle. -/

namespace Sys2Proof.Machine

/-! ## The frequency table -/

/-- What FT.SET does with the symbol it read: a count of 0 erases the entry, any other is stored if there is an entry or room
for one (R200). -/
def storeCount (key : Bytes) (count : Word) (s : State) : Ruling Results :=
  if count = 0 then .ok ⟨word (mapErase key s.ft).length, 0, 0, 0⟩ { s with ft := mapErase key s.ft }
  else
    need ((mapFind key s.ft).isSome = true ∨ s.ft.length < s.cfg.ftMax) (allocFail 5 s.ft.length) s <|
    .ok ⟨word (mapInsert lexLt key count s.ft).length, 0, 0, 0⟩ { s with ft := mapInsert lexLt key count s.ft }

/-- FT.SET of a symbol that passes its two checks is a read and then the change of its entry. -/
theorem ruleFtSet_of_valid {addr len count : Word} {s : State} (hr : addr.toNat + len.toNat ≤ s.inLen.toNat)
    (hlen : len ≠ 0) : ruleFtSet addr len count s = (memRead addr.toNat len.toNat s).bind fun key s =>
      storeCount key count s :=
  (needKeyRange_pos hr _).trans (need_pos (by bv_omega) _ _ _)

/-- A new symbol is refused by a full table. -/
theorem storeCount_of_full {key : Bytes} {count : Word} {s : State} (hc : count ≠ 0) (hnew : mapFind key s.ft = none)
    (hfull : s.cfg.ftMax ≤ s.ft.length) : storeCount key count s = .raise (allocFail 5 s.ft.length) s := by
  rw [storeCount, if_neg hc, need_neg]
  rintro (hold | hroom)
  · rw [hnew] at hold; cases hold
  · exact absurd hroom (Nat.not_lt.2 hfull)

/-- Otherwise the symbol's entry becomes the count, or goes when the count is 0, and every other entry stays. -/
theorem storeCount_of_room {key : Bytes} {count : Word} {s : State}
    (h : count = 0 ∨ mapFind key s.ft ≠ none ∨ s.ft.length < s.cfg.ftMax) :
    ∃ ft, storeCount key count s = .ok ⟨word ft.length, 0, 0, 0⟩ { s with ft := ft } ∧
      ∀ k, mapFind k ft = if k = key then (if count = 0 then none else some count) else mapFind k s.ft := by
  by_cases hc : count = 0
  · simp only [if_pos hc]
    exact ⟨mapErase key s.ft, if_pos hc, fun k => mapFind_mapErase key k s.ft⟩
  · have hroom := (h.resolve_left hc).imp_left Option.isSome_iff_ne_none.2
    simp only [if_neg hc]
    exact ⟨mapInsert lexLt key count s.ft, (if_neg hc).trans (need_pos hroom _ _ _),
      fun k => mapFind_mapInsert lexLt_order key k count s.ft⟩

/-- Settles O29: range, empty symbol, read and room in their order, then the laws of the map. -/
theorem ftSetAndClear : Obligations.FtSetAndClear := by
  intro s addr len count hf key range
  refine ⟨fun hr => ?_, fun hr hlen => ?_, fun hr hlen x hx => ?_, fun hr hlen hread hc hnew hfull => ?_,
    fun hr hlen hread hroom => ?_, exec_of_ok hf rfl⟩
  · exact exec_of_key_beyond_input rfl rfl (w0_of_unflagged rfl) hf hr
  · exact exec_of_raise .illegalCommand rfl rfl hf
      ((needKeyRange_pos hr _).trans (need_neg (by simp [hlen]) _ _ _))
  · exact exec_of_unreadable (ruleFtSet_of_valid hr hlen) rfl (w0_of_unflagged rfl) hf hx
  · have hrule : ruleOf (.ftSet addr len count) s = .raise (allocFail 5 s.ft.length) s := by
      rw [ruleOf, ruleFtSet_of_valid hr hlen, memRead_ok hread, bind_ok, storeCount_of_full hc hnew hfull]
    exact exec_of_raise .allocationFailure rfl rfl hf hrule
  · obtain ⟨ft, hstore, hfind⟩ := storeCount_of_room hroom
    have hrule : ruleOf (.ftSet addr len count) s = .ok ⟨word ft.length, 0, 0, 0⟩ { s with ft := ft } := by
      rw [ruleOf, ruleFtSet_of_valid hr hlen, memRead_ok hread, bind_ok, hstore]
    exact ⟨ft, exec_of_ok hf hrule, hfind⟩

/-! ## Making a leaf -/

/-- The store has room for one more node (10_state.md R48). -/
theorem canAlloc_iff {s : State} : s.canAlloc = true ↔ s.nodes.length < s.cfg.nodeMax ∧ s.nextHandle < 0xFFFFFFFF :=
  decide_eq_true_iff

/-- A store with room allocates. -/
theorem alloc_of_room {s : State} (h : s.canAlloc = true) (n : Node) : alloc n s = .ok s.newHandle (s.allocated n) :=
  need_pos h _ _ _

/-- A positive word is not 0. -/
theorem one_le_toNat {w : Word} : 1 ≤ w.toNat ↔ w ≠ 0 := by
  constructor <;> intro h <;> bv_omega

/-- HT.LEAF with its three checks passed: the leaf allocated under the next handle and pushed with its frequency (R205). -/
theorem ruleHtLeaf_of_room {sym freq : Word} {s : State} (hfreq : freq ≠ 0) (hroom : s.canAlloc = true)
    (hqueue : s.pq.entries.length < s.cfg.pqMaxCap) : ruleHtLeaf sym freq s =
      .ok ⟨s.newHandle, 0, 0, 0⟩ { s.allocated (.leaf sym freq) with pq := s.pq.push freq s.newHandle } := by
  have hpush : pqInsert freq s.newHandle (s.allocated (.leaf sym freq)) =
      .ok () { s.allocated (.leaf sym freq) with pq := s.pq.push freq s.newHandle } := by
    refine pqInsert_of_room ?_ freq s.newHandle
    rintro ⟨hlen, hcap⟩
    simp only [allocated_pq, allocated_cfg] at hlen hcap
    omega
  rw [ruleHtLeaf, need_pos (one_le_toNat.2 hfreq), need_pos hroom, need_pos hqueue, alloc_of_room hroom, bind_ok, hpush,
    bind_ok]

/-- Settles O30: frequency, store and queue are checked in this order before anything changes. -/
theorem htLeafAllocatesAndQueues : Obligations.HtLeafAllocatesAndQueues := by
  intro s sym freq hf room
  refine ⟨fun hzero => ?_, fun hfreq hfull => ?_, fun hfreq hroom hqueue => ?_, fun hfreq hroom hqueue => ?_⟩
  · exact exec_of_raise .illegalCommand rfl rfl hf (need_neg (fun h => one_le_toNat.1 h hzero) _ _ _)
  · exact exec_of_raise .allocationFailure rfl rfl hf
      ((need_pos (one_le_toNat.2 hfreq) _ _ _).trans (need_neg (mt canAlloc_iff.1 hfull) _ _ _))
  · exact exec_of_raise .allocationFailure rfl rfl hf
      ((need_pos (one_le_toNat.2 hfreq) _ _ _).trans
        ((need_pos (canAlloc_iff.2 hroom) _ _ _).trans (need_neg (Nat.not_lt.2 hqueue) _ _ _)))
  · exact ⟨_, exec_of_ok hf (ruleHtLeaf_of_room hfreq (canAlloc_iff.2 hroom) hqueue),
      fun h => allocated_find (.leaf sym freq) h⟩

/-! ## Reading and freeing a node -/

/-- `free_tree` of one handle frees what the handle reaches (10_state.md R50). -/
theorem freeTree_freed {s : State} (h : s.NodesOk) (x : Word) : s.Freed [x] (freeTree x s) where
  gone y hy := (freeTree_find h x y).1 (by simpa using hy)
  kept y _ hy := (freeTree_find h x y).2 (by simpa using hy)

/-- Settles O32: the lookup decides HT.NODE, and HT.FREE of a live handle is `free_tree`. -/
theorem htNodeReadsAndHtFreeReleases : Obligations.HtNodeReadsAndHtFreeReleases := by
  intro s h hf
  refine ⟨fun hdead => ⟨?_, ?_⟩, fun sym freq hleaf => ?_, fun l r freq hinner => ?_, fun hlive hok => ?_⟩
  · have hrule : ruleOf (.htNode h) s = .raise ⟨.notFound, h, 0⟩ s := by rw [ruleOf, ruleHtNode, hdead]
    exact exec_of_raise .notFound rfl rfl hf hrule
  · exact exec_of_raise .notFound rfl rfl hf (need_neg (by simp [NodeMap.live, hdead]) _ _ _)
  · have hrule : ruleOf (.htNode h) s = .ok ⟨1, sym, nullHandle, freq⟩ s := by rw [ruleOf, ruleHtNode, hleaf]
    exact exec_of_ok hf hrule
  · have hrule : ruleOf (.htNode h) s = .ok ⟨0, l, r, freq⟩ s := by rw [ruleOf, ruleHtNode, hinner]
    exact exec_of_ok hf hrule
  · have hrule : ruleOf (.htFree h) s = .ok ⟨word (freeCount h s), 0, 0, 0⟩ (freeTree h s) :=
      need_pos (Option.isSome_iff_ne_none.2 hlive) _ _ _
    obtain ⟨hroot, hcursor⟩ := freeTree_register hok h
    exact ⟨_, exec_of_ok hf hrule, (freeTree_freed hok h).congr rfl, hroot, hcursor, freeTree_sublist h s, rfl⟩

end Sys2Proof.Machine
end

section
/-! PROOFS. Serialization of the tree at ROOT (spec/44_tree_serialization.md R220). HT.SER checks the tree, its symbols and its
size, then writes once; the rule of a tree that passes its checks is stated at any address, since CD.ENCODE runs it too. -/

namespace Sys2Proof.Machine

/-- The check of the symbols passes when every leaf of a CHAR-mode tree names a byte (R220). -/
theorem symbolsNameBytes_iff {m : Mode} {T : Tree} :
    (m = .char → T.syms.all (fun x => decide (x.toNat ≤ 255)) = true) ↔ (m = .char → ∀ x ∈ T.syms, x.toNat ≤ 255) := by
  simp only [List.all_eq_true, decide_eq_true_eq]

theorem serTree_of_no_tree {addr : Nat} {s : State} (h : s.rootTree = none) :
    serTree addr s = .raise (illegal 8 5) s := by
  rw [serTree, h]

section
variable {addr : Nat} {s : State} {T : Tree} (hT : s.rootTree = some T)
include hT

/-- A CHAR-mode leaf that names no byte is refused before the size is looked at. -/
theorem serTree_of_unnamed (hnamed : ¬(s.mode = .char → ∀ x ∈ T.syms, x.toNat ≤ 255)) :
    serTree addr s = .raise (illegal 8 6) s := by
  rw [serTree, hT]
  exact need_neg (mt symbolsNameBytes_iff.1 hnamed) _ _ _

variable (hnamed : s.mode = .char → ∀ x ∈ T.syms, x.toNat ≤ 255)
include hnamed

theorem serTree_of_oversized (hsize : s.cfg.bbMaxBits < (T.ser s.mode).length) :
    serTree addr s = .raise (allocFail 1 (T.ser s.mode).length) s := by
  rw [serTree, hT]
  exact (need_pos (symbolsNameBytes_iff.2 hnamed) _ _ _).trans (need_neg (Nat.not_le.2 hsize) _ _ _)

/-- With its checks passed, serializing is one write of the packed bits, then SCR overwritten with the bits. -/
theorem serTree_of_checked (hsize : (T.ser s.mode).length ≤ s.cfg.bbMaxBits) :
    serTree addr s = (memWrite addr (pack (T.ser s.mode)) s).bind fun _ s' =>
      .ok ⟨word (bytesFor (T.ser s'.mode).length), word (T.ser s'.mode).length, 0, 0⟩
        (s'.setBuf 1 ⟨T.ser s'.mode, grow s'.cfg (s'.buf 1).cap (bytesFor (T.ser s'.mode).length)⟩) := by
  rw [serTree, hT]
  exact (need_pos (symbolsNameBytes_iff.2 hnamed) _ _ _).trans (need_pos hsize _ _ _)

end

/-- Settles O37: tree, symbols and size are checked in this order, then the one write raises or puts every byte. -/
theorem htSerWritesTheTree : Obligations.HtSerWritesTheTree := by
  intro s addr hf
  refine ⟨fun hnone => ?_, fun T hT => ⟨fun hbad => ?_, fun hnamed hsize => ?_, fun hnamed hsize x hx => ?_,
    fun hnamed hsize hw => ?_⟩⟩
  · exact exec_of_raise .illegalCommand rfl rfl hf (serTree_of_no_tree hnone)
  · exact exec_of_raise .illegalCommand rfl rfl hf (serTree_of_unnamed hT hbad)
  · exact exec_of_raise .allocationFailure rfl rfl hf (serTree_of_oversized hT hnamed hsize)
  · have hwrite := memWrite_raise (v := pack (T.ser s.mode)) (by rw [pack_length]; exact hx)
    have hrule : ruleOf (.htSer addr) s = .raise (ioError x true) s := by
      rw [ruleOf, ruleHtSer, serTree_of_checked hT hnamed hsize, hwrite, bind_raise]
    exact exec_of_raise .ioError rfl rfl hf hrule
  · have hwrite := memWrite_ok (v := pack (T.ser s.mode)) (by rw [pack_length]; exact hw)
    have hrule : ruleOf (.htSer addr) s =
        .ok ⟨word (bytesFor (T.ser s.mode).length), word (T.ser s.mode).length, 0, 0⟩
          ((s.wrote addr.toNat (pack (T.ser s.mode))).setBuf 1
            ⟨T.ser s.mode, grow s.cfg (s.buf 1).cap (bytesFor (T.ser s.mode).length)⟩) := by
      rw [ruleOf, ruleHtSer, serTree_of_checked hT hnamed hsize, hwrite, bind_ok]
      rfl
    exact exec_of_ok hf hrule

end Sys2Proof.Machine
end

section
/-! PROOFS. The CT commands that only look something up or write it out (spec/45_code_table.md R242,
44_tree_serialization.md R224). CT.GET checks its buffer, then the code decides; CT.STSTORE is one write. -/

namespace Sys2Proof.Machine

/-- A precise command that comes to a write of OUT faults at the least unwritable address (20_memory.md R72). -/
theorem exec_of_unwritable {i : Instr} {addr x : Nat} {v : Bytes} {w : Word} {s : State}
    {k : Unit → State → Ruling Results} (hi : ruleOf i s = (memWrite addr v s).bind k) (hc : commandClass i = .precise)
    (hw : i.w0 = w) (hf : s.status.fault = false) (hx : s.LeastUnwritable addr v.length x) :
    exec i s = .next (s.faulted 8 w (word x) 1) :=
  exec_of_precise_raise .ioError hc hw hf (hi.trans (congrArg (Ruling.bind · k) (memWrite_raise hx)))

theorem ruleCtGet_of_no_code {sym b : Word} {s : State} (hb : b.toNat < s.cfg.nb) (hnone : mapFind sym s.code = none) :
    ruleCtGet sym b s = .raise ⟨.unknownSymbol, sym, 0⟩ s := by
  rw [ruleCtGet, needBuffer_pos hb, hnone]

/-- The code replaces the buffer whole, its bits and its capacity (R242). -/
theorem ruleCtGet_of_code {sym b : Word} {s : State} {c : Bits} (hb : b.toNat < s.cfg.nb)
    (hcode : mapFind sym s.code = some c) : ruleCtGet sym b s =
      .ok ⟨word c.length, 0, 0, 0⟩ (s.setBuf b.toNat ⟨c, max s.cfg.bbMinCap (bytesFor c.length)⟩) := by
  rw [ruleCtGet, needBuffer_pos hb, hcode]

/-- Settles O44: CT.GET by its buffer check and the lookup, CT.STSTORE by the write of the table raising or putting every
byte. -/
theorem ctGetAndCtStstore : Obligations.CtGetAndCtStstore := by
  intro s sym b addr hf v
  have hstore : ruleOf (.ctStstore addr) s = (memWrite addr.toNat v s).bind fun _ s' =>
      .ok ⟨word v.length, word s.symtab.length, 0, 0⟩ s' := rfl
  refine ⟨fun hb => ?_, fun hb hnone => ?_, fun hb c hcode => ?_, fun x hx => ?_, fun hw => ?_⟩
  · exact exec_of_invalid_buffer rfl rfl rfl hf hb
  · exact exec_of_raise .unknownSymbol rfl rfl hf (ruleCtGet_of_no_code hb hnone)
  · exact exec_of_ok hf (ruleCtGet_of_code hb hcode)
  · exact exec_of_unwritable hstore rfl (w0_of_unflagged rfl) hf hx
  · exact exec_of_ok hf (hstore.trans (by rw [memWrite_ok hw, bind_ok]))

end Sys2Proof.Machine
end

section
/-! PROOFS. The SYS family (spec/48_system.md R281 to R285). SYS.RESET, SYS.CLRERR and SYS.RDCR pass the faulted-engine
filter; a number is read and written through the one register that the map gives it (10_state.md R26). -/

namespace Sys2Proof.Machine

/-! ## Commands that clear state -/

/-- A command that passes the faulted-engine filter completes when its rule does, also while a fault is pending
(48_system.md R280 steps 1 and 4). -/
theorem exec_of_ok_unfiltered {i : Instr} {s t : State} {res : Results} (hp : passesFilter i.fields.opcode = true)
    (h : ruleOf i s = .ok res t) : exec i s = .next (t.answered res) := by
  have hfilter : ¬(s.status.fault && !passesFilter i.fields.opcode) = true := by simp [hp]
  rw [exec_eq_runRule, runRule, if_neg hfilter, h]
  rfl

/-- The reset values are those of every field but the memories, the port and the response (10_state.md R59). -/
theorem atReset_resetOf_with (c : Config) (inEra outEra : Nat) (inMem outMem : Memory) (port : List HostMove)
    (resp : Option Response) : ({ State.resetOf c inEra outEra with
      inMem := inMem, outMem := outMem, port := port, resp := resp } : State).AtReset where
  results := rfl
  status := rfl
  faultRegs := ⟨rfl, rfl, rfl, rfl⟩
  mode := rfl
  lengths := ⟨rfl, rfl⟩
  pqOrder := rfl
  root := rfl
  automaton := ⟨rfl, rfl, rfl, rfl⟩
  symCount := rfl
  buffers := rfl
  queue := rfl
  store := ⟨rfl, rfl⟩
  trie := rfl
  tables := ⟨rfl, rfl, rfl⟩

/-- Settles O8: SYS.RESET passes the filter, and its rule builds on the reset state and keeps the two memories. -/
theorem resetGivesTheResetValues : Obligations.ResetGivesTheResetValues := by
  refine ⟨atReset_resetOf_with _ 0 0 _ _ _ _, fun s => ⟨_, exec_of_ok_unfiltered rfl rfl, ?_, ⟨rfl, rfl⟩, rfl, ?_, ?_⟩⟩
  · exact atReset_resetOf_with s.cfg s.inMem.era s.outMem.era s.inMem s.outMem s.port _
  · exact fun _ => rfl
  · exact fun _ => rfl

/-- Settles O10: both rules complete, and SYS.CLRERR passes the filter. -/
theorem sysNopAndClrerr : Obligations.SysNopAndClrerr :=
  fun _ => ⟨fun hf => exec_of_ok hf rfl, exec_of_ok_unfiltered rfl rfl⟩

/-! ## Reading a control register -/

theorem statusWord_eq (f : Status) :
    f.word = (if f.fault then 1 else 0) + (if f.empty then 2 else 0) + (if f.found then 4 else 0) := by
  obtain ⟨fault, empty, found⟩ := f
  revert fault empty found
  decide

theorem modeWord_eq (m : Mode) : m.toWord = if m = .word then 1 else 0 := by cases m <;> rfl

theorem pqOrderWord_eq (o : PqOrder) : o.toWord = if o = .maxFirst then 1 else 0 := by cases o <;> rfl

/-- The numbers below 0x18 are those of the registers listed one by one (10_state.md R26). -/
theorem controlValue_low (s : State) {n : Nat} (hn : n < 0x18) :
    s.controlValue n = ctrlRegsLow[n]?.map s.readCtrl := by
  match n, hn with
  | 1, _ => exact congrArg some (statusWord_eq s.status).symm
  | 6, _ => exact congrArg some (modeWord_eq s.mode).symm
  | 9, _ => exact congrArg some (pqOrderWord_eq s.pqOrder).symm
  | 0, _ | 2, _ | 3, _ | 4, _ | 5, _ | 7, _ | 8, _ | 10, _ | 11, _ | 12, _ | 13, _ => rfl
  | 14, _ | 15, _ | 16, _ | 17, _ | 18, _ | 19, _ | 20, _ | 21, _ | 22, _ | 23, _ => rfl
  | m + 0x18, h => exact absurd h (Nat.not_lt.2 (Nat.le_add_left _ _))

/-- The numbers from 0x18 on are those of the bit-buffer registers (10_state.md R41). -/
theorem controlValue_high (s : State) (m : Nat) :
    s.controlValue (m + 0x18) =
      if 0x20 ≤ m + 0x18 ∧ m + 0x18 < 0x20 + s.cfg.nb then some (s.readCtrl (.bbSize (m + 0x18 - 0x20)))
      else if 0x40 ≤ m + 0x18 ∧ m + 0x18 < 0x40 + s.cfg.nb then some (s.readCtrl (.bbCap (m + 0x18 - 0x40)))
      else none := rfl

/-- The value at a number is the value of the register that the number names. -/
theorem controlValue_eq (s : State) (n : Nat) : s.controlValue n = (ctrlReg s.cfg n).map s.readCtrl := by
  by_cases hn : n < 0x18
  · rw [controlValue_low s hn, ctrlReg, if_pos hn]
  · obtain ⟨m, rfl⟩ := Nat.exists_eq_add_of_le' (Nat.not_lt.1 hn)
    rw [controlValue_high, ctrlReg, if_neg hn, apply_ite (Option.map _), apply_ite (Option.map _)]
    rfl

/-- Settles O11: a number with a value names a register, which is read; any other names none. -/
theorem rdcrReadsTheMap : Obligations.RdcrReadsTheMap := by
  intro s cr
  refine ⟨fun v hv => ?_, fun hnone hf => ?_⟩
  · rw [controlValue_eq] at hv
    obtain ⟨r, hr, rfl⟩ := Option.map_eq_some_iff.1 hv
    have hrule : ruleOf (.sysRdcr cr) s = .ok ⟨s.readCtrl r, 0, 0, 0⟩ s := by
      rw [ruleOf, ruleSysRdcr, hr]
    exact exec_of_ok_unfiltered rfl hrule
  · rw [controlValue_eq, Option.map_eq_none_iff] at hnone
    have hrule : ruleOf (.sysRdcr cr) s = .raise (illegal 6 cr) s := by
      rw [ruleOf, ruleSysRdcr, hnone]
    exact exec_of_raise .illegalCommand rfl rfl hf hrule

/-! ## Writing a control register -/

/-- A register listed one by one has one number, its place in the list (10_state.md R26). -/
theorem ctrlReg_eq_low {c : Config} {n : Nat} {r : CtrlReg} (hr : r ∈ ctrlRegsLow) (h : ctrlReg c n = some r) :
    n = ctrlRegsLow.idxOf r := by
  have hnodup : ctrlRegsLow.Nodup := by decide
  unfold ctrlReg at h
  split at h
  · obtain ⟨hn, rfl⟩ := List.getElem?_eq_some_iff.1 h
    exact (hnodup.idxOf_getElem n hn).symm
  · split at h
    · cases h
      simp [ctrlRegsLow] at hr
    · split at h
      · cases h
        simp [ctrlRegsLow] at hr
      · cases h

/-- SYS.WRCR refuses every number but those of its four registers (R285). -/
theorem ruleSysWrcr_of_other {cr v : Word} {s : State} (h6 : cr ≠ 6) (h7 : cr ≠ 7) (h8 : cr ≠ 8) (h9 : cr ≠ 9) :
    ruleSysWrcr cr v s = .raise (illegal 6 cr) s := by
  unfold ruleSysWrcr
  split
  · next h => exact absurd (BitVec.eq_of_toNat_eq (ctrlReg_eq_low (by decide) h)) h6
  · next h => exact absurd (BitVec.eq_of_toNat_eq (ctrlReg_eq_low (by decide) h)) h7
  · next h => exact absurd (BitVec.eq_of_toNat_eq (ctrlReg_eq_low (by decide) h)) h8
  · next h => exact absurd (BitVec.eq_of_toNat_eq (ctrlReg_eq_low (by decide) h)) h9
  · rfl

theorem ruleSysWrcr_mode (v : Word) (s : State) :
    ruleSysWrcr 6 v s = need (v.toNat ≤ 1) (illegal 7 v) s (.ok Results.zero { s with mode := Mode.ofWord v }) := rfl

theorem ruleSysWrcr_inLen (v : Word) (s : State) :
    ruleSysWrcr 7 v s = need (v.toNat ≤ s.cfg.inCap) (illegal 7 v) s (.ok Results.zero { s with inLen := v }) := rfl

theorem ruleSysWrcr_outLen (v : Word) (s : State) :
    ruleSysWrcr 8 v s = need (v.toNat ≤ s.cfg.outCap) (illegal 7 v) s (.ok Results.zero { s with outLen := v }) := rfl

theorem ruleSysWrcr_pqOrder (v : Word) (s : State) :
    ruleSysWrcr 9 v s = need (v.toNat ≤ 1) (illegal 7 v) s
      (need (s.pq.entries = []) (illegal 8 2) s (.ok Results.zero { s with pqOrder := PqOrder.ofWord v })) := rfl

/-- Each of the four registers refuses a value out of its range, PQ_ORDER whether or not items are queued (R285). -/
theorem ruleSysWrcr_of_illegal_value {cr v : Word} {s : State}
    (h : (cr = 6 ∧ 1 < v.toNat) ∨ (cr = 7 ∧ s.cfg.inCap < v.toNat) ∨ (cr = 8 ∧ s.cfg.outCap < v.toNat) ∨
      (cr = 9 ∧ 1 < v.toNat)) : ruleSysWrcr cr v s = .raise (illegal 7 v) s := by
  obtain ⟨rfl, hv⟩ | ⟨rfl, hv⟩ | ⟨rfl, hv⟩ | ⟨rfl, hv⟩ := h
  · exact (ruleSysWrcr_mode v s).trans (need_neg (Nat.not_le.2 hv) _ _ _)
  · exact (ruleSysWrcr_inLen v s).trans (need_neg (Nat.not_le.2 hv) _ _ _)
  · exact (ruleSysWrcr_outLen v s).trans (need_neg (Nat.not_le.2 hv) _ _ _)
  · exact (ruleSysWrcr_pqOrder v s).trans (need_neg (Nat.not_le.2 hv) _ _ _)

/-- Settles O12: the number is checked first, then the value, then for PQ_ORDER the queue. -/
theorem wrcrWritesFourRegisters : Obligations.WrcrWritesFourRegisters := by
  intro s cr v hf
  refine ⟨fun h6 h7 h8 h9 => ?_, fun hv => ?_, ?_, ?_, ?_, ?_, ?_, ?_, ?_⟩
  · exact exec_of_raise .illegalCommand rfl rfl hf (ruleSysWrcr_of_other h6 h7 h8 h9)
  · exact exec_of_raise .illegalCommand rfl rfl hf (ruleSysWrcr_of_illegal_value hv)
  · rintro rfl hv hqueued
    exact exec_of_raise .illegalCommand rfl rfl hf
      ((ruleSysWrcr_pqOrder v s).trans ((need_pos hv _ _ _).trans (need_neg hqueued _ _ _)))
  · rintro rfl rfl
    exact exec_of_ok hf (ruleSysWrcr_mode 0 s)
  · rintro rfl rfl
    exact exec_of_ok hf (ruleSysWrcr_mode 1 s)
  · rintro rfl hv
    exact exec_of_ok hf ((ruleSysWrcr_inLen v s).trans (need_pos hv _ _ _))
  · rintro rfl hv
    exact exec_of_ok hf ((ruleSysWrcr_outLen v s).trans (need_pos hv _ _ _))
  · rintro rfl rfl hempty
    exact exec_of_ok hf ((ruleSysWrcr_pqOrder 0 s).trans (need_pos hempty _ _ _))
  · rintro rfl rfl hempty
    exact exec_of_ok hf ((ruleSysWrcr_pqOrder 1 s).trans (need_pos hempty _ _ _))

end Sys2Proof.Machine
end

section
/-! PROOFS. The command word (spec/30_encoding.md R100 to R105). A word is decoded by the row of its opcode; the row's mask
leaves exactly the bits that the command's own fields put back, so decoding and encoding are inverse. -/

namespace Sys2Proof

/-! ## Words and commands -/

/-- Settles O1: the opcode selects the row, and its mask is compared. -/
theorem writtenWordsDecode : Obligations.WrittenWordsDecode := by
  unfold Obligations.WrittenWordsDecode
  decide

/-- Settles O2: a command's row is found under its opcode, its word matches the row, and the row builds the command again. -/
theorem decodeOfEncodeIsTheCommand : Obligations.DecodeOfEncodeIsTheCommand := by
  intro i
  obtain ⟨r, hrow, -, hbuild⟩ := rowOf_opcode i
  rw [decodeWord, wordOpcode_encode, hrow]
  simp only [encode_matches hrow, if_true, wordF0_encode, wordA_encode, wordB_encode, wordC_encode, hbuild]

/-- The fields of a word that a format uses, the others 0 (R102). -/
def Format.restrict (op : Byte) (f0 : Bool) (a b c : Word) : Format → Fields
  | .n => ⟨op, false, 0, 0, 0⟩
  | .nf => ⟨op, f0, 0, 0, 0⟩
  | .a => ⟨op, false, a, 0, 0⟩
  | .ab => ⟨op, false, a, b, 0⟩
  | .abf => ⟨op, f0, a, b, 0⟩
  | .abc => ⟨op, false, a, b, c⟩

/-- A command built by a row is spelled with the row's opcode and the fields of its format. -/
theorem fields_build {r : Row} (hr : r ∈ rows) (f0 : Bool) (a b c : Word) :
    (r.build f0 a b c).fields = r.format.restrict r.opcode f0 a b c := by
  have all : ∀ r ∈ rows, (fun r : Row => (r.build f0 a b c).fields = r.format.restrict r.opcode f0 a b c) r := by
    simp only [rows, rowsSys, rowsBb, rowsPq, rowsPtFt, rowsHt, rowsCtCd, List.cons_append, List.nil_append,
      List.forall_mem_cons]
    exact ⟨rfl, rfl, rfl, rfl, rfl, rfl, rfl, rfl, rfl, rfl, rfl, rfl, rfl, rfl, rfl, rfl, rfl, rfl, rfl, rfl, rfl, rfl,
      rfl, rfl, rfl, rfl, rfl, rfl, rfl, rfl, rfl, rfl, rfl, rfl, rfl, rfl, rfl, rfl, rfl, rfl, rfl, rfl, by simp⟩
  exact all r hr

theorem word_and_full (v : Word) : v &&& 0xFFFFFFFF#32 = v := BitVec.and_allOnes

/-- A word that matches a row is put together from the fields that the row's format uses (R102, R104). -/
theorem assemble_restrict {r : Row} {w : CommandWord} (h : w &&& r.format.mask = r.pattern) :
    (let f := r.format.restrict r.opcode (wordF0 w) (wordA w) (wordB w) (wordC w)
     assemble (headWord f.opcode f.f0) f.a f.b f.c) = w := by
  obtain ⟨h0, ha, hb, hc⟩ := (masked_eq_iff _ _ _).1 h
  rw [wordW0_pattern] at h0
  rw [wordA_pattern] at ha
  rw [wordB_pattern] at hb
  rw [wordC_pattern] at hc
  have flagged : wordW0 w &&& 0xFFFFFEFF#32 = r.opcode.setWidth 32 → headWord r.opcode (wordF0 w) = wordW0 w :=
    fun h => wordF0_eq w ▸ headWord_of_masked h
  cases hf : r.format <;>
    simp only [hf, Format.mask, wordW0_assemble, wordA_assemble, wordB_assemble, wordC_assemble, word_and_full] at h0 ha hb hc <;>
    refine word_ext ?_ ?_ ?_ ?_ <;>
    simp_all [Format.restrict, headWord_false]

/-- A word decodes to a command exactly when it is the command's encoding (R102, R104, R105). -/
theorem decodeWord_eq_command {w : CommandWord} {i : Instr} : decodeWord w = .command i ↔ encode i = w := by
  constructor
  · intro h
    unfold decodeWord at h
    split at h
    · cases h
    · next r hrow =>
      obtain ⟨hr, -⟩ := rowOf_some hrow
      split at h
      · next hm =>
        cases h
        have := assemble_restrict hm
        rwa [← fields_build hr] at this
      · cases h
  · rintro rfl
    exact decodeOfEncodeIsTheCommand i

/-- Settles O3. -/
theorem encodeOfDecodedIsTheWord : Obligations.EncodeOfDecodedIsTheWord := fun _ _ => decodeWord_eq_command.1

/-! ## Words as bytes -/

/-- Four little-endian bytes of a word come first in the number that bytes spell (R101). -/
theorem natOfBytesLE_u32le_append (v : Word) (rest : Bytes) :
    natOfBytesLE (Machine.u32le v ++ rest) = v.toNat + 2 ^ 32 * natOfBytesLE rest := by
  have := v.isLt
  simp only [Machine.u32le, List.cons_append, List.nil_append, natOfBytesLE, BitVec.extractLsb'_toNat,
    Nat.shiftRight_eq_div_pow]
  omega

/-- A command word as a number (R100). -/
theorem toNat_words (w : CommandWord) : w.toNat =
    (wordW0 w).toNat + 2 ^ 32 * ((wordA w).toNat + 2 ^ 32 * ((wordB w).toNat + 2 ^ 32 * (wordC w).toNat)) := by
  have := w.isLt
  simp only [wordW0, wordA, wordB, wordC, BitVec.extractLsb'_toNat, Nat.shiftRight_eq_div_pow]
  omega

theorem bytesOfWord_eq (w : CommandWord) : bytesOfWord w =
    Machine.u32le (wordW0 w) ++ Machine.u32le (wordA w) ++ Machine.u32le (wordB w) ++ Machine.u32le (wordC w) := by
  have byte : ∀ p q : Nat, q + 8 ≤ 32 → (w.extractLsb' p 32).extractLsb' q 8 = w.extractLsb' (p + q) 8 := by
    intro p q hq
    ext i hi
    have : q + i < 32 := by omega
    simp [this, Nat.add_assoc]
  simp only [Machine.u32le, wordW0, wordA, wordB, wordC, byte _ 0 (by omega), byte _ 8 (by omega), byte _ 16 (by omega),
    byte _ 24 (by omega)]
  rfl

/-- Settles O4: the number that the bytes spell is the word. -/
theorem commandWordsAreLittleEndianBytes : Obligations.CommandWordsAreLittleEndianBytes := by
  intro w rest
  refine ⟨bytesOfWord_eq w, ?_⟩
  have hlen : (bytesOfWord w).length = 16 := by simp [bytesOfWord]
  have hnat : natOfBytesLE (bytesOfWord w) = w.toNat := by
    have nil : natOfBytesLE [] = 0 := rfl
    rw [bytesOfWord_eq, ← List.append_nil (Machine.u32le (wordC w)), toNat_words]
    simp only [List.append_assoc, natOfBytesLE_u32le_append, nil, Nat.mul_zero, Nat.add_zero]
  rw [decodeBytes, if_neg (by simp [hlen]), List.take_left' hlen, List.drop_left' hlen, hnat, BitVec.ofNat_toNat,
    BitVec.setWidth_eq]

end Sys2Proof
end

section
/-! PROOFS. The command port (spec/10_state.md R20; spec/48_system.md R280 steps 1 and 2; spec/60_exceptions.md R316): what a
step does with each of the host's moves, and with a word that spells no command. -/

namespace Sys2Proof.Machine

/-! ## The host's moves -/

theorem step_of_idle {s : State} (h : s.port = []) : step s = .next s := by rw [step, takeMove, h]

theorem step_of_move {s : State} {m : HostMove} {rest : List HostMove} (h : s.port = m :: rest) :
    step s = runMove m { s with port := rest } := by rw [step, takeMove, h]

/-- Settles O6. -/
theorem stepRunsTheDecodedCommand : Obligations.StepRunsTheDecodedCommand := by
  intro s w rest i hport hdec
  rw [step_of_move hport, runMove, runWord, hdec]

/-- The byte of IN at an address after bytes are placed in IN (10_state.md R56). -/
theorem inByte_putAll (s : State) (a x : Nat) (v : Bytes) : ({ s with inMem := s.inMem.putAll a v } : State).inByte x =
    if a ≤ x ∧ x < a + v.length then v.getD (x - a) 0 else s.inByte x := by
  simp only [State.inByte, cell_putAll, putAll_era]
  split
  · next h =>
    have : x - a < v.length := by omega
    simp [List.getD_eq_getElem?_getD, this]
  · rfl

theorem hostWriteIn_of_inside {addr : Nat} {v : Bytes} {s : State} (h : v = [] ∨ addr + v.length ≤ s.cfg.inCap) :
    hostWriteIn addr v s = .next { s with inMem := s.inMem.putAll addr v } := if_pos h

/-- Settles O7: the port decides which of the moves is made. -/
theorem hostMovesBetweenCommands : Obligations.HostMovesBetweenCommands := by
  refine ⟨fun s => step_of_idle, fun s addr bytes rest hport => ⟨fun h => ?_, fun hne hout => ?_⟩, fun s rest hport => ?_⟩
  · exact ⟨_, (step_of_move hport).trans (hostWriteIn_of_inside h), fun a => inByte_putAll s addr a bytes⟩
  · have hn : ¬(bytes = [] ∨ addr + bytes.length ≤ s.cfg.inCap) := not_or.2 ⟨hne, by omega⟩
    exact (step_of_move hport).trans (if_neg hn)
  · exact ⟨_, step_of_move hport, atReset_resetOf_with _ _ _ _ _ _ _, rfl, rfl⟩

/-! ## Words that spell no command -/

theorem rows_opcodes : rows.map Row.opcode = definedOpcodes := rfl

/-- An opcode has no row exactly when the map does not list it (30_encoding.md R105). -/
theorem rowOf_eq_none {op : Byte} : rowOf op = none ↔ op ∉ definedOpcodes := by
  rw [rowOf, List.find?_eq_none, ← rows_opcodes]
  simp only [List.mem_map, beq_iff_eq, not_exists, not_and]

theorem decodeWord_of_reserved {w : CommandWord} (h : wordOpcode w ∉ definedOpcodes) :
    decodeWord w = .reservedOpcode (wordOpcode w) := by
  rw [decodeWord, rowOf_eq_none.2 h]

/-- A word with a defined opcode that spells no command has an unused bit set (30_encoding.md R104). -/
theorem decodeWord_of_unused {w : CommandWord} (h : wordOpcode w ∈ definedOpcodes) (hw : ∀ i, encode i ≠ w) :
    decodeWord w = .unusedBitSet (wordOpcode w) := by
  obtain ⟨r, hr⟩ := Option.ne_none_iff_exists'.1 fun hn => rowOf_eq_none.1 hn h
  by_cases hm : w &&& r.format.mask = r.pattern
  · have : decodeWord w = .command (r.build (wordF0 w) (wordA w) (wordB w) (wordC w)) := by
      rw [decodeWord, hr]; exact if_pos hm
    exact absurd (decodeWord_eq_command.1 this) (hw _)
  · rw [decodeWord, hr]; exact if_neg hm

theorem runWord_of_reserved {w : CommandWord} (h : wordOpcode w ∉ definedOpcodes) (s : State) :
    runWord w s = .next (runIllegal w 0 s) := by
  rw [runWord, decodeWord_of_reserved h]

theorem runWord_of_unused {w : CommandWord} (h : wordOpcode w ∈ definedOpcodes) (hw : ∀ i, encode i ≠ w) (s : State) :
    runWord w s = .next (runIllegal w 1 s) := by
  rw [runWord, decodeWord_of_unused h hw]

/-- An illegal word on an engine without a fault is a precise fault (60_exceptions.md R309, R313). -/
theorem runIllegal_of_no_fault {w : CommandWord} {sub : Nat} {s : State} (hf : s.status.fault = false) :
    runIllegal w sub s = s.faulted 9 (wordW0 w) (word sub) ((wordOpcode w).setWidth 32) := by
  rw [runIllegal, if_neg (by simp [hf]), takeFault_faulted hf]
  rfl

/-- Settles O5: the decoder names the reason, and the fault carries its sub-cause. -/
theorem wordsThatSpellNoCommandFault : Obligations.WordsThatSpellNoCommandFault := by
  intro s w rest hport hf
  have hstep := step_of_move hport
  refine ⟨fun hop => ?_, fun hop hw => ?_⟩
  · rw [hstep, runMove, runWord_of_reserved hop]
    exact congrArg Host.Outcome.next (runIllegal_of_no_fault hf)
  · rw [hstep, runMove, runWord_of_unused hop hw]
    exact congrArg Host.Outcome.next (runIllegal_of_no_fault hf)

/-! ## A fault is pending -/

theorem passesFilter_iff (op : Byte) : passesFilter op = true ↔ op ∈ [0x01#8, 0x02#8, 0x03#8] := by
  simp [passesFilter, or_assoc]

/-- Only SYS.RESET, SYS.CLRERR and SYS.RDCR pass the faulted-engine filter (48_system.md R280 step 1). -/
theorem passesFilter_opcode {i : Instr} (h1 : i ≠ .sysReset) (h2 : i ≠ .sysClrerr) (h3 : ∀ cr, i ≠ .sysRdcr cr) :
    passesFilter i.fields.opcode = false := by
  cases i with
  | sysReset => exact absurd rfl h1
  | sysClrerr => exact absurd rfl h2
  | sysRdcr cr => exact absurd rfl (h3 cr)
  | _ => rfl

/-- A second fault only answers its code (60_exceptions.md R316). -/
theorem takeFault_of_pending {w0 : Word} {r : Raise} {s : State} (hf : s.status.fault = true) :
    takeFault w0 r s s = { s with resp := some ⟨r.cause.code, s.res⟩ } := by
  rw [takeFault, if_pos hf]

/-- An illegal word while a fault is pending changes the response alone (48_system.md R280 step 1). -/
theorem runIllegal_of_fault {w : CommandWord} {sub : Nat} {s : State} (hf : s.status.fault = true) :
    runIllegal w sub s =
      { s with resp := some ⟨if wordOpcode w ∈ [0x01#8, 0x02#8, 0x03#8] then 9 else 0xFF, s.res⟩ } := by
  by_cases hp : wordOpcode w ∈ [0x01#8, 0x02#8, 0x03#8]
  · rw [if_pos hp, runIllegal, if_neg (by simp [(passesFilter_iff _).2 hp]), takeFault_of_pending hf]
    rfl
  · have hnp : passesFilter (wordOpcode w) = false := by rw [Bool.eq_false_iff]; exact fun h => hp ((passesFilter_iff _).1 h)
    rw [if_neg hp, runIllegal, if_pos (by simp [hf, hnp])]
    rfl

/-- A word that spells no command is handled as an illegal word, with sub-cause 0 or 1. -/
theorem runWord_of_illegal {w : CommandWord} (hw : ∀ i, encode i ≠ w) (s : State) :
    ∃ sub, runWord w s = .next (runIllegal w sub s) := by
  by_cases hop : wordOpcode w ∈ definedOpcodes
  · exact ⟨1, runWord_of_unused hop hw s⟩
  · exact ⟨0, runWord_of_reserved hop s⟩

/-- Settles O9: the filter ignores all but three commands, and a second fault is not recorded. -/
theorem firstFaultIsKeptUntilCleared : Obligations.FirstFaultIsKeptUntilCleared := by
  intro s hf
  refine ⟨fun i h1 h2 h3 => ?_, fun cr hcr => ?_, fun w rest hport hw => ?_⟩
  · rw [exec_eq_runRule]
    exact runRule_ignored hf (passesFilter_opcode h1 h2 h3)
  · rw [controlValue_eq, Option.map_eq_none_iff] at hcr
    have hrule : ruleSysRdcr cr s = .raise (illegal 6 cr) s := by rw [ruleSysRdcr, hcr]
    rw [exec, execSysRdcr, runRule, if_neg (by rw [hf]; simp [Instr.fields, passesFilter]), hrule]
    exact congrArg Host.Outcome.next (takeFault_of_pending hf)
  · obtain ⟨sub, h⟩ := runWord_of_illegal hw { s with port := rest }
    rw [step_of_move hport, runMove, h]
    exact congrArg Host.Outcome.next (runIllegal_of_fault hf)

end Sys2Proof.Machine
end

section
/-! PROOFS. Functions of the model on numbers, bits, byte strings and trees (spec/00_scope.md R12, R14; spec/10_state.md R43,
R51; spec/20_memory.md R73 to R76; spec/30_encoding.md R115). -/

namespace Sys2Proof.Machine

/-- Settles O18: the doubling loop has enough fuel to find the least doubling. -/
theorem growIsTheLeastDoubling : Obligations.GrowIsTheLeastDoubling := by
  intro c cap need hcap
  obtain ⟨k, -, henough, hleast, heq⟩ := doubleUntil_spec need cap need (need_le_doubling need hcap)
  exact ⟨k, henough, hleast, by rw [grow, heq]⟩

/-- Settles O19. -/
theorem packingAndByteOrder : Obligations.PackingAndByteOrder :=
  ⟨fun bits => ⟨pack_length bits, fun _ _ => pack_getLsbD⟩, fun bytes => ⟨unpack_length bytes, fun _ => unpack_getD⟩,
    fun n v _ hi => ⟨bitsLSB_length n v, bitsLSB_getD hi⟩, fun v => ⟨rfl, le32_u32le v, pack_bitsLSB_word v⟩⟩

/-! ## The order of byte strings -/

/-- `a` and `b` agree before some index, and there the byte of `a` is the smaller (00_scope.md R14). -/
def FirstDifferenceSmaller (a b : Bytes) : Prop :=
  ∃ i x y, a.take i = b.take i ∧ a[i]? = some x ∧ b[i]? = some y ∧ x.toNat < y.toNat

theorem firstDifferenceSmaller_cons (x y : Byte) (a b : Bytes) :
    FirstDifferenceSmaller (x :: a) (y :: b) ↔ x.toNat < y.toNat ∨ (x = y ∧ FirstDifferenceSmaller a b) := by
  constructor
  · rintro ⟨i, u, v, htake, hu, hv, hlt⟩
    cases i with
    | zero => simp only [List.getElem?_cons_zero, Option.some.injEq] at hu hv; subst hu hv; exact .inl hlt
    | succ i =>
      simp only [List.take_succ_cons, List.cons.injEq] at htake
      exact .inr ⟨htake.1, i, u, v, htake.2, by simpa using hu, by simpa using hv, hlt⟩
  · rintro (hlt | ⟨rfl, i, u, v, htake, hu, hv, hlt⟩)
    · exact ⟨0, x, y, rfl, rfl, rfl, hlt⟩
    · exact ⟨i + 1, u, v, by rw [List.take_succ_cons, List.take_succ_cons, htake], hu, hv, hlt⟩

/-- The order on byte strings is the one of 00_scope.md R14. -/
theorem lexLt_iff (a b : Bytes) : lexLt a b = true ↔ (a <+: b ∧ a ≠ b) ∨ FirstDifferenceSmaller a b := by
  induction a generalizing b with
  | nil =>
    cases b with
    | nil => simp [lexLt, FirstDifferenceSmaller]
    | cons y b => simp [lexLt]
  | cons x a ih =>
    cases b with
    | nil => simp [lexLt, FirstDifferenceSmaller]
    | cons y b =>
      simp only [lexLt, Bool.or_eq_true, decide_eq_true_eq, Bool.and_eq_true, beq_iff_eq, ih,
        firstDifferenceSmaller_cons, List.cons_prefix_cons, ne_eq, List.cons.injEq]
      tauto

/-- Settles O20: by induction along both strings, and by the laws of an order. -/
theorem lexIsATotalOrder : Obligations.LexIsATotalOrder := by
  refine ⟨lexLt_iff, fun a b hne => ⟨fun h => lexLt_order.asymm h, fun h => ?_⟩⟩
  by_contra hn
  exact hne (lexLt_total a b (by simpa using hn) h)

/-! ## Trees -/

/-- Settles O33. -/
theorem rootTreeIsTheWellFormedTree : Obligations.RootTreeIsTheWellFormedTree := fun _ h T => h.rootTree T

theorem Tree.syms_pos (T : Tree) : 1 ≤ T.syms.length := by
  induction T with
  | leaf sym => exact Nat.le_refl 1
  | node l r ihl _ => simp only [Tree.syms, List.length_append]; omega

/-- A tree with L leaves has 2L − 1 nodes. -/
theorem Tree.size_eq_syms (T : Tree) : T.size = 2 * T.syms.length - 1 := by
  induction T with
  | leaf sym => rfl
  | node l r ihl ihr =>
    have := l.syms_pos
    have := r.syms_pos
    simp only [Tree.size, Tree.syms, List.length_append, ihl, ihr]
    omega

@[simp] theorem symBits_length (m : Mode) (sym : Word) : (symBits m sym).length = symWidth m := bitsLSB_length _ _

/-- One bit for each node, and the symbol of each leaf (30_encoding.md R115). -/
theorem Tree.ser_length (m : Mode) (T : Tree) : (T.ser m).length = T.size + T.syms.length * symWidth m := by
  induction T with
  | leaf sym => simp [Tree.ser, Tree.size, Tree.syms]; omega
  | node l r ihl ihr =>
    simp only [Tree.ser, Tree.size, Tree.syms, List.length_cons, List.length_append, ihl, ihr, Nat.add_mul]
    omega

/-- Settles O38. -/
theorem serializedTreeSize : Obligations.SerializedTreeSize := by
  intro m T
  refine ⟨?_, T.syms_pos, T.size_eq_syms⟩
  rw [T.ser_length, T.size_eq_syms]
  rfl

end Sys2Proof.Machine
end

section
/-! PROOFS. The updates that commands are made of. A command's rule, whether it completes or raises, ends in a state that a
chain of single updates reaches; a `Permit` says which updates the command uses. Every claim about what all commands keep is
then one case distinction over the updates (spec/10_state.md R24, R44, R48; spec/20_memory.md R81). -/

namespace Sys2Proof.Machine

/-! ## Updates -/

/-- Which updates may occur, and from which handle on: nodes are joined, items queued and ROOT set. -/
structure Permit where
  /-- The node store meets its invariant, and every update keeps it. -/
  strict : Prop := False
  /-- `free_tree` occurs. -/
  free : Prop := False
  /-- OUT is written. -/
  writes : Prop := False
  /-- OUT is written at OUT_LEN alone. -/
  appends : Prop := False
  /-- STATUS.EMPTY is written. -/
  empty : Prop := False
  /-- PQ_ORDER is written. -/
  order : Prop := False
  /-- STATUS.FOUND is written. -/
  found : Prop := False
  /-- The frequency table is written. -/
  counts : Prop := False
  /-- The queue's items change. -/
  queue : Prop := True
  /-- ROOT is set. -/
  root : Prop := True
  /-- The bit buffers that are written. -/
  buffer : Nat → Prop := fun _ => False
  /-- Handles below this one are not joined, queued or made ROOT. -/
  floor : Nat := 0

/-- A register that names a node is NULL or live (10_state.md R37, R38). -/
def NullOrLive (s : State) (h : Word) : Prop := h = nullHandle ∨ NodeMap.live s.nodes h = true

/-- The children that a new node may have: live, different, and not owned (10_state.md R48, R49). -/
structure Joinable (s : State) (n : Node) : Prop where
  live : ∀ c ∈ n.children, NodeMap.live s.nodes c = true
  distinct : n.children.Nodup
  unowned : ∀ c ∈ n.children, NodeMap.owned s.nodes c = false

/-- One update of the state by a running command. What an invariant needs of the new value is a condition on the update. -/
inductive Update (p : Permit) (s : State) : State → Prop
  | write (a : Nat) (v : Bytes) : p.writes → (p.appends → a = s.outLen.toNat) → s.OutWritable a v.length →
      Update p s (s.wrote a v)
  | alloc (n : Node) : s.canAlloc = true → (p.strict → Joinable s n ∧ ∀ c ∈ n.children, p.floor ≤ c.toNat) →
      Update p s (s.allocated n)
  | free (h : Word) : p.free → Update p s (freeTree h s)
  | queue (q : PQueue) : p.queue → (s.cfg.queueOk = true → s.QueueOk → ({ s with pq := q } : State).QueueOk) →
      (∀ x ∈ q.entries, x ∈ s.pq.entries ∨ p.floor ≤ x.handle.toNat) → Update p s { s with pq := q }
  | order (o : PqOrder) : p.order → Update p s { s with pqOrder := o }
  | trie (t : Trie) : (s.TablesOk → s.TrieOk → ({ s with trie := t } : State).TrieOk) → Update p s { s with trie := t }
  | buffer (b : Nat) (v : BitBuffer) : p.buffer b →
      (s.cfg.wellFormed = true → s.BuffersOk → s.TablesOk → v.Ok s.cfg) → Update p s (s.setBuf b v)
  | automaton (cursor dpos dbit emitted symCount : Word) : (p.strict → cursor = s.cursor ∨ NullOrLive s cursor) →
      (s.dbit.toNat ≤ 7 → dbit.toNat ≤ 7) →
      Update p s { s with cursor := cursor, dpos := dpos, dbit := dbit, emitted := emitted, symCount := symCount }
  | root (r : Word) : p.root → (p.strict → NullOrLive s r ∧ (r = nullHandle ∨ p.floor ≤ r.toNat)) → Update p s { s with root := r }
  | symtab (l : List Bytes) : (s.TablesOk → ∀ w ∈ l, w ≠ []) → Update p s { s with symtab := l }
  | code (c : List (Word × Bits)) : (s.NodesOk → s.TablesOk → ({ s with code := c } : State).TablesOk) →
      Update p s { s with code := c }
  | empty (b : Bool) : p.empty → Update p s (s.setEmpty b)
  | found (b : Bool) : p.found → Update p s (s.setFound b)
  | counts (f : List (Bytes × Word)) : p.counts → (s.TablesOk → ({ s with ft := f } : State).TablesOk) →
      Update p s { s with ft := f }

/-- Updates, one after another. -/
abbrev Chain (p : Permit) : State → State → Prop := Relation.ReflTransGen (Update p)

theorem Chain.single {p : Permit} {s t : State} (h : Update p s t) : Chain p s t := Relation.ReflTransGen.single h

/-- The second permit allows whatever the first does. -/
structure Permit.Le (p q : Permit) : Prop where
  strict : q.strict → p.strict
  free : p.free → q.free
  writes : p.writes → q.writes
  appends : q.appends → p.writes → p.appends
  empty : p.empty → q.empty
  order : p.order → q.order
  found : p.found → q.found
  counts : p.counts → q.counts
  queue : p.queue → q.queue
  root : p.root → q.root
  buffer : ∀ b, p.buffer b → q.buffer b
  floor : q.floor ≤ p.floor

theorem Update.mono {p q : Permit} (hpq : p.Le q) {s t : State} (h : Update p s t) : Update q s t := by
  have hfloor := hpq.floor
  cases h with
  | write a v hw ha hout => exact .write a v (hpq.writes hw) (fun h => ha (hpq.appends h hw)) hout
  | alloc n hroom hn =>
    exact .alloc n hroom fun h => ⟨(hn (hpq.strict h)).1, fun c hc => hfloor.trans ((hn (hpq.strict h)).2 c hc)⟩
  | free x h => exact .free x (hpq.free h)
  | queue q h hq hnew => exact .queue q (hpq.queue h) hq fun x hx => (hnew x hx).imp id hfloor.trans
  | order o h => exact .order o (hpq.order h)
  | trie t h => exact .trie t h
  | buffer b v hb hv => exact .buffer b v (hpq.buffer b hb) hv
  | automaton c d b e n hc hb => exact .automaton c d b e n (fun h => hc (hpq.strict h)) hb
  | root r h hr => exact .root r (hpq.root h) fun h => ⟨(hr (hpq.strict h)).1, (hr (hpq.strict h)).2.imp id hfloor.trans⟩
  | symtab l h => exact .symtab l h
  | code c h => exact .code c h
  | empty b h => exact .empty b (hpq.empty h)
  | found b h => exact .found b (hpq.found h)
  | counts f h hf => exact .counts f (hpq.counts h) hf

theorem Chain.mono {p q : Permit} (hpq : p.Le q) {s t : State} (h : Chain p s t) : Chain q s t :=
  Relation.ReflTransGen.mono (fun _ _ => Update.mono hpq) _ _ h

/-- What every update keeps, every chain keeps. -/
theorem Chain.keeps {p : Permit} {P : State → Prop} (hP : ∀ s t, Update p s t → P s → P t) {s t : State}
    (h : Chain p s t) (hs : P s) : P t := by
  induction h with
  | refl => exact hs
  | tail _ hu ih => exact hP _ _ hu ih

/-- A part of the state that no update changes, no chain changes. -/
theorem Chain.same {p : Permit} {β : Type} {f : State → β} (hf : ∀ s t, Update p s t → f t = f s) {s t : State}
    (h : Chain p s t) : f t = f s :=
  h.keeps (P := fun x => f x = f s) (fun _ _ hu hs => (hf _ _ hu).trans hs) rfl

/-! ## What updates never touch -/

/-- The state without what updates may change: what is left is fixed while a rule runs. -/
def State.fixed (s : State) : State :=
  { s with
    status := { s.status with empty := false, found := false }
    outLen := 0
    pqOrder := .minFirst
    root := 0
    cursor := 0
    dpos := 0
    dbit := 0
    emitted := 0
    symCount := 0
    bb := []
    pq := ⟨[], 0, 0⟩
    nodes := []
    nextHandle := 0
    trie := Trie.fresh
    ft := []
    symtab := []
    code := []
    outMem := ⟨[], 0⟩ }

theorem Update.fixed {p : Permit} {s t : State} (h : Update p s t) : t.fixed = s.fixed := by cases h <;> rfl

theorem Chain.fixed {p : Permit} {s t : State} (h : Chain p s t) : t.fixed = s.fixed := h.same fun _ _ => Update.fixed

/-- What a part of the state is on the fixed part alone. -/
theorem of_fixed {β : Type} {s t : State} (f : State → β) (h : t.fixed = s.fixed) : f t.fixed = f s.fixed := congrArg f h

section fixed
variable {s t : State} (h : t.fixed = s.fixed)
include h

theorem cfg_of_fixed : t.cfg = s.cfg := of_fixed (fun x => x.cfg) h
theorem res_of_fixed : t.res = s.res := of_fixed (fun x => x.res) h
theorem fault_of_fixed : t.status.fault = s.status.fault := of_fixed (fun x => x.status.fault) h
theorem err_of_fixed : t.err = s.err := of_fixed (fun x => x.err) h
theorem errInfo0_of_fixed : t.errInfo0 = s.errInfo0 := of_fixed (fun x => x.errInfo0) h
theorem errInfo1_of_fixed : t.errInfo1 = s.errInfo1 := of_fixed (fun x => x.errInfo1) h
theorem errOp_of_fixed : t.errOp = s.errOp := of_fixed (fun x => x.errOp) h
theorem mode_of_fixed : t.mode = s.mode := of_fixed (fun x => x.mode) h
theorem inLen_of_fixed : t.inLen = s.inLen := of_fixed (fun x => x.inLen) h
theorem inMem_of_fixed : t.inMem = s.inMem := of_fixed (fun x => x.inMem) h
theorem port_of_fixed : t.port = s.port := of_fixed (fun x => x.port) h
theorem resp_of_fixed : t.resp = s.resp := of_fixed (fun x => x.resp) h

end fixed

/-! ## What updates change only where the permit says so -/

theorem Chain.empty_same {p : Permit} (hp : ¬p.empty) {s t : State} (h : Chain p s t) : t.status.empty = s.status.empty := by
  refine h.same (f := fun x : State => x.status.empty) fun s t hu => ?_
  cases hu with
  | empty b hb => exact absurd hb hp
  | _ => rfl

theorem Chain.found_same {p : Permit} (hp : ¬p.found) {s t : State} (h : Chain p s t) : t.status.found = s.status.found := by
  refine h.same (f := fun x : State => x.status.found) fun s t hu => ?_
  cases hu with
  | found b hb => exact absurd hb hp
  | _ => rfl

theorem Chain.order_same {p : Permit} (hp : ¬p.order) {s t : State} (h : Chain p s t) : t.pqOrder = s.pqOrder := by
  refine h.same (f := State.pqOrder) fun s t hu => ?_
  cases hu with
  | order o ho => exact absurd ho hp
  | _ => rfl

theorem Chain.counts_same {p : Permit} (hp : ¬p.counts) {s t : State} (h : Chain p s t) : t.ft = s.ft := by
  refine h.same (f := State.ft) fun s t hu => ?_
  cases hu with
  | counts f hf => exact absurd hf hp
  | _ => rfl

theorem Chain.out_same {p : Permit} (hp : ¬p.writes) {s t : State} (h : Chain p s t) :
    t.outMem = s.outMem ∧ t.outLen = s.outLen := by
  refine h.keeps (P := fun x => x.outMem = s.outMem ∧ x.outLen = s.outLen) (fun x y hu hx => ?_) ⟨rfl, rfl⟩
  cases hu with
  | write a v hw => exact absurd hw hp
  | _ => exact hx

theorem Chain.buffer_same {p : Permit} {k : Nat} (hp : ¬p.buffer k) {s t : State} (h : Chain p s t) : t.bb[k]? = s.bb[k]? := by
  refine h.same (f := fun x : State => x.bb[k]?) fun s t hu => ?_
  cases hu with
  | buffer b v hb =>
    have hne : b ≠ k := fun e => hp (e ▸ hb)
    exact List.getElem?_set_ne hne
  | _ => rfl

/-! ## The node store under updates -/

/-- No update lowers the counter, and a node below it that is found after the update was there before (10_state.md R48). -/
theorem Update.old_nodes {p : Permit} {s t : State} (h : Update p s t) :
    s.nextHandle ≤ t.nextHandle ∧
      ∀ x n, x.toNat < s.nextHandle → mapFind x t.nodes = some n → mapFind x s.nodes = some n := by
  cases h with
  | alloc n hroom =>
    refine ⟨Nat.le_succ _, fun x m hx hf => ?_⟩
    simp only [State.canAlloc, decide_eq_true_eq] at hroom
    rw [allocated_find] at hf
    have hne : x ≠ s.newHandle := by
      rintro rfl
      rw [newHandle_toNat (by omega)] at hx
      omega
    rwa [if_neg hne] at hf
  | free y hy =>
    refine ⟨Nat.le_refl _, fun x m _ hf => ?_⟩
    have : mapFind x (freeTree y s).nodes = if x ∈ NodeMap.subtree s.nodes y then none else mapFind x s.nodes :=
      mapFind_without s.nodes _ x
    rw [this] at hf
    split at hf
    · cases hf
    · exact hf
  | _ => exact ⟨Nat.le_refl _, fun _ _ _ hf => hf⟩

theorem Chain.old_nodes {p : Permit} {s t : State} (h : Chain p s t) :
    s.nextHandle ≤ t.nextHandle ∧
      ∀ x n, x.toNat < s.nextHandle → mapFind x t.nodes = some n → mapFind x s.nodes = some n := by
  induction h with
  | refl => exact ⟨Nat.le_refl _, fun _ _ _ hf => hf⟩
  | tail _ hu ih =>
    obtain ⟨hle, hold⟩ := hu.old_nodes
    exact ⟨ih.1.trans hle, fun x n hx hf => ih.2 x n hx (hold x n (by omega) hf)⟩

/-- Where nothing is freed, the nodes below the counter stay as they are. -/
theorem Chain.nodes_kept {p : Permit} (hp : ¬p.free) {s t : State} (h : Chain p s t) {x : Word}
    (hx : x.toNat < s.nextHandle) : mapFind x t.nodes = mapFind x s.nodes := by
  suffices hs : s.nextHandle ≤ t.nextHandle ∧ mapFind x t.nodes = mapFind x s.nodes from hs.2
  refine h.keeps (P := fun u => s.nextHandle ≤ u.nextHandle ∧ mapFind x u.nodes = mapFind x s.nodes) (fun u v hu hs => ?_)
    ⟨Nat.le_refl _, rfl⟩
  obtain ⟨hle, hfind⟩ := hs
  refine ⟨hle.trans hu.old_nodes.1, ?_⟩
  cases hu with
  | alloc n hroom =>
    simp only [State.canAlloc, decide_eq_true_eq] at hroom
    have hne : x ≠ u.newHandle := by
      rintro rfl
      rw [newHandle_toNat (by omega)] at hx
      omega
    rw [allocated_find, if_neg hne, hfind]
  | free y hy => exact absurd hy hp
  | _ => exact hfind

/-- Below the floor no node gets a parent. -/
theorem Chain.unowned_kept {p : Permit} (hp : ¬p.free) (hst : p.strict) {s t : State} (h : Chain p s t) {x : Word}
    (hx : x.toNat < p.floor) (ho : NodeMap.owned s.nodes x = false) : NodeMap.owned t.nodes x = false := by
  refine h.keeps (P := fun u => NodeMap.owned u.nodes x = false) (fun u v hu hs => ?_) ho
  cases hu with
  | alloc n hroom hn =>
    rw [Bool.eq_false_iff] at hs ⊢
    intro hc
    obtain ⟨e, he, hxe⟩ := owned_iff.1 hc
    rcases mapInsert_mem he with rfl | he
    · have := (hn hst).2 x hxe
      omega
    · exact hs (owned_iff.2 ⟨e, he, hxe⟩)
  | free y hy => exact absurd hy hp
  | _ => exact hs

/-- Every update keeps the invariant of the node store, where updates are strict (10_state.md R47 to R50). -/
theorem Update.nodesOk {p : Permit} (hst : p.strict) {s t : State} (h : Update p s t) (hs : s.NodesOk) : t.NodesOk := by
  cases h with
  | alloc n hroom hn =>
    obtain ⟨hlive, hnodup, hown⟩ := (hn hst).1
    exact allocated_ok hs hroom hlive hnodup hown
  | free x _ => exact freeTree_ok hs x
  | automaton c d b e n hc =>
    refine hs.filter (List.Sublist.refl _) rfl rfl hs.root ?_
    rcases hc hst with rfl | hc
    · exact hs.cursor
    · exact hc
  | root r _ hr => exact hs.filter (List.Sublist.refl _) rfl rfl (hr hst).1 hs.cursor
  | _ => exact hs.congr rfl rfl rfl rfl rfl

theorem Chain.nodesOk {p : Permit} {s t : State} (h : Chain p s t) (hst : p.strict) (hs : s.NodesOk) : t.NodesOk :=
  h.keeps (fun _ _ hu => hu.nodesOk hst) hs

end Sys2Proof.Machine
end

section
/-! PROOFS. What updates keep of the invariants of the state, and the chains that the shared operations are (spec/20_memory.md
R70, R72; spec/10_state.md R36, R43, R52 to R55). -/

namespace Sys2Proof.Machine

/-! ## The invariants under updates -/

theorem wellFormed_iff (c : Config) : c.wellFormed = true ↔ c.spacesOk = true ∧ c.bufferCountOk = true ∧
    c.bufferSizeOk = true ∧ c.queueOk = true ∧ c.storesOk = true ∧ c.badSetsOk = true ∧ c.viewsFit = true ∧
    c.codesFit = true := by
  simp only [Config.wellFormed, Bool.and_eq_true, and_assoc]

theorem outCap_lt {c : Config} (h : c.wellFormed = true) : c.outCap < 2 ^ 32 := by
  have := ((wellFormed_iff c).1 h).1
  simp only [Config.spacesOk, decide_eq_true_eq] at this
  exact this.2.2.2

theorem queueOk_of_wellFormed {c : Config} (h : c.wellFormed = true) : c.queueOk = true := by
  obtain ⟨-, -, -, hq, -⟩ := (wellFormed_iff c).1 h
  exact hq

theorem bufferSize_of_wellFormed {c : Config} (h : c.wellFormed = true) :
    1 ≤ c.bbMinCap ∧ 8 * c.bbMinCap ≤ c.bbMaxBits ∧ c.bbMaxBits < 2 ^ 32 := by
  obtain ⟨-, -, hb, -⟩ := (wellFormed_iff c).1 h
  simpa [Config.bufferSizeOk] using hb

theorem codesFit_of_wellFormed {c : Config} (h : c.wellFormed = true) : (c.nodeMax - 1) / 2 ≤ c.bbMaxBits := by
  obtain ⟨-, -, -, -, -, -, -, hc⟩ := (wellFormed_iff c).1 h
  simpa [Config.codesFit] using hc

/-- The invariant looks at the memories and the two lengths alone. -/
theorem State.MemoryOk.congr {s t : State} (h : s.MemoryOk) (hc : t.cfg = s.cfg) (hi : t.inMem = s.inMem)
    (ho : t.outMem = s.outMem) (hil : t.inLen = s.inLen) (hol : t.outLen = s.outLen) : t.MemoryOk := by
  obtain ⟨h1, h2, h3, h4, h5, h6⟩ := h
  exact ⟨by rw [hi]; exact h1, by rw [ho]; exact h2, by rw [hi, hc]; exact h3, by rw [ho, hc]; exact h4,
    by rw [hil, hc]; exact h5, by rw [hol, hc]; exact h6⟩

theorem word_toNat_of_lt {n : Nat} (h : n < 2 ^ 32) : (word n).toNat = n := by
  rw [word, BitVec.toNat_ofNat, Nat.mod_eq_of_lt h]

/-- OUT_LEN after a write (20_memory.md R72). -/
theorem wrote_outLen {s : State} (hc : s.cfg.wellFormed = true) {a : Nat} {v : Bytes}
    (hv : s.OutWritable a v.length) :
    (s.wrote a v).outLen.toNat = if v = [] then s.outLen.toNat else max s.outLen.toNat (a + v.length) := by
  have := outCap_lt hc
  unfold State.wrote
  dsimp only
  split
  · rfl
  · next hne =>
    have hne : v.length ≠ 0 := by simpa using hne
    rcases hv with hv | ⟨hv, -⟩
    · exact absurd hv hne
    · exact word_toNat_of_lt (by omega)

theorem wrote_memoryOk {s : State} (hc : s.cfg.wellFormed = true) (hs : s.MemoryOk) {a : Nat} {v : Bytes}
    (hv : s.OutWritable a v.length) : (s.wrote a v).MemoryOk := by
  have hlen := wrote_outLen hc hv
  refine ⟨hs.inForm, putAll_wf v s.outMem a hs.outForm, hs.inInside, fun e he => ?_, hs.inLen, ?_⟩
  · rcases cells_putAll_mem he with h | h
    · rcases hv with hv | ⟨hv, -⟩
      · omega
      · show e.1 < s.cfg.outCap
        omega
    · exact hs.outInside e h
  · show (s.wrote a v).outLen.toNat ≤ s.cfg.outCap
    have := hs.outLen
    rw [hlen]
    split
    · exact hs.outLen
    · next hne =>
      have hne : v.length ≠ 0 := by simpa using hne
      rcases hv with hv | ⟨hv, -⟩
      · exact absurd hv hne
      · omega

theorem Update.memoryOk {p : Permit} {s t : State} (h : Update p s t) (hc : s.cfg.wellFormed = true) (hs : s.MemoryOk) :
    t.MemoryOk := by
  cases h with
  | write a v _ _ hv => exact wrote_memoryOk hc hs hv
  | _ => exact hs.congr rfl rfl rfl rfl rfl

/-- The invariant looks at the buffers alone. -/
theorem State.BuffersOk.congr {s t : State} (h : s.BuffersOk) (hc : t.cfg = s.cfg) (hb : t.bb = s.bb) : t.BuffersOk :=
  ⟨by rw [hb, hc]; exact h.count, by rw [hb, hc]; exact h.each⟩

theorem State.BuffersOk.setBuf {s : State} (h : s.BuffersOk) {v : BitBuffer} (hv : v.Ok s.cfg) (b : Nat) :
    (s.setBuf b v).BuffersOk := by
  refine ⟨by rw [setBuf_bb, List.length_set]; exact h.count, fun w hw => ?_⟩
  rcases List.mem_or_eq_of_mem_set hw with hw | rfl
  · exact h.each w hw
  · exact hv

theorem Update.buffersOk {p : Permit} {s t : State} (h : Update p s t) (hc : s.cfg.wellFormed = true) (ht : s.TablesOk)
    (hs : s.BuffersOk) : t.BuffersOk := by
  cases h with
  | buffer b v _ hv => exact hs.setBuf (hv hc hs ht) b
  | _ => exact hs.congr rfl rfl

theorem State.QueueOk.congr {s t : State} (h : s.QueueOk) (hc : t.cfg = s.cfg) (hq : t.pq = s.pq) : t.QueueOk := by
  obtain ⟨h1, h2, h3, h4, h5⟩ := h
  exact ⟨hq ▸ h1, hq ▸ h2, hq ▸ h3, by rw [hq, hc]; exact h4, by rw [hq, hc]; exact h5⟩

theorem Update.queueOk {p : Permit} {s t : State} (h : Update p s t) (hc : s.cfg.wellFormed = true) (hs : s.QueueOk) :
    t.QueueOk := by
  cases h with
  | queue q _ hq _ => exact hq (queueOk_of_wellFormed hc) hs
  | _ => exact hs.congr rfl rfl

theorem State.TrieOk.congr {s t : State} (h : s.TrieOk) (hc : t.cfg = s.cfg) (ht : t.trie = s.trie) : t.TrieOk := by
  obtain ⟨h1, h2, h3, h4, h5, h6⟩ := h
  exact ⟨ht ▸ h1, ht ▸ h2, ht ▸ h3, ht ▸ h4, by rw [ht]; exact h5, by rw [ht, hc]; exact h6⟩

theorem Update.trieOk {p : Permit} {s t : State} (h : Update p s t) (ht : s.TablesOk) (hs : s.TrieOk) : t.TrieOk := by
  cases h with
  | trie _ hnew => exact hnew ht hs
  | _ => exact hs.congr rfl rfl

theorem State.TablesOk.congr {s t : State} (h : s.TablesOk) (hc : t.cfg = s.cfg) (hf : t.ft = s.ft)
    (hst : t.symtab = s.symtab) (hcode : t.code = s.code) : t.TablesOk := by
  obtain ⟨h1, h2, h3, h4, h5, h6⟩ := h
  exact ⟨hf ▸ h1, hf ▸ h2, by rw [hf, hc]; exact h3, hst ▸ h4, hcode ▸ h5, by rw [hcode, hc]; exact h6⟩

theorem Update.tablesOk {p : Permit} {s t : State} (h : Update p s t) (hn : s.NodesOk) (hs : s.TablesOk) : t.TablesOk := by
  cases h with
  | symtab l hl => exact ⟨hs.ftListed, hs.ftEntries, hs.ftFits, hl hs, hs.codeListed, hs.codes⟩
  | code c hc => exact hc hn hs
  | counts f _ hf => exact hf hs
  | _ => exact hs.congr rfl rfl rfl rfl

theorem Update.dbit_le {p : Permit} {s t : State} (h : Update p s t) (hs : s.dbit.toNat ≤ 7) : t.dbit.toNat ≤ 7 := by
  cases h with
  | automaton c d b e n _ hb => exact hb hs
  | _ => exact hs

/-- The invariants that are not about faults, all together. -/
structure State.Sound (s : State) : Prop where
  config : s.cfg.wellFormed = true
  memory : s.MemoryOk
  buffers : s.BuffersOk
  queue : s.QueueOk
  nodes : s.NodesOk
  trie : s.TrieOk
  tables : s.TablesOk
  dbit : s.dbit.toNat ≤ 7

theorem State.Inv.sound {s : State} (h : s.Inv) : s.Sound :=
  ⟨h.config, h.memory, h.buffers, h.queue, h.nodes, h.trie, h.tables, h.dbit⟩

theorem Chain.memoryOk {p : Permit} {s t : State} (h : Chain p s t) (hc : s.cfg.wellFormed = true) (hs : s.MemoryOk) :
    t.MemoryOk := by
  refine (h.keeps (P := fun x => x.cfg.wellFormed = true ∧ x.MemoryOk) (fun x y hu hx => ?_) ⟨hc, hs⟩).2
  exact ⟨(cfg_of_fixed hu.fixed) ▸ hx.1, hu.memoryOk hx.1 hx.2⟩

/-- Strict chains keep every invariant. -/
theorem Chain.sound {p : Permit} (hst : p.strict) {s t : State} (h : Chain p s t) (hs : s.Sound) : t.Sound := by
  refine h.keeps (fun x y hu hx => ?_) hs
  obtain ⟨h1, h2, h3, h4, h5, h6, h7, h8⟩ := hx
  exact ⟨(cfg_of_fixed hu.fixed) ▸ h1, hu.memoryOk h1 h2, hu.buffersOk h1 h7 h3, hu.queueOk h1 h4, hu.nodesOk hst h5,
    hu.trieOk h7 h6, hu.tablesOk h5 h7, hu.dbit_le h8⟩

/-! ## Rules as chains -/

/-- The state that a rule completes in, or raises at. -/
def Ruling.Ends {α : Type} (P : State → Prop) : Ruling α → Prop
  | .ok _ s => P s
  | .raise _ s => P s

@[simp] theorem ends_ok {α : Type} {P : State → Prop} {a : α} {s : State} : (Ruling.ok a s).Ends P ↔ P s := Iff.rfl

@[simp] theorem ends_raise {α : Type} {P : State → Prop} {r : Raise} {s : State} :
    (Ruling.raise r s : Ruling α).Ends P ↔ P s := Iff.rfl

theorem Ruling.Ends.of_ok {α : Type} {P : State → Prop} {x : Ruling α} (h : x.Ends P) {a : α} {t : State} (hx : x = .ok a t) :
    P t := by subst hx; exact h

theorem Ruling.Ends.of_raise {α : Type} {P : State → Prop} {x : Ruling α} (h : x.Ends P) {r : Raise} {t : State}
    (hx : x = .raise r t) : P t := by subst hx; exact h

theorem Ruling.Ends.imp {α : Type} {P Q : State → Prop} {x : Ruling α} (h : x.Ends P) (hPQ : ∀ s, P s → Q s) : x.Ends Q := by
  cases x with
  | ok a s => exact hPQ s h
  | raise r s => exact hPQ s h

theorem ends_need {α : Type} {P : State → Prop} {c : Prop} [Decidable c] {r : Raise} {s : State} {k : Ruling α} (hs : P s)
    (hk : c → k.Ends P) : (need c r s k).Ends P := by
  by_cases hc : c
  · rw [need_pos hc]; exact hk hc
  · rw [need_neg hc]; exact hs

/-- A rule that goes on after a step: the chain of the step, then the chain of the rest. -/
theorem chain_bind {α β : Type} {p : Permit} {x : Ruling α} {s : State} {k : α → State → Ruling β} (hx : x.Ends (Chain p s))
    (hk : ∀ a t, x = .ok a t → Chain p s t → (k a t).Ends (Chain p t)) : (x.bind k).Ends (Chain p s) := by
  cases x with
  | ok a t => exact (hk a t rfl hx).imp fun _ h => Relation.ReflTransGen.trans hx h
  | raise r t => exact hx

theorem chain_need {α : Type} {p : Permit} {c : Prop} [Decidable c] {r : Raise} {s : State} {k : Ruling α}
    (hk : c → k.Ends (Chain p s)) : (need c r s k).Ends (Chain p s) := ends_need .refl hk

/-- A rule that first makes an update. -/
theorem chain_after {α : Type} {p : Permit} {s t : State} {x : Ruling α} (h : Update p s t) (hx : x.Ends (Chain p t)) :
    x.Ends (Chain p s) := hx.imp fun _ ht => Relation.ReflTransGen.head h ht

theorem memRead_ends {P : State → Prop} {a n : Nat} {s : State} (hs : P s) : (memRead a n s).Ends P := by
  rcases memRead_cases a n s with ⟨-, h⟩ | ⟨x, -, h⟩ <;> rw [h] <;> exact hs

/-- A read answers the bytes and leaves the state. -/
theorem memRead_eq_ok {a n : Nat} {s t : State} {v : Bytes} (h : memRead a n s = .ok v t) :
    s.InReadable a n ∧ v = s.inBytes a n ∧ t = s := by
  rcases memRead_cases a n s with ⟨hr, h'⟩ | ⟨x, -, h'⟩
  · rw [h'] at h; cases h; exact ⟨hr, rfl, rfl⟩
  · rw [h'] at h; cases h

/-- A rule that reads and goes on in the same state. -/
theorem chain_read {β : Type} {p : Permit} {a n : Nat} {s : State} {k : Bytes → State → Ruling β}
    (hk : (k (s.inBytes a n) s).Ends (Chain p s)) : ((memRead a n s).bind k).Ends (Chain p s) := by
  refine chain_bind (memRead_ends .refl) fun v t h _ => ?_
  obtain ⟨-, rfl, rfl⟩ := memRead_eq_ok h
  exact hk

theorem memWrite_chain {p : Permit} {a : Nat} {v : Bytes} {s : State} (hw : p.writes)
    (ha : p.appends → a = s.outLen.toNat) : (memWrite a v s).Ends (Chain p s) := by
  rcases memWrite_cases a v s with ⟨ho, h⟩ | ⟨x, -, h⟩ <;> rw [h]
  · exact .single (.write a v hw ha ho)
  · exact .refl

theorem alloc_chain {p : Permit} {n : Node} {s : State}
    (hn : p.strict → Joinable s n ∧ ∀ c ∈ n.children, p.floor ≤ c.toNat) : (alloc n s).Ends (Chain p s) := by
  rcases alloc_cases n s with ⟨hroom, h⟩ | ⟨-, h⟩ <;> rw [h]
  · exact .single (.alloc n hroom hn)
  · exact .refl

theorem joinable_leaf (s : State) (sym freq : Word) : Joinable s (.leaf sym freq) :=
  ⟨fun _ h => absurd h List.not_mem_nil, List.nodup_nil, fun _ h => absurd h List.not_mem_nil⟩

/-- What `alloc` answers. -/
theorem alloc_eq_ok {n : Node} {s t : State} {h : Word} (ha : alloc n s = .ok h t) :
    s.canAlloc = true ∧ h = s.newHandle ∧ t = s.allocated n := by
  rcases alloc_cases n s with ⟨hroom, h'⟩ | ⟨-, h'⟩
  · rw [h'] at ha; cases ha; exact ⟨hroom, rfl, rfl⟩
  · rw [h'] at ha; cases ha

theorem pqInsert_chain {p : Permit} (hq : p.queue) {k h : Word} {s : State} (hf : p.floor ≤ h.toNat) :
    (pqInsert k h s).Ends (Chain p s) := by
  rcases pqInsert_cases k h s with ⟨-, -, e⟩ | ⟨hroom, e⟩ <;> rw [e]
  · exact .refl
  · refine .single (.queue _ hq (fun hq hs => push_ok hs hq hroom rfl rfl) fun x hx => ?_)
    rcases List.mem_append.1 hx with hx | hx
    · exact .inl hx
    · rw [List.mem_singleton.1 hx]; exact .inr hf

theorem pqInsert_eq_ok {k h : Word} {s t : State} {u : Unit} (hi : pqInsert k h s = .ok u t) :
    t = { s with pq := s.pq.push k h } := by
  rcases pqInsert_cases k h s with ⟨-, -, e⟩ | ⟨-, e⟩
  · rw [e] at hi; cases hi
  · rw [e] at hi; cases hi; rfl

theorem pqExtract_chain {p : Permit} (hq : p.queue) {s : State} : (pqExtract s).Ends (Chain p s) := by
  rcases pqExtract_cases s with ⟨-, e⟩ | ⟨t, -, e⟩ <;> rw [e]
  · exact .refl
  · exact .single (.queue _ hq (fun hq hs => take_ok hs hq rfl rfl) fun x hx => .inl (List.mem_of_mem_erase hx))

theorem pqExtract_eq_ok {s t : State} {x : QItem} (h : pqExtract s = .ok x t) :
    s.top = some x ∧ t = { s with pq := s.pq.take s.cfg x } := by
  rcases pqExtract_cases s with ⟨-, e⟩ | ⟨y, hy, e⟩
  · rw [e] at h; cases h
  · rw [e] at h; cases h; exact ⟨hy, rfl⟩

theorem setInsert_length_le {κ : Type} {lt : κ → κ → Bool} (k : κ) (l : List κ) :
    (setInsert lt k l).length ≤ l.length + 1 := by
  induction l with
  | nil => exact Nat.le_refl 1
  | cons y rest ih =>
    simp only [setInsert]
    split
    · exact Nat.le_refl _
    · split
      · exact Nat.succ_le_succ ih
      · exact Nat.le_succ _

/-- Adding elements one after another keeps a set sorted and makes it at most so many longer. -/
theorem foldl_setInsert {κ : Type} {lt : κ → κ → Bool} (o : IsOrder lt) (new old : List κ) :
    (rising lt old = true → rising lt (new.foldl (fun l k => setInsert lt k l) old) = true) ∧
    (new.foldl (fun l k => setInsert lt k l) old).length ≤ old.length + new.length := by
  induction new generalizing old with
  | nil => exact ⟨id, Nat.le_refl _⟩
  | cons k new ih =>
    obtain ⟨hr, hl⟩ := ih (setInsert lt k old)
    have := setInsert_length_le (lt := lt) k old
    refine ⟨fun h => hr (setInsert_rising o k h), ?_⟩
    simp only [List.foldl_cons, List.length_cons]
    omega

/-- Storing at a non-empty key whose new nodes fit keeps the trie's invariant (42_prefix_trie.md R180). -/
theorem insert_trieOk {s : State} (hs : s.TrieOk) {key : Bytes} (hkey : key ≠ []) (v : Word)
    (hroom : s.trie.size + (s.trie.missing key).length ≤ s.cfg.trieMax) :
    ({ s with trie := s.trie.insert key v } : State).TrieOk := by
  have hmem := mem_insert_paths s.trie key v
  obtain ⟨hrising, hlen⟩ := foldl_setInsert lexLt_order (s.trie.missing key) s.trie.paths
  have hpos : 0 < s.trie.paths.length := List.length_pos_of_mem hs.root
  refine ⟨hrising hs.listed, (hmem []).2 (.inl hs.root), fun p hp => ?_, mapInsert_rising lexLt_order _ _ hs.payloadListed,
    fun e he => ?_, ?_⟩
  · rcases (hmem p).1 hp with hp | ⟨-, hp⟩
    · exact (hmem _).2 (.inl (hs.closed p hp))
    · by_cases hd : p.dropLast = []
      · rw [hd]; exact (hmem []).2 (.inl hs.root)
      · exact (hmem _).2 (.inr ⟨hd, p.dropLast_prefix.trans hp⟩)
  · rcases mapInsert_mem he with rfl | he
    · exact ⟨(hmem key).2 (.inr ⟨hkey, List.prefix_refl key⟩), hkey⟩
    · exact ⟨(hmem _).2 (.inl (hs.payloadAt e he).1), (hs.payloadAt e he).2⟩
  · show (s.trie.insert key v).paths.length - 1 ≤ s.cfg.trieMax
    have hsize : s.trie.size = s.trie.paths.length - 1 := rfl
    have : (s.trie.insert key v).paths.length ≤ s.trie.paths.length + (s.trie.missing key).length := hlen
    omega

theorem trieInsert_chain {p : Permit} {key : Bytes} (v : Word) {s : State} (hkey : s.TablesOk → key ≠ []) :
    (trieInsert key v s).Ends (Chain p s) :=
  chain_need fun hroom => Chain.single (.trie _ fun ht hs => insert_trieOk hs (hkey ht) v hroom)

/-- The trie that has only its root meets the invariant. -/
theorem fresh_trieOk (s : State) : ({ s with trie := Trie.fresh } : State).TrieOk :=
  ⟨rfl, by simp [Trie.fresh], by simp [Trie.fresh], rfl, by simp [Trie.fresh], Nat.zero_le _⟩

/-! ## Buffers -/

theorem bytesFor_le {n m : Nat} (h : n ≤ m) : bytesFor n ≤ bytesFor m := by unfold bytesFor; omega

theorem le_bytesFor (n : Nat) : n ≤ 8 * bytesFor n := by unfold bytesFor; omega

/-- An empty buffer whose capacity has grown from a capacity within its bounds (10_state.md R43). -/
theorem BitBuffer.Ok.grown {c : Config} {v : BitBuffer} (hc : c.wellFormed = true) (hv : v.Ok c) {bits : Bits}
    (hbits : bits.length ≤ c.bbMaxBits) {need : Nat} (hneed : bits.length ≤ 8 * need)
    (hmax : need ≤ max c.bbMinCap c.bbMaxBytes) : BitBuffer.Ok c ⟨bits, grow c v.cap need⟩ := by
  have hmin := (bufferSize_of_wellFormed hc).1
  have hcap := hv.least
  refine ⟨hbits, ?_, hcap.trans (le_grow need hv.most), grow_le c v.cap need⟩
  have := grow_holds (c := c) (cap := v.cap) (need := need) (by omega) hmax
  show bits.length ≤ 8 * grow c v.cap need
  omega

theorem BitBuffer.Ok.emptied {c : Config} {v : BitBuffer} (hv : v.Ok c) (need : Nat) : BitBuffer.Ok c ⟨[], grow c v.cap need⟩ :=
  ⟨Nat.zero_le _, Nat.zero_le _, hv.least.trans (le_grow need hv.most), grow_le c v.cap need⟩

/-- The bytes of bits that fit are within the greatest capacity. -/
theorem bytesFor_le_most {c : Config} {n : Nat} (h : n ≤ c.bbMaxBits) : bytesFor n ≤ max c.bbMinCap c.bbMaxBytes :=
  (bytesFor_le h).trans (le_max_right _ _)

theorem BitBuffer.Ok.appended {c : Config} {v : BitBuffer} (hc : c.wellFormed = true) (hv : v.Ok c) {bits : Bits}
    (h : v.bits.length + bits.length ≤ c.bbMaxBits) : (v.append c bits).Ok c :=
  hv.grown hc (by rw [List.length_append]; exact h) (by rw [List.length_append]; exact le_bytesFor _) (bytesFor_le_most h)

/-- A buffer register holds a buffer within its bounds, also where it does not exist and reads as a fresh one. -/
theorem State.BuffersOk.buf {s : State} (h : s.BuffersOk) (hc : s.cfg.wellFormed = true) (b : Nat) : (s.buf b).Ok s.cfg := by
  obtain ⟨hmin, hmax, -⟩ := bufferSize_of_wellFormed hc
  rw [State.buf, List.getD_eq_getElem?_getD]
  cases hb : s.bb[b]? with
  | none => exact ⟨Nat.zero_le _, Nat.zero_le _, Nat.le_refl _, le_max_left _ _⟩
  | some v => exact h.each v (List.mem_of_getElem? hb)

end Sys2Proof.Machine
end

section
/-! PROOFS. The working parts of the commands as chains of updates: the code table, the serialized tree, the decoder's
automaton, the tree builder, the encoder's pass (spec/43_huffman_tree.md to spec/47_codec_decode.md). -/

namespace Sys2Proof.Machine

/-! ## The code table -/

/-- The codes of a walk are those of an empty path behind the path. -/
theorem mem_foldl_codeInsert {l m : List (Word × Bits)} {e : Word × Bits} (h : e ∈ l.foldl codeInsert m) : e ∈ m ∨ e ∈ l := by
  induction l generalizing m with
  | nil => exact .inl h
  | cons x l ih =>
    rcases ih h with h | h
    · unfold codeInsert at h
      split at h
      · exact .inl h
      · rcases mapInsert_mem h with rfl | h
        · exact .inr (List.mem_cons_self ..)
        · exact .inl h
    · exact .inr (List.mem_cons_of_mem _ h)

theorem foldl_codeInsert_rising {l m : List (Word × Bits)} (h : rising wordLt (m.map Prod.fst) = true) :
    rising wordLt ((l.foldl codeInsert m).map Prod.fst) = true := by
  induction l generalizing m with
  | nil => exact h
  | cons x l ih =>
    refine ih ?_
    unfold codeInsert
    split
    · exact h
    · exact mapInsert_rising wordLt_order _ _ h

theorem Tree.walk_extends {T : Tree} {path : Bits} {e : Word × Bits} (h : e ∈ T.walk path) : path <+: e.2 := by
  induction T generalizing path with
  | leaf sym => rw [List.mem_singleton.1 h]
  | node l r ihl ihr =>
    rcases List.mem_append.1 h with h | h
    · exact (List.prefix_append _ _).trans (ihl h)
    · exact (List.prefix_append _ _).trans (ihr h)

/-- No code is empty (10_state.md R55). -/
theorem Tree.codes_ne_nil {T : Tree} {e : Word × Bits} (h : e ∈ T.codes) : e.2 ≠ [] := by
  cases T with
  | leaf sym => rw [List.mem_singleton.1 h]; simp
  | node l r =>
    intro hn
    rcases List.mem_append.1 h with h | h <;> have := Tree.walk_extends h <;> simp [hn] at this

/-- The code table of the tree at ROOT meets the invariant (45_code_table.md R241, log 14). -/
theorem codeTable_tablesOk {s : State} {T : Tree} (hT : s.rootTree = some T) (hn : s.NodesOk) (hs : s.TablesOk) :
    ({ s with code := T.codeTable } : State).TablesOk := by
  refine ⟨hs.ftListed, hs.ftEntries, hs.ftFits, hs.symbols, foldl_codeInsert_rising rfl, fun e he => ?_⟩
  have he : e ∈ T.codes := (mem_foldl_codeInsert he).resolve_left List.not_mem_nil
  exact ⟨Tree.codes_ne_nil he, hn.codes_fit ((hn.rootTree T).1 hT) he⟩

theorem loadTrie_chain {p : Permit} (l : List Bytes) (k : Nat) {s : State} (hl : ∀ w ∈ l, w ∈ s.symtab) :
    (loadTrie l k s).Ends (Chain p s) := by
  induction l generalizing k s with
  | nil => exact .refl
  | cons key rest ih =>
    refine chain_bind (trieInsert_chain _ fun ht => ht.symbols _ (hl key (List.mem_cons_self ..))) fun _ t h _ => ?_
    refine ih (k + 1) fun w hw => ?_
    have ht : t = { s with trie := s.trie.insert key (word k) } := by
      obtain ⟨-, h⟩ := need_eq_ok.1 h
      cases h
      rfl
    rw [ht]
    exact hl w (List.mem_cons_of_mem _ hw)

theorem ruleCtGen_chain {p : Permit} (hb : p.buffer 1) (s : State) : (ruleCtGen s).Ends (Chain p s) := by
  unfold ruleCtGen
  split
  · exact .refl
  · next T hT =>
    refine chain_after (.code T.codeTable fun hn ht => codeTable_tablesOk hT hn ht) ?_
    refine chain_after (.buffer 1 ⟨[], grow s.cfg (s.buf 1).cap (bytesFor T.pushed)⟩ hb fun hc hs _ =>
      (hs.buf hc 1).emptied _) ?_
    refine chain_bind ?_ fun _ t _ _ => .refl
    split
    · exact chain_after (.trie Trie.fresh fun _ _ => fresh_trieOk _) (loadTrie_chain _ 0 fun w hw => hw)
    · exact .refl

/-! ## The serialized tree -/

theorem serTree_chain {p : Permit} (hw : p.writes) (ha : ¬p.appends) (hb : p.buffer 1) (addr : Nat) (s : State) :
    (serTree addr s).Ends (Chain p s) := by
  unfold serTree
  split
  · exact .refl
  · next T hT =>
    refine chain_need fun _ => chain_need fun hfit => ?_
    refine chain_bind (memWrite_chain hw fun h => absurd h ha) fun _ t h hchain => ?_
    refine Chain.single (.buffer 1 _ hb fun hc hs _ => (hs.buf hc 1).grown hc ?_ (le_bytesFor _) (bytesFor_le_most ?_))
    all_goals rw [cfg_of_fixed hchain.fixed, mode_of_fixed hchain.fixed]; exact hfit

/-- The handle that a parse of a subtree answers: allocated by it, live, and not yet a child (44_tree_serialization.md
R222). -/
structure FreshRoot (s t : State) (h : Word) : Prop where
  new : s.nextHandle ≤ h.toNat
  below : h.toNat < t.nextHandle
  live : NodeMap.live t.nodes h = true
  unowned : NodeMap.owned t.nodes h = false

/-- The permit of a parse: it allocates, and joins only nodes that it has allocated. -/
def parsePermit (strict : Prop) (floor : Nat) : Permit :=
  { strict := strict, queue := False, root := False, floor := floor }

theorem parsePermit_le {strict : Prop} {a b : Nat} (h : b ≤ a) : (parsePermit strict a).Le (parsePermit strict b) :=
  ⟨id, id, id, fun h => h.elim, id, id, id, id, id, id, fun _ => id, h⟩

/-- A node just allocated, whose children are not itself, is a fresh root. -/
theorem freshRoot_allocated {s u : State} {n : Node} (hn : u.NodesOk) (hj : Joinable u n)
    (hle : s.nextHandle ≤ u.nextHandle) : FreshRoot s (u.allocated n) u.newHandle := by
  have hnew := newHandle_toNat hn.counter
  refine ⟨by omega, by rw [allocated_nextHandle]; omega, ?_, ?_⟩
  · rw [NodeMap.live, allocated_find, if_pos rfl]; rfl
  · rw [Bool.eq_false_iff]
    intro ho
    obtain ⟨e, he, hc⟩ := owned_iff.1 ho
    rcases mapInsert_mem he with rfl | he
    · have := hj.live _ hc
      rw [NodeMap.live, newHandle_dead hn] at this
      cases this
    · have := newHandle_unowned hn
      rw [Bool.eq_false_iff] at this
      exact this (owned_iff.2 ⟨e, he, hc⟩)

/-- A later parse leaves a fresh root alone. -/
theorem FreshRoot.keep {strict : Prop} (hst : strict) {s u v : State} {h : Word} (hf : FreshRoot s u h)
    (hc : Chain (parsePermit strict u.nextHandle) u v) : FreshRoot s v h := by
  refine ⟨hf.new, hf.below.trans_le hc.old_nodes.1, ?_, hc.unowned_kept id hst hf.below hf.unowned⟩
  rw [NodeMap.live, hc.nodes_kept id hf.below]
  exact hf.live

/-- Two fresh roots, the second allocated after the first, may be joined. -/
theorem joinable_of_freshRoots {s u v : State} {l r f : Word} (hl : FreshRoot s v l) (hlt : l.toNat < u.nextHandle)
    (hr : FreshRoot u v r) : Joinable v (.internal l r f) := by
  have hne : l ≠ r := fun e => by have := hr.new; rw [← e] at this; omega
  refine ⟨fun c hc => ?_, by simpa [Node.children] using hne, fun c hc => ?_⟩ <;>
    simp only [Node.children, List.mem_cons, List.not_mem_nil, or_false] at hc <;> rcases hc with rfl | rfl
  · exact hl.live
  · exact hr.live
  · exact hl.unowned
  · exact hr.unowned

/-- The two parses below an internal node, one after the other. -/
theorem joinable_of_parses {strict : Prop} (hst : strict) {s u v : State} {l r f : Word} (hl : FreshRoot s u l)
    (hr : FreshRoot u v r) (hv : Chain (parsePermit strict u.nextHandle) u v) : Joinable v (.internal l r f) :=
  joinable_of_freshRoots (hl.keep hst hv) hl.below hr

/-- What a parse comes to: a chain that only allocates, and a fresh root where it completes. -/
theorem parseTree_chain {strict : Prop} (a b fuel : Nat) (bits : Bits) (i d : Nat) {s : State} (hs : strict → s.NodesOk) :
    (parseTree a b fuel bits i d s).Ends (Chain (parsePermit strict s.nextHandle) s) ∧
    ∀ x t, parseTree a b fuel bits i d s = .ok x t → strict → FreshRoot s t x.1 := by
  induction fuel generalizing bits i d s with
  | zero => exact ⟨.refl, fun x t h => by cases h⟩
  | succ fuel ih =>
    match bits with
    | [] => exact ⟨chain_need fun _ => .refl, fun x t h => by cases (need_eq_ok.1 h).2⟩
    | true :: rest =>
      refine ⟨chain_need fun _ => chain_need fun _ => chain_need fun _ => chain_bind (alloc_chain fun _ =>
        ⟨joinable_leaf .., fun c hc => absurd hc List.not_mem_nil⟩) fun _ _ _ _ => .refl, fun x t h hst => ?_⟩
      obtain ⟨-, h⟩ := need_eq_ok.1 h
      obtain ⟨-, h⟩ := need_eq_ok.1 h
      obtain ⟨-, h⟩ := need_eq_ok.1 h
      obtain ⟨y, u, ha, h⟩ := bind_eq_ok.1 h
      obtain ⟨-, rfl, rfl⟩ := alloc_eq_ok ha
      cases h
      exact freshRoot_allocated (hs hst) (joinable_leaf ..) (Nat.le_refl _)
    | false :: rest =>
      have left := ih rest (i + 1) (d + 1) hs
      have nodes : ∀ {u v : State}, Chain (parsePermit strict u.nextHandle) u v → (strict → u.NodesOk) → strict → v.NodesOk :=
        fun hc hu hst => hc.nodesOk hst (hu hst)
      have right : ∀ {l u}, parseTree a b fuel rest (i + 1) (d + 1) s = .ok l u →
          (parseTree a b fuel l.2.2 l.2.1 (d + 1) u).Ends (Chain (parsePermit strict u.nextHandle) u) ∧
          ∀ x t, parseTree a b fuel l.2.2 l.2.1 (d + 1) u = .ok x t → strict → FreshRoot u t x.1 :=
        fun hl => ih _ _ _ (nodes (left.1.of_ok hl) hs)
      constructor
      · refine chain_need fun _ => chain_bind left.1 fun l u hl hu => ?_
        refine chain_bind ((right hl).1.imp fun _ => Chain.mono (parsePermit_le hu.old_nodes.1)) fun r v hr _ => ?_
        refine chain_bind (alloc_chain fun hst => ?_) fun _ _ _ _ => .refl
        have hfl := left.2 l u hl hst
        have hfr := (right hl).2 r v hr hst
        refine ⟨joinable_of_parses hst hfl hfr ((right hl).1.of_ok hr), fun c hc => ?_⟩
        simp only [Node.children, List.mem_cons, List.not_mem_nil, or_false] at hc
        rcases hc with rfl | rfl
        · exact hfl.new
        · exact hu.old_nodes.1.trans hfr.new
      · intro x t h hst
        obtain ⟨-, h⟩ := need_eq_ok.1 h
        obtain ⟨l, u, hl, h⟩ := bind_eq_ok.1 h
        obtain ⟨r, v, hr, h⟩ := bind_eq_ok.1 h
        obtain ⟨y, w, ha, h⟩ := bind_eq_ok.1 h
        obtain ⟨-, rfl, rfl⟩ := alloc_eq_ok ha
        cases h
        have hv := (right hl).1.of_ok hr
        have hu := left.1.of_ok hl
        refine freshRoot_allocated (nodes hv (nodes hu hs) hst) ?_ (hu.old_nodes.1.trans hv.old_nodes.1)
        exact joinable_of_parses hst (left.2 l u hl hst) ((right hl).2 r v hr hst) hv

end Sys2Proof.Machine
end

section
/-! PROOFS. HT.DESER and the CD.DECODE side as chains of updates (spec/44_tree_serialization.md R221; spec/47_codec_decode.md
R265 to R267). Both free the tree at ROOT first; what they do after that only allocates, writes and moves the automaton. -/

namespace Sys2Proof.Machine

/-! ## Freeing ROOT -/

/-- Freeing a handle that names no node changes nothing. -/
theorem freeTree_of_dead {s : State} {x : Word} (h : mapFind x s.nodes = none) : freeTree x s = s := by
  have hempty : NodeMap.subtree s.nodes x = [] := by
    unfold NodeMap.subtree
    cases s.nodes.length with
    | zero => rfl
    | succ n => rw [NodeMap.reach, h]
  have hnodes : NodeMap.without s.nodes [] = s.nodes := by simp [NodeMap.without]
  unfold freeTree
  simp only [hempty, List.not_mem_nil, if_false, hnodes]

theorem freeTree_null {s : State} (h : s.NodesOk) : freeTree nullHandle s = s := freeTree_of_dead h.null

/-- The state after the tree at ROOT is freed and the code table emptied, as HT.DESER does it first (44_tree_serialization.md
R221). -/
def releaseRoot (s : State) : State := { freeTree s.root s with root := nullHandle, code := [] }

theorem releaseRoot_nodesOk {s : State} (h : s.NodesOk) : (releaseRoot s).NodesOk :=
  (freeTree_ok h s.root).filter (List.Sublist.refl _) rfl rfl (.inl rfl) (freeTree_ok h s.root).cursor

theorem code_nil_tablesOk {s : State} (hs : s.TablesOk) : ({ s with code := [] } : State).TablesOk :=
  ⟨hs.ftListed, hs.ftEntries, hs.ftFits, hs.symbols, rfl, fun _ h => absurd h List.not_mem_nil⟩

/-- Releasing ROOT frees, or there is nothing to free. -/
theorem releaseRoot_chain {p : Permit} (hr : p.root) {s : State} (h : p.free ∨ (s.NodesOk ∧ s.root = nullHandle)) :
    Chain p s (releaseRoot s) := by
  have hfree : Chain p s (freeTree s.root s) := by
    rcases h with h | ⟨hn, hnull⟩
    · exact .single (.free _ h)
    · rw [hnull, freeTree_null hn]
  refine hfree.trans (.head (.root nullHandle hr fun _ => ⟨.inl rfl, .inl rfl⟩) (.single ?_))
  exact .code [] fun _ ht => code_nil_tablesOk ht

/-! ## HT.DESER -/

/-- HT.DESER with its range checked: read, parse, set ROOT (R221). -/
theorem deserTree_of_range {a b : Nat} {s : State} (h : a ≤ b ∧ b ≤ s.inLen.toNat) :
    deserTree a b s = (memRead a (b - a) (releaseRoot s)).bind fun data s =>
      (parseTree a b ((unpack data).length + 1) (unpack data) 0 0 s).bind fun x s =>
      .ok ⟨x.1, treeBitsWord x.2.1, 0, 0⟩ { s with root := x.1 } := need_pos h _ _ _

theorem deserTree_of_bad_range {a b : Nat} {s : State} (h : ¬(a ≤ b ∧ b ≤ s.inLen.toNat)) :
    deserTree a b s = .raise (illegal 4 (word a)) s := need_neg h _ _ _

/-- HT.DESER refuses its range, or is a chain from the released state that frees nothing more. -/
theorem deserTree_chain {p : Permit} (hr : p.root) {a b : Nat} {s : State} (hs : p.strict → s.NodesOk) (hfloor : p.floor ≤ s.nextHandle) :
    (deserTree a b s).Ends fun t => t = s ∨ Chain p (releaseRoot s) t := by
  by_cases hrange : a ≤ b ∧ b ≤ s.inLen.toNat
  · rw [deserTree_of_range hrange]
    refine Ruling.Ends.imp ?_ fun _ => Or.inr
    refine chain_read ?_
    have hn : p.strict → (releaseRoot s).NodesOk := fun h => releaseRoot_nodesOk (hs h)
    obtain ⟨hchain, hroot⟩ := parseTree_chain (strict := p.strict) a b ((unpack ((releaseRoot s).inBytes a (b - a))).length + 1)
      (unpack ((releaseRoot s).inBytes a (b - a))) 0 0 hn
    have hle : (parsePermit p.strict (releaseRoot s).nextHandle).Le p :=
      ⟨id, False.elim, False.elim, fun _ h => h.elim, False.elim, False.elim, False.elim, False.elim,
        False.elim, False.elim, fun _ => False.elim, hfloor⟩
    refine chain_bind (hchain.imp fun _ => Chain.mono hle) fun x t hx _ => .single (.root x.1 hr fun h => ?_)
    exact ⟨.inr (hroot x t hx h).live, .inr (hfloor.trans (hroot x t hx h).new)⟩
  · rw [deserTree_of_bad_range hrange]
    exact .inl rfl

/-! ## The automaton -/

section automaton
variable {p : Permit} (hw : p.writes)
include hw

theorem emit_chain (sym : Word) (s : State) : (emit sym s).Ends (Chain p s) := by
  unfold emit
  split
  · exact .refl
  · refine chain_bind (memWrite_chain hw fun _ => rfl) fun _ t _ _ => .single ?_
    exact .automaton t.cursor t.dpos t.dbit (t.emitted + 1) t.symCount (fun _ => .inl rfl) id

/-- The cursor moves to ROOT, which is NULL or live, or to a child that is found. -/
theorem automatonStep_chain (bit : Bool) {s : State} (hs : p.strict → s.NodesOk) :
    (automatonStep bit s).Ends (Chain p s) := by
  unfold automatonStep
  split
  · exact chain_need fun _ => emit_chain hw _ s
  · split
    · split
      · exact .refl
      · refine chain_bind (emit_chain hw _ s) fun _ t _ ht => .single ?_
        exact .automaton t.root t.dpos t.dbit t.emitted t.symCount (fun h => .inr (ht.nodesOk h (hs h)).root) id
      · next l r f hcur l' r' f' hf =>
        refine .single (.automaton _ s.dpos s.dbit s.emitted s.symCount (fun _ => .inr (.inr ?_)) id)
        rw [NodeMap.live, hf]
        rfl
    · exact .refl

omit hw in
theorem nextBit_update (s : State) : Update p s s.nextBit := by
  unfold State.nextBit
  split
  · exact .automaton s.cursor (s.dpos + 1) 0 s.emitted s.symCount (fun _ => .inl rfl) fun _ => Nat.zero_le _
  · next hne =>
    refine .automaton s.cursor s.dpos (s.dbit + 1) s.emitted s.symCount (fun _ => .inl rfl) fun hle => ?_
    have : s.dbit.toNat ≠ 7 := fun h => hne (BitVec.eq_of_toNat_eq h)
    rw [BitVec.toNat_add, Nat.mod_eq_of_lt (by simp; omega)]
    simp
    omega

theorem decodeLoop_chain (count : Word) (bits : Bits) {s : State} (hs : p.strict → s.NodesOk) :
    (decodeLoop count bits s).Ends (Chain p s) := by
  induction bits generalizing s with
  | nil => unfold decodeLoop; split <;> exact .refl
  | cons bit rest ih =>
    unfold decodeLoop
    split
    · refine chain_bind (automatonStep_chain hw bit hs) fun _ t _ ht => ?_
      exact chain_after (nextBit_update t) (ih fun h => ((nextBit_update t).nodesOk h (ht.nodesOk h (hs h))))
    · exact .refl

theorem decodePass_chain (a b : Nat) (count : Word) {s : State} (hs : p.strict → s.NodesOk) :
    (decodePass a b count s).Ends (Chain p s) := by
  refine chain_need fun _ => chain_need fun _ => chain_read ?_
  have start : Update p s { s with cursor := s.root, dpos := word a, dbit := 0, emitted := 0 } :=
    .automaton s.root (word a) 0 0 s.symCount (fun h => .inr (hs h).root) fun _ => Nat.zero_le _
  refine chain_bind (chain_after start (decodeLoop_chain hw count _ fun h => start.nodesOk h (hs h))) fun _ _ _ _ => .refl

end automaton

/-! ## CD.DECODE -/

/-- Reading a symbol table leaves the state, and answers no empty word (44_tree_serialization.md R225). -/
theorem parseSymtab_spec (stop fuel pos : Nat) (s : State) :
    (parseSymtab stop fuel pos s).Ends (fun t => t = s) ∧
    ∀ l t, parseSymtab stop fuel pos s = .ok l t → ∀ w ∈ l, w ≠ [] := by
  induction fuel generalizing pos with
  | zero => exact ⟨rfl, fun l t h => by cases h; simp⟩
  | succ fuel ih =>
    unfold parseSymtab
    split
    · exact ⟨rfl, fun l t h => by cases h; simp⟩
    · constructor
      · refine ends_need rfl fun _ => ?_
        rcases memRead_cases pos 4 s with ⟨-, h⟩ | ⟨x, -, h⟩ <;> rw [h]
        · refine ends_need rfl fun _ => ?_
          rcases memRead_cases (pos + 4) (le32 (s.inBytes pos 4)).toNat s with ⟨-, h⟩ | ⟨x, -, h⟩ <;> rw [h]
          · have := (ih (pos + 4 + (le32 (s.inBytes pos 4)).toNat)).1
            rw [bind_ok]
            cases hp : parseSymtab stop fuel (pos + 4 + (le32 (s.inBytes pos 4)).toNat) s with
            | ok l t => rw [hp] at this; exact this
            | raise r t => rw [hp] at this; exact this
          · rfl
        · rfl
      · intro l t h
        obtain ⟨-, h⟩ := need_eq_ok.1 h
        obtain ⟨lenBytes, u, hread, h⟩ := bind_eq_ok.1 h
        obtain ⟨-, rfl, rfl⟩ := memRead_eq_ok hread
        obtain ⟨hn, h⟩ := need_eq_ok.1 h
        obtain ⟨entry, u', hread', h⟩ := bind_eq_ok.1 h
        obtain ⟨-, rfl, rfl⟩ := memRead_eq_ok hread'
        obtain ⟨rest, v, hrest, h⟩ := bind_eq_ok.1 h
        cases h
        rintro w (_ | ⟨_, hw⟩)
        · exact fun he => by have := congrArg List.length he; simp at this; omega
        · exact (ih _).2 _ _ hrest w hw

/-- The state that CD.DECODE starts from (47_codec_decode.md R266). -/
def decodeBase (s : State) : State :=
  { freeTree s.root s with root := nullHandle, code := [], symtab := [], outLen := 0, emitted := 0 }

theorem decodeBase_nodesOk {s : State} (h : s.NodesOk) : (decodeBase s).NodesOk :=
  (releaseRoot_nodesOk h).congr rfl rfl rfl rfl rfl

section decode
variable {p : Permit} (hw : p.writes) (hr : p.root) (hfree : p.free ∨ p.strict)
include hw hr hfree

omit hw in
theorem deserTree_chain_null {a b : Nat} {s : State} (hs : p.strict → s.NodesOk) (hfloor : p.floor ≤ s.nextHandle)
    (hroot : s.root = nullHandle) : (deserTree a b s).Ends (Chain p s) := by
  have hrelease : Chain p s (releaseRoot s) := releaseRoot_chain hr (hfree.imp id fun h => ⟨hs h, hroot⟩)
  refine (deserTree_chain hr hs hfloor).imp fun t ht => ?_
  rcases ht with rfl | ht
  · exact .refl
  · exact hrelease.trans ht

theorem decodeSections_chain (sto treeOff po : Nat) (count : Word) {s : State} (hs : p.strict → s.NodesOk)
    (hfloor : p.floor ≤ s.nextHandle) (hroot : s.root = nullHandle) :
    (decodeSections sto treeOff po count s).Ends (Chain p s) := by
  have rest : ∀ u : State, (p.strict → u.NodesOk) → p.floor ≤ u.nextHandle → u.root = nullHandle →
      ((deserTree treeOff po u).bind fun _ s => (decodePass po s.inLen.toNat count s).bind fun _ s =>
        .ok ⟨s.outLen, s.emitted, 0, 0⟩ s : Ruling Results).Ends (Chain p u) := fun u hu hf hnull =>
    chain_bind (deserTree_chain_null hr hfree hu hf hnull) fun _ v _ hv =>
      chain_bind (decodePass_chain hw _ _ _ fun h => hv.nodesOk h (hu h)) fun _ _ _ _ => .refl
  unfold decodeSections
  split
  · cases hp : parseSymtab treeOff (treeOff - sto) sto s with
    | raise r t =>
      obtain rfl : t = s := (parseSymtab_spec _ _ _ s).1.of_raise hp
      exact .refl
    | ok l t =>
      obtain rfl : t = s := (parseSymtab_spec _ _ _ s).1.of_ok hp
      have hl := (parseSymtab_spec _ _ _ t).2 l t hp
      exact chain_after (.symtab l fun _ => hl) (rest _ (fun h => (hs h).congr rfl rfl rfl rfl rfl) hfloor hroot)
  · exact rest s hs hfloor hroot

theorem ruleCdDecode_chain (he : p.empty) {s : State} (hs : p.strict → s.NodesOk) (hfloor : p.floor ≤ s.nextHandle) :
    (ruleCdDecode s).Ends (Chain p (decodeBase s)) := by
  have hn : p.strict → (decodeBase s).NodesOk := fun h => decodeBase_nodesOk (hs h)
  refine chain_need fun _ => chain_read ?_
  refine chain_need fun _ => chain_need fun _ => chain_need fun _ => chain_need fun _ => ?_
  refine chain_after (.automaton (decodeBase s).cursor (decodeBase s).dpos (decodeBase s).dbit (decodeBase s).emitted
    (headerField ((decodeBase s).inBytes 0 16) 12) (fun _ => .inl rfl) id) ?_
  split
  · refine chain_after (.empty true he) (.single ?_)
    exact .automaton nullHandle _ 0 _ _ (fun _ => .inr (.inl rfl)) fun _ => Nat.zero_le _
  · refine chain_after (.empty false he) ?_
    exact decodeSections_chain hw hr hfree _ _ _ _ (fun h => (hn h).congr rfl rfl rfl rfl rfl) hfloor rfl

end decode

end Sys2Proof.Machine
end

section
/-! PROOFS. The tree builder and the CD.ENCODE side as chains of updates (spec/43_huffman_tree.md R203, R204;
spec/46_codec_encode.md R250 to R252). While a tree is built the queue's items are the roots that are not joined yet. -/

namespace Sys2Proof.Machine

/-! ## The roots in the queue -/

/-- The items of the queue name different live nodes that are no node's child, all allocated from a handle on. -/
structure State.QueueRoots (floor : Nat) (s : State) : Prop where
  distinct : (s.pq.entries.map QItem.handle).Nodup
  live : ∀ x ∈ s.pq.entries, NodeMap.live s.nodes x.handle = true
  unowned : ∀ x ∈ s.pq.entries, NodeMap.owned s.nodes x.handle = false
  new : ∀ x ∈ s.pq.entries, floor ≤ x.handle.toNat

/-- A new node that joins none of the queued roots is a queued root itself when it is pushed. -/
theorem State.QueueRoots.push {floor : Nat} {s : State} (hq : s.QueueRoots floor) (hn : s.NodesOk) (hf : floor ≤ s.nextHandle)
    {n : Node} (hlive : ∀ c ∈ n.children, NodeMap.live s.nodes c = true)
    (hapart : ∀ c ∈ n.children, ∀ x ∈ s.pq.entries, x.handle ≠ c) (k : Word) :
    ({ s.allocated n with pq := s.pq.push k s.newHandle } : State).QueueRoots floor := by
  have hnew := newHandle_toNat hn.counter
  have hdead : ∀ x : Word, NodeMap.live s.nodes x = true → x ≠ s.newHandle := by
    rintro x hx rfl
    rw [NodeMap.live, newHandle_dead hn] at hx
    cases hx
  have owned : ∀ x : Word, NodeMap.owned s.nodes x = false → x ∉ n.children →
      NodeMap.owned (s.allocated n).nodes x = false := by
    intro x hx hc
    rw [Bool.eq_false_iff] at hx ⊢
    intro ho
    obtain ⟨e, he, hxe⟩ := owned_iff.1 ho
    rcases mapInsert_mem he with rfl | he
    · exact hc hxe
    · exact hx (owned_iff.2 ⟨e, he, hxe⟩)
  have hitem : ∀ x : QItem, x ∈ s.pq.entries ++ [⟨k, s.pq.nextSeq, s.newHandle⟩] →
      x ∈ s.pq.entries ∨ x.handle = s.newHandle := by
    intro x hx
    rcases List.mem_append.1 hx with hx | hx
    · exact .inl hx
    · rw [List.mem_singleton.1 hx]; exact .inr rfl
  refine ⟨?_, fun x hx => ?_, fun x hx => ?_, fun x hx => ?_⟩
  · show ((s.pq.entries ++ [_]).map QItem.handle).Nodup
    rw [List.map_append, List.nodup_append]
    refine ⟨hq.distinct, by simp, fun a ha b hb => ?_⟩
    obtain ⟨x, hx, rfl⟩ := List.mem_map.1 ha
    rw [List.map_singleton, List.mem_singleton] at hb
    rw [hb]
    exact hdead _ (hq.live x hx)
  · show NodeMap.live (s.allocated n).nodes x.handle = true
    rw [NodeMap.live, allocated_find]
    split
    · rfl
    · next hne => exact hq.live x ((hitem x hx).resolve_right hne)
  · rcases hitem x hx with hx | hx
    · exact owned _ (hq.unowned x hx) fun hc => hapart _ hc x hx rfl
    · rw [hx]
      exact owned _ (newHandle_unowned hn) fun hc => hdead _ (hlive _ hc) rfl
  · rcases hitem x hx with hx | hx
    · exact hq.new x hx
    · rw [hx, hnew]; exact hf

/-! ## Joining the two first items -/

theorem queueTop_mem {o : PqOrder} {items : List QItem} {x : QItem} (h : queueTop o items = some x) : x ∈ items := by
  induction items generalizing x with
  | nil => cases h
  | cons a rest ih =>
    simp only [queueTop] at h
    cases hr : queueTop o rest with
    | none => rw [hr] at h; cases h; exact List.mem_cons_self ..
    | some y =>
      rw [hr] at h
      dsimp only at h
      split at h
      · cases h; exact List.mem_cons_of_mem _ (ih hr)
      · cases h; exact List.mem_cons_self ..

/-- The top two items are the top, and the top of the rest. -/
theorem topTwo_eq_some {s : State} {x y : QItem} :
    topTwo s = some (x, y) ↔ s.top = some x ∧ queueTop s.pqOrder (s.pq.entries.erase x) = some y := by
  unfold topTwo
  cases ht : s.top with
  | none => simp
  | some t =>
    dsimp only
    constructor
    · intro h
      split at h
      · cases h
      · next t2 h2 => cases h; exact ⟨rfl, h2⟩
    · rintro ⟨h1, h2⟩
      cases h1
      rw [h2]

/-- The two items that are joined leave the queue. -/
def State.withoutItems (x y : QItem) (s : State) : State := { s with pq := (s.pq.take s.cfg x).take s.cfg y }

/-- `merge_step` with its two items at hand (43_huffman_tree.md R203). -/
theorem mergeStep_of_topTwo {s : State} {x y : QItem} (h : topTwo s = some (x, y)) :
    mergeStep s = need (x.key.toNat + y.key.toNat < 2 ^ 32) (allocFail 6 x.key.toNat) s
      (need (s.canAlloc = true) (allocFail 3 s.nodes.length) s
        ((alloc (.internal x.handle y.handle (x.key + y.key)) (s.withoutItems x y)).bind fun h s =>
          (pqInsert (x.key + y.key) h s).bind fun _ s => .ok (h, x.key + y.key) s)) := by
  obtain ⟨hx, hy⟩ := topTwo_eq_some.1 h
  have first : pqExtract s = .ok x { s with pq := s.pq.take s.cfg x } := by rw [pqExtract, hx]
  have second : pqExtract { s with pq := s.pq.take s.cfg x } = .ok y (s.withoutItems x y) := by
    have : State.top { s with pq := s.pq.take s.cfg x } = some y := hy
    rw [pqExtract, this]
    rfl
  rw [mergeStep, h]
  dsimp only
  rw [first, bind_ok, second, bind_ok]

theorem mergeStep_of_none {s : State} (h : topTwo s = none) :
    mergeStep s = .raise ⟨.emptyQueue, word s.pq.entries.length, 0⟩ s := by rw [mergeStep, h]

/-- The node that joins two items may be allocated once they have left the queue. -/
theorem joinable_of_live {s : State} {l r f : Word} (hl : NodeMap.live s.nodes l = true) (hr : NodeMap.live s.nodes r = true)
    (hne : l ≠ r) (hol : NodeMap.owned s.nodes l = false) (hor : NodeMap.owned s.nodes r = false) :
    Joinable s (.internal l r f) := by
  refine ⟨fun c hc => ?_, by simpa [Node.children] using hne, fun c hc => ?_⟩ <;>
    simp only [Node.children, List.mem_cons, List.not_mem_nil, or_false] at hc <;> rcases hc with rfl | rfl <;> assumption

theorem withoutItems_update {p : Permit} (hq : p.queue) (x y : QItem) (s : State) : Chain p s (s.withoutItems x y) := by
  refine .head (.queue (s.pq.take s.cfg x) hq (fun hq hs => take_ok hs hq rfl rfl) fun z hz => .inl (List.mem_of_mem_erase hz)) ?_
  exact .single (.queue _ hq (fun hq hs => take_ok hs hq rfl rfl) fun z hz => .inl (List.mem_of_mem_erase hz))

/-- `merge_step` is a chain where its two items may be joined. -/
theorem mergeStep_chain {p : Permit} (hq : p.queue) {s : State} (hfloor : p.floor ≤ s.nextHandle)
    (hj : ∀ x y, topTwo s = some (x, y) → p.strict →
      Joinable s (.internal x.handle y.handle (x.key + y.key)) ∧ p.floor ≤ x.handle.toNat ∧ p.floor ≤ y.handle.toNat) :
    (mergeStep s).Ends (Chain p s) := by
  cases h : topTwo s with
  | none => rw [mergeStep_of_none h]; exact .refl
  | some xy =>
    obtain ⟨x, y⟩ := xy
    rw [mergeStep_of_topTwo h]
    refine chain_need fun _ => chain_need fun hroom => ?_
    refine Ruling.Ends.imp ?_ fun t ht => (withoutItems_update hq x y s).trans ht
    refine chain_bind (alloc_chain fun hst => ?_) fun d t hd _ => chain_bind (pqInsert_chain hq ?_) fun _ _ _ _ => .refl
    · obtain ⟨⟨hlive, hdistinct, hown⟩, hx, hy⟩ := hj x y h hst
      refine ⟨⟨hlive, hdistinct, hown⟩, fun c hc => ?_⟩
      simp only [Node.children, List.mem_cons, List.not_mem_nil, or_false] at hc
      rcases hc with rfl | rfl <;> assumption
    · obtain ⟨-, rfl, -⟩ := alloc_eq_ok hd
      simp only [State.canAlloc, decide_eq_true_eq] at hroom
      have : s.newHandle.toNat = s.nextHandle := newHandle_toNat (by omega)
      show p.floor ≤ s.newHandle.toNat
      omega

theorem mergeStep_eq_ok {s t : State} {a : Word × Word} (h : mergeStep s = .ok a t) :
    ∃ x y, topTwo s = some (x, y) ∧ x.key.toNat + y.key.toNat < 2 ^ 32 ∧ s.canAlloc = true ∧
      a = (s.newHandle, x.key + y.key) ∧
      t = { s.allocated (.internal x.handle y.handle (x.key + y.key)) with
        pq := (s.withoutItems x y).pq.push (x.key + y.key) s.newHandle } := by
  cases htop : topTwo s with
  | none => rw [mergeStep_of_none htop] at h; cases h
  | some xy =>
    obtain ⟨x, y⟩ := xy
    rw [mergeStep_of_topTwo htop] at h
    obtain ⟨hsum, h⟩ := need_eq_ok.1 h
    obtain ⟨hroom, h⟩ := need_eq_ok.1 h
    obtain ⟨d, u, hd, h⟩ := bind_eq_ok.1 h
    obtain ⟨-, rfl, rfl⟩ := alloc_eq_ok hd
    obtain ⟨_, v, hv, h⟩ := bind_eq_ok.1 h
    obtain rfl := pqInsert_eq_ok hv
    cases h
    exact ⟨x, y, rfl, hsum, hroom, rfl, rfl⟩

/-- The two first items of a queue of roots. -/
theorem State.QueueRoots.topTwo {floor : Nat} {s : State} (hq : s.QueueRoots floor) {x y : QItem}
    (h : topTwo s = some (x, y)) : x ∈ s.pq.entries ∧ y ∈ s.pq.entries ∧ x.handle ≠ y.handle := by
  obtain ⟨hx, hy⟩ := topTwo_eq_some.1 h
  have hx := queueTop_mem hx
  have hy := queueTop_mem hy
  refine ⟨hx, List.mem_of_mem_erase hy, fun he => ?_⟩
  have hperm := (List.perm_cons_erase hx).map QItem.handle
  have := hperm.nodup_iff.1 hq.distinct
  rw [List.map_cons, List.nodup_cons] at this
  exact this.1 (he ▸ List.mem_map_of_mem (f := QItem.handle) hy)

/-- Joining two queued roots leaves a queue of roots. -/
theorem State.QueueRoots.merge {floor : Nat} {s t : State} (hq : s.QueueRoots floor) (hn : s.NodesOk)
    (hf : floor ≤ s.nextHandle) {a : Word × Word} (h : mergeStep s = .ok a t) : t.QueueRoots floor := by
  obtain ⟨x, y, htop, -, -, -, rfl⟩ := mergeStep_eq_ok h
  obtain ⟨hx, hy, hne⟩ := hq.topTwo htop
  have hyx : y ∈ s.pq.entries.erase x := queueTop_mem (topTwo_eq_some.1 htop).2
  have hsub : ((s.pq.entries.erase x).erase y).Sublist s.pq.entries := List.erase_sublist.trans List.erase_sublist
  have hrest : (s.withoutItems x y).QueueRoots floor :=
    ⟨hq.distinct.sublist (hsub.map _), fun z hz => hq.live z (hsub.subset hz), fun z hz => hq.unowned z (hsub.subset hz),
      fun z hz => hq.new z (hsub.subset hz)⟩
  have hperm : (x :: y :: (s.pq.entries.erase x).erase y).Perm s.pq.entries :=
    (List.Perm.cons x (List.perm_cons_erase hyx).symm).trans (List.perm_cons_erase hx).symm
  have hnd := (hperm.map QItem.handle).nodup_iff.2 hq.distinct
  simp only [List.map_cons, List.nodup_cons, List.mem_cons, not_or] at hnd
  refine hrest.push (s := s.withoutItems x y) (hn.congr rfl rfl rfl rfl rfl) hf (fun c hc => ?_) (fun c hc z hz => ?_) _ <;>
    simp only [Node.children, List.mem_cons, List.not_mem_nil, or_false] at hc <;> rcases hc with rfl | rfl
  · exact hq.live x hx
  · exact hq.live y hy
  · exact fun he => hnd.1.2 (he ▸ List.mem_map_of_mem (f := QItem.handle) hz)
  · exact fun he => hnd.2.1 (he ▸ List.mem_map_of_mem (f := QItem.handle) hz)

theorem State.QueueRoots.joinable {floor : Nat} {s : State} (hq : s.QueueRoots floor) {x y : QItem}
    (h : Machine.topTwo s = some (x, y)) :
    Joinable s (.internal x.handle y.handle (x.key + y.key)) ∧ floor ≤ x.handle.toNat ∧ floor ≤ y.handle.toNat := by
  obtain ⟨hx, hy, hne⟩ := hq.topTwo h
  exact ⟨joinable_of_live (hq.live x hx) (hq.live y hy) hne (hq.unowned x hx) (hq.unowned y hy), hq.new x hx, hq.new y hy⟩

/-! ## HT.BUILD -/

/-- One leaf allocated and queued, as HT.LEAF and HT.BUILD do it (43_huffman_tree.md R204, R205). -/
def State.queuedLeaf (sym freq : Word) (s : State) : State :=
  { s.allocated (.leaf sym freq) with pq := s.pq.push freq s.newHandle }

theorem State.QueueRoots.leaf {floor : Nat} {s : State} (hq : s.QueueRoots floor) (hn : s.NodesOk) (hf : floor ≤ s.nextHandle)
    (sym freq : Word) : (s.queuedLeaf sym freq).QueueRoots floor :=
  hq.push hn hf (fun _ hc => absurd hc List.not_mem_nil) (fun _ hc => absurd hc List.not_mem_nil) freq

/-- The leaves of HT.BUILD, one step. -/
theorem buildLeaf_eq_ok {sym freq h : Word} {s t u : State} {a : Unit} (hh : alloc (.leaf sym freq) s = .ok h t)
    (hu : pqInsert freq h t = .ok a u) : s.canAlloc = true ∧ u = s.queuedLeaf sym freq := by
  obtain ⟨hroom, rfl, rfl⟩ := alloc_eq_ok hh
  exact ⟨hroom, pqInsert_eq_ok hu⟩

/-- The leaves of HT.BUILD are a chain, and leave a queue of roots. -/
theorem buildLeaves_chain {p : Permit} (hq : p.queue) (l : List (Word × Word)) {s : State} (hs : p.strict → s.NodesOk ∧ s.QueueRoots p.floor)
    (hfloor : p.floor ≤ s.nextHandle) : (buildLeaves l s).Ends (Chain p s) ∧
    ∀ a t, buildLeaves l s = .ok a t → p.strict → t.QueueRoots p.floor := by
  induction l generalizing s with
  | nil => exact ⟨.refl, fun a t h hst => by cases h; exact (hs hst).2⟩
  | cons e rest ih =>
    obtain ⟨sym, freq⟩ := e
    have step : (alloc (.leaf sym freq) s).Ends (Chain p s) :=
      alloc_chain fun _ => ⟨joinable_leaf .., fun c hc => absurd hc List.not_mem_nil⟩
    have hnew : s.canAlloc = true → p.floor ≤ s.newHandle.toNat := by
      intro hroom
      simp only [State.canAlloc, decide_eq_true_eq] at hroom
      rw [newHandle_toNat (by omega)]
      exact hfloor
    have next : ∀ {h t a u}, alloc (.leaf sym freq) s = .ok h t → pqInsert freq h t = .ok a u →
        (buildLeaves rest u).Ends (Chain p u) ∧ ∀ a t, buildLeaves rest u = .ok a t → p.strict → t.QueueRoots p.floor := by
      intro h t a u hh hu
      obtain ⟨hroom, rfl⟩ := buildLeaf_eq_ok hh hu
      refine ih (fun hst => ⟨?_, (hs hst).2.leaf (hs hst).1 hfloor sym freq⟩) (hfloor.trans (Nat.le_succ _))
      exact (allocated_leaf_ok (hs hst).1 hroom sym freq).congr rfl rfl rfl rfl rfl
    constructor
    · refine chain_bind step fun h t hh _ => chain_bind (pqInsert_chain hq ?_) fun a u hu _ => (next hh hu).1
      obtain ⟨hroom, rfl, -⟩ := alloc_eq_ok hh
      exact hnew hroom
    · intro a t h hst
      obtain ⟨d, u, hd, h⟩ := bind_eq_ok.1 h
      obtain ⟨b, v, hv, h⟩ := bind_eq_ok.1 h
      exact (next hd hv).2 a t h hst

/-- The merges of HT.BUILD are a chain, and leave a queue of roots. -/
theorem buildMerges_chain {p : Permit} (hq : p.queue) (fuel : Nat) {s : State} (hs : p.strict → s.NodesOk ∧ s.QueueRoots p.floor)
    (hfloor : p.floor ≤ s.nextHandle) : (buildMerges fuel s).Ends (Chain p s) ∧
    ∀ a t, buildMerges fuel s = .ok a t → p.strict → t.QueueRoots p.floor := by
  induction fuel generalizing s with
  | zero => exact ⟨.refl, fun a t h hst => by cases h; exact (hs hst).2⟩
  | succ fuel ih =>
    unfold buildMerges
    split
    · exact ⟨.refl, fun a t h hst => by cases h; exact (hs hst).2⟩
    · have step : (mergeStep s).Ends (Chain p s) := mergeStep_chain hq hfloor fun x y h hst => (hs hst).2.joinable h
      have next : ∀ {a t}, mergeStep s = .ok a t → (buildMerges fuel t).Ends (Chain p t) ∧
          ∀ a u, buildMerges fuel t = .ok a u → p.strict → u.QueueRoots p.floor := by
        intro a t h
        have hc := step.of_ok h
        exact ih (fun hst => ⟨hc.nodesOk hst (hs hst).1, (hs hst).2.merge (hs hst).1 hfloor h⟩)
          (hfloor.trans hc.old_nodes.1)
      exact ⟨chain_bind step fun a t h _ => (next h).1, fun a t h hst => by
        obtain ⟨b, u, hu, h⟩ := bind_eq_ok.1 h
        exact (next hu).2 a t h hst⟩

/-- HT.BUILD after its release (43_huffman_tree.md R204). -/
theorem buildRelease_eq (s : State) : buildRelease s =
    { s with
      nodes := (freeTree (freeItems s.pq.entries s).root (freeItems s.pq.entries s)).nodes
      root := nullHandle
      cursor := (freeTree (freeItems s.pq.entries s).root (freeItems s.pq.entries s)).cursor
      pq := ⟨[], s.cfg.pqMinCap, 0⟩
      pqOrder := .minFirst
      code := []
      symtab := [] } := by
  unfold buildRelease
  rw [pqDestroy_true_eq]
  rfl

theorem buildRelease_nodesOk {s : State} (h : s.NodesOk) : (buildRelease s).NodesOk := by
  have h1 := freeItems_ok h s.pq.entries
  have h2 := freeTree_ok h1 (freeItems s.pq.entries s).root
  rw [buildRelease_eq]
  refine h2.filter (List.Sublist.refl _) ?_ ?_ (.inl rfl) h2.cursor
  · show s.nextHandle = (freeItems s.pq.entries s).nextHandle
    rw [freeItems_eq]
  · show s.cfg.nodeMax = (freeItems s.pq.entries s).cfg.nodeMax
    rw [freeItems_eq]

@[simp] theorem buildRelease_nextHandle (s : State) : (buildRelease s).nextHandle = s.nextHandle := by rw [buildRelease_eq]
@[simp] theorem buildRelease_mode (s : State) : (buildRelease s).mode = s.mode := by rw [buildRelease_eq]
@[simp] theorem buildRelease_ft (s : State) : (buildRelease s).ft = s.ft := by rw [buildRelease_eq]
@[simp] theorem buildRelease_cfg (s : State) : (buildRelease s).cfg = s.cfg := by rw [buildRelease_eq]

/-- In WORD mode HT.BUILD makes the keys of the frequency table the symbol table (R204 step 2). -/
def State.keyed (s : State) : State := if s.mode = .word then { s with symtab := s.ft.map Prod.fst } else s

/-- HT.BUILD steps 4 to 6: the leaves, the merges, and the last item made ROOT (R204). -/
def buildTree (s : State) : Ruling Results :=
  (buildLeaves ((symbolIds s.mode (s.ft.map Prod.fst)).zip (s.ft.map Prod.snd)) s).bind fun _ u =>
  (buildMerges u.pq.entries.length u).bind fun _ v =>
  (pqExtract v).bind fun t w =>
  .ok ⟨t.handle, word s.ft.length, 0, 0⟩ ({ w with root := t.handle }.setEmpty false)

/-- Every key of the table is one byte where CHAR mode needs it (R204 step 2). -/
def State.LegalKeys (s : State) : Prop := s.mode = .char → ∀ k ∈ s.ft.map Prod.fst, k.length = 1

theorem ruleHtBuild_of_illegal {s : State} (h : ¬s.LegalKeys) :
    ruleHtBuild s = .raise (illegal 8 7) (buildRelease s) := by
  refine need_neg (fun hc => h fun hm k hk => ?_) _ _ _
  rw [buildRelease_mode, buildRelease_ft] at hc
  exact of_decide_eq_true (List.all_eq_true.1 (hc hm) k hk)

/-- HT.BUILD with its keys checked: nothing to build, or the tree of the table (R204). -/
theorem ruleHtBuild_of_legal {s : State} (h : s.LegalKeys) : ruleHtBuild s =
    if s.ft = [] then .ok ⟨nullHandle, 0, 0, 0⟩ ((buildRelease s).keyed.setEmpty true)
    else buildTree (buildRelease s).keyed := by
  have hc : (buildRelease s).mode = .char →
      ((buildRelease s).ft.map Prod.fst).all (fun k => decide (k.length = 1)) = true := by
    rw [buildRelease_mode, buildRelease_ft]
    exact fun hm => List.all_eq_true.2 fun k hk => decide_eq_true (h hm k hk)
  have hnil : (buildRelease s).ft.map Prod.fst = [] ↔ s.ft = [] := by rw [buildRelease_ft, List.map_eq_nil_iff]
  unfold ruleHtBuild
  rw [need_pos hc]
  by_cases hword : (buildRelease s).mode = .word <;>
    simp only [State.keyed, buildTree, hword, hnil, if_true, if_false, List.length_map]

theorem keyed_chain {p : Permit} (s : State) : Chain p s s.keyed := by
  unfold State.keyed
  split
  · refine .single (.symtab _ fun ht w hw => ?_)
    obtain ⟨e, he, rfl⟩ := List.mem_map.1 hw
    exact (ht.ftEntries e he).1
  · exact .refl

/-- Building the tree is a chain from an empty queue. -/
theorem buildTree_chain {p : Permit} (hpq : p.queue) (hroot : p.root) (he : p.empty) {s : State} (hq : s.pq.entries = []) (hs : p.strict → s.NodesOk)
    (hfloor : p.floor ≤ s.nextHandle) : (buildTree s).Ends (Chain p s) := by
  have hroots : s.QueueRoots p.floor := by constructor <;> simp [hq]
  obtain ⟨hl, hlr⟩ := buildLeaves_chain hpq ((symbolIds s.mode (s.ft.map Prod.fst)).zip (s.ft.map Prod.snd))
    (fun hst => ⟨hs hst, hroots⟩) hfloor
  refine chain_bind hl fun a u hu hcu => ?_
  obtain ⟨hm, hmr⟩ := buildMerges_chain hpq u.pq.entries.length
    (fun hst => ⟨hcu.nodesOk hst (hs hst), hlr a u hu hst⟩) (hfloor.trans hcu.old_nodes.1)
  refine chain_bind hm fun b v hv _ => chain_bind (pqExtract_chain hpq) fun x w hx _ => ?_
  obtain ⟨htop, rfl⟩ := pqExtract_eq_ok hx
  have hmem := queueTop_mem htop
  refine chain_after (.root x.handle hroot fun hst => ?_) (.single (.empty false he))
  exact ⟨.inr ((hmr b v hv hst).live x hmem), .inr ((hmr b v hv hst).new x hmem)⟩

/-- HT.BUILD is a chain from the released state that frees nothing more. -/
theorem ruleHtBuild_chain {p : Permit} (hpq : p.queue) (hroot : p.root) (he : p.empty) {s : State}
    (hs : p.strict → s.NodesOk) (hfloor : p.floor ≤ s.nextHandle) :
    (ruleHtBuild s).Ends (Chain p (buildRelease s)) := by
  by_cases hlegal : s.LegalKeys
  · have hkeyed : Chain p (buildRelease s) (buildRelease s).keyed := keyed_chain _
    rw [ruleHtBuild_of_legal hlegal]
    refine Ruling.Ends.imp (P := Chain p (buildRelease s).keyed) ?_ fun t ht => hkeyed.trans ht
    split
    · exact .single (.empty true he)
    · refine buildTree_chain hpq hroot he ?_ (fun h => hkeyed.nodesOk h (buildRelease_nodesOk (hs h))) ?_
      · unfold State.keyed; split <;> rfl
      · exact (buildRelease_nextHandle s ▸ hfloor).trans hkeyed.old_nodes.1
  · rw [ruleHtBuild_of_illegal hlegal]
    exact .refl

/-! ## CD.EPASS and CD.ENCODE -/

section encode
variable {p : Permit}

theorem nextSymbol_ends {P : State → Prop} {base q : Nat} {first : Byte} {rest : Bytes} {s : State} (h : P s) :
    (nextSymbol base q first rest s).Ends P := by
  unfold nextSymbol
  split
  · exact h
  · split <;> exact h

theorem putCode_chain (hb : p.buffer 0) (base q : Nat) (first : Byte) (id : Word) (s : State) :
    (putCode base q first id s).Ends (Chain p s) := by
  unfold putCode
  split
  · exact .refl
  · next c _ =>
    exact chain_need fun hfit => .single (.buffer 0 _ hb fun hc hs _ => (hs.buf hc 0).appended hc hfit)

theorem encodeLoop_chain (hb : p.buffer 0) (base fuel q : Nat) (data : Bytes) (s : State) :
    (encodeLoop base fuel q data s).Ends (Chain p s) := by
  induction fuel generalizing q data s with
  | zero => exact .refl
  | succ fuel ih =>
    cases data with
    | nil => exact .refl
    | cons first rest =>
      refine chain_bind (nextSymbol_ends .refl) fun x t _ _ => chain_bind (putCode_chain hb ..) fun _ u _ _ => ?_
      exact chain_after (.automaton u.cursor u.dpos u.dbit u.emitted (u.symCount + 1) (fun _ => .inl rfl) id) (ih ..)

/-- PAY is emptied and SYMCOUNT set to 0 before the pass, and where CD.ENCODE has nothing to encode (46_codec_encode.md
R250, R252). -/
theorem payloadStart_chain (hb : p.buffer 0) (s : State) :
    Chain p s { s.setBuf 0 { s.buf 0 with bits := [] } with symCount := 0 } := by
  refine .head (.buffer 0 { s.buf 0 with bits := [] } hb fun hc hs _ => ?_) (.single ?_)
  · obtain ⟨-, -, hleast, hmost⟩ := hs.buf hc 0
    exact ⟨Nat.zero_le _, Nat.zero_le _, hleast, hmost⟩
  · exact .automaton _ _ _ _ 0 (fun _ => .inl rfl) id

theorem encodePass_chain (hb : p.buffer 0) (a b : Nat) (s : State) : (encodePass a b s).Ends (Chain p s) := by
  refine chain_need fun _ => chain_read ?_
  refine Ruling.Ends.imp ?_ fun t ht => (payloadStart_chain hb s).trans ht
  exact chain_bind (encodeLoop_chain hb ..) fun _ _ _ _ => .refl

variable (hw : p.writes) (ha : ¬p.appends) (hb0 : p.buffer 0)
include hw ha hb0

theorem encodeEmpty_chain (s : State) : (encodeEmpty s).Ends (Chain p s) := by
  unfold encodeEmpty
  split
  · exact chain_read .refl
  · exact chain_bind (memWrite_chain hw fun h => absurd h ha) fun _ t _ _ => payloadStart_chain hb0 t

theorem encodeSections_chain (hb1 : p.buffer 1) (s : State) : (encodeSections s).Ends (Chain p s) :=
  chain_bind (ruleCtGen_chain hb1 s) fun _ _ _ _ =>
  chain_bind (memWrite_chain hw fun h => absurd h ha) fun _ _ _ _ =>
  chain_bind (memWrite_chain hw fun h => absurd h ha) fun _ _ _ _ =>
  chain_bind (serTree_chain hw ha hb1 _ _) fun _ _ _ _ =>
  chain_bind (encodePass_chain hb0 _ _ _) fun _ _ _ _ =>
  chain_bind (memWrite_chain hw fun h => absurd h ha) fun _ _ _ _ =>
  chain_bind (memWrite_chain hw fun h => absurd h ha) fun _ _ _ _ => .refl

theorem ruleCdEncode_chain (hpq : p.queue) (hroot : p.root) (hb1 : p.buffer 1) (he : p.empty) {s : State} (hs : p.strict → s.NodesOk)
    (hfloor : p.floor ≤ s.nextHandle) : (ruleCdEncode s).Ends (Chain p (buildRelease { s with outLen := 0 })) := by
  have hn : p.strict → ({ s with outLen := 0 } : State).NodesOk := fun h => (hs h).congr rfl rfl rfl rfl rfl
  refine chain_bind (ruleHtBuild_chain hpq hroot he hn hfloor) fun _ t _ _ => ?_
  split
  · exact encodeEmpty_chain hw ha hb0 t
  · exact encodeSections_chain hw ha hb0 hb1 t

end encode

end Sys2Proof.Machine
end

section
/-! PROOFS. Every command but three of the SYS family as a chain of updates, with the permit that says which parts of the state
it may change; then the claims about what commands change (spec/10_state.md R24, R32 to R35, R44, R53; spec/48_system.md
R280; spec/60_exceptions.md R313). -/

namespace Sys2Proof.Machine

/-! ## The permit of a command -/

/-- What a command may change. The buffers PAY and SCR are the engine's own (10_state.md R44). -/
def permitOf (strict : Prop) (i : Instr) : Permit where
  strict := strict
  free := True
  writes := writesOut i = true
  appends := ∃ a b c, i = .cdDpass a b c
  empty := i = .htBuild ∨ i = .cdEncode ∨ i = .cdDecode
  order := i = .htBuild ∨ i = .cdEncode
  found := ∃ a n g, i = .ptSearch a n g
  counts := i = .ftClear ∨ ∃ a n c, i = .ftSet a n c
  buffer k := k < 2 ∨ ∃ b, bufferWritten i = some b ∧ b.toNat = k

/-- The commands whose rule is a chain of updates: all but the three that write the fault registers or what WRCR writes. -/
def IsChained (i : Instr) : Prop := i ≠ .sysReset ∧ i ≠ .sysClrerr ∧ ∀ cr v, i ≠ .sysWrcr cr v

/-- The two composite commands begin with OUT_LEN 0 (46_codec_encode.md R252, 47_codec_decode.md R266). -/
def startOf (i : Instr) (s : State) : State :=
  match i with
  | .cdEncode | .cdDecode => { s with outLen := 0 }
  | _ => s

/-! ## Chains of the releases -/

theorem freeItems_chain {p : Permit} (hf : p.free) (items : List QItem) (s : State) : Chain p s (freeItems items s) := by
  induction items generalizing s with
  | nil => exact .refl
  | cons t rest ih => exact .head (.free t.handle hf) (ih _)

theorem fresh_queue_chain {p : Permit} (hq : p.queue) (s : State) : Chain p s { s with pq := PQueue.fresh s.cfg } :=
  .single (.queue _ hq (fun hq _ => fresh_ok hq rfl) fun _ h => absurd h List.not_mem_nil)

theorem pqDestroy_chain {p : Permit} (hq : p.queue) (hf : p.free) (destructor : Bool) (s : State) :
    Chain p s (pqDestroy destructor s) := by
  cases destructor with
  | false => exact fresh_queue_chain hq s
  | true => exact (freeItems_chain hf s.pq.entries s).trans (fresh_queue_chain hq _)

theorem nil_symtab_chain {p : Permit} (s : State) : Chain p s { s with symtab := [] } :=
  .single (.symtab [] fun _ _ h => absurd h List.not_mem_nil)

theorem buildRelease_chain {p : Permit} (hq : p.queue) (hr : p.root) (hf : p.free) (ho : p.order) (s : State) :
    Chain p s (buildRelease s) := by
  have hroot := releaseRoot_chain hr (s := pqDestroy true s) (.inl hf)
  exact ((pqDestroy_chain hq hf true s).trans hroot).trans ((nil_symtab_chain _).tail (.order .minFirst ho))

theorem decodeBase_chain {p : Permit} (hr : p.root) (hf : p.free) (s : State) : Chain p { s with outLen := 0 } (decodeBase s) := by
  have hroot := releaseRoot_chain hr (s := { s with outLen := 0 }) (.inl hf)
  exact (hroot.trans (nil_symtab_chain _)).tail (.automaton _ _ _ 0 _ (fun _ => .inl rfl) id)

/-! ## Buffers and tables that the host writes -/

theorem created_ok {c : Config} {bits : Bits} (h : bits.length ≤ c.bbMaxBits) {n : Nat} (hn : n ≤ c.bbMaxBits)
    (hbits : bits.length ≤ n) : BitBuffer.Ok c ⟨bits, max c.bbMinCap (bytesFor n)⟩ := by
  have h1 := le_bytesFor n
  have h2 : bytesFor n ≤ max c.bbMinCap c.bbMaxBytes := bytesFor_le_most hn
  refine ⟨h, ?_, le_max_left _ _, max_le (le_max_left _ _) h2⟩
  show bits.length ≤ 8 * max c.bbMinCap (bytesFor n)
  omega

/-- Bits replaced by at most as many, in the same capacity. -/
theorem BitBuffer.Ok.shrunk {c : Config} {v : BitBuffer} (h : v.Ok c) {bits : Bits} (hb : bits.length ≤ v.bits.length) :
    BitBuffer.Ok c { v with bits := bits } :=
  ⟨hb.trans h.size, hb.trans h.stored, h.least, h.most⟩

/-- A code of the table fits a buffer (10_state.md R43, R55; log 14). -/
theorem code_fits {s : State} (hc : s.cfg.wellFormed = true) (ht : s.TablesOk) {sym : Word} {c : Bits}
    (h : mapFind sym s.code = some c) : c.length ≤ s.cfg.bbMaxBits := by
  have h1 := (ht.codes _ (mapFind_mem h)).2
  have h2 := codesFit_of_wellFormed hc
  obtain ⟨h3, h4, -⟩ := bufferSize_of_wellFormed hc
  dsimp only at h1
  omega

theorem removed_trieOk {s : State} (hs : s.TrieOk) (key : Bytes) :
    ({ s with trie := { s.trie with payload := mapErase key s.trie.payload } } : State).TrieOk := by
  have hsub : (mapErase key s.trie.payload).Sublist s.trie.payload := List.filter_sublist
  refine ⟨hs.listed, hs.root, hs.closed, ?_, fun e he => hs.payloadAt e (hsub.subset he), hs.fits⟩
  exact (rising_iff lexLt_order _).2 (((rising_iff lexLt_order _).1 hs.payloadListed).sublist (hsub.map _))

theorem erased_tablesOk {s : State} (hs : s.TablesOk) (key : Bytes) :
    ({ s with ft := mapErase key s.ft } : State).TablesOk := by
  have hsub : (mapErase key s.ft).Sublist s.ft := List.filter_sublist
  refine ⟨?_, fun e he => hs.ftEntries e (hsub.subset he), hsub.length_le.trans hs.ftFits, hs.symbols, hs.codeListed, hs.codes⟩
  exact (rising_iff lexLt_order _).2 (((rising_iff lexLt_order _).1 hs.ftListed).sublist (hsub.map _))

theorem mapInsert_length_of_mem {κ α : Type} [DecidableEq κ] {lt : κ → κ → Bool} (o : IsOrder lt) {k : κ} {v : α}
    {m : List (κ × α)} (hm : rising lt (m.map Prod.fst) = true) (h : (mapFind k m).isSome = true) :
    (mapInsert lt k v m).length = m.length := by
  have hk : k ∈ m.map Prod.fst := by
    by_contra hn
    rw [mapFind_eq_none.2 hn] at h
    cases h
  have hperm : ((mapInsert lt k v m).map Prod.fst).Perm (m.map Prod.fst) := by
    refine (List.perm_ext_iff_of_nodup (rising_nodup o (mapInsert_rising o k v hm)) (rising_nodup o hm)).2 fun x => ?_
    rw [mapInsert_keys k x v m o]
    exact ⟨fun h => h.elim (fun e => e ▸ hk) id, .inr⟩
  simpa using hperm.length_eq

theorem mapInsert_length_le {κ α : Type} {lt : κ → κ → Bool} (k : κ) (v : α) (m : List (κ × α)) :
    (mapInsert lt k v m).length ≤ m.length + 1 := by
  induction m with
  | nil => exact Nat.le_refl 1
  | cons e rest ih =>
    simp only [mapInsert]
    split
    · exact Nat.le_refl _
    · split
      · exact Nat.succ_le_succ ih
      · exact Nat.le_succ _

/-- Storing a count where there is an entry or room for one (43_huffman_tree.md R200). -/
theorem stored_tablesOk {s : State} (hs : s.TablesOk) {key : Bytes} {count : Word} (hkey : key ≠ []) (hc : count ≠ 0)
    (hroom : (mapFind key s.ft).isSome = true ∨ s.ft.length < s.cfg.ftMax) :
    ({ s with ft := mapInsert lexLt key count s.ft } : State).TablesOk := by
  refine ⟨mapInsert_rising lexLt_order _ _ hs.ftListed, fun e he => ?_, ?_, hs.symbols, hs.codeListed, hs.codes⟩
  · rcases mapInsert_mem he with rfl | he
    · exact ⟨hkey, hc⟩
    · exact hs.ftEntries e he
  · show (mapInsert lexLt key count s.ft).length ≤ s.cfg.ftMax
    rcases hroom with h | h
    · rw [mapInsert_length_of_mem lexLt_order hs.ftListed h]; exact hs.ftFits
    · exact (mapInsert_length_le _ _ _).trans h

theorem inBytes_ne_nil {s : State} {a n : Nat} (h : 1 ≤ n) : s.inBytes a n ≠ [] := by
  intro he
  have := congrArg List.length he
  simp at this
  omega

/-! ## Each command is a chain -/

section chains
variable {p : Permit} {s : State}

theorem rulePtInsert_chain (a n v : Word) : (rulePtInsert a n v s).Ends (Chain p s) := by
  refine chain_need fun _ => chain_need fun hlen => chain_read ?_
  exact chain_bind (trieInsert_chain v fun _ => inBytes_ne_nil hlen) fun _ _ _ _ => .refl

theorem rulePtSearch_chain (hf : p.found) (a n : Word) (g : Bool) : (rulePtSearch a n g s).Ends (Chain p s) := by
  refine chain_need fun _ => chain_read ?_
  split
  · exact .single (.found false hf)
  · exact .single (.found true hf)

theorem rulePtRemove_chain (a n : Word) : (rulePtRemove a n s).Ends (Chain p s) :=
  chain_need fun _ => chain_read <| chain_need fun _ => .single (.trie _ fun _ ht => removed_trieOk ht _)

theorem ruleFtSet_chain (hf : p.counts) (a n c : Word) : (ruleFtSet a n c s).Ends (Chain p s) := by
  refine chain_need fun _ => chain_need fun hlen => chain_read ?_
  split
  · exact .single (.counts _ hf fun ht => erased_tablesOk ht _)
  · next hc =>
    exact chain_need fun hroom => .single (.counts _ hf fun ht => stored_tablesOk ht (inBytes_ne_nil hlen) hc hroom)

theorem ruleHtLeaf_chain (hq : p.queue) (hfloor : p.floor = 0) (sym freq : Word) : (ruleHtLeaf sym freq s).Ends (Chain p s) := by
  refine chain_need fun _ => chain_need fun _ => chain_need fun _ => ?_
  refine chain_bind (alloc_chain fun _ => ⟨joinable_leaf .., fun c hc => absurd hc List.not_mem_nil⟩) fun h t _ _ => ?_
  exact chain_bind (pqInsert_chain hq (hfloor ▸ Nat.zero_le _)) fun _ _ _ _ => .refl

/-- The check of HT.MERGE is what allocating the joining node needs (43_huffman_tree.md R203, 10_state.md R49). -/
theorem joinable_of_mergeable {l r f : Word} (h : mergeable s.nodes l r = true) : Joinable s (.internal l r f) := by
  simp only [mergeable, Bool.and_eq_true, bne_iff_ne, Bool.not_eq_true'] at h
  obtain ⟨⟨⟨⟨hl, hr⟩, hne⟩, hol⟩, hor⟩ := h
  exact joinable_of_live hl hr hne hol hor

theorem ruleHtMerge_chain (hq : p.queue) (hfloor : p.floor = 0) : (ruleHtMerge s).Ends (Chain p s) := by
  refine chain_need fun _ => ?_
  cases htop : topTwo s with
  | none => exact .refl
  | some xy =>
    obtain ⟨x, y⟩ := xy
    refine chain_need fun hm => chain_bind (mergeStep_chain hq (hfloor ▸ Nat.zero_le _) fun x' y' h _ => ?_) fun _ _ _ _ => .refl
    cases htop.symm.trans h
    exact ⟨joinable_of_mergeable hm, hfloor ▸ Nat.zero_le _, hfloor ▸ Nat.zero_le _⟩

theorem ruleCtGet_chain {b : Word} (hb : p.buffer b.toNat) (sym : Word) : (ruleCtGet sym b s).Ends (Chain p s) := by
  refine chain_need fun _ => ?_
  split
  · exact .refl
  · next c h =>
    refine .single (.buffer _ _ hb fun hc _ ht => ?_)
    exact created_ok (code_fits hc ht h) (code_fits hc ht h) (Nat.le_refl _)

theorem ruleCtStload_chain (a b : Word) : (ruleCtStload a b s).Ends (Chain p s) := by
  refine chain_need fun _ => ?_
  obtain ⟨hstate, hwords⟩ := parseSymtab_spec b.toNat (b.toNat - a.toNat) a.toNat s
  refine chain_bind (hstate.imp fun t ht => by rw [ht]) fun l t hl _ => .single ?_
  exact .symtab l fun _ => hwords l t hl

theorem ruleBbCreate_chain {b : Word} (hb : p.buffer b.toNat) (n : Word) : (ruleBbCreate b n s).Ends (Chain p s) :=
  chain_need fun _ => chain_need fun hn => .single <|
    .buffer _ _ hb fun _ _ _ => created_ok (Nat.zero_le _) hn (Nat.zero_le _)

theorem ruleBbSet_chain {b : Word} (hb : p.buffer b.toNat) (i v : Word) : (ruleBbSet b i v s).Ends (Chain p s) :=
  chain_need fun _ => chain_need fun _ => chain_need fun _ => .single <|
    .buffer _ _ hb fun hc hs _ => (hs.buf hc _).shrunk (by rw [List.length_set])

theorem ruleBbAppend_chain {b : Word} (hb : p.buffer b.toNat) (v : Word) : (ruleBbAppend b v s).Ends (Chain p s) :=
  chain_need fun _ => chain_need fun _ => chain_need fun hroom => .single <|
    .buffer _ _ hb fun hc hs _ => (hs.buf hc _).appended hc hroom

theorem ruleBbCopy_chain {d : Word} (hb : p.buffer d.toNat) (src : Word) : (ruleBbCopy d src s).Ends (Chain p s) :=
  chain_need fun _ => chain_need fun _ => .single <| .buffer _ _ hb fun hc hs _ => hs.buf hc _

theorem ruleBbConcat_chain {d : Word} (hb : p.buffer d.toNat) (src : Word) : (ruleBbConcat d src s).Ends (Chain p s) :=
  chain_need fun _ => chain_need fun _ => chain_need fun _ => chain_need fun hroom => .single <|
    .buffer _ _ hb fun hc hs _ => (hs.buf hc _).appended hc hroom

theorem ruleBbReset_chain {b : Word} (hb : p.buffer b.toNat) : (ruleBbReset b s).Ends (Chain p s) :=
  chain_need fun _ => .single <| .buffer _ _ hb fun hc hs _ => (hs.buf hc _).shrunk (Nat.zero_le _)

theorem rulePqPeek_ends {P : State → Prop} (h : P s) : (rulePqPeek s).Ends P := by
  unfold rulePqPeek
  split <;> exact h

theorem ruleHtNode_ends {P : State → Prop} (x : Word) (h : P s) : (ruleHtNode x s).Ends P := by
  unfold ruleHtNode
  split <;> exact h

theorem ruleSysRdcr_ends {P : State → Prop} (cr : Word) (h : P s) : (ruleSysRdcr cr s).Ends P := by
  unfold ruleSysRdcr
  split <;> exact h

end chains

/-- Every command but SYS.RESET, SYS.CLRERR and SYS.WRCR is a chain of the updates that its permit allows. -/
theorem rule_chain {strict : Prop} {i : Instr} (hi : IsChained i) {s : State} (hs : strict → s.NodesOk) :
    (ruleOf i s).Ends (Chain (permitOf strict i) (startOf i s)) := by
  have named : ∀ {b : Word}, bufferWritten i = some b → (permitOf strict i).buffer b.toNat := fun h => .inr ⟨_, h, rfl⟩
  have pay : (permitOf strict i).buffer 0 := .inl (by decide)
  have scr : (permitOf strict i).buffer 1 := .inl (by decide)
  have nofloor : (permitOf strict i).floor ≤ s.nextHandle := Nat.zero_le _
  cases i with
  | sysReset => exact absurd rfl hi.1
  | sysClrerr => exact absurd rfl hi.2.1
  | sysWrcr cr v => exact absurd rfl (hi.2.2 cr v)
  | sysNop => exact .refl
  | sysRdcr cr => exact ruleSysRdcr_ends cr .refl
  | bbCreate b n => exact ruleBbCreate_chain (named rfl) n
  | bbGet b x => exact chain_need fun _ => chain_need fun _ => .refl
  | bbSet b x v => exact ruleBbSet_chain (named rfl) x v
  | bbAppend b v => exact ruleBbAppend_chain (named rfl) v
  | bbCopy d src => exact ruleBbCopy_chain (named rfl) src
  | bbConcat d src => exact ruleBbConcat_chain (named rfl) src
  | bbReset b => exact ruleBbReset_chain (named rfl)
  | bbSize b => exact chain_need fun _ => .refl
  | bbFlush b a =>
    exact chain_need fun _ => chain_bind (memWrite_chain rfl fun h => by simp [permitOf] at h) fun _ _ _ _ => .refl
  | pqInsert h k => exact chain_bind (pqInsert_chain trivial (Nat.zero_le _)) fun _ _ _ _ => .refl
  | pqExtract => exact chain_bind (pqExtract_chain trivial) fun _ _ _ _ => .refl
  | pqPeek => exact rulePqPeek_ends .refl
  | pqSize => exact .refl
  | pqIsempty => exact .refl
  | pqDestroy d => exact pqDestroy_chain trivial trivial d s
  | ptInsert a n v => exact rulePtInsert_chain a n v
  | ptSearch a n g => exact rulePtSearch_chain (p := permitOf strict _) ⟨a, n, g, rfl⟩ a n g
  | ptRemove a n => exact rulePtRemove_chain a n
  | ptKeys a => exact chain_bind (memWrite_chain rfl fun h => by simp [permitOf] at h) fun _ _ _ _ => .refl
  | ptClear => exact .single (.trie _ fun _ _ => fresh_trieOk s)
  | ftSet a n c => exact ruleFtSet_chain (p := permitOf strict _) (Or.inr ⟨a, n, c, rfl⟩) a n c
  | ftClear =>
    exact .single (.counts [] (Or.inl rfl) fun ht =>
      ⟨rfl, fun _ h => absurd h List.not_mem_nil, Nat.zero_le _, ht.symbols, ht.codeListed, ht.codes⟩)
  | htLeaf sym freq => exact ruleHtLeaf_chain trivial rfl sym freq
  | htMerge => exact ruleHtMerge_chain trivial rfl
  | htBuild =>
    exact (ruleHtBuild_chain trivial trivial (Or.inl rfl) hs nofloor).imp fun _ => (buildRelease_chain trivial trivial trivial (Or.inl rfl) s).trans
  | htFree h => exact chain_need fun _ => .single (.free h trivial)
  | htSer a => exact serTree_chain rfl (by simp [permitOf]) scr a.toNat s
  | htDeser a b =>
    refine (deserTree_chain trivial hs nofloor).imp fun t ht => ?_
    rcases ht with rfl | ht
    · exact .refl
    · exact (releaseRoot_chain trivial (.inl trivial)).trans ht
  | htNode h => exact ruleHtNode_ends h .refl
  | ctGen => exact ruleCtGen_chain scr s
  | ctGet sym b => exact ruleCtGet_chain (named rfl) sym
  | ctStload a b => exact ruleCtStload_chain a b
  | ctStstore a => exact chain_bind (memWrite_chain rfl fun h => by simp [permitOf] at h) fun _ _ _ _ => .refl
  | cdEncode =>
    exact (ruleCdEncode_chain rfl (by simp [permitOf]) pay trivial trivial scr (Or.inr (Or.inl rfl)) hs nofloor).imp fun _ =>
      (buildRelease_chain trivial trivial trivial (Or.inr rfl) _).trans
  | cdDecode =>
    exact (ruleCdDecode_chain rfl trivial (Or.inl trivial) (Or.inr (Or.inr rfl)) hs nofloor).imp fun _ => (decodeBase_chain trivial trivial s).trans
  | cdEpass a b => exact encodePass_chain pay _ _ s
  | cdDpass a b c => exact decodePass_chain rfl _ _ c hs

end Sys2Proof.Machine
end

section
/-! PROOFS. What every command answers, changes and leaves unchanged (spec/10_state.md R22, R24, R44, R48; spec/48_system.md R280;
spec/60_exceptions.md R312, R313): each claim is read off the three ways a command can end. -/

namespace Sys2Proof.Machine

/-! ## How a command ends -/

/-- Everything the execution of a command can come to: ignored, completed, or raised (48_system.md R280). -/
theorem exec_cases {i : Instr} {s t : State} (h : exec i s = .next t) :
    (s.status.fault = true ∧ passesFilter i.fields.opcode = false ∧ t = s.ignored) ∨
    (∃ res u, ruleOf i s = .ok res u ∧ t = u.completed res) ∨
    (∃ r u, ruleOf i s = .raise r u ∧ t = takeFault i.w0 r s (afterRaise (commandClass i) s u)) :=
  runRule_cases (exec_eq_runRule i s ▸ h)

theorem cause_code (c : Cause) : 1 ≤ c.code.toNat ∧ c.code.toNat ≤ 9 := by cases c <;> decide

/-- What abort_cleanup leaves (60_exceptions.md R314). -/
theorem abortCleanup_eq (before raised : State) : abortCleanup before raised =
    { raised with
      nodes := (abortCleanup before raised).nodes
      root := nullHandle
      cursor := nullHandle
      dpos := 0
      dbit := 0
      emitted := 0
      symCount := 0
      code := []
      symtab := []
      trie := Trie.fresh
      pq := PQueue.fresh raised.cfg
      bb := (raised.bb.set 0 (BitBuffer.fresh raised.cfg)).set 1 (BitBuffer.fresh raised.cfg)
      outLen := 0
      outMem := raised.outMem.forget } := by
  unfold abortCleanup
  rw [pqDestroy_true_eq]
  rfl

theorem abortCleanup_fixed (before raised : State) : (abortCleanup before raised).fixed = raised.fixed := by
  rw [abortCleanup_eq]
  rfl

/-- The nodes that abort_cleanup keeps are those that the two releases keep of the old ones (60_exceptions.md R314). -/
theorem abortCleanup_nodes (before raised : State) : (abortCleanup before raised).nodes =
    (freeTree (pqDestroy true (dropAllocated before.nextHandle raised)).root
      (pqDestroy true (dropAllocated before.nextHandle raised))).nodes := rfl

/-- A raised fault that is recorded, or that leaves one recorded, is pending after it (60_exceptions.md R312, R316). -/
theorem takeFault_pending {w0 : Word} {r : Raise} {before after : State} (h : after.status.fault = before.status.fault) :
    (takeFault w0 r before after).status.fault = true := by
  unfold takeFault
  split
  · next hf => exact h.trans hf
  · rfl

/-! ## Commands that are no chains -/

/-- What SYS.WRCR does when it completes (48_system.md R285). -/
theorem ruleSysWrcr_eq_ok {cr v : Word} {s t : State} {res : Results} (h : ruleSysWrcr cr v s = .ok res t) :
    (cr = 6 ∧ t = { s with mode := Mode.ofWord v }) ∨
    (cr = 7 ∧ v.toNat ≤ s.cfg.inCap ∧ t = { s with inLen := v }) ∨
    (cr = 8 ∧ v.toNat ≤ s.cfg.outCap ∧ t = { s with outLen := v }) ∨
    (cr = 9 ∧ t = { s with pqOrder := PqOrder.ofWord v }) := by
  by_cases h6 : cr = 6
  · subst h6
    obtain ⟨-, h⟩ := need_eq_ok.1 ((ruleSysWrcr_mode v s).symm.trans h)
    cases h
    exact .inl ⟨rfl, rfl⟩
  by_cases h7 : cr = 7
  · subst h7
    obtain ⟨hv, h⟩ := need_eq_ok.1 ((ruleSysWrcr_inLen v s).symm.trans h)
    cases h
    exact .inr (.inl ⟨rfl, hv, rfl⟩)
  by_cases h8 : cr = 8
  · subst h8
    obtain ⟨hv, h⟩ := need_eq_ok.1 ((ruleSysWrcr_outLen v s).symm.trans h)
    cases h
    exact .inr (.inr (.inl ⟨rfl, hv, rfl⟩))
  by_cases h9 : cr = 9
  · subst h9
    obtain ⟨-, h⟩ := need_eq_ok.1 ((ruleSysWrcr_pqOrder v s).symm.trans h)
    obtain ⟨-, h⟩ := need_eq_ok.1 h
    cases h
    exact .inr (.inr (.inr ⟨rfl, rfl⟩))
  · rw [ruleSysWrcr_of_other h6 h7 h8 h9] at h
    cases h

/-- The commands by the way they change the state. -/
theorem chained_or_sys (i : Instr) : IsChained i ∨ i = .sysReset ∨ i = .sysClrerr ∨ ∃ cr v, i = .sysWrcr cr v := by
  by_cases h1 : i = .sysReset
  · exact .inr (.inl h1)
  by_cases h2 : i = .sysClrerr
  · exact .inr (.inr (.inl h2))
  by_cases h3 : ∃ cr v, i = .sysWrcr cr v
  · exact .inr (.inr (.inr h3))
  · exact .inl ⟨h1, h2, fun cr v he => h3 ⟨cr, v, he⟩⟩

/-- A rule ends with the fault flag as it was, or cleared by SYS.RESET or SYS.CLRERR. -/
theorem rule_fault {i : Instr} {s u : State} {res : Results} (h : ruleOf i s = .ok res u) :
    u.status.fault = s.status.fault ∨ (u.status.fault = false ∧ (i = .sysReset ∨ i = .sysClrerr)) := by
  rcases chained_or_sys i with hi | rfl | rfl | ⟨cr, v, rfl⟩
  · have hc := (rule_chain (strict := False) hi (s := s) False.elim).of_ok h
    refine .inl ((fault_of_fixed hc.fixed).trans ?_)
    unfold startOf
    split <;> rfl
  · cases h; exact .inr ⟨rfl, .inl rfl⟩
  · cases h; exact .inr ⟨rfl, .inr rfl⟩
  · rcases ruleSysWrcr_eq_ok h with ⟨-, rfl⟩ | ⟨-, -, rfl⟩ | ⟨-, -, rfl⟩ | ⟨-, rfl⟩ <;> exact .inl rfl

/-- The commands of the cleanup class are chains (60_exceptions.md R313). -/
theorem isChained_of_cleanup {i : Instr} (h : commandClass i = .cleanup) : IsChained i := by
  refine ⟨?_, ?_, fun cr v => ?_⟩ <;> rintro rfl <;> cases h

/-- A cleanup command raises at the end of a chain. -/
theorem raise_chain {strict : Prop} {i : Instr} {s u : State} {r : Raise} (hi : commandClass i = .cleanup)
    (hs : strict → s.NodesOk) (h : ruleOf i s = .raise r u) : Chain (permitOf strict i) (startOf i s) u :=
  (rule_chain (isChained_of_cleanup hi) hs).of_raise h

theorem startOf_fixed (i : Instr) (s : State) : (startOf i s).fixed = s.fixed := by
  unfold startOf
  split <;> rfl

/-- A raised fault leaves the fixed part of the state (60_exceptions.md R313, R314). -/
theorem afterRaise_fixed {i : Instr} {s u : State} {r : Raise} (h : ruleOf i s = .raise r u) :
    (afterRaise (commandClass i) s u).fixed = s.fixed := by
  cases hi : commandClass i with
  | precise => rfl
  | cleanup =>
    have hc := raise_chain (strict := False) hi False.elim h
    exact (abortCleanup_fixed s u).trans (hc.fixed.trans (startOf_fixed i s))

/-! ## Answers -/

/-- Settles O51: a precise command with no fault before and one after has raised. -/
theorem preciseFaultsChangeOnlyFaultRegisters : Obligations.PreciseFaultsChangeOnlyFaultRegisters := by
  intro i s t hi hf h hpending
  rcases exec_cases h with ⟨hs, -⟩ | ⟨res, u, hu, rfl⟩ | ⟨r, u, hu, rfl⟩
  · rw [hf] at hs; cases hs
  · rcases rule_fault hu with hu | ⟨hu, -⟩
    · rw [completed_status, hu, hf] at hpending; cases hpending
    · rw [completed_status, hu] at hpending; cases hpending
  · obtain ⟨h1, h9⟩ := cause_code r.cause
    refine ⟨r.cause.code, r.info0, r.info1, h1, h9, ?_⟩
    rw [hi, takeFault_faulted hf, wordW0_encode]
    rfl

/-- Settles O53: an ignored command, a completed one and a raised one each give their code. -/
theorem everyCommandIsAnswered : Obligations.EveryCommandIsAnswered := by
  intro i s
  obtain ⟨t, ht⟩ := exec_next i s
  rcases exec_cases ht with ⟨hf, -, rfl⟩ | ⟨res, u, -, rfl⟩ | ⟨r, u, hu, rfl⟩
  · exact ⟨_, 0xFF, ht, rfl, .inr rfl, fun _ => rfl, fun _ => ⟨hf, rfl⟩, fun _ h => absurd h (by decide)⟩
  · exact ⟨_, 0, ht, rfl, .inl (by decide), fun h => absurd rfl h, fun h => absurd h (by decide),
      fun h => absurd h (by decide)⟩
  · obtain ⟨h1, h9⟩ := cause_code r.cause
    have hne : r.cause.code ≠ 0xFF := fun h => by rw [h] at h9; exact absurd h9 (by decide)
    refine ⟨_, r.cause.code, ht, ?_, .inl h9, fun _ => takeFault_res .., fun h => absurd h hne,
      fun _ _ => takeFault_pending (fault_of_fixed (afterRaise_fixed hu))⟩
    rw [takeFault_resp, takeFault_res]

/-! ## Changes -/

/-- The parts of the state that only named commands write. -/
structure Settings where
  cfg : Config
  inMem : Memory
  port : List HostMove
  mode : Mode
  inLen : Word
  pqOrder : PqOrder
  found : Bool
  empty : Bool
  ft : List (Bytes × Word)

def State.settings (s : State) : Settings :=
  ⟨s.cfg, s.inMem, s.port, s.mode, s.inLen, s.pqOrder, s.status.found, s.status.empty, s.ft⟩

theorem takeFault_settings (w0 : Word) (r : Raise) (before after : State) :
    (takeFault w0 r before after).settings = after.settings := by
  unfold takeFault
  split <;> rfl

theorem startOf_settings (i : Instr) (s : State) : (startOf i s).settings = s.settings := by
  unfold startOf
  split <;> rfl

/-- However a chained command ends, its settings are those at the end of a chain. -/
theorem exec_settings {i : Instr} (hi : IsChained i) {s t : State} (h : exec i s = .next t) :
    ∃ u, Chain (permitOf False i) (startOf i s) u ∧ t.settings = u.settings := by
  rcases exec_cases h with ⟨-, -, rfl⟩ | ⟨res, u, hu, rfl⟩ | ⟨r, u, hu, rfl⟩
  · exact ⟨_, .refl, (startOf_settings i s).symm⟩
  · exact ⟨u, (rule_chain hi False.elim).of_ok hu, rfl⟩
  · rw [takeFault_settings]
    cases hc : commandClass i with
    | precise => exact ⟨_, .refl, (startOf_settings i s).symm⟩
    | cleanup =>
      refine ⟨u, raise_chain hc False.elim hu, ?_⟩
      rw [afterRaise, abortCleanup_eq]
      rfl

/-- A pending fault ends by SYS.RESET or SYS.CLRERR alone (10_state.md R24). -/
theorem fault_cleared_by {i : Instr} {s t : State} (h : exec i s = .next t) (hf : s.status.fault = true)
    (ht : t.status.fault = false) : i = .sysReset ∨ i = .sysClrerr := by
  rcases exec_cases h with ⟨-, -, rfl⟩ | ⟨res, u, hu, rfl⟩ | ⟨r, u, hu, rfl⟩
  · exact absurd (hf.symm.trans ht) (by decide)
  · rcases rule_fault hu with hu | ⟨-, hi⟩
    · exact absurd (hf.symm.trans (hu.symm.trans ht)) (by decide)
    · exact hi
  · rw [takeFault_pending (fault_of_fixed (afterRaise_fixed hu))] at ht
    cases ht

/-- A command that ends as SYS.CLRERR does changes none of the settings. -/
theorem sysClrerr_settings {s t : State} (h : exec .sysClrerr s = .next t) : t.settings = s.settings := by
  rcases exec_cases h with ⟨-, hp, -⟩ | ⟨res, u, hu, rfl⟩ | ⟨r, u, hu, -⟩
  · cases hp
  · cases hu; rfl
  · cases hu

/-- SYS.WRCR changes one setting, the one of the register that it names (48_system.md R285). -/
theorem sysWrcr_settings {cr v : Word} {s t : State} (h : exec (.sysWrcr cr v) s = .next t) :
    t.settings = s.settings ∨ (cr = 6 ∧ t.settings = { s.settings with mode := Mode.ofWord v }) ∨
      (cr = 7 ∧ t.settings = { s.settings with inLen := v }) ∨
      (cr = 9 ∧ t.settings = { s.settings with pqOrder := PqOrder.ofWord v }) := by
  rcases exec_cases h with ⟨-, -, rfl⟩ | ⟨res, u, hu, rfl⟩ | ⟨r, u, hu, rfl⟩
  · exact .inl rfl
  · rcases ruleSysWrcr_eq_ok hu with ⟨h6, rfl⟩ | ⟨h7, -, rfl⟩ | ⟨-, -, rfl⟩ | ⟨h9, rfl⟩
    · exact .inr (.inl ⟨h6, rfl⟩)
    · exact .inr (.inr (.inl ⟨h7, rfl⟩))
    · exact .inl rfl
    · exact .inr (.inr (.inr ⟨h9, rfl⟩))
  · exact .inl (takeFault_settings ..)

/-- SYS.RESET keeps the parameters, IN and the port (48_system.md R283). -/
theorem sysReset_eq_next {s t : State} (h : exec .sysReset s = .next t) :
    t = State.completed Results.zero { State.resetOf s.cfg s.inMem.era s.outMem.era with
      inMem := s.inMem, outMem := s.outMem, port := s.port, resp := s.resp } := by
  rcases exec_cases h with ⟨-, hp, -⟩ | ⟨res, u, hu, rfl⟩ | ⟨r, u, hu, -⟩
  · cases hp
  · cases hu; rfl
  · cases hu

/-- Settles O54: by the permit of the command, and by the rules of the three SYS commands that are no chains. -/
theorem onlyTheNamedCommandsWrite : Obligations.OnlyTheNamedCommandsWrite := by
  intro i s t h
  have hfault : s.status.fault = true → t.status.fault = false → i = .sysReset ∨ i = .sysClrerr := fault_cleared_by h
  have unchanged : t.settings = s.settings → t.cfg = s.cfg ∧ t.inMem = s.inMem ∧ t.port = s.port ∧ t.mode = s.mode ∧
      t.inLen = s.inLen ∧ t.pqOrder = s.pqOrder ∧ t.status.found = s.status.found ∧ t.status.empty = s.status.empty ∧
      t.ft = s.ft := fun e => by simpa [State.settings] using e
  rcases chained_or_sys i with hi | rfl | rfl | ⟨cr, v, rfl⟩
  · obtain ⟨u, hu, he⟩ := exec_settings hi h
    have hs := startOf_settings i s
    simp only [State.settings, Settings.mk.injEq] at he hs
    obtain ⟨h1, h2, h3, h4, h5, h6, h7, h8, h9⟩ := he
    obtain ⟨k1, k2, k3, k4, k5, k6, k7, k8, k9⟩ := hs
    have hfix := hu.fixed
    refine ⟨h1.trans ((cfg_of_fixed hfix).trans k1), h2.trans ((inMem_of_fixed hfix).trans k2),
      h3.trans ((port_of_fixed hfix).trans k3), fun hne => absurd (h4.trans ((mode_of_fixed hfix).trans k4)) hne,
      fun hne => absurd (h5.trans ((inLen_of_fixed hfix).trans k5)) hne, fun hne => ?_, fun hne => ?_, fun hne => ?_, hfault,
      fun hne => ?_⟩
    · by_contra hn
      exact hne (h6.trans ((hu.order_same fun ho : i = .htBuild ∨ i = .cdEncode => hn (.inr (ho.imp_right .inl))).trans k6))
    · by_contra hn
      exact hne (h7.trans ((hu.found_same fun hf => hn (.inr hf)).trans k7))
    · by_contra hn
      exact hne (h8.trans ((hu.empty_same fun hf => hn (.inr hf)).trans k8))
    · by_contra hn
      exact hne (h9.trans ((hu.counts_same fun hf => hn (.inr hf)).trans k9))
  · have he := sysReset_eq_next h
    exact ⟨by rw [he]; rfl, by rw [he]; rfl, by rw [he]; rfl, fun _ => .inl rfl, fun _ => .inl rfl, fun _ => .inl rfl,
      fun _ => .inl rfl, fun _ => .inl rfl, hfault, fun _ => .inl rfl⟩
  · obtain ⟨h1, h2, h3, h4, h5, h6, h7, h8, h9⟩ := unchanged (sysClrerr_settings h)
    exact ⟨h1, h2, h3, absurd h4, absurd h5, absurd h6, absurd h7, absurd h8, hfault, absurd h9⟩
  · rcases sysWrcr_settings h with he | ⟨rfl, he⟩ | ⟨rfl, he⟩ | ⟨rfl, he⟩
    · obtain ⟨h1, h2, h3, h4, h5, h6, h7, h8, h9⟩ := unchanged he
      exact ⟨h1, h2, h3, absurd h4, absurd h5, absurd h6, absurd h7, absurd h8, hfault, absurd h9⟩
    all_goals
      simp only [State.settings, Settings.mk.injEq] at he
      obtain ⟨h1, h2, h3, h4, h5, h6, h7, h8, h9⟩ := he
    · exact ⟨h1, h2, h3, fun _ => .inr ⟨v, rfl⟩, absurd h5, absurd h6, absurd h7, absurd h8, hfault, absurd h9⟩
    · exact ⟨h1, h2, h3, absurd h4, fun _ => .inr ⟨v, rfl⟩, absurd h6, absurd h7, absurd h8, hfault, absurd h9⟩
    · exact ⟨h1, h2, h3, absurd h4, absurd h5, fun _ => .inr (.inr (.inr ⟨v, rfl⟩)), absurd h7, absurd h8, hfault, absurd h9⟩

/-- The buffers and the nodes of a state where a command of no fault register ends. -/
theorem startOf_bb (i : Instr) (s : State) : (startOf i s).bb = s.bb := by
  unfold startOf
  split <;> rfl

theorem startOf_nodes (i : Instr) (s : State) :
    (startOf i s).nodes = s.nodes ∧ (startOf i s).nextHandle = s.nextHandle := by
  unfold startOf
  split <;> exact ⟨rfl, rfl⟩

/-- Settles O55: no chain writes a buffer that its command does not name, and the cleanup writes the first two alone. -/
theorem upperBuffersAreTheHosts : Obligations.UpperBuffersAreTheHosts := by
  intro i s t k hi hk h hnamed
  have hchain : ∀ {u : State}, Chain (permitOf False i) (startOf i s) u → u.bb[k]? = s.bb[k]? := fun hu => by
    rw [hu.buffer_same, startOf_bb]
    rintro (hlt | ⟨b, hb, he⟩)
    · omega
    · exact hnamed b hb he
  rcases exec_cases h with ⟨-, -, rfl⟩ | ⟨res, u, hu, rfl⟩ | ⟨r, u, hu, rfl⟩
  · rfl
  · rw [completed_bb]
    rcases chained_or_sys i with hc | rfl | rfl | ⟨cr, v, rfl⟩
    · exact hchain ((rule_chain hc False.elim).of_ok hu)
    · exact absurd rfl hi
    · cases hu; rfl
    · rcases ruleSysWrcr_eq_ok hu with ⟨-, rfl⟩ | ⟨-, -, rfl⟩ | ⟨-, -, rfl⟩ | ⟨-, rfl⟩ <;> rfl
  · rw [takeFault_bb]
    cases hc : commandClass i with
    | precise => rfl
    | cleanup =>
      rw [afterRaise, abortCleanup_eq]
      dsimp only
      rw [List.getElem?_set_ne (by omega), List.getElem?_set_ne (by omega)]
      exact hchain (raise_chain hc False.elim hu)

/-! ## Handles -/

/-- A node that abort_cleanup leaves below a handle was there at the raise, with the counter unchanged. -/
theorem abortCleanup_old {before raised : State} {x : Word} {n : Node} (hx : x.toNat < raised.nextHandle)
    (h : mapFind x (abortCleanup before raised).nodes = some n) : mapFind x raised.nodes = some n := by
  have hfree : Chain ({ free := True } : Permit) (dropAllocated before.nextHandle raised)
      (freeTree (pqDestroy true (dropAllocated before.nextHandle raised)).root
        (pqDestroy true (dropAllocated before.nextHandle raised))) :=
    (pqDestroy_chain trivial trivial true _).tail (.free _ trivial)
  have hdrop : mapFind x (dropAllocated before.nextHandle raised).nodes = some n := hfree.old_nodes.2 x n hx h
  have := mapFind_filter (fun y : Word => decide (y.toNat < before.nextHandle ∨ raised.nextHandle ≤ y.toNat)) x raised.nodes
  have hfind := this.symm.trans hdrop
  split at hfind
  · exact hfind
  · cases hfind

/-- Settles O34: chains and the cleanup bring no node back. -/
theorem handlesAreNeverReusedNorNodesChanged : Obligations.HandlesAreNeverReusedNorNodesChanged := by
  intro i s t hi h
  have hchain : ∀ {u : State}, Chain (permitOf False i) (startOf i s) u → s.nextHandle ≤ u.nextHandle ∧
      ∀ x n, x.toNat < s.nextHandle → mapFind x u.nodes = some n → mapFind x s.nodes = some n := fun hu => by
    obtain ⟨hn, hh⟩ := startOf_nodes i s
    have := hu.old_nodes
    rwa [hn, hh] at this
  rcases exec_cases h with ⟨-, -, rfl⟩ | ⟨res, u, hu, rfl⟩ | ⟨r, u, hu, rfl⟩
  · exact ⟨Nat.le_refl _, fun _ _ _ hf => hf⟩
  · rw [completed_nodes, completed_nextHandle]
    rcases chained_or_sys i with hc | rfl | rfl | ⟨cr, v, rfl⟩
    · exact hchain ((rule_chain hc False.elim).of_ok hu)
    · exact absurd rfl hi
    · cases hu; exact ⟨Nat.le_refl _, fun _ _ _ hf => hf⟩
    · rcases ruleSysWrcr_eq_ok hu with ⟨-, rfl⟩ | ⟨-, -, rfl⟩ | ⟨-, -, rfl⟩ | ⟨-, rfl⟩ <;>
        exact ⟨Nat.le_refl _, fun _ _ _ hf => hf⟩
  · rw [takeFault_nodes, takeFault_nextHandle]
    cases hc : commandClass i with
    | precise => exact ⟨Nat.le_refl _, fun _ _ _ hf => hf⟩
    | cleanup =>
      obtain ⟨hle, hold⟩ := hchain (raise_chain hc False.elim hu)
      have hcount : (abortCleanup s u).nextHandle = u.nextHandle := by rw [abortCleanup_eq]
      exact ⟨hcount ▸ hle, fun x n hx hf => hold x n hx (abortCleanup_old (by omega) hf)⟩

end Sys2Proof.Machine
end

section
/-! PROOFS. What every step keeps (spec/10_state.md R29 to R59; spec/20_memory.md R70, R72; spec/60_exceptions.md R312 to
R316): an invariant that every update, the cleanup of a fault, a reset and a host's write keep, every step keeps. -/

namespace Sys2Proof.Machine

/-! ## The reset state -/

theorem resetOf_memoryOk (c : Config) (inEra outEra : Nat) : (State.resetOf c inEra outEra).MemoryOk :=
  ⟨rfl, rfl, fun _ h => absurd h List.not_mem_nil, fun _ h => absurd h List.not_mem_nil, Nat.zero_le _, Nat.zero_le _⟩

theorem resetOf_nodesOk (c : Config) (inEra outEra : Nat) : (State.resetOf c inEra outEra).NodesOk :=
  ⟨rfl, fun _ h => absurd h List.not_mem_nil, Nat.zero_le _, Nat.zero_le _, fun _ h => absurd h List.not_mem_nil,
    List.nodup_nil, .inl rfl, .inl rfl⟩

theorem fresh_bufferOk (c : Config) : (BitBuffer.fresh c).Ok c :=
  ⟨Nat.zero_le _, Nat.zero_le _, Nat.le_refl _, le_max_left _ _⟩

theorem resetOf_sound {c : Config} (hc : c.wellFormed = true) (inEra outEra : Nat) : (State.resetOf c inEra outEra).Sound where
  config := hc
  memory := resetOf_memoryOk c inEra outEra
  buffers := ⟨List.length_replicate, fun v hv => by rw [List.eq_of_mem_replicate hv]; exact fresh_bufferOk c⟩
  queue := fresh_ok (queueOk_of_wellFormed hc) rfl
  nodes := resetOf_nodesOk c inEra outEra
  trie := (fresh_trieOk (State.resetOf c inEra outEra)).congr rfl rfl
  tables := ⟨rfl, fun _ h => absurd h List.not_mem_nil, Nat.zero_le _, fun _ h => absurd h List.not_mem_nil, rfl,
    fun _ h => absurd h List.not_mem_nil⟩
  dbit := Nat.zero_le _

theorem State.Sound.inv {s : State} (h : s.Sound) (hf : s.FaultOk) : s.Inv :=
  ⟨h.config, h.memory, hf, h.buffers, h.queue, h.nodes, h.trie, h.tables, h.dbit⟩

theorem resetOf_faultOk (c : Config) (inEra outEra : Nat) : (State.resetOf c inEra outEra).FaultOk :=
  ⟨⟨fun _ => rfl, fun _ => rfl⟩, Nat.zero_le _, fun _ => ⟨rfl, rfl, rfl⟩, fun _ h => by cases h⟩

theorem defaults_wellFormed : Config.defaults.wellFormed = true := by decide

/-- Settles O57: every table is empty, every register 0 or NULL. -/
theorem resetMeetsTheInvariants : Obligations.ResetMeetsTheInvariants := by
  have reset : ∀ (c : Config) (inEra outEra : Nat), c.wellFormed = true → (State.resetOf c inEra outEra).Inv :=
    fun c inEra outEra hc => (resetOf_sound hc inEra outEra).inv (resetOf_faultOk c inEra outEra)
  exact ⟨reset Config.defaults 0 0 defaults_wellFormed, reset⟩

/-- A word is a command, or the encoding of none. -/
theorem runWord_cases (w : CommandWord) (s : State) : (∃ i, encode i = w ∧ runWord w s = exec i s) ∨
    ∃ sub, (∀ i, encode i ≠ w) ∧ runWord w s = .next (runIllegal w sub s) := by
  by_cases hw : ∃ i, encode i = w
  · obtain ⟨i, rfl⟩ := hw
    refine .inl ⟨i, rfl, ?_⟩
    unfold runWord
    rw [decodeOfEncodeIsTheCommand]
  · have hw : ∀ i, encode i ≠ w := fun i hi => hw ⟨i, hi⟩
    obtain ⟨sub, hsub⟩ := runWord_of_illegal hw s
    exact .inr ⟨sub, hw, hsub⟩

/-! ## Invariants that do not look at the result and fault registers -/

/-- The state without its result and fault registers, its response and its port. -/
def State.body (s : State) : State :=
  { s with
    res := Results.zero
    status := ⟨false, false, false⟩
    err := 0
    errInfo0 := 0
    errInfo1 := 0
    errOp := 0
    port := []
    resp := none }

theorem takeFault_body (w0 : Word) (r : Raise) (before after : State) : (takeFault w0 r before after).body = after.body := by
  unfold takeFault
  split <;> rfl

/-- An invariant of the body of the state. -/
def OfBody (P : State → Prop) : Prop := ∀ s t : State, t.body = s.body → P s → P t

/-- What a part of the state is on the body alone. -/
theorem of_body {β : Type} {s t : State} (f : State → β) (h : t.body = s.body) : f t.body = f s.body := congrArg f h

section body
variable {s t : State} (h : t.body = s.body)
include h

theorem cfg_of_body : t.cfg = s.cfg := of_body State.cfg h
theorem nodes_of_body : t.nodes = s.nodes := of_body State.nodes h
theorem dbit_of_body : t.dbit = s.dbit := of_body State.dbit h

theorem memoryOk_of_body (hs : s.MemoryOk) : t.MemoryOk :=
  hs.congr (cfg_of_body h) (of_body State.inMem h) (of_body State.outMem h) (of_body State.inLen h) (of_body State.outLen h)

theorem nodesOk_of_body (hs : s.NodesOk) : t.NodesOk :=
  hs.congr (nodes_of_body h) (of_body State.nextHandle h) (congrArg Config.nodeMax (cfg_of_body h)) (of_body State.root h)
    (of_body State.cursor h)

theorem sound_of_body (hs : s.Sound) : t.Sound where
  config := (cfg_of_body h).symm ▸ hs.config
  memory := memoryOk_of_body h hs.memory
  buffers := hs.buffers.congr (cfg_of_body h) (of_body State.bb h)
  queue := hs.queue.congr (cfg_of_body h) (of_body State.pq h)
  nodes := nodesOk_of_body h hs.nodes
  trie := hs.trie.congr (cfg_of_body h) (of_body State.trie h)
  tables := hs.tables.congr (cfg_of_body h) (of_body State.ft h) (of_body State.symtab h) (of_body State.code h)
  dbit := (dbit_of_body h).symm ▸ hs.dbit

end body

/-- The memory invariant of an engine with a well-formed configuration. -/
def State.MemorySound (s : State) : Prop := s.cfg.wellFormed = true ∧ s.MemoryOk

theorem memorySound_ofBody : OfBody State.MemorySound :=
  fun _ _ h hs => ⟨(cfg_of_body h).symm ▸ hs.1, memoryOk_of_body h hs.2⟩

theorem nodesOk_ofBody : OfBody State.NodesOk := fun _ _ => nodesOk_of_body

theorem sound_ofBody : OfBody State.Sound := fun _ _ => sound_of_body

/-- What makes a predicate an invariant of the engine: its updates, its registers that the host writes, the two resets, the
cleanup of a fault and the host's writes into IN keep it. Updates may be taken to be strict where it implies the invariant of
the node store. -/
structure Invariant (strict : Prop) (P : State → Prop) : Prop where
  body : OfBody P
  nodes : strict → ∀ s, P s → s.NodesOk
  update : ∀ (p : Permit) (s t : State), (strict → p.strict) → Update p s t → P s → P t
  registers : ∀ (s : State) (m : Mode) (n k : Word) (o : PqOrder), n = s.inLen ∨ n.toNat ≤ s.cfg.inCap →
    k = s.outLen ∨ k.toNat ≤ s.cfg.outCap → P s → P { s with mode := m, inLen := n, outLen := k, pqOrder := o }
  reset : ∀ (s t : State), ruleSysReset s = .ok Results.zero t → P s → P t
  hardware : ∀ s, P s → P (hardwareReset s)
  cleanup : ∀ before raised, P raised → P (abortCleanup before raised)
  input : ∀ (s : State) (a : Nat) (v : Bytes), v = [] ∨ a + v.length ≤ s.cfg.inCap → P s →
    P { s with inMem := s.inMem.putAll a v }

section invariant
variable {strict : Prop} {P : State → Prop} (hP : Invariant strict P)
include hP

theorem Invariant.chain {p : Permit} (hp : strict → p.strict) {s t : State} (h : Chain p s t) (hs : P s) : P t :=
  h.keeps (fun x y => hP.update p x y hp) hs

theorem Invariant.startOf (i : Instr) {s : State} (hs : P s) : P (startOf i s) := by
  unfold Machine.startOf
  split
  · exact hP.registers s s.mode s.inLen 0 s.pqOrder (.inl rfl) (.inr (Nat.zero_le _)) hs
  · exact hP.registers s s.mode s.inLen 0 s.pqOrder (.inl rfl) (.inr (Nat.zero_le _)) hs
  · exact hs

/-- A chained command keeps the invariant, whether it completes or raises. -/
theorem Invariant.rule {i : Instr} (hi : IsChained i) {s : State} (hs : P s) : (ruleOf i s).Ends P :=
  (rule_chain (strict := strict) hi fun h => hP.nodes h s hs).imp fun _ h =>
    hP.chain (p := permitOf strict i) id h (hP.startOf i hs)

theorem Invariant.completed {i : Instr} {s u : State} {res : Results} (h : ruleOf i s = .ok res u) (hs : P s) : P u := by
  rcases chained_or_sys i with hi | rfl | rfl | ⟨cr, v, rfl⟩
  · exact (hP.rule hi hs).of_ok h
  · cases h; exact hP.reset s _ rfl hs
  · cases h; exact hP.body s _ rfl hs
  · rcases ruleSysWrcr_eq_ok h with ⟨-, rfl⟩ | ⟨-, hv, rfl⟩ | ⟨-, hv, rfl⟩ | ⟨-, rfl⟩
    · exact hP.registers s _ s.inLen s.outLen s.pqOrder (.inl rfl) (.inl rfl) hs
    · exact hP.registers s s.mode v s.outLen s.pqOrder (.inr hv) (.inl rfl) hs
    · exact hP.registers s s.mode s.inLen v s.pqOrder (.inl rfl) (.inr hv) hs
    · exact hP.registers s s.mode s.inLen s.outLen _ (.inl rfl) (.inl rfl) hs

theorem Invariant.exec {i : Instr} {s t : State} (h : exec i s = .next t) (hs : P s) : P t := by
  rcases exec_cases h with ⟨-, -, rfl⟩ | ⟨res, u, hu, rfl⟩ | ⟨r, u, hu, rfl⟩
  · exact hP.body s _ rfl hs
  · exact hP.body u _ rfl (hP.completed hu hs)
  · cases hc : commandClass i with
    | precise => exact hP.body s _ (takeFault_body ..) hs
    | cleanup =>
      exact hP.body _ _ (takeFault_body ..) (hP.cleanup s u ((hP.rule (isChained_of_cleanup hc) hs).of_raise hu))

/-- Every step keeps an invariant: a command, a word that spells none, a host's write, a reset, or nothing. -/
theorem Invariant.step {s t : State} (h : step s = .next t) (hs : P s) : P t := by
  cases hport : s.port with
  | nil => rw [step_of_idle hport] at h; cases h; exact hs
  | cons m rest =>
    rw [step_of_move hport] at h
    have hs' : P { s with port := rest } := hP.body s _ rfl hs
    cases m with
    | hardwareReset => cases h; exact hP.hardware _ hs'
    | writeIn a v =>
      by_cases hin : v = [] ∨ a + v.length ≤ s.cfg.inCap
      · cases (hostWriteIn_of_inside (s := { s with port := rest }) hin).symm.trans h
        exact hP.input _ a v hin hs'
      · cases (if_neg hin : hostWriteIn a v { s with port := rest } = .fault .hostWriteOutsideIn).symm.trans h
    | command w =>
      rcases runWord_cases w { s with port := rest } with ⟨i, -, hi⟩ | ⟨sub, -, hsub⟩
      · exact hP.exec (hi.symm.trans h) hs'
      · cases hsub.symm.trans h
        unfold runIllegal
        split
        · exact hP.body { s with port := rest } _ rfl hs'
        · exact hP.body _ _ (takeFault_body ..) hs'

end invariant

/-! ## The three invariants -/

theorem input_memoryOk {s : State} (h : s.MemoryOk) {a : Nat} {v : Bytes} (hin : v = [] ∨ a + v.length ≤ s.cfg.inCap) :
    ({ s with inMem := s.inMem.putAll a v } : State).MemoryOk := by
  refine ⟨putAll_wf v s.inMem a h.inForm, h.outForm, fun e he => ?_, h.outInside, h.inLen, h.outLen⟩
  rcases cells_putAll_mem he with he | he
  · rcases hin with rfl | hin
    · simp at he; omega
    · exact he.2.trans_le hin
  · exact h.inInside e he

theorem memory_invariant : Invariant False State.MemorySound where
  body := memorySound_ofBody
  nodes := False.elim
  update _ _ _ _ hu hs := ⟨cfg_of_fixed hu.fixed ▸ hs.1, hu.memoryOk hs.1 hs.2⟩
  registers s m n k o hn hk hs := by
    obtain ⟨hc, h⟩ := hs
    refine ⟨hc, h.inForm, h.outForm, h.inInside, h.outInside, ?_, ?_⟩
    · rcases hn with rfl | hn
      · exact h.inLen
      · exact hn
    · rcases hk with rfl | hk
      · exact h.outLen
      · exact hk
  reset s t ht hs := by
    cases ht
    exact ⟨hs.1, hs.2.inForm, hs.2.outForm, hs.2.inInside, hs.2.outInside, Nat.zero_le _, Nat.zero_le _⟩
  hardware s hs :=
    ⟨hs.1, memoryOk_of_body (s := State.resetOf s.cfg (s.inMem.era + 1) (s.outMem.era + 1)) rfl (resetOf_memoryOk ..)⟩
  cleanup before raised hs := by
    rw [abortCleanup_eq]
    exact ⟨hs.1, hs.2.inForm, forget_wf _, hs.2.inInside, fun _ h => absurd h List.not_mem_nil, hs.2.inLen, Nat.zero_le _⟩
  input s a v hin hs := ⟨hs.1, input_memoryOk hs.2 hin⟩

/-- The releases of the cleanup keep a part of the nodes (60_exceptions.md R314). -/
theorem abortCleanup_sublist (before raised : State) : (abortCleanup before raised).nodes.Sublist raised.nodes := by
  have hfree := freeTree_sublist (pqDestroy true (dropAllocated before.nextHandle raised)).root
    (pqDestroy true (dropAllocated before.nextHandle raised))
  have hitems := freeItems_sublist raised.pq.entries (dropAllocated before.nextHandle raised)
  have hdrop : (dropAllocated before.nextHandle raised).nodes.Sublist raised.nodes := List.filter_sublist
  exact hfree.trans (hitems.trans hdrop)

theorem abortCleanup_nodesOk {raised : State} (h : raised.NodesOk) (before : State) : (abortCleanup before raised).NodesOk := by
  have hsub := abortCleanup_sublist before raised
  rw [abortCleanup_eq]
  exact h.filter hsub rfl rfl (.inl rfl) (.inl rfl)

theorem nodes_invariant : Invariant True State.NodesOk where
  body := nodesOk_ofBody
  nodes _ _ := id
  update _ _ _ hp hu := hu.nodesOk (hp trivial)
  registers _ _ _ _ _ _ _ hs := hs.congr rfl rfl rfl rfl rfl
  reset s t ht _ := by
    cases ht
    exact (resetOf_nodesOk s.cfg s.inMem.era s.outMem.era).congr rfl rfl rfl rfl rfl
  hardware s _ := (resetOf_nodesOk s.cfg (s.inMem.era + 1) (s.outMem.era + 1)).congr rfl rfl rfl rfl rfl
  cleanup before _ hs := abortCleanup_nodesOk hs before
  input _ _ _ _ hs := hs.congr rfl rfl rfl rfl rfl

theorem abortCleanup_sound {raised : State} (h : raised.Sound) (before : State) : (abortCleanup before raised).Sound where
  config := (cfg_of_fixed (abortCleanup_fixed before raised)).symm ▸ h.config
  memory := (memory_invariant.cleanup before raised ⟨h.config, h.memory⟩).2
  buffers := by
    rw [abortCleanup_eq]
    exact ((h.buffers.setBuf (fresh_bufferOk _) 0).setBuf (fresh_bufferOk _) 1).congr rfl rfl
  queue := by
    rw [abortCleanup_eq]
    exact fresh_ok (queueOk_of_wellFormed h.config) rfl
  nodes := abortCleanup_nodesOk h.nodes before
  trie := by
    rw [abortCleanup_eq]
    exact (fresh_trieOk raised).congr rfl rfl
  tables := by
    rw [abortCleanup_eq]
    exact ⟨h.tables.ftListed, h.tables.ftEntries, h.tables.ftFits, fun _ h => absurd h List.not_mem_nil, rfl,
      fun _ h => absurd h List.not_mem_nil⟩
  dbit := by
    rw [abortCleanup_eq]
    exact Nat.zero_le _

/-- Whatever changes none of the other parts keeps the invariants if it keeps that of the memories. -/
theorem State.Sound.of_memory {s t : State} (h : s.Sound) (hm : t.MemoryOk)
    (ht : { t with mode := s.mode, inLen := s.inLen, outLen := s.outLen, pqOrder := s.pqOrder, inMem := s.inMem } = s) :
    t.Sound := by
  have part : ∀ {β : Type} (f : State → β),
      f { t with mode := s.mode, inLen := s.inLen, outLen := s.outLen, pqOrder := s.pqOrder, inMem := s.inMem } = f s :=
    fun f => congrArg f ht
  have hc : t.cfg = s.cfg := part State.cfg
  exact ⟨hc ▸ h.config, hm, h.buffers.congr hc (part State.bb), h.queue.congr hc (part State.pq),
    h.nodes.congr (part State.nodes) (part State.nextHandle) (congrArg Config.nodeMax hc) (part State.root) (part State.cursor),
    h.trie.congr hc (part State.trie), h.tables.congr hc (part State.ft) (part State.symtab) (part State.code),
    (part State.dbit : t.dbit = s.dbit) ▸ h.dbit⟩

theorem sound_invariant : Invariant True State.Sound where
  body := sound_ofBody
  nodes _ _ := State.Sound.nodes
  update _ _ _ hp hu hs := Chain.sound (hp trivial) (.single hu) hs
  registers s m n k o hn hk hs := hs.of_memory (memory_invariant.registers s m n k o hn hk ⟨hs.config, hs.memory⟩).2 rfl
  reset s t ht hs := by
    have hm := (memory_invariant.reset s t ht ⟨hs.config, hs.memory⟩).2
    have h := resetOf_sound hs.config s.inMem.era s.outMem.era
    cases ht
    exact ⟨hs.config, hm, h.buffers.congr rfl rfl, h.queue.congr rfl rfl, h.nodes.congr rfl rfl rfl rfl rfl,
      h.trie.congr rfl rfl, h.tables.congr rfl rfl rfl rfl, h.dbit⟩
  hardware s hs := sound_of_body (s := State.resetOf s.cfg (s.inMem.era + 1) (s.outMem.era + 1)) rfl (resetOf_sound hs.config ..)
  cleanup before _ hs := abortCleanup_sound hs before
  input s a v hin hs := hs.of_memory (input_memoryOk hs.memory hin) rfl

/-- Settles O58: the memory invariant is an invariant of the engine. -/
theorem stepKeepsTheMemories : Obligations.StepKeepsTheMemories :=
  fun _ _ hc hs h => (memory_invariant.step h ⟨hc, hs⟩).2

/-- Settles O59: the node invariant is an invariant of the engine. -/
theorem stepKeepsTheNodeStore : Obligations.StepKeepsTheNodeStore := fun _ _ _ hs h => nodes_invariant.step h hs

/-! ## The fault registers -/

/-- The fault registers, apart from the response (10_state.md R29 to R31). -/
structure State.FaultRegsOk (s : State) : Prop where
  errZero : s.err = 0 ↔ s.status.fault = false
  errCode : s.err.toNat ≤ 9
  cleared : s.status.fault = false → s.errInfo0 = 0 ∧ s.errInfo1 = 0 ∧ s.errOp = 0

theorem State.FaultOk.regs {s : State} (h : s.FaultOk) : s.FaultRegsOk := ⟨h.errZero, h.errCode, h.cleared⟩

theorem State.FaultRegsOk.answer {s : State} (h : s.FaultRegsOk) {code : Byte} (hc : code.toNat ≤ 9 ∨ code = 0xFF#8)
    (hr : s.resp = some ⟨code, s.res⟩) : s.FaultOk := by
  refine ⟨h.errZero, h.errCode, h.cleared, fun r hresp => ?_⟩
  cases hr.symm.trans hresp
  exact ⟨rfl, hc⟩

theorem State.FaultRegsOk.congr {s t : State} (h : s.FaultRegsOk) (hf : t.status.fault = s.status.fault)
    (he : t.err = s.err) (h0 : t.errInfo0 = s.errInfo0) (h1 : t.errInfo1 = s.errInfo1) (ho : t.errOp = s.errOp) :
    t.FaultRegsOk := by
  obtain ⟨hz, hc, hcl⟩ := h
  exact ⟨by rw [he, hf]; exact hz, he ▸ hc, by rw [hf, h0, h1, ho]; exact hcl⟩

theorem faultRegsOk_of_fixed {s t : State} (h : t.fixed = s.fixed) (hs : s.FaultRegsOk) : t.FaultRegsOk :=
  hs.congr (fault_of_fixed h) (err_of_fixed h) (errInfo0_of_fixed h) (errInfo1_of_fixed h) (errOp_of_fixed h)

theorem cleared_regsOk {s : State} (hf : s.status.fault = false) (he : s.err = 0)
    (hi : s.errInfo0 = 0 ∧ s.errInfo1 = 0 ∧ s.errOp = 0) : s.FaultRegsOk :=
  ⟨⟨fun _ => hf, fun _ => he⟩, by rw [he]; exact Nat.zero_le _, fun _ => hi⟩

theorem rule_faultRegsOk {i : Instr} {s u : State} {res : Results} (h : ruleOf i s = .ok res u) (hs : s.FaultRegsOk) :
    u.FaultRegsOk := by
  rcases chained_or_sys i with hi | rfl | rfl | ⟨cr, v, rfl⟩
  · have hc := (rule_chain (strict := False) hi (s := s) False.elim).of_ok h
    exact faultRegsOk_of_fixed (hc.fixed.trans (startOf_fixed i s)) hs
  · cases h; exact cleared_regsOk rfl rfl ⟨rfl, rfl, rfl⟩
  · cases h; exact cleared_regsOk rfl rfl ⟨rfl, rfl, rfl⟩
  · rcases ruleSysWrcr_eq_ok h with ⟨-, rfl⟩ | ⟨-, -, rfl⟩ | ⟨-, -, rfl⟩ | ⟨-, rfl⟩ <;> exact hs.congr rfl rfl rfl rfl rfl

/-- Fault entry leaves fault registers that record a fault (60_exceptions.md R312, R316). -/
theorem takeFault_faultOk {w0 : Word} {r : Raise} {before after : State} (hs : before.FaultRegsOk)
    (h : after.fixed = before.fixed) : (takeFault w0 r before after).FaultOk := by
  obtain ⟨h1, h9⟩ := cause_code r.cause
  refine State.FaultRegsOk.answer (code := r.cause.code) ?_ (.inl h9) (by rw [takeFault_resp, takeFault_res])
  have hfix : (takeFault w0 r before after).status.fault = true := takeFault_pending (fault_of_fixed h)
  by_cases hf : before.status.fault = true
  · have ha := faultRegsOk_of_fixed h hs
    rw [takeFault, if_pos hf]
    exact ha.congr rfl rfl rfl rfl rfl
  · have herr : (takeFault w0 r before after).err = r.cause.code.setWidth 32 := by rw [takeFault, if_neg hf]
    have hnat : (takeFault w0 r before after).err.toNat = r.cause.code.toNat := by
      rw [herr, BitVec.toNat_setWidth, Nat.mod_eq_of_lt (by omega)]
    refine ⟨⟨fun he => ?_, fun hn => ?_⟩, hnat ▸ h9, fun hn => ?_⟩
    · rw [he] at hnat
      exact absurd hnat (by simp; omega)
    · rw [hfix] at hn; cases hn
    · rw [hfix] at hn; cases hn

theorem exec_faultOk {i : Instr} {s t : State} (h : exec i s = .next t) (hs : s.FaultOk) : t.FaultOk := by
  rcases exec_cases h with ⟨-, -, rfl⟩ | ⟨res, u, hu, rfl⟩ | ⟨r, u, hu, rfl⟩
  · exact State.FaultRegsOk.answer (s := State.ignored _) (hs.regs.congr rfl rfl rfl rfl rfl) (.inr rfl) rfl
  · have hu := (rule_faultRegsOk hu hs.regs).congr (t := u.completed res) rfl rfl rfl rfl rfl
    exact hu.answer (code := 0) (.inl (Nat.zero_le 9)) rfl
  · exact takeFault_faultOk hs.regs (afterRaise_fixed hu)

theorem State.FaultOk.congr {s t : State} (h : s.FaultOk) (hr : t.FaultRegsOk) (hres : t.res = s.res) (hresp : t.resp = s.resp) :
    t.FaultOk :=
  ⟨hr.errZero, hr.errCode, hr.cleared, by rw [hres, hresp]; exact h.response⟩

theorem step_faultOk {s t : State} (h : step s = .next t) (hs : s.FaultOk) : t.FaultOk := by
  cases hport : s.port with
  | nil => rw [step_of_idle hport] at h; cases h; exact hs
  | cons m rest =>
    rw [step_of_move hport] at h
    have hs' : ({ s with port := rest } : State).FaultOk := hs.congr (hs.regs.congr rfl rfl rfl rfl rfl) rfl rfl
    cases m with
    | hardwareReset =>
      cases h
      exact (resetOf_faultOk s.cfg (s.inMem.era + 1) (s.outMem.era + 1)).congr (cleared_regsOk rfl rfl ⟨rfl, rfl, rfl⟩) rfl rfl
    | writeIn a v =>
      by_cases hin : v = [] ∨ a + v.length ≤ s.cfg.inCap
      · cases (hostWriteIn_of_inside (s := { s with port := rest }) hin).symm.trans h
        exact hs.congr (hs.regs.congr rfl rfl rfl rfl rfl) rfl rfl
      · cases (if_neg hin : hostWriteIn a v { s with port := rest } = .fault .hostWriteOutsideIn).symm.trans h
    | command w =>
      rcases runWord_cases w { s with port := rest } with ⟨i, -, hi⟩ | ⟨sub, -, hsub⟩
      · exact exec_faultOk (hi.symm.trans h) hs'
      · cases hsub.symm.trans h
        unfold runIllegal
        split
        · exact State.FaultRegsOk.answer (s := State.ignored _) (hs.regs.congr rfl rfl rfl rfl rfl) (.inr rfl) rfl
        · exact takeFault_faultOk hs'.regs rfl

/-- Settles O60: the invariants that are not about faults are an invariant of the engine, and every step keeps the fault
registers in order. -/
theorem stepKeepsEveryInvariant : Obligations.StepKeepsEveryInvariant :=
  fun _ _ hs h => (sound_invariant.step h hs.sound).inv (step_faultOk h hs.faults)

end Sys2Proof.Machine
end

section
/-! PROOFS. Two extracts in a row, and HT.MERGE, which takes the two first items of the queue (spec/41_priority_queue.md R168;
spec/43_huffman_tree.md R203). -/

namespace Sys2Proof.Machine

/-! ## Two extracts -/

/-- The rest of a queue with an item more than its top has a top of its own. -/
theorem second_top {s : State} (h : s.QueueOk) {x : QItem} (hx : x ∈ s.pq.entries) (h2 : 2 ≤ s.pq.entries.length) :
    ∃ y, QueueTop s.pqOrder (s.pq.entries.erase x) y := by
  have hlen := List.length_erase_of_mem hx
  cases hy : queueTop s.pqOrder (s.pq.entries.erase x) with
  | none =>
    rw [queueTop_eq_none] at hy
    rw [hy, List.length_nil] at hlen
    omega
  | some y => exact ⟨y, queueTop_isTop (h.distinct.sublist List.erase_sublist) hy⟩

/-- Different items of a queue have different sequence numbers, so the rest of the queue does not hold the item. -/
theorem State.QueueOk.nodup {s : State} (h : s.QueueOk) : s.pq.entries.Nodup :=
  h.distinct.imp fun hne he => hne (congrArg QItem.seq he)

/-- What the order of two items says of their keys (10_state.md R46). -/
theorem keys_of_before {o : PqOrder} {x y : QItem} (h : x.before o y = true) :
    (o = .minFirst → x.key.toNat ≤ y.key.toNat) ∧ (o = .maxFirst → y.key.toNat ≤ x.key.toNat) ∧
      (x.key = y.key → x.seq < y.seq) := by
  rcases (before_iff o x y).1 h with hk | ⟨hk, hs⟩
  · refine ⟨?_, ?_, fun he => ?_⟩
    · rintro rfl; exact (of_decide_eq_true hk).le
    · rintro rfl; exact (of_decide_eq_true hk).le
    · rw [he, keyBefore_irrefl] at hk; cases hk
  · rw [hk]
    exact ⟨fun _ => Nat.le_refl _, fun _ => Nat.le_refl _, fun _ => hs⟩

/-- PQ.EXTRACT on a queue with a top. -/
theorem exec_pqExtract {s : State} (hf : s.status.fault = false) {x : QItem} (hx : QueueTop s.pqOrder s.pq.entries x) :
    ∃ t, exec .pqExtract s = .next t ∧ t.completedWith ⟨x.handle, x.key, word (s.pq.entries.length - 1), 0⟩ ∧
      t.status.fault = false ∧ t.pqOrder = s.pqOrder ∧ t.pq.entries = s.pq.entries.erase x :=
  ⟨_, ((pqExtractAndPeekAnswerTheTop s hf).2.2 x hx).2, ⟨rfl, rfl⟩, hf, rfl, rfl⟩

/-- Settles O23: the first extract answers the top, which is before every item left, among them the second. -/
theorem consecutiveExtractsAreInOrder : Obligations.ConsecutiveExtractsAreInOrder := by
  intro s hf hok h2
  obtain ⟨x, -, hx⟩ := hok.top (List.ne_nil_of_length_pos (by omega))
  obtain ⟨y, hy⟩ := second_top hok hx.1 h2
  obtain ⟨t, ht, hrx, hft, horder, hentries⟩ := exec_pqExtract hf hx
  rw [← horder, ← hentries] at hy
  obtain ⟨u, hu, hry, -⟩ := exec_pqExtract hft hy
  rw [horder, hentries] at hy
  have hne : y ≠ x := fun he => hok.nodup.not_mem_erase (he ▸ hy.1)
  have hmem := List.mem_of_mem_erase hy.1
  obtain ⟨hmin, hmax, hseq⟩ := keys_of_before (hx.2 y hmem hne)
  rw [hentries, List.length_erase_of_mem hx.1, Nat.sub_sub] at hry
  exact ⟨t, u, x, y, ht, hu, hx.1, hmem, hne.symm, hrx, hry, hmin, hmax, hseq⟩

/-! ## HT.MERGE -/

theorem word_add (a b : Word) : word (a.toNat + b.toNat) = a + b := by
  simp [word, BitVec.ofNat_add]

/-- HT.MERGE may join two handles that are live, different and no node's child (43_huffman_tree.md R203). -/
theorem mergeable_iff {m : NodeMap} {l r : Word} : mergeable m l r = true ↔
    NodeMap.live m l = true ∧ NodeMap.live m r = true ∧ l ≠ r ∧ ∀ e ∈ m, l ∉ e.2.children ∧ r ∉ e.2.children := by
  have unowned : ∀ h, NodeMap.owned m h = false ↔ ∀ e ∈ m, h ∉ e.2.children := by
    intro h
    rw [Bool.eq_false_iff, ne_eq, owned_iff]
    exact ⟨fun hn e he hc => hn ⟨e, he, hc⟩, fun hn ⟨e, he, hc⟩ => hn e he hc⟩
  simp only [mergeable, Bool.and_eq_true, bne_iff_ne, Bool.not_eq_true', unowned]
  exact ⟨fun ⟨⟨⟨⟨hl, hr⟩, hne⟩, hol⟩, hor⟩ => ⟨hl, hr, hne, fun e he => ⟨hol e he, hor e he⟩⟩,
    fun ⟨hl, hr, hne, ho⟩ => ⟨⟨⟨⟨hl, hr⟩, hne⟩, fun e he => (ho e he).1⟩, fun e he => (ho e he).2⟩⟩

/-- The tops of a queue and of its rest are the two first items. -/
theorem topTwo_of_tops {s : State} {x y : QItem} (hx : QueueTop s.pqOrder s.pq.entries x)
    (hy : QueueTop s.pqOrder (s.pq.entries.erase x) y) : topTwo s = some (x, y) :=
  topTwo_eq_some.2 ⟨queueTop_of_isTop hx, queueTop_of_isTop hy⟩

theorem topTwo_eq_none {s : State} (h : s.pq.entries.length < 2) : topTwo s = none := by
  cases htop : topTwo s with
  | none => rfl
  | some xy =>
    obtain ⟨hx, hy⟩ := topTwo_eq_some.1 (show topTwo s = some (xy.1, xy.2) from htop)
    have := List.length_erase_of_mem (queueTop_mem hx)
    have := List.length_pos_of_mem (queueTop_mem hy)
    omega

/-- The queue after its two first items have left it. -/
theorem withoutItems_pq {s : State} {x y : QItem} (hx : x ∈ s.pq.entries) (hy : y ∈ s.pq.entries.erase x) :
    (s.withoutItems x y).pq = ⟨(s.pq.entries.erase x).erase y,
      shrinkCap s.cfg (s.pq.entries.length - 2) (shrinkCap s.cfg (s.pq.entries.length - 1) s.pq.cap), s.pq.nextSeq⟩ := by
  have hlen := List.length_erase_of_mem hx
  have hlen2 : (s.pq.entries.erase x).length - 1 = s.pq.entries.length - 2 := by omega
  have h1 := take_of_mem hx s.cfg
  show (s.pq.take s.cfg x).take s.cfg y = _
  rw [h1, take_of_mem (q := ⟨s.pq.entries.erase x, _, s.pq.nextSeq⟩) hy, hlen2]

/-- A halved capacity still exceeds the items, where it held one more before (41_priority_queue.md R160). -/
theorem lt_shrinkCap {c : Config} {n cap : Nat} (hc : 1 ≤ c.pqMinCap) (h : n < cap) : n < shrinkCap c n cap := by
  unfold shrinkCap
  split
  · omega
  · exact h

/-- With two items there is a least capacity of at least one item. -/
theorem State.QueueOk.minCap_pos {s : State} (h : s.QueueOk) (h2 : 2 ≤ s.pq.entries.length) : 1 ≤ s.cfg.pqMinCap := by
  obtain ⟨j, hj⟩ := h.doubling
  have := h.fits
  rcases Nat.eq_zero_or_pos s.cfg.pqMinCap with h0 | h0
  · rw [h0, Nat.zero_mul] at hj; omega
  · exact h0

/-- Two items that leave make room for one. -/
theorem withoutItems_room {s : State} (h : s.QueueOk) {x y : QItem} (hx : x ∈ s.pq.entries) (hy : y ∈ s.pq.entries.erase x) :
    (s.withoutItems x y).pq.entries.length < (s.withoutItems x y).pq.cap := by
  have hlen := List.length_erase_of_mem hx
  have hlen2 := List.length_erase_of_mem hy
  have hpos := List.length_pos_of_mem hy
  have hmin := h.minCap_pos (by omega)
  have h1 : s.pq.entries.length - 1 < shrinkCap s.cfg (s.pq.entries.length - 1) s.pq.cap :=
    lt_shrinkCap hmin (by have := h.fits; omega)
  rw [withoutItems_pq hx hy]
  show ((s.pq.entries.erase x).erase y).length < shrinkCap s.cfg (s.pq.entries.length - 2) _
  rw [show ((s.pq.entries.erase x).erase y).length = s.pq.entries.length - 2 by omega]
  exact lt_shrinkCap hmin (by omega)

/-- `merge_step` with room in the store: the queue always has room for the new item. -/
theorem mergeStep_of_room {s : State} (h : s.QueueOk) {x y : QItem} (htop : topTwo s = some (x, y))
    (hsum : x.key.toNat + y.key.toNat < 2 ^ 32) (hroom : s.canAlloc = true) :
    mergeStep s = .ok (s.newHandle, x.key + y.key) { s.allocated (.internal x.handle y.handle (x.key + y.key)) with
      pq := (s.withoutItems x y).pq.push (x.key + y.key) s.newHandle } := by
  obtain ⟨hx, hy⟩ := topTwo_eq_some.1 htop
  have hcap := withoutItems_room h (queueTop_mem hx) (queueTop_mem hy)
  have hpush : pqInsert (x.key + y.key) s.newHandle
      ((s.withoutItems x y).allocated (.internal x.handle y.handle (x.key + y.key))) = _ :=
    pqInsert_of_room (s := (s.withoutItems x y).allocated _) (fun hfull => hcap.ne hfull.1) _ _
  rw [mergeStep_of_topTwo htop, need_pos hsum, need_pos hroom, alloc_of_room (s := s.withoutItems x y) hroom, bind_ok]
  exact congrArg (Ruling.bind · _) hpush

/-- Settles O31: after its checks HT.MERGE is one `merge_step`. -/
theorem htMergeJoinsTheTwoFirstItems : Obligations.HtMergeJoinsTheTwoFirstItems := by
  intro s hf hok
  refine ⟨fun hmax => ?_, fun hmin hfew => ?_, fun hmin x y hx hy => ?_⟩
  · exact exec_of_raise .illegalCommand rfl rfl hf (need_neg (by rw [hmax]; decide) _ _ _)
  · refine exec_of_raise (t := s) .emptyQueue rfl rfl hf ((need_pos hmin _ _ _).trans ?_)
    rw [topTwo_eq_none hfew]
  · rw [← hmin] at hx hy
    have htop := topTwo_of_tops hx hy
    have hrule : ruleOf .htMerge s = need (mergeable s.nodes x.handle y.handle = true) (illegal 8 4) s
        ((mergeStep s).bind fun x s => .ok ⟨x.1, x.2, 0, 0⟩ s) := by
      rw [ruleOf, ruleHtMerge, need_pos hmin, htop]
    refine ⟨fun hj => ?_, fun hj hsum => ?_, fun hj hsum hroom => ?_, fun hj hsum hroom => ?_⟩
    · exact exec_of_raise .illegalCommand rfl rfl hf (hrule.trans (need_neg (mt mergeable_iff.1 hj) _ _ _))
    all_goals rw [need_pos (mergeable_iff.2 hj)] at hrule
    · rw [mergeStep_of_topTwo htop, need_neg (by omega), bind_raise] at hrule
      exact exec_of_raise .allocationFailure rfl rfl hf (hrule.trans (by rw [allocFail, word_toNat]; rfl))
    · rw [mergeStep_of_topTwo htop, need_pos hsum, need_neg (mt canAlloc_iff.1 hroom), bind_raise] at hrule
      exact exec_of_raise .allocationFailure rfl rfl hf hrule
    · intro cap₁ cap₂
      rw [mergeStep_of_room hok htop hsum (canAlloc_iff.2 hroom), bind_ok, withoutItems_pq hx.1 hy.1, ← word_add] at hrule
      refine ⟨_, (exec_of_ok hf hrule).trans ?_, fun h => allocated_find _ h⟩
      have hlen : ((s.pq.entries.erase x).erase y).length = s.pq.entries.length - 2 := by
        rw [List.length_erase_of_mem hy.1, List.length_erase_of_mem hx.1]
        omega
      rw [PQueue.push, hlen]
      rfl

end Sys2Proof.Machine
end

section
/-! PROOFS. The code table (spec/45_code_table.md R240, R241, R243): the codes of a tree are the paths of its leaves; CT.GEN enters
them, empties SCR and in WORD mode loads the trie word by word. -/

namespace Sys2Proof.Machine

/-- A cleanup command whose rule raises records the fault, whatever else its cleanup leaves (60_exceptions.md R312, R313). -/
theorem exec_of_cleanup_raise (c : Cause) {i : Instr} {s t : State} {i0 i1 : Word} (h0 : i.fields.f0 = false)
    (hf : s.status.fault = false) (h : ruleOf i s = .raise ⟨c, i0, i1⟩ t) :
    ∃ u, exec i s = .next u ∧ u.FaultedWith c.code (i.fields.opcode.setWidth 32) i0 i1 := by
  rw [← w0_of_unflagged h0]
  exact ⟨_, (exec_eq_runRule i s).trans (runRule_raise hf h), takeFault_records (r := ⟨c, i0, i1⟩) hf⟩

/-! ## The walk -/

theorem Tree.walk_syms (T : Tree) (path : Bits) : (T.walk path).map Prod.fst = T.syms := by
  induction T generalizing path with
  | leaf sym => rfl
  | node l r ihl ihr => rw [Tree.walk, List.map_append, ihl, ihr, Tree.syms]

theorem Tree.codes_syms (T : Tree) : T.codes.map Prod.fst = T.syms := by
  cases T with
  | leaf sym => rfl
  | node l r => exact Tree.walk_syms _ []

/-- Neither of two bit strings starts with the other. -/
def Apart (x y : Bits) : Prop := ¬x <+: y ∧ ¬y <+: x

/-- What extends the left edge and what extends the right edge are apart. -/
theorem apart_of_edges {path x y : Bits} (hx : path ++ [false] <+: x) (hy : path ++ [true] <+: y) : Apart x y := by
  obtain ⟨u, rfl⟩ := hx
  obtain ⟨v, rfl⟩ := hy
  constructor <;> simp [List.prefix_append_right_inj]

/-- No path of the walk starts another. -/
theorem Tree.walk_apart (T : Tree) (path : Bits) : (T.walk path).Pairwise fun x y => Apart x.2 y.2 := by
  induction T generalizing path with
  | leaf sym => exact List.pairwise_singleton _ _
  | node l r ihl ihr =>
    refine List.pairwise_append.2 ⟨ihl _, ihr _, fun x hx y hy => ?_⟩
    exact apart_of_edges (Tree.walk_extends hx) (Tree.walk_extends hy)

theorem Tree.walk_ne_nil (T : Tree) (path : Bits) : T.walk path ≠ [] := by
  intro h
  have := T.walk_syms path
  rw [h, List.map_nil] at this
  exact absurd T.syms_pos (by rw [← this]; decide)

/-- The Kraft sum of the walk below a path (45_code_table.md R243). -/
theorem Tree.walk_kraft (T : Tree) (path : Bits) {D : Nat} (hD : ∀ e ∈ T.walk path, e.2.length ≤ D) :
    ((T.walk path).map fun e => 2 ^ (D - e.2.length)).sum = 2 ^ (D - path.length) := by
  induction T generalizing path with
  | leaf sym => simp [Tree.walk]
  | node l r ihl ihr =>
    obtain ⟨e, he⟩ := List.exists_mem_of_ne_nil _ (l.walk_ne_nil (path ++ [false]))
    have hlen := (Tree.walk_extends he).length_le.trans (hD e (List.mem_append_left _ he))
    rw [List.length_append, List.length_singleton] at hlen
    rw [Tree.walk, List.map_append, List.sum_append, ihl _ fun e he => hD e (List.mem_append_left _ he),
      ihr _ fun e he => hD e (List.mem_append_right _ he), List.length_append, List.length_append, List.length_singleton,
      List.length_singleton, ← Nat.two_mul, ← Nat.pow_succ']
    congr 1
    omega

/-! ## The code table -/

/-- The first visit wins: a symbol has the code that it had before, or its first code in the list (R241). -/
theorem mapFind_foldl_codeInsert (sym : Word) (l m : List (Word × Bits)) : mapFind sym (l.foldl codeInsert m) =
    (mapFind sym m).or ((l.find? fun e => e.1 == sym).map Prod.snd) := by
  induction l generalizing m with
  | nil => simp
  | cons e l ih =>
    have hinsert : mapFind sym (codeInsert m e) = (mapFind sym m).or (if e.1 = sym then some e.2 else none) := by
      unfold codeInsert
      split
      · next hsome =>
        obtain ⟨c, hc⟩ := Option.isSome_iff_exists.1 hsome
        by_cases he : e.1 = sym
        · rw [← he, hc]; rfl
        · rw [if_neg he, Option.or_none]
      · next hnone =>
        rw [mapFind_mapInsert wordLt_order]
        by_cases he : e.1 = sym
        · have hnone : mapFind e.1 m = none := by simpa using hnone
          rw [if_pos he.symm, if_pos he, ← he, hnone]; rfl
        · rw [if_neg (Ne.symm he), if_neg he, Option.or_none]
    rw [List.foldl_cons, ih, hinsert, Option.or_assoc]
    by_cases he : e.1 = sym
    · rw [if_pos he, List.find?_cons_of_pos (by simpa using he)]; rfl
    · rw [if_neg he, List.find?_cons_of_neg (by simpa using he)]; rfl

theorem mapFind_codeTable (T : Tree) (sym : Word) :
    mapFind sym T.codeTable = (T.codes.find? fun e => e.1 == sym).map Prod.snd := by
  rw [Tree.codeTable, mapFind_foldl_codeInsert]
  rfl

/-- An entry of a list without repeated keys is the first one with its key. -/
theorem find?_key {κ α : Type} [DecidableEq κ] {l : List (κ × α)} (hl : (l.map Prod.fst).Nodup) {e : κ × α} (he : e ∈ l) :
    (l.find? fun x => x.1 == e.1) = some e := by
  induction l with
  | nil => cases he
  | cons x l ih =>
    rw [List.map_cons, List.nodup_cons] at hl
    rcases List.mem_cons.1 he with rfl | he
    · exact List.find?_cons_of_pos (by simp)
    · have hne : x.1 ≠ e.1 := fun h => hl.1 (h ▸ List.mem_map_of_mem he)
      rw [List.find?_cons_of_neg (by simpa using hne), ih hl.2 he]

/-- Settles O43: by the walk's symbols, its paths being apart and its Kraft sum. -/
theorem codesArePrefixFreeAndComplete : Obligations.CodesArePrefixFreeAndComplete := by
  intro T h2 hnd
  refine ⟨T.codes_syms, fun e he => ?_, ?_⟩
  · rw [mapFind_codeTable, find?_key (by rw [T.codes_syms]; exact hnd) he]
    rfl
  · cases T with
    | leaf sym => exact absurd h2 (by decide : ¬2 ≤ 1)
    | node l r => exact ⟨Tree.walk_apart _ [], fun D hD => Tree.walk_kraft _ [] hD⟩

/-! ## CT.GEN -/

theorem foldl_max_eq {l : List Nat} {a D : Nat} (ha : a ≤ D) (hl : ∀ x ∈ l, x ≤ D) (hD : a = D ∨ D ∈ l) :
    l.foldl max a = D := by
  induction l generalizing a with
  | nil => exact hD.resolve_right List.not_mem_nil
  | cons x l ih =>
    have hx := hl x (List.mem_cons_self ..)
    refine ih (max_le ha hx) (fun y hy => hl y (List.mem_cons_of_mem _ hy)) ?_
    rcases hD with rfl | hD
    · exact .inl (max_eq_left hx)
    · rcases List.mem_cons.1 hD with rfl | hD
      · exact .inl (max_eq_right ha)
      · exact .inr hD

/-- The longest path is the length of a longest code. -/
theorem Tree.pushed_eq {T : Tree} {D : Nat} (hle : ∀ e ∈ T.codes, e.2.length ≤ D) (heq : ∃ e ∈ T.codes, e.2.length = D) :
    T.pushed = D := by
  obtain ⟨e, he, rfl⟩ := heq
  refine foldl_max_eq (Nat.zero_le _) (fun x hx => ?_) (.inr (List.mem_map_of_mem (f := fun e => e.2.length) he))
  obtain ⟨y, hy, rfl⟩ := List.mem_map.1 hx
  exact hle y hy

/-- The state of CT.GEN with the codes entered and SCR emptied (R241). -/
def State.withCodes (T : Tree) (s : State) : State :=
  { s with code := T.codeTable }.setBuf 1 ⟨[], grow s.cfg (s.buf 1).cap (bytesFor T.pushed)⟩

theorem ruleCtGen_of_no_tree {s : State} (h : s.rootTree = none) : ruleCtGen s = .raise (illegal 8 5) s := by
  rw [ruleCtGen, h]

theorem ruleCtGen_of_tree {s : State} {T : Tree} (hT : s.rootTree = some T) : ruleCtGen s =
    (if s.mode = .word then loadTrie s.symtab 0 { s.withCodes T with trie := Trie.fresh } else .ok () (s.withCodes T)).bind
      fun _ s => .ok ⟨word s.code.length, 0, 0, 0⟩ s := by
  rw [ruleCtGen, hT]
  rfl

/-- CT.GEN in CHAR mode completes with the codes of the tree (R241). -/
theorem ruleCtGen_of_char {s : State} {T : Tree} (hT : s.rootTree = some T) (hm : s.mode = .char) :
    ruleCtGen s = .ok ⟨word T.codeTable.length, 0, 0, 0⟩ (s.withCodes T) := by
  rw [ruleCtGen_of_tree hT, if_neg (by rw [hm]; decide)]
  rfl

/-- CT.GEN in WORD mode loads the symbol table into an empty trie (R241). -/
theorem ruleCtGen_of_word {s : State} {T : Tree} (hT : s.rootTree = some T) (hm : s.mode = .word) :
    ruleCtGen s = (loadTrie s.symtab 0 { s.withCodes T with trie := Trie.fresh }).bind fun _ s =>
      .ok ⟨word s.code.length, 0, 0, 0⟩ s := by
  rw [ruleCtGen_of_tree hT, if_pos hm]

/-- Settles O41: in CHAR mode CT.GEN enters the codes and empties SCR, and that is all. -/
theorem ctGenDerivesTheCodes : Obligations.CtGenDerivesTheCodes := by
  intro s hf
  refine ⟨fun hnone => exec_of_cleanup_raise .illegalCommand rfl hf (ruleCtGen_of_no_tree hnone),
    fun T D hT hm hle heq => ⟨T.codeTable, ?_, mapFind_codeTable T⟩⟩
  rw [exec_of_ok hf (i := .ctGen) (ruleCtGen_of_char hT hm), State.withCodes, Tree.pushed_eq hle heq]
  rfl

/-! ## Loading the trie -/

/-- The nodes of the words' prefixes: every non-empty initial part of a word is among them. -/
def Covers (ps words : List Bytes) : Prop := ∀ w ∈ words, ∀ p, p ≠ [] → p <+: w → p ∈ ps

/-- The trie holds exactly the words of a list: its nodes are the root and their prefixes, the payload of each word is its
last index (R241). -/
structure Trie.Holds (t : Trie) (words : List Bytes) : Prop where
  listed : rising lexLt t.paths = true
  paths : ∀ p, p ∈ t.paths ↔ p = [] ∨ ∃ w ∈ words, p <+: w
  others : ∀ w, w ∉ words → mapFind w t.payload = none
  last : ∀ k w, words[k]? = some w → (∀ j, k < j → words[j]? ≠ some w) → mapFind w t.payload = some (word k)

theorem fresh_holds : Trie.fresh.Holds [] :=
  ⟨rfl, fun p => by simp [Trie.fresh], fun _ _ => rfl, fun k w h => by simp at h⟩

theorem Trie.Holds.insert {t : Trie} {words : List Bytes} (h : t.Holds words) (key : Bytes) :
    (t.insert key (word words.length)).Holds (words ++ [key]) := by
  refine ⟨(foldl_setInsert lexLt_order (t.missing key) t.paths).1 h.listed, fun p => ?_, fun w hw => ?_, fun k w hk hlast => ?_⟩
  · rw [mem_insert_paths, h.paths]
    by_cases hp : p = []
    · simp [hp]
    · simp [hp, or_and_right, exists_or]
  · rw [List.mem_append, List.mem_singleton, not_or] at hw
    rw [mapFind_insert_payload, if_neg hw.2, h.others w hw.1]
  · rw [mapFind_insert_payload]
    rcases Nat.lt_trichotomy k words.length with hlt | rfl | hgt
    · have hne : w ≠ key := by
        rintro rfl
        exact hlast words.length hlt (by rw [List.getElem?_append_right (Nat.le_refl _)]; simp)
      rw [if_neg hne]
      rw [List.getElem?_append_left hlt] at hk
      refine h.last k w hk fun j hj hjw => hlast j hj ?_
      rw [List.getElem?_append_left (List.getElem?_eq_some_iff.1 hjw).1]
      exact hjw
    · rw [List.getElem?_append_right (Nat.le_refl _)] at hk
      simp only [Nat.sub_self, List.getElem?_cons_zero, Option.some.injEq] at hk
      rw [if_pos hk.symm]
    · rw [List.getElem?_eq_none (by simp; omega)] at hk
      cases hk

/-- The nodes of the trie besides the root. -/
def Trie.inner (t : Trie) : List Bytes := t.paths.erase []

theorem Trie.Holds.mem_inner {t : Trie} {words : List Bytes} (h : t.Holds words) {p : Bytes} :
    p ∈ t.inner ↔ p ≠ [] ∧ ∃ w ∈ words, p <+: w := by
  rw [Trie.inner, (rising_nodup lexLt_order h.listed).mem_erase_iff, h.paths]
  tauto

theorem Trie.Holds.inner_length {t : Trie} {words : List Bytes} (h : t.Holds words) : t.inner.length = t.size := by
  rw [Trie.inner, List.length_erase_of_mem ((h.paths []).2 (.inl rfl)), Trie.size]

theorem keyPath_nodup (key : Bytes) : (keyPath key).Nodup := by
  refine List.Nodup.map_on (fun i hi j hj he => ?_) List.nodup_range
  have := congrArg List.length he
  rw [List.mem_range] at hi hj
  simp only [List.length_take] at this
  omega

/-- The nodes of the trie with those that a key would add. -/
theorem Trie.Holds.nodup {t : Trie} {words : List Bytes} (h : t.Holds words) (key : Bytes) : (t.inner ++ t.missing key).Nodup := by
  refine List.nodup_append.2 ⟨(rising_nodup lexLt_order h.listed).erase _, (keyPath_nodup key).filter _, fun a ha b hb he => ?_⟩
  have hb := of_decide_eq_true (List.mem_filter.1 hb).2
  exact hb (he ▸ List.mem_of_mem_erase ha)

/-- Nodes that cover the words and the key are at least as many as the trie would have. -/
theorem Trie.Holds.size_le {t : Trie} {words : List Bytes} (h : t.Holds words) {key : Bytes} {ps : List Bytes}
    (hps : Covers ps words) (hkey : Covers ps [key]) : t.size + (t.missing key).length ≤ ps.length := by
  rw [← h.inner_length, ← List.length_append]
  refine (List.subperm_of_subset (h.nodup key) fun p hp => ?_).length_le
  rcases List.mem_append.1 hp with hp | hp
  · obtain ⟨hne, w, hw, hpw⟩ := h.mem_inner.1 hp
    exact hps w hw p hne hpw
  · obtain ⟨hne, hpk⟩ := mem_keyPath.1 (List.mem_filter.1 hp).1
    exact hkey key (List.mem_singleton_self key) p hne hpk

/-- The nodes of the trie with those that a key would add cover the words and the key. -/
theorem Trie.Holds.covers {t : Trie} {words : List Bytes} (h : t.Holds words) (key : Bytes) :
    Covers (t.inner ++ t.missing key) (words ++ [key]) := by
  intro w hw p hne hp
  by_cases hmem : p ∈ t.paths
  · exact List.mem_append_left _ ((rising_nodup lexLt_order h.listed).mem_erase_iff.2 ⟨hne, hmem⟩)
  · rcases List.mem_append.1 hw with hw | hw
    · exact absurd ((h.paths p).2 (.inr ⟨w, hw, hp⟩)) hmem
    · rw [List.mem_singleton.1 hw] at hp
      exact List.mem_append_right _ (List.mem_filter.2 ⟨mem_keyPath.2 ⟨hne, hp⟩, decide_eq_true hmem⟩)

theorem Covers.mono {ps words words' : List Bytes} (h : Covers ps words) (hs : words' ⊆ words) : Covers ps words' :=
  fun w hw => h w (hs hw)

/-- Words whose prefixes fit are loaded one after another. -/
theorem loadTrie_of_room {ps : List Bytes} (rest done : List Bytes) {s : State} (h : s.trie.Holds done)
    (hps : Covers ps (done ++ rest)) (hfit : ps.length ≤ s.cfg.trieMax) :
    ∃ t, loadTrie rest done.length s = .ok () { s with trie := t } ∧ t.Holds (done ++ rest) := by
  induction rest generalizing done s with
  | nil => exact ⟨s.trie, rfl, by rw [List.append_nil]; exact h⟩
  | cons key rest ih =>
    have hroom : s.trie.size + (s.trie.missing key).length ≤ s.cfg.trieMax :=
      (h.size_le (hps.mono (List.subset_append_left ..)) (hps.mono (by simp))).trans hfit
    have happ : done ++ key :: rest = (done ++ [key]) ++ rest := by rw [List.append_assoc, List.singleton_append]
    obtain ⟨t, ht, hh⟩ := ih (done ++ [key]) (s := { s with trie := s.trie.insert key (word done.length) }) (h.insert key)
      (happ ▸ hps) hfit
    refine ⟨t, ?_, happ ▸ hh⟩
    rw [List.length_append] at ht
    rw [loadTrie, trieInsert, need_pos hroom, bind_ok]
    exact ht

theorem loadTrie_append (l l' : List Bytes) (k : Nat) (s : State) :
    loadTrie (l ++ l') k s = (loadTrie l k s).bind fun _ s => loadTrie l' (k + l.length) s := by
  induction l generalizing k s with
  | nil => rfl
  | cons key l ih =>
    rw [List.cons_append, loadTrie, loadTrie]
    cases trieInsert key (word k) s with
    | raise r t => rfl
    | ok a t => simp only [bind_ok, ih, List.length_cons, Nat.add_assoc, Nat.add_comm 1]

/-- Nodes that are exactly the prefixes of the loaded words are as many as the trie has. -/
theorem Trie.Holds.size_eq {t : Trie} {words ps : List Bytes} (h : t.Holds words) (hnd : ps.Nodup) (hps : Covers ps words)
    (hex : ∀ p ∈ ps, p ≠ [] ∧ ∃ w ∈ words, p <+: w) : t.size = ps.length := by
  rw [← h.inner_length]
  refine (List.perm_ext_iff_of_nodup ((rising_nodup lexLt_order h.listed).erase _) hnd).2 (fun p => ?_) |>.length_eq
  rw [show p ∈ t.paths.erase [] ↔ _ from h.mem_inner]
  exact ⟨fun ⟨hne, w, hw, hp⟩ => hps w hw p hne hp, hex p⟩

/-- The first word whose prefixes do not fit faults with the number of nodes of the words before it (R241). -/
theorem loadTrie_of_full {s : State} {words ps : List Bytes} {k : Nat} (h : s.trie.Holds []) (hnd : ps.Nodup)
    (hcov : Covers ps (words.take k)) (hex : ∀ p ∈ ps, p ≠ [] ∧ ∃ w ∈ words.take k, p <+: w)
    (hfit : ps.length ≤ s.cfg.trieMax) (hbig : ∀ qs, Covers qs (words.take (k + 1)) → s.cfg.trieMax < qs.length) :
    ∃ t, loadTrie words 0 s = .raise (allocFail 4 ps.length) t := by
  obtain ⟨t, hload, hholds⟩ := loadTrie_of_room (ps := ps) (words.take k) [] h hcov hfit
  rw [List.nil_append] at hholds
  have hk : k < words.length := by
    by_contra hk
    rw [List.take_of_length_le (by omega)] at hcov
    exact absurd (hbig ps (by rwa [List.take_of_length_le (by omega)])) (Nat.not_lt.2 hfit)
  have hfull : ¬t.size + (t.missing words[k]).length ≤ s.cfg.trieMax := by
    have := hbig _ (by rw [List.take_succ_eq_append_getElem hk]; exact hholds.covers words[k])
    rw [List.length_append, hholds.inner_length] at this
    omega
  have hraise : loadTrie (words[k] :: words.drop (k + 1)) (0 + (words.take k).length) { s with trie := t } =
      .raise (allocFail 4 ps.length) { s with trie := t } := by
    rw [loadTrie, trieInsert, need_neg hfull, bind_raise, hholds.size_eq hnd hcov hex]
  refine ⟨{ s with trie := t }, ?_⟩
  calc loadTrie words 0 s = loadTrie (words.take k ++ words[k] :: words.drop (k + 1)) 0 s := by
        rw [← List.drop_eq_getElem_cons hk, List.take_append_drop]
    _ = _ := by rw [loadTrie_append, show loadTrie (words.take k) 0 s = _ from hload, bind_ok, hraise]

/-- Settles O42: the words are loaded as long as their prefixes fit; the first that does not fit faults. -/
theorem ctGenLoadsTheTrie : Obligations.CtGenLoadsTheTrie := by
  intro s T D hf _ hT hm hle heq covers
  have hrule := ruleCtGen_of_word hT hm
  refine ⟨fun k ps hnd hcov hex hfit hbig => ?_, fun ps hcov hfit => ?_⟩
  · obtain ⟨t, ht⟩ := loadTrie_of_full (s := { s.withCodes T with trie := Trie.fresh }) fresh_holds hnd hcov hex hfit hbig
    exact exec_of_cleanup_raise (t := t) .allocationFailure rfl hf (hrule.trans (by rw [ht]; rfl))
  · obtain ⟨t, hload, hholds⟩ := loadTrie_of_room (ps := ps) s.symtab []
      (s := { s.withCodes T with trie := Trie.fresh }) fresh_holds hcov hfit
    refine ⟨T.codeTable, t, ?_, mapFind_codeTable T, hholds.paths, hholds.others, hholds.last⟩
    rw [show loadTrie s.symtab 0 _ = _ from hload, bind_ok] at hrule
    rw [exec_of_ok hf (i := .ctGen) hrule, State.withCodes, Tree.pushed_eq hle heq]
    rfl

end Sys2Proof.Machine
end

section
/-! PROOFS. CT.STLOAD (spec/44_tree_serialization.md R223, R225): reading a symbol table entry by entry. -/

namespace Sys2Proof.Machine

/-! ## Sections of IN -/

theorem inBytes_add (s : State) (p n m : Nat) : s.inBytes p (n + m) = s.inBytes p n ++ s.inBytes (p + n) m := by
  simp only [State.inBytes, List.range_add, List.map_append, List.map_map, Function.comp_def, Nat.add_assoc]

/-- A section that starts with some bytes: the bytes are read at its start, and the rest after them. -/
theorem inBytes_eq_append {s : State} {p n : Nat} {x y : Bytes} (h : s.inBytes p n = x ++ y) :
    n = x.length + y.length ∧ s.inBytes p x.length = x ∧ s.inBytes (p + x.length) y.length = y := by
  have hlen : n = x.length + y.length := by simpa using congrArg List.length h
  rw [hlen, inBytes_add] at h
  obtain ⟨hx, hy⟩ := List.append_inj h (by simp)
  exact ⟨hlen, hx, hy⟩

theorem State.InReadable.sub {s : State} {p n q m : Nat} (h : s.InReadable p n) (hq : p ≤ q) (hm : q + m ≤ p + n) :
    s.InReadable q m := fun x hx hin => h x hx (by omega)

/-- Below the least unreadable address of a range everything can be read. -/
theorem State.LeastUnreadable.readable {s : State} {p n x q m : Nat} (h : s.LeastUnreadable p n x) (hq : p ≤ q)
    (hm : q + m ≤ x) : s.InReadable q m := fun y hy hin => by
  have := h.2 y hy (by omega) (by have := h.1.2.1; omega)
  omega

/-- The least unreadable address of a range is that of every part of the range that it lies in. -/
theorem State.LeastUnreadable.sub {s : State} {p n x q m : Nat} (h : s.LeastUnreadable p n x) (hq : p ≤ q) (hqx : q ≤ x)
    (hm : q + m ≤ p + n) (hx : x < q + m) : s.LeastUnreadable q m x :=
  ⟨⟨hqx, hx, h.1.2.2⟩, fun y hy hqy hym => h.2 y hy (by omega) (by omega)⟩

/-! ## Entries -/

/-- An entry of a symbol table: its length, then its bytes (30_encoding.md R112). -/
def entryBytes (w : Bytes) : Bytes := u32le (word w.length) ++ w

@[simp] theorem entryBytes_length (w : Bytes) : (entryBytes w).length = 4 + w.length := by
  rw [entryBytes, List.length_append, u32le_length]

theorem symtabBytes_eq (list : List Bytes) : symtabBytes list = list.flatMap entryBytes := rfl

theorem symtabBytes_cons (w : Bytes) (list : List Bytes) : symtabBytes (w :: list) = entryBytes w ++ symtabBytes list := rfl

theorem length_le_symtabBytes (list : List Bytes) : list.length ≤ (symtabBytes list).length := by
  induction list with
  | nil => exact Nat.le_refl _
  | cons w list ih =>
    rw [symtabBytes_cons, List.length_append, entryBytes_length, List.length_cons]
    omega

section parse
variable {stop : Nat} {s : State}

/-- The part of `parse_symtab` after the length of an entry is read (R225). -/
def parseEntry (stop fuel p : Nat) (n : Nat) (s : State) : Ruling (List Bytes) :=
  need (1 ≤ n ∧ p + 4 + n ≤ stop) ⟨.corruptContainer, word p, 2⟩ s <|
  (memRead (p + 4) n s).bind fun entry s =>
  (parseSymtab stop fuel (p + 4 + n) s).bind fun rest s => .ok (entry :: rest) s

theorem parseSymtab_end {p : Nat} (h : stop ≤ p) (fuel : Nat) : parseSymtab stop fuel p s = .ok [] s := by
  cases fuel with
  | zero => rfl
  | succ fuel => rw [parseSymtab, if_pos h]

theorem parseSymtab_short {p : Nat} (h : p < stop) (h4 : stop < p + 4) (fuel : Nat) :
    parseSymtab stop (fuel + 1) p s = .raise ⟨.corruptContainer, word p, 2⟩ s := by
  rw [parseSymtab, if_neg (Nat.not_le.2 h), need_neg (Nat.not_le.2 h4)]

theorem parseSymtab_prefix {p : Nat} (h4 : p + 4 ≤ stop) (fuel : Nat) :
    parseSymtab stop (fuel + 1) p s = (memRead p 4 s).bind fun v s => parseEntry stop fuel p (le32 v).toNat s := by
  rw [parseSymtab, if_neg (by omega), need_pos h4]
  rfl

theorem parseSymtab_readable {p : Nat} (h4 : p + 4 ≤ stop) (hr : s.InReadable p 4) (fuel : Nat) :
    parseSymtab stop (fuel + 1) p s = parseEntry stop fuel p (le32 (s.inBytes p 4)).toNat s := by
  rw [parseSymtab_prefix h4, memRead_ok hr, bind_ok]

/-- A section that starts with an entry is parsed as the entry and what follows it. -/
theorem parseSymtab_entry {p : Nat} {w rest : Bytes} (hstop : stop < 2 ^ 32) (hw : w ≠ []) (hp : p ≤ stop)
    (hs : s.inBytes p (stop - p) = entryBytes w ++ rest) (hr : s.InReadable p (entryBytes w).length) (fuel : Nat) :
    parseSymtab stop (fuel + 1) p s =
      (parseSymtab stop fuel (p + (entryBytes w).length) s).bind fun l s => .ok (w :: l) s := by
  obtain ⟨hlen, hentry, -⟩ := inBytes_eq_append hs
  obtain ⟨-, hprefix, hword⟩ := inBytes_eq_append hentry
  rw [entryBytes_length] at hlen hr ⊢
  rw [u32le_length] at hprefix hword
  have hpos := List.length_pos_iff.2 hw
  have hn : (le32 (s.inBytes p 4)).toNat = w.length := by
    rw [hprefix, le32_u32le, word_toNat_of_lt (by omega)]
  rw [parseSymtab_readable (by omega) (hr.sub (Nat.le_refl _) (by omega)), hn, parseEntry, need_pos (by omega),
    memRead_ok (hr.sub (by omega) (by omega)), bind_ok, ← Nat.add_assoc, hword]

/-- A section that starts with the table of some words is parsed as these words and what follows them (R225). -/
theorem parseSymtab_entries (list : List Bytes) {p : Nat} {rest : Bytes} (hstop : stop < 2 ^ 32) (hw : ∀ w ∈ list, w ≠ [])
    (hp : p ≤ stop) (hs : s.inBytes p (stop - p) = symtabBytes list ++ rest)
    (hr : s.InReadable p (symtabBytes list).length) (fuel : Nat) :
    parseSymtab stop (fuel + list.length) p s =
      (parseSymtab stop fuel (p + (symtabBytes list).length) s).bind fun l s => .ok (list ++ l) s := by
  induction list generalizing p with
  | nil =>
    show parseSymtab stop fuel p s = (parseSymtab stop fuel p s).bind fun l s => .ok l s
    cases parseSymtab stop fuel p s <;> rfl
  | cons w list ih =>
    rw [symtabBytes_cons, List.append_assoc] at hs
    rw [symtabBytes_cons, List.length_append] at hr
    obtain ⟨hlen, -, hrest⟩ := inBytes_eq_append hs
    have hstop' : stop - (p + (entryBytes w).length) = (symtabBytes list ++ rest).length := by omega
    have hle : p + (entryBytes w).length ≤ stop := by omega
    rw [List.length_cons, ← Nat.add_assoc, parseSymtab_entry hstop (hw w (List.mem_cons_self ..)) hp hs
      (hr.sub (Nat.le_refl _) (by omega)), ih (fun v hv => hw v (List.mem_cons_of_mem _ hv)) hle (hstop' ▸ hrest)
      (hr.sub (by omega) (by omega)), symtabBytes_cons, List.length_append, ← Nat.add_assoc]
    cases parseSymtab stop fuel (p + (entryBytes w).length + (symtabBytes list).length) s <;> rfl

/-- A readable section that is the table of a list of words is parsed as the list (R225). -/
theorem parseSymtab_of_table {list : List Bytes} {p : Nat} (hstop : stop < 2 ^ 32) (hw : ∀ w ∈ list, w ≠ [])
    (hp : p ≤ stop) (hs : s.inBytes p (stop - p) = symtabBytes list) (hr : s.InReadable p (stop - p)) :
    parseSymtab stop (stop - p) p s = .ok list s := by
  have hlen : stop - p = (symtabBytes list).length := by simpa using congrArg List.length hs
  have hfuel : stop - p - list.length + list.length = stop - p :=
    Nat.sub_add_cancel (hlen ▸ length_le_symtabBytes list)
  rw [← hfuel, parseSymtab_entries list (rest := []) hstop hw hp (by rw [List.append_nil]; exact hs) (hlen ▸ hr),
    parseSymtab_end (by omega), bind_ok, List.append_nil]

/-- A section that is read entry by entry is the table of the words, or has a length field that fails (R225). -/
theorem parseSymtab_cases (fuel : Nat) {p : Nat} (hp : p ≤ stop) (hr : s.InReadable p (stop - p)) (hfuel : stop - p ≤ fuel) :
    (∃ list, parseSymtab stop fuel p s = .ok list s ∧ (∀ w ∈ list, w ≠ []) ∧ s.inBytes p (stop - p) = symtabBytes list) ∨
    ∃ q, p ≤ q ∧ q < stop ∧ parseSymtab stop fuel p s = .raise ⟨.corruptContainer, word q, 2⟩ s := by
  induction fuel generalizing p with
  | zero =>
    rw [show stop - p = 0 by omega]
    exact .inl ⟨[], rfl, fun _ h => absurd h List.not_mem_nil, rfl⟩
  | succ fuel ih =>
    by_cases hend : stop ≤ p
    · rw [show stop - p = 0 by omega]
      exact .inl ⟨[], parseSymtab_end hend _, fun _ h => absurd h List.not_mem_nil, rfl⟩
    by_cases h4 : p + 4 ≤ stop
    · have hlen : (s.inBytes p 4).length = 4 := inBytes_length ..
      rw [parseSymtab_readable h4 (hr.sub (Nat.le_refl _) (by omega)), parseEntry]
      have hprefix : s.inBytes p 4 = u32le (word (le32 (s.inBytes p 4)).toNat) := by rw [word_toNat, u32le_le32 hlen]
      generalize (le32 (s.inBytes p 4)).toNat = n at hprefix ⊢
      by_cases hn : 1 ≤ n ∧ p + 4 + n ≤ stop
      · rw [need_pos hn, memRead_ok (hr.sub (by omega) (by omega)), bind_ok]
        have hsplit : s.inBytes p (stop - p) = entryBytes (s.inBytes (p + 4) n) ++ s.inBytes (p + 4 + n) (stop - (p + 4 + n)) := by
          rw [show stop - p = 4 + (n + (stop - (p + 4 + n))) by omega, inBytes_add, inBytes_add, hprefix, entryBytes,
            inBytes_length, List.append_assoc]
        rcases ih (p := p + 4 + n) hn.2 (hr.sub (by omega) (by omega)) (by omega) with ⟨list, hok, hw, hs⟩ | ⟨q, hpq, hq, hraise⟩
        · refine .inl ⟨s.inBytes (p + 4) n :: list, by rw [hok]; rfl, ?_, by rw [hsplit, hs, symtabBytes_cons]⟩
          exact List.forall_mem_cons.2 ⟨inBytes_ne_nil hn.1, hw⟩
        · exact .inr ⟨q, by omega, hq, by rw [hraise]; rfl⟩
      · exact .inr ⟨p, Nat.le_refl _, by omega, need_neg hn _ _ _⟩
    · exact .inr ⟨p, Nat.le_refl _, by omega, parseSymtab_short (by omega) (by omega) fuel⟩

end parse

/-! ## CT.STLOAD -/

theorem ruleCtStload_of_range {a b : Word} {s : State} (h : a.toNat ≤ b.toNat ∧ b.toNat ≤ s.inLen.toNat) :
    ruleCtStload a b s = (parseSymtab b.toNat (b.toNat - a.toNat) a.toNat s).bind fun list s =>
      .ok ⟨word list.length, 0, 0, 0⟩ { s with symtab := list } := need_pos h _ _ _

theorem ruleCtStload_of_raise {a b : Word} {s t : State} {r : Raise} (h : a.toNat ≤ b.toNat ∧ b.toNat ≤ s.inLen.toNat)
    (hr : parseSymtab b.toNat (b.toNat - a.toNat) a.toNat s = .raise r t) : ruleCtStload a b s = .raise r t := by
  rw [ruleCtStload_of_range h, hr, bind_raise]

/-- Where the table of some words is followed by more bytes, the parse goes on after the words. -/
theorem parseSymtab_rest {a b : Word} {s : State} {list : List Bytes} {rest : Bytes} (hw : ∀ w ∈ list, w ≠ [])
    (hab : a.toNat ≤ b.toNat) (hs : s.inBytes a.toNat (b.toNat - a.toNat) = symtabBytes list ++ rest) (hrest : rest ≠ [])
    (hr : s.InReadable a.toNat (symtabBytes list).length) :
    ∃ fuel, ∀ r t, parseSymtab b.toNat (fuel + 1) (a.toNat + (symtabBytes list).length) s = .raise r t →
      parseSymtab b.toNat (b.toNat - a.toNat) a.toNat s = .raise r t := by
  obtain ⟨hlen, -, -⟩ := inBytes_eq_append hs
  have hpos := List.length_pos_iff.2 hrest
  have hle := length_le_symtabBytes list
  refine ⟨b.toNat - a.toNat - list.length - 1, fun r t h => ?_⟩
  have hfuel : b.toNat - a.toNat = b.toNat - a.toNat - list.length - 1 + 1 + list.length := by omega
  conv_lhs => rw [hfuel]
  rw [parseSymtab_entries list b.isLt hw hab hs hr, h, bind_raise]

/-- Settles O45: the sections are parsed entry by entry; the first length field that fails, or byte that cannot be read, faults. -/
theorem ctStloadReadsExactlyTheTables : Obligations.CtStloadReadsExactlyTheTables := by
  intro s a b hf range readable section_ table
  refine ⟨fun hr => ?_, fun hr hread list hw hs => ?_, fun hr hread hnone => ?_, fun hr list rest hw hs hrest => ?_⟩
  · exact exec_of_raise .illegalCommand rfl rfl hf ((need_neg hr _ _ _).trans (by rw [illegal, word_toNat]; rfl))
  · refine exec_of_ok hf (i := .ctStload a b) ?_
    rw [ruleOf, ruleCtStload_of_range hr, parseSymtab_of_table b.isLt hw hr.1 hs hread, bind_ok]
  · rcases parseSymtab_cases (b.toNat - a.toNat) hr.1 hread (Nat.le_refl _) with ⟨list, -, hw, hs⟩ | ⟨q, hpq, hq, hraise⟩
    · exact absurd hs (hnone list hw)
    · exact ⟨q, hpq, hq, exec_of_raise .corruptContainer rfl rfl hf (ruleCtStload_of_raise hr hraise)⟩
  · intro p n
    obtain ⟨hlen, -, hat⟩ := inBytes_eq_append hs
    have hlist : (table list).length = (symtabBytes list).length := rfl
    have hprefix : 4 ≤ rest.length → s.inBytes p 4 = rest.take 4 := fun h4 => by
      have : rest = rest.take 4 ++ rest.drop 4 := (List.take_append_drop 4 rest).symm
      rw [this] at hat
      obtain ⟨-, h, -⟩ := inBytes_eq_append hat
      rwa [List.length_take_of_le h4] at h
    have fault : ∀ (c : Cause) (i0 i1 : Word), s.InReadable a.toNat (table list).length →
        (∀ fuel, parseSymtab b.toNat (fuel + 1) p s = .raise ⟨c, i0, i1⟩ s) →
        exec (.ctStload a b) s = .next (s.faulted c.code 0x62 i0 i1) := fun c i0 i1 hread h => by
      obtain ⟨fuel, hfuel⟩ := parseSymtab_rest hw hr.1 hs hrest hread
      exact exec_of_raise c rfl rfl hf (ruleCtStload_of_raise hr (hfuel _ _ (h fuel)))
    have hpos := List.length_pos_iff.2 hrest
    refine ⟨fun hread h4 => ?_, fun hread h4 hn => ?_, fun x hx hpx h4 hcase => ?_⟩
    · exact fault .corruptContainer _ _ hread fun fuel => parseSymtab_short (by omega) (by omega) fuel
    · refine fault .corruptContainer _ _ (hread.sub (Nat.le_refl _) (by omega)) fun fuel => ?_
      rw [parseSymtab_readable (by omega) (hread.sub (by omega) (by omega)), hprefix h4]
      exact need_neg (by omega) _ _ _
    · refine fault .ioError _ _ (hx.readable (Nat.le_refl _) hpx) fun fuel => ?_
      rw [parseSymtab_prefix (by omega)]
      by_cases hx4 : x < p + 4
      · rw [memRead_raise (hx.sub (by omega) hpx (by omega) hx4), bind_raise]
        rfl
      · obtain ⟨hn0, hn4, hxn⟩ := hcase.resolve_left hx4
        rw [memRead_ok (hx.readable (by omega) (by omega)), bind_ok, hprefix h4, parseEntry,
          need_pos (by omega), memRead_raise (hx.sub (by omega) (by omega) (by omega) hxn), bind_raise]
        rfl

end Sys2Proof.Machine
end

section
/-! PROOFS. CD.EPASS (spec/46_codec_encode.md R250, R251): the pass appends the codes of the symbols to PAY one after another, and
the capacity grows to what one append of all of them would give. -/

namespace Sys2Proof.Machine

/-! ## Growing -/

/-- Growing for some bytes and then for more is growing for the more (10_state.md R43). -/
theorem grow_grow {c : Config} {cap n m : Nat} (h : 1 ≤ cap) (hc : 1 ≤ c.bbMinCap) (hnm : n ≤ m) :
    grow c (grow c cap n) m = grow c cap m := by
  obtain ⟨k, hk, hkmin, hkeq⟩ := growIsTheLeastDoubling c cap n h
  obtain ⟨l, hl, hlmin, hleq⟩ := growIsTheLeastDoubling c cap m h
  have hkl : k ≤ l := by
    by_contra hlt
    exact absurd (hkmin l (by omega)) (by omega)
  have hpow : cap * 2 ^ k ≤ cap * 2 ^ l := Nat.mul_le_mul_left _ (Nat.pow_le_pow_right (by decide) hkl)
  have hmax : 1 ≤ max c.bbMinCap c.bbMaxBytes := hc.trans (le_max_left ..)
  generalize hmost : max c.bbMinCap c.bbMaxBytes = most at hmax hkeq hleq
  have hpos : 1 ≤ grow c cap n := by
    have : 1 ≤ cap * 2 ^ k := Nat.mul_pos h (Nat.two_pow_pos k)
    omega
  obtain ⟨j, hj, hjmin, hjeq⟩ := growIsTheLeastDoubling c (grow c cap n) m hpos
  rw [hmost] at hjeq
  rw [hjeq, hleq, hkeq]
  by_cases hbig : cap * 2 ^ k ≤ most
  · rw [hkeq, min_eq_left hbig] at hj hjmin
    rw [min_eq_left hbig]
    have hexp : ∀ i, cap * 2 ^ k * 2 ^ i = cap * 2 ^ (k + i) := fun i => by rw [Nat.mul_assoc, ← Nat.pow_add]
    have hjl : k + j = l := by
      rcases Nat.lt_trichotomy (k + j) l with hlt | heq | hgt
      · exact absurd (hlmin _ hlt) (Nat.not_lt.2 (hexp j ▸ hj))
      · exact heq
      · have := hjmin (l - k) (by omega)
        rw [hexp, show k + (l - k) = l by omega] at this
        omega
    rw [hexp, hjl]
  · have hk : min (cap * 2 ^ k) most = most := min_eq_right (by omega)
    have hl : min (cap * 2 ^ l) most = most := min_eq_right (by omega)
    rw [hk, hl, min_eq_right (Nat.le_mul_of_pos_right _ (Nat.two_pow_pos j))]

theorem grow_zero {c : Config} {cap : Nat} (h : cap ≤ max c.bbMinCap c.bbMaxBytes) : grow c cap 0 = cap := min_eq_left h

/-! ## PAY -/

/-- The state with PAY holding some bits and SYMCOUNT a number, as the pass leaves it (R250). -/
def State.withPay (bits : Bits) (n : Word) (s : State) : State :=
  { s with symCount := n, bb := s.bb.set 0 ⟨bits, grow s.cfg (s.buf 0).cap (bytesFor bits.length)⟩ }

section pay
variable {s : State} (hc : s.cfg.wellFormed = true) (hb : s.BuffersOk)
include hc hb

theorem bufferCount : 2 ≤ s.bb.length := by
  obtain ⟨-, hcount, -⟩ := (wellFormed_iff _).1 hc
  simp only [Config.bufferCountOk, decide_eq_true_eq] at hcount
  rw [hb.count]
  exact hcount.1

theorem withPay_buf (bits : Bits) (n : Word) :
    (s.withPay bits n).buf 0 = ⟨bits, grow s.cfg (s.buf 0).cap (bytesFor bits.length)⟩ := by
  have := bufferCount hc hb
  show (s.bb.set 0 _).getD 0 _ = _
  rw [List.getD_eq_getElem?_getD, List.getElem?_set_self (by omega)]
  rfl

/-- The pass starts with PAY empty. -/
theorem withPay_nil : ({ s.setBuf 0 { s.buf 0 with bits := [] } with symCount := 0 } : State) = s.withPay [] 0 := by
  unfold State.withPay
  rw [show bytesFor (List.length ([] : Bits)) = 0 from rfl, grow_zero (hb.buf hc 0).most]
  rfl

/-- A code that fits is appended (R251). -/
theorem putCode_withPay {bits c : Bits} {id : Word} (hcode : mapFind id s.code = some c)
    (hfit : bits.length + c.length ≤ s.cfg.bbMaxBits) (base p : Nat) (first : Byte) (n : Word) :
    putCode base p first id (s.withPay bits n) = .ok () (s.withPay (bits ++ c) n) := by
  have hpay := withPay_buf hc hb bits n
  have hcap := (hb.buf hc 0).least
  have hmin := (bufferSize_of_wellFormed hc).1
  have hgrow : grow s.cfg (grow s.cfg (s.buf 0).cap (bytesFor bits.length)) (bytesFor (bits.length + c.length)) =
      grow s.cfg (s.buf 0).cap (bytesFor (bits ++ c).length) := by
    rw [grow_grow (by omega) hmin (bytesFor_le (Nat.le_add_right _ _)), List.length_append]
  have hfind : mapFind id (s.withPay bits n).code = some c := hcode
  rw [putCode, hfind]
  dsimp only
  rw [hpay, BitBuffer.append]
  refine (need_pos hfit _ _ _).trans ?_
  show Ruling.ok () ((s.withPay bits n).setBuf 0 ⟨bits ++ c, grow s.cfg _ _⟩) = _
  rw [hgrow]
  simp only [State.withPay, State.setBuf, List.set_set]

end pay

/-! ## Symbols -/

/-- The symbol at the front of the input is the one that the pass finds (R251). -/
theorem nextSymbol_of_symbolAt {s : State} (ht : s.TrieOk) {first : Byte} {rest : Bytes} {id : Word} {n : Nat}
    (h : s.SymbolAt (first :: rest) id n) (base p : Nat) : nextSymbol base p first (first :: rest) s = .ok (id, n) s := by
  unfold State.SymbolAt at h
  unfold nextSymbol
  cases hm : s.mode with
  | char =>
    rw [hm] at h
    obtain ⟨b, more, hcons, rfl, rfl⟩ := h
    rw [(List.cons.inj hcons).1]
  | word =>
    rw [hm] at h
    obtain ⟨key, hkey, hprefix, rfl, hbest⟩ := h
    dsimp only
    rw [search_of_best (greedy := false) ht hkey hprefix hbest]

/-- What the pass finds is the symbol at the front of the input; where it finds none, there is none (R251). -/
theorem nextSymbol_cases (base p : Nat) (first : Byte) (rest : Bytes) (s : State) :
    (∃ id n, s.SymbolAt (first :: rest) id n ∧ nextSymbol base p first (first :: rest) s = .ok (id, n) s) ∨
    nextSymbol base p first (first :: rest) s = .raise (unknownAt base p first) s := by
  unfold State.SymbolAt nextSymbol
  cases s.mode with
  | char => exact .inl ⟨_, _, ⟨first, rest, rfl, rfl, rfl⟩, rfl⟩
  | word =>
    by_cases hmatch : ∃ e ∈ s.trie.payload, e.1 <+: first :: rest
    · obtain ⟨e, he, hp⟩ := hmatch
      obtain ⟨x, hx, hstored, hprefix, hbest⟩ := search_of_match he hp false
      refine .inl ⟨x.2, x.1.length, ⟨x.1, hstored, hprefix, rfl, hbest⟩, ?_⟩
      dsimp only
      rw [hx]
    · refine .inr ?_
      dsimp only
      rw [search_of_no_match fun e he hp => hmatch ⟨e, he, hp⟩]

/-- A symbol covers at least one byte, all of them of the input (42_prefix_trie.md R180). -/
theorem State.SymbolAt.covers {s : State} (ht : s.TrieOk) {data : Bytes} {id : Word} {n : Nat} (h : s.SymbolAt data id n) :
    1 ≤ n ∧ n ≤ data.length := by
  unfold State.SymbolAt at h
  cases hm : s.mode with
  | char =>
    rw [hm] at h
    obtain ⟨b, rest, rfl, -, rfl⟩ := h
    exact ⟨Nat.le_refl _, Nat.succ_le_succ (Nat.zero_le _)⟩
  | word =>
    rw [hm] at h
    obtain ⟨key, hkey, hprefix, rfl, -⟩ := h
    exact ⟨List.length_pos_iff.2 (ht.payloadAt _ hkey).2, hprefix.length_le⟩

/-! ## The pass -/

theorem encodeLoop_nil (base fuel p : Nat) (s : State) : encodeLoop base fuel p [] s = .ok () s := by
  cases fuel <;> rfl

theorem word_succ (n : Nat) : word (n + 1) = 1 + word n := by
  simp [word, BitVec.ofNat_add, BitVec.add_comm]

section pass
variable {s : State} (hc : s.cfg.wellFormed = true) (hb : s.BuffersOk) (ht : s.TrieOk)
include hc hb ht

/-- One symbol with a code (R250). -/
theorem encodeLoop_symbol {data : Bytes} {id : Word} {k : Nat} {bits c : Bits} (hs : s.SymbolAt data id k)
    (hcode : mapFind id s.code = some c) (hfit : bits.length + c.length ≤ s.cfg.bbMaxBits) (base fuel p : Nat) (n : Word) :
    encodeLoop base (fuel + 1) p data (s.withPay bits n) =
      encodeLoop base fuel (p + k) (data.drop k) (s.withPay (bits ++ c) (n + 1)) := by
  obtain ⟨first, rest, rfl⟩ := List.exists_cons_of_length_pos (by have := hs.covers ht; omega : 0 < data.length)
  have hnext : nextSymbol base p first (first :: rest) (s.withPay bits n) = .ok (id, k) (s.withPay bits n) :=
    nextSymbol_of_symbolAt (s := s.withPay bits n) (ht.congr rfl rfl) hs base p
  rw [encodeLoop, hnext, bind_ok, putCode_withPay hc hb hcode hfit, bind_ok]
  rfl

/-- Symbols that all have codes, one after another (R250). -/
theorem encodeLoop_tokens {data rest : Bytes} {ids : List Word} (h : s.Tokens data ids rest) {codes : List Bits}
    (hcodes : List.Forall₂ (fun id c => mapFind id s.code = some c) ids codes) {bits : Bits}
    (hfit : bits.length + codes.flatten.length ≤ s.cfg.bbMaxBits) (base : Nat) {fuel : Nat} (hfuel : data.length ≤ fuel)
    (p : Nat) (n : Word) : ∃ fuel', rest.length ≤ fuel' ∧ rest.length ≤ data.length ∧
      encodeLoop base fuel p data (s.withPay bits n) =
        encodeLoop base fuel' (p + (data.length - rest.length)) rest (s.withPay (bits ++ codes.flatten) (n + word ids.length)) := by
  induction h generalizing codes bits fuel p n with
  | done data =>
    cases hcodes
    refine ⟨fuel, hfuel, Nat.le_refl _, ?_⟩
    rw [Nat.sub_self, Nat.add_zero, List.flatten_nil, List.append_nil, List.length_nil]
    exact congrArg (fun k => encodeLoop base fuel p data (s.withPay bits k)) (BitVec.add_zero n).symm
  | @symbol data rest id k ids hs _ ih =>
    cases hcodes with
    | cons hcode hcodes =>
      rename_i c codes
      rw [List.flatten_cons, List.length_append] at hfit
      obtain ⟨hk1, hk2⟩ := hs.covers ht
      obtain ⟨fuel, rfl⟩ : ∃ m, fuel = m + 1 := ⟨fuel - 1, by omega⟩
      have hdrop : (data.drop k).length = data.length - k := List.length_drop
      obtain ⟨fuel', hfuel', hle, heq⟩ := ih hcodes (bits := bits ++ c) (by rw [List.length_append]; omega)
        (fuel := fuel) (by omega) (p + k) (n + 1)
      refine ⟨fuel', hfuel', by omega, ?_⟩
      rw [encodeLoop_symbol hc hb ht hs hcode (by omega), heq, List.flatten_cons, ← List.append_assoc, List.length_cons,
        word_succ, ← BitVec.add_assoc, Nat.add_assoc, show k + ((data.drop k).length - rest.length) = data.length - rest.length by omega]

omit hc hb ht in
/-- Where no symbol with a code starts, the pass faults (R250, R251). -/
theorem encodeLoop_unknown {first : Byte} {rest : Bytes} {bits : Bits}
    (hnone : ∀ id n, s.SymbolAt (first :: rest) id n → mapFind id s.code = none) (base : Nat) {fuel : Nat} (hfuel : 0 < fuel)
    (p : Nat) (n : Word) :
    encodeLoop base fuel p (first :: rest) (s.withPay bits n) = .raise (unknownAt base p first) (s.withPay bits n) := by
  obtain ⟨fuel, rfl⟩ : ∃ m, fuel = m + 1 := ⟨fuel - 1, by omega⟩
  rcases nextSymbol_cases base p first rest (s.withPay bits n) with ⟨id, k, hs, hnext⟩ | hnext
  · have hcode : mapFind id (s.withPay bits n).code = none := hnone id k hs
    rw [encodeLoop, hnext, bind_ok, putCode, hcode]
    rfl
  · rw [encodeLoop, hnext, bind_raise]

omit ht in
theorem encodePass_of_range {a b : Nat} (hr : a ≤ b ∧ b ≤ s.inLen.toNat) (hread : s.InReadable a (b - a)) :
    encodePass a b s = (encodeLoop a (b - a) 0 (s.inBytes a (b - a)) (s.withPay [] 0)).bind fun _ s =>
      .ok ⟨s.symCount, word (s.buf 0).bits.length, 0, 0⟩ s := by
  have h : encodePass a b s = (memRead a (b - a) s).bind fun data s =>
      (encodeLoop a data.length 0 data { s.setBuf 0 { s.buf 0 with bits := [] } with symCount := 0 }).bind fun _ s =>
      .ok ⟨s.symCount, word (s.buf 0).bits.length, 0, 0⟩ s := need_pos hr _ _ _
  rw [h, memRead_ok hread, bind_ok, inBytes_length, withPay_nil hc hb]

/-- The pass over an input that splits into symbols with codes (R250). -/
theorem encodePass_of_tokens {a b : Nat} (hr : a ≤ b ∧ b ≤ s.inLen.toNat) (hread : s.InReadable a (b - a)) {ids : List Word}
    {codes : List Bits} (htok : s.Tokens (s.inBytes a (b - a)) ids [])
    (hcodes : List.Forall₂ (fun id c => mapFind id s.code = some c) ids codes)
    (hfit : codes.flatten.length ≤ s.cfg.bbMaxBits) : encodePass a b s =
      .ok ⟨word ids.length, word codes.flatten.length, 0, 0⟩ (s.withPay codes.flatten (word ids.length)) := by
  obtain ⟨fuel, -, -, heq⟩ := encodeLoop_tokens hc hb ht htok hcodes (bits := []) (by simpa using hfit) a
    (fuel := b - a) (by simp) 0 0
  rw [List.nil_append, show (0 : Word) + word ids.length = word ids.length from BitVec.zero_add _, encodeLoop_nil] at heq
  rw [encodePass_of_range hc hb hr hread, heq, bind_ok, withPay_buf hc hb]
  rfl

/-- The pass over an input that after symbols with codes starts with none (R250, R251). -/
theorem encodePass_of_unknown {a b : Nat} (hr : a ≤ b ∧ b ≤ s.inLen.toNat) (hread : s.InReadable a (b - a)) {ids : List Word}
    {codes : List Bits} {first : Byte} {rest : Bytes} (htok : s.Tokens (s.inBytes a (b - a)) ids (first :: rest))
    (hcodes : List.Forall₂ (fun id c => mapFind id s.code = some c) ids codes)
    (hfit : codes.flatten.length ≤ s.cfg.bbMaxBits)
    (hnone : ∀ id n, s.SymbolAt (first :: rest) id n → mapFind id s.code = none) :
    ∃ t, encodePass a b s = .raise (unknownAt a ((s.inBytes a (b - a)).length - (first :: rest).length) first) t := by
  obtain ⟨fuel, hfuel, -, heq⟩ := encodeLoop_tokens hc hb ht htok hcodes (bits := []) (by simpa using hfit) a
    (fuel := b - a) (by simp) 0 0
  refine ⟨s.withPay ([] ++ codes.flatten) (0 + word ids.length), ?_⟩
  rw [encodePass_of_range hc hb hr hread, heq, encodeLoop_unknown hnone a (by simp at hfuel; omega), bind_raise,
    Nat.zero_add]

end pass

/-- Settles O46: the pass appends code after code, or stops at the first byte where no symbol with a code starts. -/
theorem cdEpassAppendsTheCodes : Obligations.CdEpassAppendsTheCodes := by
  intro s a b hf hc hb ht range data coded
  refine ⟨fun hr => ?_, fun hr x hx => ?_, fun hr hread ids codes htok hcodes hfit => ?_,
    fun hr hread ids codes first rest htok hcodes hfit hnone => ?_⟩
  · exact exec_of_cleanup_raise .illegalCommand rfl hf ((need_neg hr _ _ _).trans (by rw [illegal, word_toNat]; rfl))
  · exact exec_of_cleanup_raise .ioError rfl hf
      ((need_pos hr _ _ _).trans (congrArg (Ruling.bind · _) (memRead_raise hx)))
  · exact exec_of_ok hf (i := .cdEpass a b) (encodePass_of_tokens hc hb ht hr hread htok hcodes hfit)
  · obtain ⟨t, h⟩ := encodePass_of_unknown hc hb ht hr hread htok hcodes hfit hnone
    exact exec_of_cleanup_raise .unknownSymbol rfl hf h

end Sys2Proof.Machine
end

section
/-! PROOFS. CD.DPASS (spec/47_codec_decode.md R265, R267): the automaton goes down the tree with the bits of a code, emits the
symbol at the leaf and starts again at ROOT. -/

namespace Sys2Proof.Machine

/-! ## Writing at OUT_LEN -/

/-- OUT_LEN after bytes are appended at OUT_LEN. -/
theorem wrote_end {s : State} (hc : s.cfg.wellFormed = true) {x : Bytes} (hx : s.OutWritable s.outLen.toNat x.length) :
    (s.wrote s.outLen.toNat x).outLen.toNat = s.outLen.toNat + x.length := by
  rw [wrote_outLen hc hx]
  split
  · next h => rw [h]; rfl
  · omega

theorem State.OutWritable.sub {s : State} {p n q m : Nat} (h : s.OutWritable p n) (hq : p ≤ q) (hm : q + m ≤ p + n) :
    s.OutWritable q m := by
  rcases h with h | ⟨h, hbad⟩
  · exact .inl (by omega)
  · exact .inr ⟨by omega, fun x hx hin => hbad x hx (by omega)⟩

/-- Appending at OUT_LEN twice is appending once. -/
theorem wrote_wrote_end {s : State} (hc : s.cfg.wellFormed = true) {x y : Bytes}
    (h : s.OutWritable s.outLen.toNat (x ++ y).length) :
    (s.wrote s.outLen.toNat x).wrote (s.wrote s.outLen.toNat x).outLen.toNat y = s.wrote s.outLen.toNat (x ++ y) := by
  rw [List.length_append] at h
  have hx : s.OutWritable s.outLen.toNat x.length := h.sub (Nat.le_refl _) (by omega)
  have hend := wrote_end hc hx
  have hmem : (s.wrote s.outLen.toNat x).outMem.putAll (s.wrote s.outLen.toNat x).outLen.toNat y =
      s.outMem.putAll s.outLen.toNat (x ++ y) := by
    rw [hend, putAll_append]
    rfl
  have hlen : ((s.wrote s.outLen.toNat x).wrote (s.wrote s.outLen.toNat x).outLen.toNat y).outLen =
      (s.wrote s.outLen.toNat (x ++ y)).outLen := by
    by_cases hy : y = []
    · rw [hy, List.append_nil]; rfl
    · have hxy : x ++ y ≠ [] := by simp [hy]
      simp only [State.wrote, if_neg hy, if_neg hxy]
      have hend' := hend
      simp only [State.wrote] at hend'
      rw [hend', List.length_append]
      congr 1
      omega
  show ({ s.wrote s.outLen.toNat (x ++ y) with
    outMem := (s.wrote s.outLen.toNat x).outMem.putAll (s.wrote s.outLen.toNat x).outLen.toNat y
    outLen := ((s.wrote s.outLen.toNat x).wrote (s.wrote s.outLen.toNat x).outLen.toNat y).outLen } : State) = _
  rw [hmem, hlen]
  rfl

/-! ## The automaton -/

/-- The state of the automaton: bytes appended at OUT_LEN, CURSOR, the position after some bits of the section, the number of
symbols emitted (R265). -/
def State.decoding (a : Nat) (cursor : Word) (k : Nat) (out : Bytes) (j : Nat) (s : State) : State :=
  { s.wrote s.outLen.toNat out with
    cursor := cursor
    dpos := word (a + k / 8)
    dbit := word (k % 8)
    emitted := word j }

theorem word_add_one (n : Nat) : word n + 1 = word (n + 1) := by
  simp [word, BitVec.ofNat_add]

section automaton
variable {s : State} {a : Nat}

theorem decoding_nextBit (cursor : Word) (k : Nat) (out : Bytes) (j : Nat) :
    (s.decoding a cursor k out j).nextBit = s.decoding a cursor (k + 1) out j := by
  have hmod : word (k % 8) = 7 ↔ k % 8 = 7 := by
    constructor
    · intro h
      have := congrArg BitVec.toNat h
      rwa [word_toNat_of_lt (by omega)] at this
    · intro h; rw [h]; rfl
  by_cases h : k % 8 = 7
  · refine (if_pos (hmod.2 h)).trans ?_
    simp only [State.decoding, word_add_one]
    rw [show (k + 1) / 8 = k / 8 + 1 by omega, show (k + 1) % 8 = 0 by omega]
    rfl
  · refine (if_neg (mt hmod.1 h)).trans ?_
    simp only [State.decoding, word_add_one]
    rw [show (k + 1) / 8 = k / 8 by omega, show (k + 1) % 8 = k % 8 + 1 by omega]

theorem emit_decoding (hc : s.cfg.wellFormed = true) {id : Word} {v out : Bytes} (hv : s.symbolBytes id = some v)
    (hw : s.OutWritable s.outLen.toNat (out ++ v).length) (cursor : Word) (k j : Nat) :
    emit id (s.decoding a cursor k out j) = .ok () (s.decoding a cursor k (out ++ v) (j + 1)) := by
  have hbytes : (s.decoding a cursor k out j).symbolBytes id = some v := hv
  have hlen := hw
  rw [List.length_append] at hlen
  have hend : (s.decoding a cursor k out j).outLen.toNat = s.outLen.toNat + out.length :=
    wrote_end hc (hlen.sub (Nat.le_refl _) (by omega))
  have hwrite : (s.decoding a cursor k out j).OutWritable (s.decoding a cursor k out j).outLen.toNat v.length :=
    hend ▸ hlen.sub (by omega) (by omega)
  rw [emit, hbytes]
  dsimp only
  rw [memWrite_ok hwrite, bind_ok]
  show Ruling.ok () ({ (s.wrote s.outLen.toNat out).wrote (s.wrote s.outLen.toNat out).outLen.toNat v with
    cursor := cursor, dpos := word (a + k / 8), dbit := word (k % 8), emitted := word j + 1 } : State) = _
  rw [wrote_wrote_end hc hw, word_add_one]
  rfl

theorem decodeLoop_stop {count : Word} {st : State} (h : ¬st.emitted.toNat < count.toNat) (bits : Bits) :
    decodeLoop count bits st = .ok () st := by
  cases bits <;> rw [decodeLoop, if_neg h]

theorem decodeLoop_end {count : Word} {st : State} (h : st.emitted.toNat < count.toNat) :
    decodeLoop count [] st = .raise (corruptStream st) st := by rw [decodeLoop, if_pos h]

theorem decodeLoop_step {count : Word} {st : State} (h : st.emitted.toNat < count.toNat) (bit : Bool) (bits : Bits) :
    decodeLoop count (bit :: bits) st = (automatonStep bit st).bind fun _ t => decodeLoop count bits t.nextBit := by
  rw [decodeLoop, if_pos h]

/-- While fewer symbols than the count are emitted the loop goes on. -/
theorem decoding_emitted {count : Word} {j : Nat} (hj : j < count.toNat) (cursor : Word) (k : Nat) (out : Bytes) :
    (s.decoding a cursor k out j).emitted.toNat < count.toNat := by
  show (word j).toNat < _
  rw [word_toNat_of_lt (hj.trans count.isLt)]
  exact hj

/-! ### Under a single leaf -/

section leaf
variable {sym freq : Word} (hroot : mapFind s.root s.nodes = some (.leaf sym freq))
include hroot

theorem leaf_zero (hc : s.cfg.wellFormed = true) {count : Word} {v out : Bytes} (hv : s.symbolBytes sym = some v)
    (hw : s.OutWritable s.outLen.toNat (out ++ v).length) {j : Nat} (hj : j < count.toNat) (k : Nat) (rest : Bits) :
    decodeLoop count (false :: rest) (s.decoding a s.root k out j) =
      decodeLoop count rest (s.decoding a s.root (k + 1) (out ++ v) (j + 1)) := by
  have hfind : mapFind (s.decoding a s.root k out j).root (s.decoding a s.root k out j).nodes = some (.leaf sym freq) := hroot
  have hstep : automatonStep false (s.decoding a s.root k out j) = .ok () (s.decoding a s.root k (out ++ v) (j + 1)) := by
    rw [automatonStep, hfind]
    exact (need_pos rfl _ _ _).trans (emit_decoding hc hv hw s.root k j)
  rw [decodeLoop_step (decoding_emitted hj ..), hstep, bind_ok, decoding_nextBit]

theorem leaf_one {count : Word} {j : Nat} (hj : j < count.toNat) (k : Nat) (out : Bytes) (rest : Bits) :
    decodeLoop count (true :: rest) (s.decoding a s.root k out j) =
      .raise (corruptStream (s.decoding a s.root k out j)) (s.decoding a s.root k out j) := by
  have hfind : mapFind (s.decoding a s.root k out j).root (s.decoding a s.root k out j).nodes = some (.leaf sym freq) := hroot
  have hstep : automatonStep true (s.decoding a s.root k out j) =
      .raise (corruptStream (s.decoding a s.root k out j)) (s.decoding a s.root k out j) := by
    rw [automatonStep, hfind]
    exact need_neg (by decide) _ _ _
  rw [decodeLoop_step (decoding_emitted hj ..), hstep, bind_raise]

end leaf

/-! ### Below an internal node -/

section inner
variable {l₀ r₀ f₀ : Word} (hroot : mapFind s.root s.nodes = some (.internal l₀ r₀ f₀))
include hroot

/-- From an internal node to a leaf: its symbol is emitted and the automaton is at ROOT again (R267). -/
theorem step_to_leaf (hc : s.cfg.wellFormed = true) {h l r f sym freq : Word} (hh : mapFind h s.nodes = some (.internal l r f))
    {bit : Bool} (hchild : mapFind (if bit then r else l) s.nodes = some (.leaf sym freq)) {v out : Bytes}
    (hv : s.symbolBytes sym = some v) (hw : s.OutWritable s.outLen.toNat (out ++ v).length) (k j : Nat) :
    automatonStep bit (s.decoding a h k out j) = .ok () (s.decoding a s.root k (out ++ v) (j + 1)) := by
  have h1 : mapFind (s.decoding a h k out j).root (s.decoding a h k out j).nodes = some (.internal l₀ r₀ f₀) := hroot
  have h2 : mapFind (s.decoding a h k out j).cursor (s.decoding a h k out j).nodes = some (.internal l r f) := hh
  have h3 : mapFind (if bit then r else l) (s.decoding a h k out j).nodes = some (.leaf sym freq) := hchild
  rw [automatonStep, h1]
  dsimp only
  rw [h2]
  dsimp only
  rw [h3]
  dsimp only
  rw [emit_decoding hc hv hw, bind_ok]
  rfl

/-- From an internal node to an internal node. -/
theorem step_to_inner {h l r f l' r' f' : Word} (hh : mapFind h s.nodes = some (.internal l r f)) {bit : Bool}
    (hchild : mapFind (if bit then r else l) s.nodes = some (.internal l' r' f')) (out : Bytes) (k j : Nat) :
    automatonStep bit (s.decoding a h k out j) = .ok () (s.decoding a (if bit then r else l) k out j) := by
  have h1 : mapFind (s.decoding a h k out j).root (s.decoding a h k out j).nodes = some (.internal l₀ r₀ f₀) := hroot
  have h2 : mapFind (s.decoding a h k out j).cursor (s.decoding a h k out j).nodes = some (.internal l r f) := hh
  have h3 : mapFind (if bit then r else l) (s.decoding a h k out j).nodes = some (.internal l' r' f') := hchild
  rw [automatonStep, h1]
  dsimp only
  rw [h2]
  dsimp only
  rw [h3]
  rfl

omit hroot in
/-- A code below an internal node begins with the edge to a child and goes on with a code below the child. -/
theorem code_below {l r : Tree} {id : Word} {path c : Bits} (h : (id, path ++ c) ∈ (Tree.node l r).walk path) :
    ∃ bit c', c = bit :: c' ∧ (id, (path ++ [bit]) ++ c') ∈ (if bit then r else l).walk (path ++ [bit]) := by
  have split : ∀ bit, path ++ [bit] <+: path ++ c → ∃ c', c = bit :: c' := fun bit hp => by
    rw [List.prefix_append_right_inj] at hp
    obtain ⟨c', rfl⟩ := hp
    exact ⟨c', rfl⟩
  rcases List.mem_append.1 h with h | h
  · obtain ⟨c', rfl⟩ := split false (Tree.walk_extends h)
    exact ⟨false, c', rfl, by rw [List.append_assoc]; exact h⟩
  · obtain ⟨c', rfl⟩ := split true (Tree.walk_extends h)
    exact ⟨true, c', rfl, by rw [List.append_assoc]; exact h⟩

omit hroot in
theorem child_tree {h l r f : Word} {L R : Tree} (hh : mapFind h s.nodes = some (.internal l r f))
    (ht : IsTree s.nodes h (.node L R)) (bit : Bool) : IsTree s.nodes (if bit then r else l) (if bit then R else L) := by
  cases ht with
  | node hfind hl hr =>
    cases hfind.symm.trans hh
    cases bit
    · exact hl
    · exact hr

/-- The bits of a code below an internal node lead to its leaf (R267). -/
theorem decode_code (hc : s.cfg.wellFormed = true) {count : Word} {T : Tree} {h : Word} (ht : IsTree s.nodes h T)
    (hT : ∀ sym, T ≠ .leaf sym) {id : Word} {path c : Bits} (hcode : (id, path ++ c) ∈ T.walk path) {v out : Bytes}
    (hv : s.symbolBytes id = some v) (hw : s.OutWritable s.outLen.toNat (out ++ v).length) {j : Nat} (hj : j < count.toNat)
    (k : Nat) (rest : Bits) :
    decodeLoop count (c ++ rest) (s.decoding a h k out j) =
      decodeLoop count rest (s.decoding a s.root (k + c.length) (out ++ v) (j + 1)) := by
  induction T generalizing h path c k with
  | leaf sym => exact absurd rfl (hT sym)
  | node L R ihl ihr =>
    obtain ⟨bit, c', rfl, hbelow⟩ := code_below hcode
    obtain ⟨l, r, f, hh⟩ : ∃ l r f, mapFind h s.nodes = some (.internal l r f) := by
      cases ht with
      | node hfind => exact ⟨_, _, _, hfind⟩
    have hchild := child_tree hh ht bit
    rw [List.cons_append, decodeLoop_step (decoding_emitted hj ..), List.length_cons]
    generalize hU : (if bit then R else L) = U at hbelow hchild
    cases hchild with
    | leaf hfind =>
      have hbelow := Prod.mk.inj (List.mem_singleton.1 hbelow)
      obtain ⟨rfl, hnil⟩ := hbelow
      obtain rfl : c' = [] := by simpa using hnil
      rw [step_to_leaf hroot hc hh hfind hv hw, bind_ok, decoding_nextBit]
      rfl
    | node hfind hl hr =>
      have ih : ∀ {h' : Word} {path' c' : Bits} (k' : Nat), IsTree s.nodes h' (if bit then R else L) →
          (id, path' ++ c') ∈ (if bit then R else L).walk path' → (∀ sym, (if bit then R else L) ≠ .leaf sym) →
          decodeLoop count (c' ++ rest) (s.decoding a h' k' out j) =
            decodeLoop count rest (s.decoding a s.root (k' + c'.length) (out ++ v) (j + 1)) := fun k' h1 h2 h3 => by
        cases bit
        · exact ihl h1 h3 h2 k'
        · exact ihr h1 h3 h2 k'
      rw [step_to_inner hroot hh hfind, bind_ok, decoding_nextBit,
        ih (k + 1) (hU ▸ .node hfind hl hr) (by rw [hU]; exact hbelow) (by rw [hU]; exact fun sym => Tree.noConfusion),
        Nat.add_assoc, Nat.add_comm 1]

/-- The bits of a part of a code lead to no leaf, and the section ends there (R265). -/
theorem decode_prefix {count : Word} {T : Tree} {h : Word} (ht : IsTree s.nodes h T) {id : Word} {path bits more : Bits}
    (hcode : (id, path ++ (bits ++ more)) ∈ T.walk path) (hmore : more ≠ []) {j : Nat} (hj : j < count.toNat) (out : Bytes)
    (k : Nat) : ∃ h', decodeLoop count bits (s.decoding a h k out j) =
      .raise (corruptStream (s.decoding a h' (k + bits.length) out j)) (s.decoding a h' (k + bits.length) out j) := by
  induction T generalizing h path bits k with
  | leaf sym =>
    have := (Prod.mk.inj (List.mem_singleton.1 hcode)).2
    exact absurd (List.append_eq_nil_iff.1 (by simpa using this)).2 hmore
  | node L R ihl ihr =>
    cases bits with
    | nil => exact ⟨h, decodeLoop_end (decoding_emitted hj ..)⟩
    | cons b bits =>
      obtain ⟨bit, c', hcons, hbelow⟩ := code_below hcode
      obtain ⟨rfl, rfl⟩ := List.cons.inj hcons
      obtain ⟨l, r, f, hh⟩ : ∃ l r f, mapFind h s.nodes = some (.internal l r f) := by
        cases ht with
        | node hfind => exact ⟨_, _, _, hfind⟩
      have hchild := child_tree hh ht b
      have ih : ∀ {h' : Word} {path' : Bits} (k' : Nat), IsTree s.nodes h' (if b then R else L) →
          (id, path' ++ (bits ++ more)) ∈ (if b then R else L).walk path' →
          ∃ h'', decodeLoop count bits (s.decoding a h' k' out j) =
            .raise (corruptStream (s.decoding a h'' (k' + bits.length) out j)) (s.decoding a h'' (k' + bits.length) out j) :=
        fun k' h1 h2 => by
          cases b
          · exact ihl h1 h2 k'
          · exact ihr h1 h2 k'
      obtain ⟨h'', hraise⟩ := ih (k + 1) hchild hbelow
      generalize hU : (if b then R else L) = U at hbelow hchild
      cases hchild with
      | leaf hfind =>
        have := (Prod.mk.inj (List.mem_singleton.1 hbelow)).2
        exact absurd (List.append_eq_nil_iff.1 (by simpa using this)).2 hmore
      | node hfind hl hr =>
        refine ⟨h'', ?_⟩
        rw [decodeLoop_step (decoding_emitted hj ..), step_to_inner hroot hh hfind, bind_ok, decoding_nextBit, hraise,
          List.length_cons, Nat.add_assoc, Nat.add_comm 1]

end inner

/-! ## Symbols one after another -/

section symbols
variable {T : Tree} (ht : IsTree s.nodes s.root T)
include ht

/-- The code of a symbol of the tree is decoded to the symbol (R265, R267). -/
theorem decode_symbol (hc : s.cfg.wellFormed = true) {count : Word} {id : Word} {c : Bits} (hcode : (id, c) ∈ T.codes)
    {v out : Bytes} (hv : s.symbolBytes id = some v) (hw : s.OutWritable s.outLen.toNat (out ++ v).length) {j : Nat}
    (hj : j < count.toNat) (k : Nat) (rest : Bits) :
    decodeLoop count (c ++ rest) (s.decoding a s.root k out j) =
      decodeLoop count rest (s.decoding a s.root (k + c.length) (out ++ v) (j + 1)) := by
  cases ht with
  | leaf hfind =>
    obtain ⟨rfl, rfl⟩ := Prod.mk.inj (List.mem_singleton.1 hcode)
    exact leaf_zero hfind hc hv hw hj k rest
  | node hfind hl hr =>
    exact decode_code hfind hc (.node hfind hl hr) (fun sym => Tree.noConfusion) (path := []) hcode hv hw hj k rest

/-- The codes of symbols of the tree are decoded to the symbols. -/
theorem decode_symbols (hc : s.cfg.wellFormed = true) {count : Word} {ids : List Word} {codes : List Bits} {outs : List Bytes}
    (hcodes : List.Forall₂ (fun id c => (id, c) ∈ T.codes) ids codes)
    (houts : List.Forall₂ (fun id v => s.symbolBytes id = some v) ids outs) {out : Bytes} {j : Nat}
    (hw : s.OutWritable s.outLen.toNat (out ++ outs.flatten).length) (hj : j + ids.length ≤ count.toNat) (k : Nat) (rest : Bits) :
    decodeLoop count (codes.flatten ++ rest) (s.decoding a s.root k out j) =
      decodeLoop count rest (s.decoding a s.root (k + codes.flatten.length) (out ++ outs.flatten) (j + ids.length)) := by
  induction hcodes generalizing outs out j k with
  | nil => cases houts; rw [List.flatten_nil, List.flatten_nil, List.append_nil]; rfl
  | cons hcode _ ih =>
    cases houts with
    | @cons _ v _ outs hv houts =>
      rw [List.flatten_cons, ← List.append_assoc] at hw
      rw [List.length_cons] at hj
      have hw' := hw.sub (Nat.le_refl _) (m := (out ++ v).length) (by simp only [List.length_append]; omega)
      rw [List.flatten_cons, List.append_assoc, decode_symbol ht hc hcode hv hw' (by omega), ih houts hw (by omega),
        List.flatten_cons, List.length_append, List.append_assoc, List.length_cons, Nat.add_assoc, Nat.add_assoc, Nat.add_comm 1]

end symbols

end automaton

/-! ## The pass -/

theorem decodePass_of_range {a b : Nat} {count : Word} {s : State} (hr : a ≤ b ∧ b ≤ s.inLen.toNat)
    (hroot : s.root ≠ nullHandle) (hread : s.InReadable a (b - a)) : decodePass a b count s =
      (decodeLoop count (unpack (s.inBytes a (b - a))) (s.decoding a s.root 0 [] 0)).bind fun _ t =>
        .ok ⟨t.outLen - s.outLen, t.emitted, 0, 0⟩ t := by
  have h : decodePass a b count s = need (s.root ≠ nullHandle) (illegal 8 5) s ((memRead a (b - a) s).bind fun data s =>
      (decodeLoop count (unpack data) { s with cursor := s.root, dpos := word a, dbit := 0, emitted := 0 }).bind fun _ t =>
      .ok ⟨t.outLen - s.outLen, t.emitted, 0, 0⟩ t) := need_pos hr _ _ _
  rw [h, need_pos hroot, memRead_ok hread, bind_ok]
  rfl

theorem rootTree_root {s : State} {T : Tree} (h : s.rootTree = some T) : s.root ≠ nullHandle := by
  intro hr
  rw [State.rootTree, if_pos hr] at h
  cases h

/-- The pass over the codes of symbols with the count of the symbols (R265). -/
theorem decodePass_of_codes {a b : Nat} {count : Word} {s : State} (hc : s.cfg.wellFormed = true) (hn : s.NodesOk)
    (hr : a ≤ b ∧ b ≤ s.inLen.toNat) (hread : s.InReadable a (b - a)) {T : Tree} (hT : s.rootTree = some T)
    {ids : List Word} {codes : List Bits} {outs : List Bytes} {rest : Bits}
    (hcodes : List.Forall₂ (fun id c => (id, c) ∈ T.codes) ids codes)
    (houts : List.Forall₂ (fun id v => s.symbolBytes id = some v) ids outs)
    (hbits : unpack (s.inBytes a (b - a)) = codes.flatten ++ rest) (hw : s.OutWritable s.outLen.toNat outs.flatten.length)
    (hcount : count.toNat = ids.length) : decodePass a b count s =
      .ok ⟨word outs.flatten.length, count, 0, 0⟩ (s.decoding a s.root codes.flatten.length outs.flatten ids.length) := by
  have hword : word ids.length = count := by rw [← hcount, word_toNat]
  have hstop : ¬(s.decoding a s.root codes.flatten.length outs.flatten ids.length).emitted.toNat < count.toNat := by
    show ¬(word ids.length).toNat < count.toNat
    rw [hword]
    exact Nat.lt_irrefl _
  have hlen : (s.decoding a s.root codes.flatten.length outs.flatten ids.length).outLen - s.outLen = word outs.flatten.length := by
    have h1 : (s.decoding a s.root codes.flatten.length outs.flatten ids.length).outLen.toNat =
        s.outLen.toNat + outs.flatten.length := wrote_end hc hw
    rw [← word_toNat (s.decoding a s.root codes.flatten.length outs.flatten ids.length).outLen, h1,
      ← word_toNat s.outLen, word_toNat]
    simp [word, BitVec.ofNat_add]
  rw [decodePass_of_range hr (rootTree_root hT) hread, hbits,
    decode_symbols ((hn.rootTree T).1 hT) hc hcodes houts (by simpa using hw) (by omega) 0 rest, Nat.zero_add, Nat.zero_add,
    List.nil_append, decodeLoop_stop hstop, bind_ok, hlen]
  exact congrArg (fun n => Ruling.ok (⟨_, n, 0, 0⟩ : Results) _) hword

/-- Settles O47: the symbols' codes are decoded, and what follows them decides how the pass ends. -/
theorem cdDpassInvertsTheCodes : Obligations.CdDpassInvertsTheCodes := by
  intro s a b count hf hc hn range bits
  refine ⟨fun hr => ?_, fun hr hroot => ?_, fun hr hread T ids codes outs rest hT hcodes houts hbits hw => ?_⟩
  · exact exec_of_cleanup_raise .illegalCommand rfl hf ((need_neg hr _ _ _).trans (by rw [illegal, word_toNat]; rfl))
  · exact exec_of_cleanup_raise .illegalCommand rfl hf ((need_pos hr _ _ _).trans (need_neg (fun h => h hroot) _ _ _))
  · have htree := (hn.rootTree T).1 hT
    have hdecode : ids.length ≤ count.toNat → decodeLoop count bits (s.decoding a.toNat s.root 0 [] 0) =
        decodeLoop count rest (s.decoding a.toNat s.root codes.flatten.length outs.flatten ids.length) := fun hle => by
      rw [hbits, decode_symbols htree hc hcodes houts (by simpa using hw) (by omega) 0 rest, Nat.zero_add, Nat.zero_add,
        List.nil_append]
    have fault : ∀ {r t}, ids.length ≤ count.toNat →
        decodeLoop count rest (s.decoding a.toNat s.root codes.flatten.length outs.flatten ids.length) = .raise r t →
        ruleOf (.cdDpass a b count) s = .raise r t := fun hle h => by
      rw [ruleOf, ruleCdDpass, decodePass_of_range hr (rootTree_root hT) hread, show unpack _ = bits from rfl, hdecode hle, h,
        bind_raise]
    refine ⟨fun hcount => ?_, fun hlt ⟨id, c, hcode, hprefix, hne⟩ => ?_, fun hlt ⟨sym, more, hleaf, hrest⟩ => ?_⟩
    · have hword : word ids.length = count := by rw [← hcount, word_toNat]
      refine (exec_of_ok hf (i := .cdDpass a b count)
        (decodePass_of_codes hc hn hr hread hT hcodes houts hbits hw hcount)).trans ?_
      rw [State.decoding, hword]
    · obtain ⟨tail, rfl⟩ := hprefix
      have htail : tail ≠ [] := fun h => hne (by rw [h, List.append_nil])
      have hend : ∃ h', decodeLoop count rest (s.decoding a.toNat s.root codes.flatten.length outs.flatten ids.length) =
          .raise (corruptStream (s.decoding a.toNat h' (codes.flatten.length + rest.length) outs.flatten ids.length))
            (s.decoding a.toNat h' (codes.flatten.length + rest.length) outs.flatten ids.length) := by
        cases htree with
        | leaf hfind =>
          have hone := (Prod.mk.inj (List.mem_singleton.1 hcode)).2
          obtain rfl : rest = [] := by
            cases rest with
            | nil => rfl
            | cons x rest =>
              have hpos := List.length_pos_iff.2 htail
              have hlen := congrArg List.length hone
              simp only [List.length_append, List.length_cons, List.length_nil] at hlen
              omega
          exact ⟨_, decodeLoop_end (decoding_emitted hlt ..)⟩
        | node hfind hl hr => exact decode_prefix hfind (.node hfind hl hr) (path := []) hcode htail hlt _ _
      obtain ⟨h', hraise⟩ := hend
      have hlen : codes.flatten.length + rest.length = 8 * (b.toNat - a.toNat) := by
        rw [← List.length_append, ← hbits, unpack_length, inBytes_length]
      have hpos : corruptStream (s.decoding a.toNat h' (codes.flatten.length + rest.length) outs.flatten ids.length) =
          ⟨.corruptStream, b, 0⟩ := by
        rw [hlen, corruptStream]
        show (⟨_, word _, word _⟩ : Raise) = _
        rw [Nat.mul_div_cancel_left _ (by decide), Nat.mul_mod_right, Nat.add_sub_cancel' hr.1, word_toNat]
        rfl
      exact exec_of_cleanup_raise .corruptStream rfl hf (fault hlt.le (hpos ▸ hraise))
    · subst hleaf hrest
      cases htree with
      | leaf hfind => exact exec_of_cleanup_raise .corruptStream rfl hf (fault hlt.le (leaf_one hfind hlt ..))

end Sys2Proof.Machine
end

section
/-! PROOFS. Where the bytes of OUT change (spec/20_memory.md R70, R72, R81): what a chain of updates writes lies below the OUT_LEN
that it leaves, and where it only appends, at or above the OUT_LEN that it found. -/

namespace Sys2Proof.Machine

/-- A write changes no byte at or above the OUT_LEN that it leaves. -/
theorem wrote_above {s : State} (hc : s.cfg.wellFormed = true) {a x : Nat} {v : Bytes} (hv : s.OutWritable a v.length)
    (hx : (s.wrote a v).outLen.toNat ≤ x) : s.outLen.toNat ≤ x ∧ (s.wrote a v).outByte x = s.outByte x := by
  rw [wrote_outLen hc hv] at hx
  by_cases hnil : v = []
  · subst hnil
    exact ⟨hx, rfl⟩
  · rw [if_neg hnil] at hx
    exact ⟨by omega, by rw [outByte_wrote, if_neg (by omega)]⟩

/-- A chain changes no byte at or above the OUT_LEN that it leaves. -/
theorem Chain.out_above {p : Permit} {s t : State} (h : Chain p s t) (hc : s.cfg.wellFormed = true) :
    ∀ x, t.outLen.toNat ≤ x → s.outLen.toNat ≤ x ∧ t.outByte x = s.outByte x := by
  refine (h.keeps (P := fun t => t.cfg.wellFormed = true ∧ ∀ x, t.outLen.toNat ≤ x → s.outLen.toNat ≤ x ∧ t.outByte x = s.outByte x)
    (fun u v hu hs => ?_) ⟨hc, fun x hx => ⟨hx, rfl⟩⟩).2
  obtain ⟨hcu, hout⟩ := hs
  refine ⟨cfg_of_fixed hu.fixed ▸ hcu, fun x hx => ?_⟩
  cases hu with
  | write a v _ _ hv =>
    obtain ⟨hle, hbyte⟩ := wrote_above hcu hv hx
    exact ⟨(hout x hle).1, hbyte.trans (hout x hle).2⟩
  | _ => exact hout x hx

/-- A chain that only appends changes no byte below the OUT_LEN that it found. -/
theorem Chain.out_below {p : Permit} (hp : p.appends) {s t : State} (h : Chain p s t) (hc : s.cfg.wellFormed = true) :
    ∀ x, x < s.outLen.toNat → t.outByte x = s.outByte x := by
  refine (h.keeps (P := fun t => t.cfg.wellFormed = true ∧ s.outLen.toNat ≤ t.outLen.toNat ∧
    ∀ x, x < s.outLen.toNat → t.outByte x = s.outByte x) (fun u v hu hs => ?_) ⟨hc, Nat.le_refl _, fun x hx => rfl⟩).2.2
  obtain ⟨hcu, hle, hout⟩ := hs
  refine ⟨cfg_of_fixed hu.fixed ▸ hcu, ?_⟩
  cases hu with
  | write a v _ ha hv =>
    cases ha hp
    refine ⟨hle.trans (by rw [wrote_end hcu hv]; omega), fun x hx => ?_⟩
    rw [outByte_wrote, if_neg (by omega)]
    exact hout x hx
  | _ => exact ⟨hle, hout⟩

/-- A command with no fault before and none after has completed. -/
theorem completed_of_no_fault {i : Instr} {s t : State} (hf : s.status.fault = false) (ht : t.status.fault = false)
    (h : exec i s = .next t) : ∃ res u, ruleOf i s = .ok res u ∧ t = u.completed res := by
  rcases exec_cases h with ⟨hs, -⟩ | hok | ⟨r, u, hu, rfl⟩
  · rw [hf] at hs; cases hs
  · exact hok
  · rw [takeFault_pending (fault_of_fixed (afterRaise_fixed hu))] at ht
    cases ht

/-- A rule that is a write, then something that leaves OUT alone, completes with the bytes written. -/
theorem outByte_of_write {addr : Nat} {v : Bytes} {s u : State} {res : Results} {k : Unit → State → Ruling Results}
    (h : (memWrite addr v s).bind k = .ok res u) (hk : ∀ t, k () t = .ok res u → u.outMem = t.outMem) (x : Nat) :
    u.outByte x = if addr ≤ x ∧ x < addr + v.length then v.getD (x - addr) 0 else s.outByte x := by
  obtain ⟨_, t, hw, hu⟩ := bind_eq_ok.1 h
  rcases memWrite_cases addr v s with ⟨hv, hok⟩ | ⟨y, -, hraise⟩
  · cases hok.symm.trans hw
    rw [← outByte_wrote]
    exact congrArg (fun m : Memory => (m.cell x).getD (Config.freeOut m.era x)) (hk _ hu)
  · cases hraise.symm.trans hw

theorem startOf_outMem (i : Instr) (s : State) : (startOf i s).outMem = s.outMem := by
  unfold startOf
  split <;> rfl

theorem outByte_of_outMem {s t : State} (h : t.outMem = s.outMem) (x : Nat) : t.outByte x = s.outByte x := by
  unfold State.outByte
  rw [h]

/-- A completed command that is no writer leaves OUT (20_memory.md R81). -/
theorem outMem_of_no_writer {i : Instr} {s u : State} {res : Results} (hw : writesOut i = false)
    (h : ruleOf i s = .ok res u) : u.outMem = s.outMem := by
  rcases chained_or_sys i with hi | rfl | rfl | ⟨cr, v, rfl⟩
  · have hc := (rule_chain (strict := False) hi (s := s) False.elim).of_ok h
    have hsame := hc.out_same fun hp : writesOut i = true => by rw [hw] at hp; cases hp
    exact hsame.1.trans (startOf_outMem i s)
  · cases h; rfl
  · cases h; rfl
  · rcases ruleSysWrcr_eq_ok h with ⟨-, rfl⟩ | ⟨-, -, rfl⟩ | ⟨-, -, rfl⟩ | ⟨-, rfl⟩ <;> rfl

/-- Settles O56: the writers by their one write or by their chain, the others by having none. -/
theorem outBytesChangeOnlyWhereWritten : Obligations.OutBytesChangeOnlyWhereWritten := by
  intro s t hf ht hm hc
  have done := fun {i : Instr} (h : exec i s = .next t) => completed_of_no_fault hf ht h
  refine ⟨fun i h hw a => ?_, fun b addr h => ?_, fun addr h => ?_, fun addr h => ?_, fun addr T hT h => ?_,
    fun a b c h x hx => ?_, fun i hi h x hx => ?_⟩
  · obtain ⟨res, u, hu, rfl⟩ := done h
    exact outByte_of_outMem (outMem_of_no_writer hw hu) a
  · obtain ⟨res, u, hu, rfl⟩ := done h
    exact outByte_of_write (u := u) (need_eq_ok.1 hu).2 fun t ht => by cases ht; rfl
  · obtain ⟨res, u, hu, rfl⟩ := done h
    exact outByte_of_write (u := u) (res := res) hu fun t ht => by cases ht; rfl
  · obtain ⟨res, u, hu, rfl⟩ := done h
    exact outByte_of_write (u := u) (res := res) hu fun t ht => by cases ht; rfl
  · obtain ⟨res, u, hu, rfl⟩ := done h
    rw [ruleOf, ruleHtSer, serTree, hT] at hu
    exact outByte_of_write (u := u) (need_eq_ok.1 (need_eq_ok.1 hu).2).2 fun t ht => by cases ht; rfl
  · obtain ⟨res, u, hu, rfl⟩ := done h
    have hchain : Chain (permitOf False (.cdDpass a b c)) s u :=
      (rule_chain (isChained_of_cleanup rfl) False.elim).of_ok hu
    rcases hx with hx | hx
    · exact hchain.out_below (p := permitOf False (.cdDpass a b c)) ⟨a, b, c, rfl⟩ hc x hx
    · exact (hchain.out_above hc x hx).2
  · obtain ⟨res, u, hu, rfl⟩ := done h
    have hchain := (rule_chain (strict := False) (isChained_of_cleanup (by rcases hi with rfl | rfl <;> rfl))
      (s := s) False.elim).of_ok hu
    have hcfg : (startOf i s).cfg = s.cfg := cfg_of_fixed (startOf_fixed i s)
    exact (hchain.out_above (hcfg ▸ hc) x hx).2.trans (outByte_of_outMem (startOf_outMem i s) x)

end Sys2Proof.Machine
end

section
/-! PROOFS. The cleanup of a fault (spec/60_exceptions.md R314): what a command had freed before it raised and what the cleanup
frees are together the nodes that the queue and ROOT reached before the command. -/

namespace Sys2Proof.Machine

/-! ## Freeing the queue and ROOT -/

theorem dead_of_sublist {m m' : NodeMap} (h : m'.Sublist m) {x : Word} (hx : mapFind x m = none) : mapFind x m' = none := by
  rw [mapFind_eq_none] at hx ⊢
  exact fun hm => hx ((h.map Prod.fst).subset hm)

/-- After items are freed ROOT is what it was, or NULL because its node is gone. -/
theorem freeItems_root (items : List QItem) (s : State) : (freeItems items s).root = s.root ∨
    ((freeItems items s).root = nullHandle ∧ mapFind s.root (freeItems items s).nodes = none) := by
  induction items generalizing s with
  | nil => exact .inl rfl
  | cons t rest ih =>
    have hroot : (freeTree t.handle s).root = if s.root ∈ NodeMap.subtree s.nodes t.handle then nullHandle else s.root := rfl
    have hfind : mapFind s.root (freeTree t.handle s).nodes =
        if s.root ∈ NodeMap.subtree s.nodes t.handle then none else mapFind s.root s.nodes := mapFind_without s.nodes _ s.root
    unfold freeItems
    by_cases hm : s.root ∈ NodeMap.subtree s.nodes t.handle
    · rw [if_pos hm] at hroot hfind
      refine .inr ⟨?_, dead_of_sublist (freeItems_sublist rest _) hfind⟩
      rcases ih (freeTree t.handle s) with h | h
      · exact h.trans hroot
      · exact h.1
    · rw [if_neg hm] at hroot
      have := ih (freeTree t.handle s)
      rwa [hroot] at this

/-- What freeing leaves of the nodes depends on the nodes alone. -/
theorem freeItems_nodes_congr (items : List QItem) {s t : State} (h : s.nodes = t.nodes) :
    (freeItems items s).nodes = (freeItems items t).nodes := by
  induction items generalizing s t with
  | nil => exact h
  | cons x rest ih =>
    refine ih (s := freeTree x.handle s) (t := freeTree x.handle t) ?_
    show NodeMap.without s.nodes _ = NodeMap.without t.nodes _
    rw [h]

theorem freeItems_append (a b : List QItem) (s : State) : freeItems (a ++ b) s = freeItems b (freeItems a s) := by
  induction a generalizing s with
  | nil => rfl
  | cons x a ih => exact ih _

/-- The state with no root and no cursor: its nodes and counter alone. -/
def State.unrooted (s : State) : State := { s with root := nullHandle, cursor := nullHandle }

/-- Freeing the queue's items and then ROOT is freeing one more item that names ROOT. -/
theorem freeAll_eq {s : State} (h : mapFind nullHandle s.nodes = none) :
    freeTree (freeItems s.pq.entries s).root (freeItems s.pq.entries s) = freeItems (s.pq.entries ++ [⟨0, 0, s.root⟩]) s := by
  rw [freeItems_append]
  show _ = freeTree s.root (freeItems s.pq.entries s)
  rcases freeItems_root s.pq.entries s with hr | ⟨hr, hdead⟩
  · rw [hr]
  · rw [hr, freeTree_of_dead (dead_of_sublist (freeItems_sublist ..) h), freeTree_of_dead hdead]

/-- Freeing the queue's items and then ROOT frees what the queue and ROOT reached (10_state.md R50). -/
theorem freeAll_left {s : State} (h : s.unrooted.NodesOk) : s.LeftAfterFreeing (s.queuedHandles ++ [s.root])
    (freeTree (freeItems s.pq.entries s).root (freeItems s.pq.entries s)).nodes := by
  have hleft := freeItems_left h (s.pq.entries ++ [⟨0, 0, s.root⟩])
  rw [List.map_append, List.map_singleton] at hleft
  rw [freeAll_eq (s := s) h.null, freeItems_nodes_congr (s := s) (t := s.unrooted) _ rfl]
  exact ⟨hleft.sub, hleft.gone⟩

theorem State.NodesOk.unrooted {s : State} (h : s.NodesOk) : s.unrooted.NodesOk :=
  h.filter (List.Sublist.refl _) rfl rfl (.inl rfl) (.inl rfl)

theorem State.LeftAfterFreeing.find_of {s : State} {handles : List Word} {m : NodeMap} (h : s.LeftAfterFreeing handles m)
    (hs : s.NodesOk) {x : Word} {n : Node} (hx : mapFind x m = some n) : mapFind x s.nodes = some n :=
  mapFind_of_mem (rising_nodup wordLt_order hs.listed) (h.sub.subset (mapFind_mem hx))

theorem State.LeftAfterFreeing.find_eq {s : State} {handles : List Word} {m : NodeMap} (h : s.LeftAfterFreeing handles m)
    (hs : s.NodesOk) {x : Word} (hx : ¬∃ a ∈ handles, Reachable s.nodes a x) : mapFind x m = mapFind x s.nodes := by
  cases hm : mapFind x m with
  | some n => exact (h.find_of hs hm).symm
  | none => exact (((h.gone x).1 hm).resolve_right hx).symm

/-- What a handle reached is freed, or still reached from it. -/
theorem State.LeftAfterFreeing.reachable {s : State} {handles : List Word} {m : NodeMap} (h : s.LeftAfterFreeing handles m)
    (hs : s.NodesOk) {a y : Word} (hr : Reachable s.nodes a y) :
    (∃ x ∈ handles, Reachable s.nodes x y) ∨ Reachable m a y := by
  have freed : ∀ {b y' : Word}, Reachable s.nodes b y' → (∃ x ∈ handles, Reachable s.nodes x b) →
      ∃ x ∈ handles, Reachable s.nodes x y' := fun hb ⟨x, hx, hxb⟩ => ⟨x, hx, hxb.trans hb⟩
  induction hr with
  | @here b hl =>
    by_cases hb : ∃ x ∈ handles, Reachable s.nodes x b
    · exact .inl hb
    · refine .inr (.here ?_)
      rw [NodeMap.live, h.find_eq hs hb]
      exact hl
  | @left b l r f y' hf h' ih =>
    by_cases hb : ∃ x ∈ handles, Reachable s.nodes x b
    · exact .inl (freed (.left hf h') hb)
    · exact ih.imp id fun ih => .left ((h.find_eq hs hb).trans hf) ih
  | @right b l r f y' hf h' ih =>
    by_cases hb : ∃ x ∈ handles, Reachable s.nodes x b
    · exact .inl (freed (.right hf h') hb)
    · exact ih.imp id fun ih => .right ((h.find_eq hs hb).trans hf) ih

/-! ## What a cleanup command does before it raises -/

/-- The permit of a cleanup command after its first releases: it frees nothing more. -/
def cleanupPermit (queue root : Prop) (floor : Nat) : Permit where
  strict := True
  writes := True
  empty := True
  queue := queue
  root := root
  buffer k := k < 2
  floor := floor

theorem Chain.queue_same {p : Permit} (hp : ¬p.queue) {s t : State} (h : Chain p s t) : t.pq = s.pq := by
  refine h.same (f := State.pq) fun s t hu => ?_
  cases hu with
  | queue q hq => exact absurd hq hp
  | _ => rfl

theorem Chain.root_same {p : Permit} (hp : ¬p.root) {s t : State} (h : Chain p s t) (hf : ¬p.free) : t.root = s.root := by
  refine h.same (f := State.root) fun s t hu => ?_
  cases hu with
  | root r hr => exact absurd hr hp
  | free x hx => exact absurd hx hf
  | _ => rfl

/-- The items of the queue were there before, or name handles from the floor on. -/
theorem Chain.queue_new {p : Permit} {s t : State} (h : Chain p s t) :
    ∀ x ∈ t.pq.entries, x ∈ s.pq.entries ∨ p.floor ≤ x.handle.toNat := by
  refine h.keeps (P := fun u => ∀ x ∈ u.pq.entries, x ∈ s.pq.entries ∨ p.floor ≤ x.handle.toNat) (fun u v hu hs => ?_)
    fun _ => .inl
  cases hu with
  | queue q _ _ hq => exact fun x hx => (hq x hx).elim (hs x) .inr
  | _ => exact hs

/-- ROOT is what it was, NULL, or a handle from the floor on. -/
theorem Chain.root_new {p : Permit} (hst : p.strict) (hf : ¬p.free) {s t : State} (h : Chain p s t) :
    t.root = s.root ∨ t.root = nullHandle ∨ p.floor ≤ t.root.toNat := by
  refine h.keeps (P := fun u => u.root = s.root ∨ u.root = nullHandle ∨ p.floor ≤ u.root.toNat) (fun u v hu hs => ?_) (.inl rfl)
  cases hu with
  | root r _ hr => exact .inr (hr hst).2
  | free x hx => exact absurd hx hf
  | _ => exact hs

/-- The state that a cleanup command raises at, `u`, seen from the state after its first releases, `b`: some of the handles
that the queue and ROOT name are freed; those that the queue and ROOT name at the raise are the others, and nodes that the
command has allocated. -/
structure Aborted (handles : List Word) (s b u : State) : Prop where
  left : s.LeftAfterFreeing handles b.nodes
  nodesOk : b.NodesOk
  counter : b.nextHandle = s.nextHandle
  kept : ∀ x : Word, x.toNat < s.nextHandle → mapFind x u.nodes = mapFind x b.nodes
  raised : u.NodesOk
  pqOrder : u.pqOrder = s.pqOrder ∨ u.pqOrder = .minFirst
  freed : ∀ x ∈ handles, x ∈ s.queuedHandles ++ [s.root]
  named : ∀ x ∈ s.queuedHandles ++ [s.root], x ∈ handles ∨ x ∈ u.queuedHandles ++ [u.root]
  held : ∀ x ∈ u.queuedHandles ++ [u.root], x ∈ s.queuedHandles ++ [s.root] ∨ mapFind x b.nodes = none

theorem State.NodesOk.dead_of_counter {s : State} (h : s.NodesOk) {x : Word} (hx : s.nextHandle ≤ x.toNat) :
    mapFind x s.nodes = none := by
  cases hf : mapFind x s.nodes with
  | none => rfl
  | some n => have := h.lt hf; omega

theorem State.NodesOk.left_nil {s : State} (h : s.NodesOk) : s.LeftAfterFreeing [] s.nodes :=
  .of_null h fun _ hx => absurd hx List.not_mem_nil

section aborted
variable {s b u : State} (hs : s.NodesOk)
include hs

/-- A command that frees nothing and leaves the queue and ROOT. -/
theorem aborted_of_kept (h : Chain (cleanupPermit False False s.nextHandle) s u) : Aborted [] s s u where
  left := hs.left_nil
  nodesOk := hs
  counter := rfl
  kept _ hx := h.nodes_kept id hx
  raised := h.nodesOk trivial hs
  pqOrder := .inl (h.order_same id)
  freed _ hx := absurd hx List.not_mem_nil
  named x hx := by rw [State.queuedHandles, h.queue_same id, h.root_same id id]; exact .inr hx
  held x hx := by rw [State.queuedHandles, h.queue_same id, h.root_same id id] at hx; exact .inl hx

/-- A command that frees the tree at ROOT first and leaves the queue. -/
theorem aborted_of_root (hb : b.NodesOk) (hn : b.nodes = (freeTree s.root s).nodes) (hr : b.root = nullHandle)
    (hc : b.nextHandle = s.nextHandle) (hq : b.pq = s.pq) (ho : b.pqOrder = s.pqOrder)
    (h : Chain (cleanupPermit False True s.nextHandle) b u) : Aborted [s.root] s b u where
  left := hn ▸ freeTree_left hs s.root
  nodesOk := hb
  counter := hc
  kept _ hx := h.nodes_kept id (hc ▸ hx)
  raised := h.nodesOk trivial hb
  pqOrder := .inl ((h.order_same id).trans ho)
  freed x hx := List.mem_append_right _ hx
  named x hx := by
    rw [State.queuedHandles, h.queue_same id, hq]
    exact (List.mem_append.1 hx).symm.imp id (List.mem_append_left _)
  held x hx := by
    rw [State.queuedHandles, h.queue_same id, hq] at hx
    refine (List.mem_append.1 hx).imp (List.mem_append_left _) fun hx => ?_
    rw [List.mem_singleton.1 hx]
    rcases h.root_new trivial id with hx | hx | hx
    · rw [hx, hr]; exact hb.null
    · rw [hx]; exact hb.null
    · exact hb.dead_of_counter (hc ▸ hx)

/-- A command that frees the queue and the tree at ROOT first. -/
theorem aborted_of_build (hb : b.NodesOk)
    (hn : b.nodes = (freeTree (freeItems s.pq.entries s).root (freeItems s.pq.entries s)).nodes) (hr : b.root = nullHandle)
    (hc : b.nextHandle = s.nextHandle) (hq : b.pq.entries = []) (ho : b.pqOrder = .minFirst)
    (h : Chain (cleanupPermit True True s.nextHandle) b u) : Aborted (s.queuedHandles ++ [s.root]) s b u where
  left := hn ▸ freeAll_left hs.unrooted
  nodesOk := hb
  counter := hc
  kept _ hx := h.nodes_kept id (hc ▸ hx)
  raised := h.nodesOk trivial hb
  pqOrder := .inr ((h.order_same id).trans ho)
  freed _ := id
  named _ := .inl
  held x hx := by
    refine .inr ?_
    rcases List.mem_append.1 hx with hx | hx
    · obtain ⟨y, hy, rfl⟩ := List.mem_map.1 hx
      rcases h.queue_new y hy with hy | hy
      · rw [hq] at hy; exact absurd hy List.not_mem_nil
      · exact hb.dead_of_counter (hc ▸ hy)
    · rw [List.mem_singleton.1 hx]
      rcases h.root_new trivial id with hx | hx | hx
      · rw [hx, hr]; exact hb.null
      · rw [hx]; exact hb.null
      · exact hb.dead_of_counter (hc ▸ hx)

end aborted

/-- Every cleanup command that raises had freed at most what the queue and ROOT name (60_exceptions.md R314). -/
theorem aborted_of_raise {i : Instr} {s u : State} {r : Raise} (hi : commandClass i = .cleanup) (hs : s.NodesOk)
    (h : ruleOf i s = .raise r u) : ∃ handles b, Aborted handles s b u := by
  have pay : ∀ {q r : Prop}, (cleanupPermit q r s.nextHandle).buffer 0 := Nat.zero_lt_two
  have scr : ∀ {q r : Prop}, (cleanupPermit q r s.nextHandle).buffer 1 := Nat.one_lt_two
  cases i with
  | ctGen => exact ⟨_, _, aborted_of_kept hs ((ruleCtGen_chain scr s).of_raise h)⟩
  | cdEpass x y => exact ⟨_, _, aborted_of_kept hs ((encodePass_chain pay _ _ s).of_raise h)⟩
  | cdDpass x y c => exact ⟨_, _, aborted_of_kept hs ((decodePass_chain trivial _ _ c fun _ => hs).of_raise h)⟩
  | htDeser x y =>
    rcases (deserTree_chain (p := cleanupPermit False True s.nextHandle) trivial (fun _ => hs) (Nat.le_refl _)).of_raise h
      with rfl | hu
    · exact ⟨_, _, aborted_of_kept hs .refl⟩
    · exact ⟨_, _, aborted_of_root hs (releaseRoot_nodesOk hs) rfl rfl rfl rfl rfl hu⟩
  | cdDecode =>
    have hu := (ruleCdDecode_chain (p := cleanupPermit False True s.nextHandle) trivial trivial (.inr trivial) trivial
      (fun _ => hs) (Nat.le_refl _)).of_raise h
    exact ⟨_, _, aborted_of_root hs (decodeBase_nodesOk hs) rfl rfl rfl rfl rfl hu⟩
  | htBuild =>
    have hu := (ruleHtBuild_chain (p := cleanupPermit True True s.nextHandle) trivial trivial trivial
      (fun _ => hs) (Nat.le_refl _)).of_raise h
    have hb := buildRelease_nodesOk hs
    rw [buildRelease_eq] at hu hb
    exact ⟨_, _, aborted_of_build hs hb rfl rfl rfl rfl rfl hu⟩
  | cdEncode =>
    have hs' : ({ s with outLen := 0 } : State).NodesOk := hs.congr rfl rfl rfl rfl rfl
    have hu := (ruleCdEncode_chain (p := cleanupPermit True True s.nextHandle) trivial id pay trivial trivial scr trivial
      (fun _ => hs) (Nat.le_refl _)).of_raise h
    have hb := buildRelease_nodesOk hs'
    rw [buildRelease_eq] at hu hb
    have := aborted_of_build (s := { s with outLen := 0 }) hs' hb rfl rfl rfl rfl rfl hu
    exact ⟨_, _, ⟨this.left.sub, this.left.gone⟩, this.nodesOk, this.counter, this.kept, this.raised, this.pqOrder, this.freed,
      this.named, this.held⟩
  | _ => cases hi

/-! ## What the cleanup leaves -/

section cleanup
variable {handles : List Word} {s b u : State}

theorem dropAllocated_unrooted {n : Nat} (hu : u.NodesOk) : (dropAllocated n u).unrooted.NodesOk :=
  hu.filter List.filter_sublist rfl rfl (.inl rfl) (.inl rfl)

/-- Without the allocated nodes the store is what the first releases had left. -/
theorem Aborted.dropped_find (h : Aborted handles s b u) (x : Word) :
    mapFind x (dropAllocated s.nextHandle u).nodes = mapFind x b.nodes := by
  rw [dropAllocated_find h.raised]
  by_cases hx : x.toNat < s.nextHandle
  · rw [if_pos hx]; exact h.kept x hx
  · rw [if_neg hx]; exact (h.nodesOk.dead_of_counter (h.counter ▸ Nat.le_of_not_lt hx)).symm

/-- What the cleanup frees besides. -/
theorem Aborted.cleanup_left (h : Aborted handles s b u) (x : Word) : mapFind x (abortCleanup s u).nodes = none ↔
    mapFind x b.nodes = none ∨ ∃ y ∈ u.queuedHandles ++ [u.root], Reachable b.nodes y x := by
  have hleft := (freeAll_left (dropAllocated_unrooted (n := s.nextHandle) h.raised)).gone x
  have hreach : ∀ y, Reachable (dropAllocated s.nextHandle u).nodes y x ↔ Reachable b.nodes y x := fun y =>
    ⟨Reachable.of_sub fun z n hz => (h.dropped_find z).symm.trans hz, Reachable.of_sub fun z n hz => (h.dropped_find z).trans hz⟩
  rw [h.dropped_find] at hleft
  simp only [hreach] at hleft
  rw [abortCleanup_nodes, pqDestroy_true_eq]
  exact hleft

/-- Both releases together (60_exceptions.md R314). -/
theorem Aborted.gone (h : Aborted handles s b u) (hs : s.NodesOk) (x : Word) : mapFind x (abortCleanup s u).nodes = none ↔
    mapFind x s.nodes = none ∨ ∃ y ∈ s.queuedHandles ++ [s.root], Reachable s.nodes y x := by
  rw [h.cleanup_left, h.left.gone]
  constructor
  · rintro ((hx | ⟨y, hy, hr⟩) | ⟨y, hy, hr⟩)
    · exact .inl hx
    · exact .inr ⟨y, h.freed y hy, hr⟩
    · refine .inr ⟨y, (h.held y hy).resolve_right fun hd => ?_, hr.of_sub fun z n => h.left.find_of hs⟩
      have := hr.live
      rw [NodeMap.live, hd] at this
      cases this
  · rintro (hx | ⟨y, hy, hr⟩)
    · exact .inl (.inl hx)
    · rcases h.named y hy with hy | hy
      · exact .inl (.inr ⟨y, hy, hr⟩)
      · exact (h.left.reachable hs hr).elim (fun h => .inl (.inr h)) fun h => .inr ⟨y, hy, h⟩

/-- A node that the cleanup leaves was there before the command. -/
theorem Aborted.old (h : Aborted handles s b u) (hs : s.NodesOk) (x : Word) :
    mapFind x (abortCleanup s u).nodes = none ∨ mapFind x (abortCleanup s u).nodes = mapFind x s.nodes := by
  refine or_iff_not_imp_left.2 fun hx => ?_
  obtain ⟨n, hn⟩ := Option.ne_none_iff_exists'.1 hx
  have hsub : (abortCleanup s u).nodes.Sublist (dropAllocated s.nextHandle u).nodes := by
    rw [abortCleanup_nodes, pqDestroy_true_eq]
    exact (freeAll_left (dropAllocated_unrooted (n := s.nextHandle) h.raised)).sub
  have hdrop : mapFind x (dropAllocated s.nextHandle u).nodes = some n :=
    mapFind_of_mem (rising_nodup wordLt_order (dropAllocated_unrooted h.raised).listed) (hsub.subset (mapFind_mem hn))
  rw [hn, h.left.find_of hs ((h.dropped_find x).symm.trans hdrop)]

end cleanup

/-- No update makes or loses a buffer register. -/
theorem Chain.bb_length {p : Permit} {s t : State} (h : Chain p s t) : t.bb.length = s.bb.length := by
  refine h.same (f := fun x : State => x.bb.length) fun s t hu => ?_
  cases hu with
  | buffer b v => exact List.length_set
  | _ => rfl

/-- The buffers that the cleanup leaves: the first two fresh, the others as they were (60_exceptions.md R314). -/
theorem abortCleanup_bb {i : Instr} {s u : State} {r : Raise} (hi : commandClass i = .cleanup) (h : ruleOf i s = .raise r u)
    (k : Nat) : (abortCleanup s u).bb[k]? =
      if k < 2 ∧ k < s.bb.length then some (BitBuffer.fresh s.cfg) else s.bb[k]? := by
  have hc := raise_chain (strict := False) hi False.elim h
  have hcfg : u.cfg = s.cfg := cfg_of_fixed (hc.fixed.trans (startOf_fixed i s))
  have hlen : u.bb.length = s.bb.length := by rw [hc.bb_length, startOf_bb]
  rw [abortCleanup_eq]
  simp only [List.getElem?_set, List.length_set, hcfg, hlen]
  by_cases hk : k < 2
  · have : k = 0 ∨ k = 1 := by omega
    rcases this with rfl | rfl <;> simp <;> split <;> simp_all
  · have hsame : u.bb[k]? = s.bb[k]? := by
      rw [← startOf_bb i s]
      refine hc.buffer_same ?_
      rintro (hlt | ⟨b, hb, -⟩)
      · exact hk hlt
      · cases i <;> cases hi <;> cases hb
    simp [hk, hsame, show ¬1 = k by omega, show ¬0 = k by omega]

theorem abortCleanup_registers (s u : State) : (abortCleanup s u).root = nullHandle ∧ (abortCleanup s u).cursor = nullHandle ∧
    (abortCleanup s u).dpos = 0 ∧ (abortCleanup s u).dbit = 0 ∧ (abortCleanup s u).emitted = 0 ∧
    (abortCleanup s u).symCount = 0 ∧ (abortCleanup s u).code = [] ∧ (abortCleanup s u).symtab = [] ∧
    (abortCleanup s u).trie = Trie.fresh ∧ (abortCleanup s u).pq = PQueue.fresh u.cfg ∧ (abortCleanup s u).outLen = 0 := by
  rw [abortCleanup_eq]
  exact ⟨rfl, rfl, rfl, rfl, rfl, rfl, rfl, rfl, rfl, rfl, rfl⟩

/-- Settles O52: a command with no fault before and one after has raised; what it then frees and what it freed before are
together what the rule names. -/
theorem cleanupFaultsReleaseWhatWasBuilt : Obligations.CleanupFaultsReleaseWhatWasBuilt := by
  intro i s t hi hf hcfg hs h hpending
  obtain ⟨-, hin, -, hmode, hinLen, -, hfound, -, -, hft⟩ := onlyTheNamedCommandsWrite i s t h
  have hmode' : t.mode = s.mode := not_not.1 fun he => by rcases hmode he with rfl | ⟨v, rfl⟩ <;> cases hi
  have hinLen' : t.inLen = s.inLen := not_not.1 fun he => by rcases hinLen he with rfl | ⟨v, rfl⟩ <;> cases hi
  have hfound' : t.status.found = s.status.found := not_not.1 fun he => by
    rcases hfound he with rfl | ⟨a, n, g, rfl⟩ <;> cases hi
  have hft' : t.ft = s.ft := not_not.1 fun he => by rcases hft he with rfl | rfl | ⟨a, n, c, rfl⟩ <;> cases hi
  have hcounter := (handlesAreNeverReusedNorNodesChanged i s t (isChained_of_cleanup hi).1 h).1
  rcases exec_cases h with ⟨hs', -⟩ | ⟨res, u, hu, rfl⟩ | ⟨r, u, hu, rfl⟩
  · rw [hf] at hs'; cases hs'
  · rcases rule_fault hu with hu | ⟨hu, -⟩
    · rw [completed_status, hu, hf] at hpending; cases hpending
    · rw [completed_status, hu] at hpending; cases hpending
  · obtain ⟨h1, h9⟩ := cause_code r.cause
    obtain ⟨handles, b, hab⟩ := aborted_of_raise hi hs hu
    have hrecords := takeFault_records (w0 := i.w0) (r := r) (after := afterRaise (commandClass i) s u) hf
    have hbb := abortCleanup_bb hi hu
    have hpq : PQueue.fresh u.cfg = ⟨[], s.cfg.pqMinCap, 0⟩ := by
      rw [cfg_of_fixed ((raise_chain (strict := False) hi False.elim hu).fixed.trans (startOf_fixed i s))]; rfl
    have hafter : afterRaise (commandClass i) s u = abortCleanup s u := by rw [hi]; rfl
    have hgone := hab.gone hs
    have hold := hab.old hs
    have horder : (abortCleanup s u).pqOrder = s.pqOrder ∨ (abortCleanup s u).pqOrder = .minFirst := by
      rw [abortCleanup_eq]; exact hab.pqOrder
    refine ⟨⟨r.cause.code, r.info0, r.info1, h1, h9, wordW0_encode i ▸ hrecords⟩, takeFault_res .., ?_⟩
    rw [hafter] at hin hmode' hinLen' hfound' hft' hcounter ⊢
    rw [takeFault_root, takeFault_cursor, takeFault_dpos, takeFault_dbit, takeFault_emitted, takeFault_symCount,
      takeFault_code, takeFault_symtab, takeFault_trie, takeFault_outLen, takeFault_pq, takeFault_bb, takeFault_nodes,
      takeFault_pqOrder]
    obtain ⟨hroot, hcursor, hdpos, hdbit, hemitted, hsyms, hcode, hsymtab, htrie, hqueue, hout⟩ := abortCleanup_registers s u
    exact ⟨hroot, hcursor, hdpos, hdbit, hemitted, hsyms, hcode, hsymtab, htrie, hout, hqueue.trans hpq, hbb, hold, hgone,
      hcounter, hft', hmode', hinLen', hin, hfound', horder⟩

end Sys2Proof.Machine
end

section
/-! PROOFS. HT.BUILD (spec/43_huffman_tree.md R201, R204, R208, R209): while it runs, the items of the queue are the roots of
trees over the leaves so far, each keyed by the weight of its tree. -/

namespace Sys2Proof.Machine

/-! ## The trees in the queue -/

theorem lookup_allocated {s : State} (h : s.NodesOk) (n : Node) {x : Word} {m : Node} (hx : mapFind x s.nodes = some m) :
    mapFind x (s.allocated n).nodes = some m := by
  rw [allocated_find, if_neg ?_, hx]
  rintro rfl
  rw [newHandle_dead h] at hx
  cases hx

theorem Weighs.mono {m m' : NodeMap} {counts : List (Word × Word)} {h : Word} {k : Nat} (hw : Weighs m counts h k)
    (hs : ∀ x n, mapFind x m = some n → mapFind x m' = some n) : Weighs m' counts h k := by
  induction hw with
  | leaf hf hc => exact .leaf (hs _ _ hf) hc
  | node hf _ _ hk iha ihb => exact .node (hs _ _ hf) iha ihb hk

/-- The items of the queue are the roots of trees whose leaves carry the given symbols; each item is keyed by the weight of its
tree, and the weights have the given sum. -/
structure State.Growing (counts : List (Word × Word)) (ids : List Word) (total : Nat) (s : State) : Prop where
  config : s.cfg.queueOk = true
  nodes : s.NodesOk
  queue : s.QueueOk
  roots : s.QueueRoots 0
  weighs : ∀ x ∈ s.pq.entries, Weighs s.nodes counts x.handle x.key.toNat
  sum : (s.pq.entries.map fun x => x.key.toNat).sum = total
  trees : ∃ τ : Word → Tree, (∀ x ∈ s.pq.entries, IsTree s.nodes x.handle (τ x.handle)) ∧
    (s.pq.entries.flatMap fun x => (τ x.handle).syms).Perm ids

section growing
variable {counts : List (Word × Word)} {ids : List Word} {total : Nat} {s : State}

theorem State.Growing.perm {ids' : List Word} (h : s.Growing counts ids total) (hp : ids.Perm ids') :
    s.Growing counts ids' total := by
  obtain ⟨τ, ht, hs⟩ := h.trees
  exact ⟨h.config, h.nodes, h.queue, h.roots, h.weighs, h.sum, τ, ht, hs.trans hp⟩

theorem sum_erase {α : Type} [DecidableEq α] {l : List α} {x : α} (h : x ∈ l) (f : α → Nat) :
    (l.map f).sum = f x + ((l.erase x).map f).sum := by
  rw [((List.perm_cons_erase h).map f).sum_eq, List.map_cons, List.sum_cons]

/-- An item leaves the queue with its tree. -/
theorem State.Growing.take (h : s.Growing counts ids total) {x : QItem} (hx : x ∈ s.pq.entries) :
    ∃ T ids' rest, IsTree s.nodes x.handle T ∧ (T.syms ++ ids').Perm ids ∧ x.key.toNat + rest = total ∧
      ({ s with pq := s.pq.take s.cfg x } : State).Growing counts ids' rest := by
  obtain ⟨τ, ht, hs⟩ := h.trees
  have hmem : ∀ {z : QItem}, z ∈ s.pq.entries.erase x → z ∈ s.pq.entries := List.mem_of_mem_erase
  refine ⟨τ x.handle, _, _, ht x hx, ?_, ?_, h.config, h.nodes.congr rfl rfl rfl rfl rfl, take_ok h.queue h.config rfl rfl,
    ⟨h.roots.distinct.sublist (List.erase_sublist.map _), fun z hz => h.roots.live z (hmem hz),
      fun z hz => h.roots.unowned z (hmem hz), fun _ _ => Nat.zero_le _⟩, fun z hz => h.weighs z (hmem hz), rfl,
    τ, fun z hz => ht z (hmem hz), List.Perm.refl _⟩
  · exact ((List.perm_cons_erase hx).flatMap_right _).symm.trans hs
  · exact (sum_erase hx fun z => z.key.toNat).symm.trans h.sum

/-- No other item of the queue names the handle of an item that has left it. -/
theorem handle_ne_of_erase (h : s.QueueRoots 0) {x z : QItem} (hx : x ∈ s.pq.entries) (hz : z ∈ s.pq.entries.erase x) :
    z.handle ≠ x.handle := by
  have hnd := ((List.perm_cons_erase hx).map QItem.handle).nodup_iff.1 h.distinct
  rw [List.map_cons, List.nodup_cons] at hnd
  exact fun he => hnd.1 (he ▸ List.mem_map_of_mem hz)

/-- A new node joins the queue with its tree. -/
theorem State.Growing.push (h : s.Growing counts ids total) (hroom : s.canAlloc = true)
    (hcap : ¬(s.pq.entries.length = s.pq.cap ∧ s.pq.cap = s.cfg.pqMaxCap)) {n : Node} (hn : Joinable s n)
    (hapart : ∀ c ∈ n.children, ∀ x ∈ s.pq.entries, x.handle ≠ c) {k : Word} {T : Tree}
    (hT : IsTree (s.allocated n).nodes s.newHandle T) (hk : Weighs (s.allocated n).nodes counts s.newHandle k.toNat) :
    ({ s.allocated n with pq := s.pq.push k s.newHandle } : State).Growing counts (ids ++ T.syms) (total + k.toNat) := by
  obtain ⟨τ, ht, hs⟩ := h.trees
  have hold : ∀ x m, mapFind x s.nodes = some m → mapFind x (s.allocated n).nodes = some m := fun x m =>
    lookup_allocated h.nodes n
  have hentries : (s.pq.push k s.newHandle).entries = s.pq.entries ++ [⟨k, s.pq.nextSeq, s.newHandle⟩] := rfl
  have hne : ∀ x ∈ s.pq.entries, x.handle ≠ s.newHandle := fun x hx he => by
    have := h.roots.live x hx
    rw [NodeMap.live, he, newHandle_dead h.nodes] at this
    cases this
  refine ⟨h.config, (allocated_ok h.nodes hroom hn.live hn.distinct hn.unowned).congr rfl rfl rfl rfl rfl,
    push_ok h.queue h.config hcap rfl rfl, h.roots.push h.nodes (Nat.zero_le _) hn.live hapart k, fun x hx => ?_, ?_,
    Function.update τ s.newHandle T, fun x hx => ?_, ?_⟩
  · rcases List.mem_append.1 hx with hx | hx
    · exact (h.weighs x hx).mono hold
    · rw [List.mem_singleton.1 hx]; exact hk
  · show ((s.pq.entries ++ [_]).map fun x : QItem => x.key.toNat).sum = _
    rw [List.map_append, List.sum_append, h.sum]
    simp
  · rcases List.mem_append.1 hx with hx | hx
    · rw [Function.update_of_ne (hne x hx)]
      exact (ht x hx).mono fun z m _ => hold z m
    · rw [List.mem_singleton.1 hx]
      rw [Function.update_self]
      exact hT
  · show ((s.pq.entries ++ [_]).flatMap _).Perm _
    rw [List.flatMap_append]
    refine List.Perm.append ?_ (by simp)
    have : (s.pq.entries.flatMap fun x => (Function.update τ s.newHandle T x.handle).syms) =
        s.pq.entries.flatMap fun x => (τ x.handle).syms :=
      List.flatMap_congr fun x hx => by rw [Function.update_of_ne (hne x hx)]
    rw [this]
    exact hs

theorem State.Growing.leaf (h : s.Growing counts ids total) (hroom : s.canAlloc = true)
    (hcap : ¬(s.pq.entries.length = s.pq.cap ∧ s.pq.cap = s.cfg.pqMaxCap)) {sym freq : Word} (hmem : (sym, freq) ∈ counts) :
    (s.queuedLeaf sym freq).Growing counts (ids ++ [sym]) (total + freq.toNat) := by
  have hfind : mapFind s.newHandle (s.allocated (.leaf sym freq)).nodes = some (.leaf sym freq) := by
    rw [allocated_find, if_pos rfl]
  exact h.push hroom hcap (joinable_leaf ..) (fun _ hc => absurd hc List.not_mem_nil) (.leaf hfind) (.leaf hfind hmem)

/-- The state after the two first items are joined. -/
def State.merged (x y : QItem) (s : State) : State :=
  { s.allocated (.internal x.handle y.handle (x.key + y.key)) with
    pq := (s.withoutItems x y).pq.push (x.key + y.key) s.newHandle }

theorem State.Growing.key_sum (h : s.Growing counts ids total) {x y : QItem} (hx : x ∈ s.pq.entries)
    (hy : y ∈ s.pq.entries.erase x) : x.key.toNat + y.key.toNat ≤ total := by
  obtain ⟨_, _, rest, -, -, hsum, hg⟩ := h.take hx
  obtain ⟨_, _, rest', -, -, hsum', -⟩ := hg.take hy
  omega

theorem State.Growing.merge (h : s.Growing counts ids total) {x y : QItem} (htop : topTwo s = some (x, y))
    (hsum : x.key.toNat + y.key.toNat < 2 ^ 32) (hroom : s.canAlloc = true) : (s.merged x y).Growing counts ids total := by
  have hx := queueTop_mem (topTwo_eq_some.1 htop).1
  have hy := queueTop_mem (topTwo_eq_some.1 htop).2
  obtain ⟨hj, -, -⟩ := h.roots.joinable htop
  obtain ⟨T, ids', rest, hT, hids, hrest, hg⟩ := h.take hx
  obtain ⟨U, ids'', rest', hU, hids', hrest', hg'⟩ := hg.take hy
  have hcap := withoutItems_room h.queue hx hy
  have hkey : (x.key + y.key).toNat = x.key.toNat + y.key.toNat := by rw [BitVec.toNat_add]; omega
  have hfind : mapFind s.newHandle (s.allocated (.internal x.handle y.handle (x.key + y.key))).nodes =
      some (.internal x.handle y.handle (x.key + y.key)) := by rw [allocated_find, if_pos rfl]
  have hold : ∀ z m, mapFind z s.nodes = some m →
      mapFind z (s.allocated (.internal x.handle y.handle (x.key + y.key))).nodes = some m := fun z m =>
    lookup_allocated h.nodes _
  have hwx := (h.weighs x hx).mono hold
  have hwy := (h.weighs y (List.mem_of_mem_erase hy)).mono hold
  have hpush := hg'.push (T := .node T U) (k := x.key + y.key) (n := .internal x.handle y.handle (x.key + y.key)) hroom
    (fun hfull => hcap.ne hfull.1) ⟨hj.live, hj.distinct, hj.unowned⟩ (fun c hc z hz => ?_)
    (.node hfind (hT.mono fun z m _ => hold z m) (hU.mono fun z m _ => hold z m)) (hkey ▸ .node hfind hwx hwy hkey)
  · have htotal : rest' + (x.key + y.key).toNat = total := by omega
    rw [htotal] at hpush
    refine hpush.perm (List.perm_append_comm.trans ?_)
    show ((T.syms ++ U.syms) ++ ids'').Perm ids
    rw [List.append_assoc]
    exact (hids'.append_left _).trans hids
  · have hz' : z ∈ (s.pq.entries.erase x).erase y := hz
    simp only [Node.children, List.mem_cons, List.not_mem_nil, or_false] at hc
    rcases hc with rfl | rfl
    · exact handle_ne_of_erase h.roots hx (List.mem_of_mem_erase hz')
    · exact handle_ne_of_erase hg.roots hy hz'

end growing

/-! ## Capacity, handles and counters -/

/-- How far the capacity exceeds what the queue needs: halving twice and doubling keep it so (41_priority_queue.md R160). -/
def SlackCap (c : Config) (size cap : Nat) : Prop := cap = c.pqMinCap ∨ cap ≤ 4 * size - 2

theorem slack_push {c : Config} {size cap : Nat} (h : SlackCap c size cap) :
    SlackCap c (size + 1) (if size = cap then 2 * cap else cap) := by
  unfold SlackCap at h ⊢
  split <;> omega

/-- Halving brings a capacity that is a doubling of the least to half, unless it is the least. -/
theorem shrinkCap_cases {c : Config} {size cap j : Nat} (hj : cap = c.pqMinCap * 2 ^ j) :
    (shrinkCap c size cap = cap ∧ (cap ≤ 4 * size ∨ cap < 2 * c.pqMinCap)) ∨
      (shrinkCap c size cap = cap / 2 ∧ 4 * size < cap ∧ ∃ i, cap / 2 = c.pqMinCap * 2 ^ i) := by
  unfold shrinkCap
  split
  · next h =>
    refine .inr ⟨rfl, h.1, ?_⟩
    cases j with
    | zero => simp at hj; omega
    | succ i => exact ⟨i, by rw [hj, pow_succ, ← Nat.mul_assoc]; omega⟩
  · exact .inl ⟨rfl, by omega⟩

theorem least_of_lt {c : Config} {cap j : Nat} (hj : cap = c.pqMinCap * 2 ^ j) (h : cap < 2 * c.pqMinCap) : cap = c.pqMinCap := by
  cases j with
  | zero => simpa using hj
  | succ i =>
    have : c.pqMinCap * 1 ≤ c.pqMinCap * 2 ^ i := Nat.mul_le_mul_left _ Nat.one_le_two_pow
    rw [pow_succ, ← Nat.mul_assoc] at hj
    omega

theorem slack_merge {c : Config} {size cap j : Nat} (hmin : 1 ≤ c.pqMinCap) (hj : cap = c.pqMinCap * 2 ^ j) (h2 : 2 ≤ size)
    (h : SlackCap c size cap) : SlackCap c (size - 1) (shrinkCap c (size - 2) (shrinkCap c (size - 1) cap)) := by
  unfold SlackCap at h ⊢
  rcases shrinkCap_cases (size := size - 1) hj with ⟨h1, hle⟩ | ⟨h1, hlt, i, hi⟩ <;> rw [h1]
  · rcases shrinkCap_cases (size := size - 2) hj with ⟨h3, hle'⟩ | ⟨h3, hlt', i, hi⟩ <;> rw [h3]
    · rcases hle' with h' | h'
      · omega
      · exact .inl (least_of_lt hj h')
    · rcases hle with h' | h'
      · omega
      · have := least_of_lt hj h'
        cases i with
        | zero => left; simpa using hi
        | succ i => exact .inl (least_of_lt hi (by omega))
  · rcases shrinkCap_cases (size := size - 2) hi with ⟨h3, hle'⟩ | ⟨h3, hlt', i', hi'⟩ <;> rw [h3]
    · rcases hle' with h' | h'
      · omega
      · exact .inl (least_of_lt hi h')
    · rcases h with h | h
      · rw [h] at hi
        exact .inl (least_of_lt hi' (by omega))
      · omega

/-- The last item leaves the least capacity. -/
theorem slack_last {c : Config} {cap j : Nat} (hmin : 1 ≤ c.pqMinCap) (hj : cap = c.pqMinCap * 2 ^ j) (h : SlackCap c 1 cap) :
    shrinkCap c 0 cap = c.pqMinCap := by
  have hle : c.pqMinCap * 1 ≤ c.pqMinCap * 2 ^ j := Nat.mul_le_mul_left _ Nat.one_le_two_pow
  unfold SlackCap at h
  rcases shrinkCap_cases (size := 0) hj with ⟨h1, h'⟩ | ⟨h1, hlt, i, hi⟩ <;> rw [h1]
  · exact least_of_lt hj (by omega)
  · exact least_of_lt hi (by omega)

/-- A state that a part of HT.BUILD comes to: it has allocated `k` nodes and inserted `k` items, and changed only these. -/
structure Built (k : Nat) (s u : State) : Prop where
  rest : u = { s with nodes := u.nodes, nextHandle := u.nextHandle, pq := u.pq }
  counter : u.nextHandle = s.nextHandle + k
  seq : u.pq.nextSeq = s.pq.nextSeq + k
  size : u.nodes.length = s.nodes.length + k

theorem Built.refl (s : State) : Built 0 s s := ⟨rfl, rfl, rfl, rfl⟩

theorem Built.trans {j k : Nat} {s u v : State} (h : Built j s u) (h' : Built k u v) : Built (j + k) s v where
  rest := h'.rest.trans (by rw [h.rest])
  counter := by rw [h'.counter, h.counter, Nat.add_assoc]
  seq := by rw [h'.seq, h.seq, Nat.add_assoc]
  size := by rw [h'.size, h.size, Nat.add_assoc]

theorem Built.cfg {k : Nat} {s u : State} (h : Built k s u) : u.cfg = s.cfg := by rw [h.rest]

theorem allocated_length {s : State} (h : s.NodesOk) (n : Node) : (s.allocated n).nodes.length = s.nodes.length + 1 := by
  rw [allocated_nodes_eq h, List.length_append, List.length_singleton]

theorem built_leaf {s : State} (h : s.NodesOk) (sym freq : Word) : Built 1 s (s.queuedLeaf sym freq) :=
  ⟨rfl, rfl, rfl, allocated_length h _⟩

theorem built_merge {s : State} (h : s.NodesOk) (x y : QItem) : Built 1 s (s.merged x y) :=
  ⟨rfl, rfl, rfl, allocated_length h _⟩

/-- There is room for so many nodes. -/
def State.Room (s : State) (k : Nat) : Prop := s.nodes.length + k ≤ s.cfg.nodeMax ∧ s.nextHandle + k ≤ 0xFFFFFFFF

theorem canAlloc_iff_room {s : State} : s.canAlloc = true ↔ s.Room 1 := by
  rw [canAlloc_iff]
  unfold State.Room
  omega

theorem Built.room {j : Nat} {s u : State} (h : Built j s u) {k : Nat} : u.Room k ↔ s.Room (j + k) := by
  unfold State.Room
  rw [h.cfg, h.size, h.counter, Nat.add_assoc, Nat.add_assoc]

theorem State.Room.le {s : State} {j k : Nat} (h : s.Room k) (hj : j ≤ k) : s.Room j := by
  unfold State.Room at h ⊢
  omega

/-! ## The leaves -/

theorem Ruling.bind_assoc {α β γ : Type} (x : Ruling α) (f : α → State → Ruling β) (g : β → State → Ruling γ) :
    (x.bind f).bind g = x.bind fun a s => (f a s).bind g := by
  cases x <;> rfl

section building
variable {counts : List (Word × Word)}

theorem buildLeaves_append (l m : List (Word × Word)) (s : State) :
    buildLeaves (l ++ m) s = (buildLeaves l s).bind fun _ u => buildLeaves m u := by
  induction l generalizing s with
  | nil => rfl
  | cons e l ih =>
    obtain ⟨sym, freq⟩ := e
    simp only [List.cons_append, buildLeaves, Ruling.bind_assoc, ih]

/-- One leaf, where there is room. -/
theorem buildLeaves_cons {s : State} (hroom : s.Room 1)
    (hcap : ¬(s.pq.entries.length = s.pq.cap ∧ s.pq.cap = s.cfg.pqMaxCap)) (e : Word × Word) (l : List (Word × Word)) :
    buildLeaves (e :: l) s = buildLeaves l (s.queuedLeaf e.1 e.2) := by
  rw [buildLeaves, alloc_of_room (canAlloc_iff_room.2 hroom), bind_ok,
    pqInsert_of_room (s := s.allocated (.leaf e.1 e.2)) hcap, bind_ok]
  rfl

/-- The leaves of HT.BUILD where there is room for them. -/
theorem buildLeaves_of_room {l : List (Word × Word)} {ids : List Word} {total : Nat} {s : State}
    (h : s.Growing counts ids total) (hs : SlackCap s.cfg s.pq.entries.length s.pq.cap) (hl : ∀ e ∈ l, e ∈ counts)
    (hroom : s.Room l.length) (hq : s.pq.entries.length + l.length ≤ s.cfg.pqMaxCap) :
    ∃ u, buildLeaves l s = .ok () u ∧ Built l.length s u ∧ u.pq.entries.length = s.pq.entries.length + l.length ∧
      u.Growing counts (ids ++ l.map Prod.fst) (total + (l.map fun e => e.2.toNat).sum) ∧
      SlackCap u.cfg u.pq.entries.length u.pq.cap := by
  induction l generalizing s ids total with
  | nil => exact ⟨s, rfl, .refl s, rfl, by simpa using h, hs⟩
  | cons e l ih =>
    obtain ⟨sym, freq⟩ := e
    rw [List.length_cons] at hroom hq
    have hone : s.canAlloc = true := canAlloc_iff_room.2 (hroom.le (by omega))
    have hcap : ¬(s.pq.entries.length = s.pq.cap ∧ s.pq.cap = s.cfg.pqMaxCap) := by omega
    have hb := built_leaf h.nodes sym freq
    have hlen : (s.queuedLeaf sym freq).pq.entries.length = s.pq.entries.length + 1 := push_length ..
    have hstep := buildLeaves_cons (hroom.le (by omega)) hcap (sym, freq) l
    obtain ⟨u, hu, hbu, hlenu, hg, hsu⟩ := ih (h.leaf hone hcap (hl _ (List.mem_cons_self ..)))
      (hlen ▸ slack_push hs) (fun e he => hl e (List.mem_cons_of_mem _ he))
      (hb.room.2 (by rwa [Nat.add_comm])) (by rw [hlen, hb.cfg]; omega)
    refine ⟨u, hstep.trans hu, ?_, by rw [hlenu, hlen, List.length_cons]; omega, ?_, hsu⟩
    · rw [List.length_cons, Nat.add_comm]; exact hb.trans hbu
    · simpa [Nat.add_assoc] using hg

theorem buildLeaves_of_full_store {s : State} (h : ¬s.Room 1) (e : Word × Word) (l : List (Word × Word)) :
    buildLeaves (e :: l) s = .raise (allocFail 3 s.nodes.length) s := by
  rw [buildLeaves, alloc, need_neg (mt canAlloc_iff_room.1 h), bind_raise]

theorem buildLeaves_of_full_queue {s : State} (h : s.Room 1) (hq : s.QueueOk) (hfull : s.pq.entries.length = s.cfg.pqMaxCap)
    (e : Word × Word) (l : List (Word × Word)) :
    buildLeaves (e :: l) s = .raise (allocFail 2 s.cfg.pqMaxCap) (s.allocated (.leaf e.1 e.2)) := by
  have hcap : s.pq.entries.length = s.pq.cap ∧ s.pq.cap = s.cfg.pqMaxCap := by
    have := hq.fits; have := hq.most; omega
  rw [buildLeaves, alloc_of_room (canAlloc_iff_room.2 h), bind_ok, pqInsert_of_full (s := s.allocated (.leaf e.1 e.2)) hcap,
    bind_raise]
  exact congrArg (fun n => Ruling.raise (allocFail 2 n) _) hfull

/-! ## The merges -/

/-- Two items at least have a top and a second. -/
theorem State.QueueOk.topTwo {s : State} (h : s.QueueOk) (h2 : 2 ≤ s.pq.entries.length) : ∃ x y, topTwo s = some (x, y) := by
  obtain ⟨x, -, hx⟩ := h.top (List.ne_nil_of_length_pos (by omega))
  obtain ⟨y, hy⟩ := second_top h hx.1 h2
  exact ⟨x, y, topTwo_of_tops hx hy⟩

theorem merged_length {s : State} {x y : QItem} (h : topTwo s = some (x, y)) :
    (s.merged x y).pq.entries.length = s.pq.entries.length - 1 := by
  have hx := List.length_erase_of_mem (queueTop_mem (topTwo_eq_some.1 h).1)
  have hy := List.length_erase_of_mem (queueTop_mem (topTwo_eq_some.1 h).2)
  have hpos := List.length_pos_of_mem (queueTop_mem (topTwo_eq_some.1 h).2)
  show (((s.pq.entries.erase x).erase y) ++ [_]).length = _
  rw [List.length_append, List.length_singleton]
  omega

theorem merged_slack {s : State} (h : s.QueueOk) {x y : QItem} (htop : topTwo s = some (x, y))
    (hs : SlackCap s.cfg s.pq.entries.length s.pq.cap) :
    SlackCap (s.merged x y).cfg (s.merged x y).pq.entries.length (s.merged x y).pq.cap := by
  have hx := queueTop_mem (topTwo_eq_some.1 htop).1
  have hy := queueTop_mem (topTwo_eq_some.1 htop).2
  have hlen := List.length_erase_of_mem hx
  have hpos := List.length_pos_of_mem hy
  obtain ⟨j, hj⟩ := h.doubling
  have hcap : (s.merged x y).pq.cap =
      shrinkCap s.cfg (s.pq.entries.length - 2) (shrinkCap s.cfg (s.pq.entries.length - 1) s.pq.cap) := by
    have hroom := withoutItems_room h hx hy
    show (if _ then _ else (s.withoutItems x y).pq.cap) = _
    rw [if_neg hroom.ne, withoutItems_pq hx hy]
  rw [merged_length htop, hcap]
  exact slack_merge (h.minCap_pos (by omega)) hj (by omega) hs

theorem buildMerges_of_few {s : State} (h : s.pq.entries.length ≤ 1) (fuel : Nat) : buildMerges fuel s = .ok () s := by
  cases fuel with
  | zero => rfl
  | succ fuel => exact if_pos h

/-- One merge, where the sum fits and there is room. -/
theorem buildMerges_succ {s : State} (h : s.QueueOk) {x y : QItem} (htop : topTwo s = some (x, y))
    (hsum : x.key.toNat + y.key.toNat < 2 ^ 32) (hroom : s.Room 1) (fuel : Nat) :
    buildMerges (fuel + 1) s = buildMerges fuel (s.merged x y) := by
  have hle : ¬s.pq.entries.length ≤ 1 := fun hle => by
    rw [topTwo_eq_none (by omega)] at htop
    cases htop
  rw [buildMerges, if_neg hle, mergeStep_of_room h htop hsum (canAlloc_iff_room.2 hroom), bind_ok]
  rfl

/-- A sum of weights that does not fit a word is the sum of two keys at least. -/
theorem State.Growing.two_le {ids : List Word} {total : Nat} {s : State} (h : s.Growing counts ids total)
    (htotal : 2 ^ 32 ≤ total) : 2 ≤ s.pq.entries.length := by
  have hsum := h.sum
  match he : s.pq.entries with
  | [] => simp [he] at hsum; omega
  | [x] => simp [he] at hsum; omega
  | x :: y :: rest => simp

section merges
variable {fuel : Nat} {ids : List Word} {total : Nat} {s : State} (h : s.Growing counts ids total)
  (hfuel : s.pq.entries.length ≤ fuel + 1)
include h hfuel

/-- The merges of HT.BUILD where the weights fit a word and there is room for the nodes. -/
theorem buildMerges_of_room (hs : SlackCap s.cfg s.pq.entries.length s.pq.cap) (htotal : total < 2 ^ 32)
    (hroom : s.Room (s.pq.entries.length - 1)) :
    ∃ u, buildMerges fuel s = .ok () u ∧ Built (s.pq.entries.length - 1) s u ∧
      u.pq.entries.length = min 1 s.pq.entries.length ∧ u.Growing counts ids total ∧
      SlackCap u.cfg u.pq.entries.length u.pq.cap := by
  induction fuel generalizing s with
  | zero =>
    have h0 : s.pq.entries.length - 1 = 0 := by omega
    exact ⟨s, rfl, h0 ▸ .refl s, by omega, h, hs⟩
  | succ fuel ih =>
    by_cases hle : s.pq.entries.length ≤ 1
    · have h0 : s.pq.entries.length - 1 = 0 := by omega
      exact ⟨s, buildMerges_of_few hle _, h0 ▸ .refl s, by omega, h, hs⟩
    · obtain ⟨x, y, htop⟩ := h.queue.topTwo (by omega)
      have hsum := h.key_sum (queueTop_mem (topTwo_eq_some.1 htop).1) (queueTop_mem (topTwo_eq_some.1 htop).2)
      have hone : s.Room 1 := hroom.le (by omega)
      have hlen := merged_length htop
      have hb := built_merge h.nodes x y
      obtain ⟨u, hu, hbu, hlenu, hg, hsu⟩ := ih (h.merge htop (by omega) (canAlloc_iff_room.2 hone)) (by omega)
        (merged_slack h.queue htop hs) (hb.room.2 (hroom.le (by omega)))
      refine ⟨u, (buildMerges_succ h.queue htop (by omega) hone fuel).trans hu, ?_, by omega, hg, hsu⟩
      have := hb.trans hbu
      rwa [show 1 + ((s.merged x y).pq.entries.length - 1) = s.pq.entries.length - 1 by omega] at this

/-- The merges of HT.BUILD where the weights fit a word and a node finds no room. -/
theorem buildMerges_of_full_store (htotal : total < 2 ^ 32) {j : Nat} (hj : j < s.pq.entries.length - 1) (hroom : s.Room j)
    (hfull : ¬s.Room (j + 1)) : ∃ u, buildMerges fuel s = .raise (allocFail 3 (s.nodes.length + j)) u := by
  induction fuel generalizing s j with
  | zero => omega
  | succ fuel ih =>
    obtain ⟨x, y, htop⟩ := h.queue.topTwo (by omega)
    have hsum := h.key_sum (queueTop_mem (topTwo_eq_some.1 htop).1) (queueTop_mem (topTwo_eq_some.1 htop).2)
    cases j with
    | zero =>
      refine ⟨s, ?_⟩
      rw [buildMerges, if_neg (by omega), mergeStep_of_topTwo htop, need_pos (by omega),
        need_neg (mt canAlloc_iff_room.1 hfull), bind_raise]
      rfl
    | succ j =>
      have hone : s.Room 1 := hroom.le (by omega)
      have hlen := merged_length htop
      have hb := built_merge h.nodes x y
      obtain ⟨u, hu⟩ := ih (h.merge htop (by omega) (canAlloc_iff_room.2 hone)) (by omega) (j := j) (by omega)
        (hb.room.2 (by rwa [Nat.add_comm])) (fun hr => hfull (by rw [Nat.add_comm]; exact hb.room.1 hr))
      rw [hb.size, Nat.add_assoc, Nat.add_comm 1 j] at hu
      exact ⟨u, (buildMerges_succ h.queue htop (by omega) hone fuel).trans hu⟩

/-- The merges of HT.BUILD where there is room and the weights do not fit a word: some sum does not. -/
theorem buildMerges_of_overflow (htotal : 2 ^ 32 ≤ total) (hroom : s.Room (s.pq.entries.length - 1)) :
    ∃ addend u, buildMerges fuel s = .raise (allocFail 6 addend) u := by
  have h2 := h.two_le htotal
  induction fuel generalizing s with
  | zero => omega
  | succ fuel ih =>
    obtain ⟨x, y, htop⟩ := h.queue.topTwo h2
    by_cases hsum : x.key.toNat + y.key.toNat < 2 ^ 32
    · have hone : s.Room 1 := hroom.le (by omega)
      have hlen := merged_length htop
      have hb := built_merge h.nodes x y
      rw [buildMerges_succ h.queue htop hsum hone]
      exact ih (h.merge htop hsum (canAlloc_iff_room.2 hone)) (by omega) (hb.room.2 (hroom.le (by omega)))
        ((h.merge htop hsum (canAlloc_iff_room.2 hone)).two_le htotal)
    · exact ⟨x.key.toNat, s, by rw [buildMerges, if_neg (by omega), mergeStep_of_topTwo htop, need_neg hsum, bind_raise]⟩

end merges

end building

/-! ## HT.BUILD as a whole -/

/-- The symbols of the table with their counts (R201). -/
def State.leafCounts (s : State) : List (Word × Word) := (symbolIds s.mode (s.ft.map Prod.fst)).zip (s.ft.map Prod.snd)

theorem symbolIds_length (m : Mode) (keys : List Bytes) : (symbolIds m keys).length = keys.length := by
  cases m <;> simp [symbolIds]

@[simp] theorem leafCounts_length (s : State) : s.leafCounts.length = s.ft.length := by
  simp [State.leafCounts, symbolIds_length]

theorem leafCounts_ids (s : State) : s.leafCounts.map Prod.fst = symbolIds s.mode (s.ft.map Prod.fst) :=
  List.map_fst_zip (by simp [symbolIds_length])

theorem leafCounts_total (s : State) : (s.leafCounts.map fun e => e.2.toNat).sum = (s.ft.map fun e => e.2.toNat).sum := by
  have : s.leafCounts.map Prod.snd = s.ft.map Prod.snd := List.map_snd_zip (by simp [symbolIds_length])
  have h := congrArg (List.map BitVec.toNat) this
  simpa [Function.comp_def] using congrArg List.sum h

/-- An empty queue holds no trees. -/
theorem growing_nil {s : State} (hc : s.cfg.wellFormed = true) (hn : s.NodesOk) (hq : s.QueueOk) (hnil : s.pq.entries = [])
    (counts : List (Word × Word)) : s.Growing counts [] 0 :=
  ⟨queueOk_of_wellFormed hc, hn, hq, by constructor <;> simp [hnil], by simp [hnil], by simp [hnil], fun _ => .leaf 0,
    by simp [hnil], by simp [hnil]⟩

/-- A build starts from a fresh queue. -/
theorem growing_fresh {s : State} (hc : s.cfg.wellFormed = true) (hn : s.NodesOk) (hq : s.pq = PQueue.fresh s.cfg)
    (counts : List (Word × Word)) : s.Growing counts [] 0 ∧ SlackCap s.cfg s.pq.entries.length s.pq.cap :=
  ⟨growing_nil hc hn (fresh_ok (queueOk_of_wellFormed hc) hq) (by rw [hq]; rfl) counts, .inl (by rw [hq]; rfl)⟩

theorem buildTree_eq (s : State) : buildTree s = (buildLeaves s.leafCounts s).bind fun _ u =>
    (buildMerges u.pq.entries.length u).bind fun _ v => (pqExtract v).bind fun t w =>
    .ok ⟨t.handle, word s.ft.length, 0, 0⟩ ({ w with root := t.handle }.setEmpty false) := rfl

/-- The last item of the queue becomes ROOT. -/
theorem extract_last {counts : List (Word × Word)} {ids : List Word} {total : Nat} {v : State}
    (hg : v.Growing counts ids total) (hs : SlackCap v.cfg v.pq.entries.length v.pq.cap) (hlen : v.pq.entries.length = 1) :
    ∃ x T, pqExtract v = .ok x { v with pq := ⟨[], v.cfg.pqMinCap, v.pq.nextSeq⟩ } ∧ IsTree v.nodes x.handle T ∧
      T.syms.Perm ids ∧ Weighs v.nodes counts x.handle total := by
  obtain ⟨x, hx⟩ := List.length_eq_one_iff.1 hlen
  have hmem : x ∈ v.pq.entries := by simp [hx]
  obtain ⟨τ, ht, hp⟩ := hg.trees
  have hsum := hg.sum
  have hw := hg.weighs x hmem
  simp only [hx, List.map_cons, List.map_nil, List.sum_cons, List.sum_nil, Nat.add_zero, List.flatMap_cons,
    List.flatMap_nil, List.append_nil] at hsum hp
  have htop : QueueTop v.pqOrder v.pq.entries x := ⟨hmem, fun y hy hne => by simp [hx] at hy; exact absurd hy hne⟩
  have hmin : 1 ≤ v.cfg.pqMinCap := by
    have := hg.config
    simp only [Config.queueOk, decide_eq_true_eq] at this
    exact this.1
  obtain ⟨j, hj⟩ := hg.queue.doubling
  refine ⟨x, τ x.handle, ?_, ht x hmem, hp, hsum ▸ hw⟩
  rw [pqExtract_of_isTop htop, take_of_mem hmem, hlen, slack_last hmin hj (hlen ▸ hs), hx]
  simp

section build
variable {s : State} (hc : s.cfg.wellFormed = true) (hn : s.NodesOk) (hempty : s.pq = PQueue.fresh s.cfg)
include hc hn hempty

/-- The leaves of the whole table. -/
theorem buildLeaves_of_table (hq : s.ft.length ≤ s.cfg.pqMaxCap) (hroom : s.Room s.ft.length) :
    ∃ u, buildLeaves s.leafCounts s = .ok () u ∧ Built s.ft.length s u ∧ u.pq.entries.length = s.ft.length ∧
      u.Growing s.leafCounts (symbolIds s.mode (s.ft.map Prod.fst)) (s.ft.map fun e => e.2.toNat).sum ∧
      SlackCap u.cfg u.pq.entries.length u.pq.cap := by
  obtain ⟨hg, hs⟩ := growing_fresh hc hn hempty s.leafCounts
  have h0 : s.pq.entries.length = 0 := by rw [hempty]; rfl
  obtain ⟨u, hu, hb, hlen, hgu, hsu⟩ := buildLeaves_of_room (l := s.leafCounts) hg hs (fun _ => id)
    (by rwa [leafCounts_length]) (by rw [leafCounts_length, h0]; omega)
  rw [List.nil_append, leafCounts_ids, leafCounts_total, Nat.zero_add] at hgu
  rw [leafCounts_length] at hb hlen
  exact ⟨u, hu, hb, by omega, hgu, hsu⟩

/-- HT.BUILD with room for everything (R204, R209). -/
theorem buildTree_of_room (hne : s.ft ≠ []) (hq : s.ft.length ≤ s.cfg.pqMaxCap) (hroom : s.Room (2 * s.ft.length - 1))
    (htotal : (s.ft.map fun e => e.2.toNat).sum < 2 ^ 32) : ∃ t T, buildTree s = .ok ⟨t.root, word s.ft.length, 0, 0⟩ t ∧
      IsTree t.nodes t.root T ∧ T.syms.Perm (symbolIds s.mode (s.ft.map Prod.fst)) ∧
      Weighs t.nodes s.leafCounts t.root (s.ft.map fun e => e.2.toNat).sum ∧
      t = { s with
        nodes := t.nodes
        nextHandle := s.nextHandle + (2 * s.ft.length - 1)
        root := t.root
        pq := ⟨[], s.cfg.pqMinCap, 2 * s.ft.length - 1⟩
        status := { s.status with empty := false } } := by
  have hpos : 1 ≤ s.ft.length := List.length_pos_of_ne_nil hne
  obtain ⟨u, hu, hb, hlen, hg, hs⟩ := buildLeaves_of_table hc hn hempty hq (hroom.le (by omega))
  obtain ⟨v, hv, hb', hlen', hg', hs'⟩ := buildMerges_of_room (fuel := u.pq.entries.length) hg (by omega) hs htotal
    (hb.room.2 (hroom.le (by omega)))
  obtain ⟨x, T, hx, ht, hp, hw⟩ := extract_last hg' hs' (by omega)
  have hbv := hb.trans hb'
  have hcount : s.ft.length + (u.pq.entries.length - 1) = 2 * s.ft.length - 1 := by omega
  rw [hcount] at hbv
  refine ⟨{ { v with pq := ⟨[], v.cfg.pqMinCap, v.pq.nextSeq⟩ } with root := x.handle }.setEmpty false, T,
    (buildTree_eq s).trans ?_, ht, hp, hw, ?_⟩
  · rw [hu, bind_ok, hv, bind_ok, hx, bind_ok]
    rfl
  · have hseq : v.pq.nextSeq = 2 * s.ft.length - 1 := by rw [hbv.seq, hempty]; exact Nat.zero_add _
    rw [← hbv.counter, ← hseq]
    conv_lhs => rw [hbv.rest]
    rfl

/-- HT.BUILD where the k-th node finds no room (R209). -/
theorem buildTree_of_full_store {k : Nat} (hk : k < 2 * s.ft.length - 1) (hleaf : k < s.ft.length → k ≤ s.cfg.pqMaxCap)
    (hmerge : s.ft.length ≤ k → s.ft.length ≤ s.cfg.pqMaxCap ∧ (s.ft.map fun e => e.2.toNat).sum < 2 ^ 32)
    (hroom : s.Room k) (hfull : ¬s.Room (k + 1)) :
    ∃ u, buildTree s = .raise (allocFail 3 (s.nodes.length + k)) u := by
  by_cases hlt : k < s.ft.length
  · obtain ⟨hg, hs⟩ := growing_fresh hc hn hempty s.leafCounts
    have h0 : s.pq.entries.length = 0 := by rw [hempty]; rfl
    have htake : (s.leafCounts.take k).length = k := by rw [List.length_take, leafCounts_length]; omega
    have hlt' : k < s.leafCounts.length := by rwa [leafCounts_length]
    obtain ⟨u, hu, hb, -⟩ := buildLeaves_of_room (l := s.leafCounts.take k) hg hs (fun _ => List.mem_of_mem_take)
      (htake.symm ▸ hroom) (by have := hleaf hlt; omega)
    rw [htake] at hb
    have hraise := buildLeaves_of_full_store (mt hb.room.1 hfull) s.leafCounts[k] (s.leafCounts.drop (k + 1))
    rw [← List.drop_eq_getElem_cons hlt', hb.size] at hraise
    refine ⟨u, ?_⟩
    rw [buildTree_eq, ← List.take_append_drop k s.leafCounts, buildLeaves_append, hu, bind_ok, hraise, bind_raise]
  · obtain ⟨hq, htotal⟩ := hmerge (by omega)
    obtain ⟨u, hu, hb, hlen, hg, -⟩ := buildLeaves_of_table hc hn hempty hq (hroom.le (by omega))
    obtain ⟨v, hv⟩ := buildMerges_of_full_store (fuel := u.pq.entries.length) hg (by omega) htotal
      (j := k - s.ft.length) (by omega) (hb.room.2 (hroom.le (by omega)))
      fun hr => hfull ((hb.room.1 hr).le (by omega))
    refine ⟨v, ?_⟩
    rw [buildTree_eq, hu, bind_ok, hv, bind_raise, hb.size, show s.nodes.length + s.ft.length + (k - s.ft.length) =
      s.nodes.length + k by omega]

/-- HT.BUILD where a leaf finds the queue full (R209). -/
theorem buildTree_of_full_queue (hq : s.cfg.pqMaxCap < s.ft.length) (hroom : s.Room (s.cfg.pqMaxCap + 1)) :
    ∃ u, buildTree s = .raise (allocFail 2 s.cfg.pqMaxCap) u := by
  obtain ⟨hg, hs⟩ := growing_fresh hc hn hempty s.leafCounts
  have h0 : s.pq.entries.length = 0 := by rw [hempty]; rfl
  have htake : (s.leafCounts.take s.cfg.pqMaxCap).length = s.cfg.pqMaxCap := by
    rw [List.length_take, leafCounts_length]; omega
  have hlt : s.cfg.pqMaxCap < s.leafCounts.length := by rwa [leafCounts_length]
  obtain ⟨u, hu, hb, hlen, hgu, -⟩ := buildLeaves_of_room (l := s.leafCounts.take s.cfg.pqMaxCap) hg hs
    (fun _ => List.mem_of_mem_take) (htake.symm ▸ hroom.le (by omega)) (by omega)
  rw [htake] at hb hlen
  have hraise := buildLeaves_of_full_queue (hb.room.2 hroom) hgu.queue (by rw [hlen, hb.cfg]; omega)
    s.leafCounts[s.cfg.pqMaxCap] (s.leafCounts.drop (s.cfg.pqMaxCap + 1))
  rw [← List.drop_eq_getElem_cons hlt, hb.cfg] at hraise
  obtain ⟨w, hw⟩ : ∃ w, buildLeaves (s.leafCounts.drop s.cfg.pqMaxCap) u = .raise (allocFail 2 s.cfg.pqMaxCap) w := ⟨_, hraise⟩
  refine ⟨w, ?_⟩
  rw [buildTree_eq, ← List.take_append_drop s.cfg.pqMaxCap s.leafCounts, buildLeaves_append, hu, bind_ok, hw, bind_raise]

/-- HT.BUILD where the counts do not fit a word (R209). -/
theorem buildTree_of_overflow (hq : s.ft.length ≤ s.cfg.pqMaxCap) (hroom : s.Room (2 * s.ft.length - 1))
    (htotal : 2 ^ 32 ≤ (s.ft.map fun e => e.2.toNat).sum) : ∃ addend u, buildTree s = .raise (allocFail 6 addend) u := by
  have hle : s.ft.length ≤ 2 * s.ft.length - 1 := by
    cases hft : s.ft with
    | nil => simp
    | cons e l => simp; omega
  obtain ⟨u, hu, hb, hlen, hg, -⟩ := buildLeaves_of_table hc hn hempty hq (hroom.le hle)
  obtain ⟨addend, v, hv⟩ := buildMerges_of_overflow (fuel := u.pq.entries.length) hg (by omega) htotal
    (hb.room.2 (hroom.le (by omega)))
  exact ⟨addend, v, by rw [buildTree_eq, hu, bind_ok, hv, bind_raise]⟩

end build

/-! ## What HT.BUILD releases -/

/-- HT.BUILD frees what the queue and ROOT reached (R204 step 1). -/
theorem buildRelease_freed {s : State} (h : s.NodesOk) : s.Freed (s.queuedHandles ++ [s.root]) (buildRelease s) ∧
    s.FreedRegister (s.queuedHandles ++ [s.root]) s.cursor (buildRelease s).cursor ∧
    s.LeftAfterFreeing (s.queuedHandles ++ [s.root]) (buildRelease s).nodes := by
  have hhandles : (s.pq.entries ++ [(⟨0, 0, s.root⟩ : QItem)]).map QItem.handle = s.queuedHandles ++ [s.root] := by
    rw [List.map_append]; rfl
  have hfreed := freeItems_freed h (s.pq.entries ++ [⟨0, 0, s.root⟩])
  have hregister := (freeItems_register h (s.pq.entries ++ [⟨0, 0, s.root⟩])).2
  rw [hhandles, ← freeAll_eq h.null] at hfreed hregister
  rw [buildRelease_eq]
  refine ⟨State.Freed.congr hfreed rfl, hregister, ?_⟩
  exact freeAll_left h.unrooted

/-- A chain that frees nothing keeps what a release has freed and left. -/
theorem State.Freed.chain {handles : List Word} {s b t : State} (h : s.Freed handles b) (hs : s.NodesOk)
    (hc : b.nextHandle = s.nextHandle) {p : Permit} (hp : ¬p.free) (ht : Chain p b t) : s.Freed handles t := by
  refine ⟨fun x hx => ?_, fun x hx hr => (ht.nodes_kept hp (hc ▸ hx)).trans (h.kept x hx hr)⟩
  obtain ⟨y, hy, hr⟩ := hx
  obtain ⟨n, hn⟩ := Option.isSome_iff_exists.1 hr.target_live
  exact (ht.nodes_kept hp (hc ▸ hs.lt hn)).trans (h.gone x ⟨y, hy, hr⟩)

theorem keyed_eq (s : State) : s.keyed = { s with symtab := if s.mode = .word then s.ft.map Prod.fst else s.symtab } := by
  unfold State.keyed
  split <;> rfl

/-- What the building starts from. -/
theorem start_eq (s : State) : (buildRelease s).keyed =
    { s with
      nodes := (buildRelease s).nodes
      root := nullHandle
      cursor := (buildRelease s).cursor
      pq := ⟨[], s.cfg.pqMinCap, 0⟩
      pqOrder := .minFirst
      code := []
      symtab := if s.mode = .word then s.ft.map Prod.fst else [] } := by
  rw [keyed_eq, buildRelease_eq]

/-- Settles O35: the release, the check of the keys, then the building of the tree from an empty queue. -/
theorem htBuildBuildsTheTreeOfTheTable : Obligations.HtBuildBuildsTheTreeOfTheTable := by
  intro s base hf hc hn ht keys counts n total released legal fits hbase
  obtain ⟨hfreed, hcursor, hleft⟩ := buildRelease_freed hn
  have hlegal : legal ↔ s.LegalKeys := Iff.rfl
  have hlen : (buildRelease s).keyed.nodes.length = base.length := by
    rw [start_eq]; exact hleft.length_eq hn hbase
  have hstart : (buildRelease s).keyed.NodesOk := by
    rw [keyed_eq]; exact (buildRelease_nodesOk hn).congr rfl rfl rfl rfl rfl
  have hcfg : (buildRelease s).keyed.cfg = s.cfg := by rw [start_eq]
  have hft : (buildRelease s).keyed.ft = s.ft := by rw [start_eq]
  have hpq : (buildRelease s).keyed.pq = PQueue.fresh (buildRelease s).keyed.cfg := by rw [start_eq]; rfl
  have hroom : ∀ k, (buildRelease s).keyed.Room k ↔ base.length + k ≤ s.cfg.nodeMax ∧ s.nextHandle + k ≤ 0xFFFFFFFF := by
    intro k
    unfold State.Room
    rw [hlen, start_eq]
  have hwf : (buildRelease s).keyed.cfg.wellFormed = true := hcfg ▸ hc
  refine ⟨fun h => ?_, fun h => ?_, fun hl k hk hleaf hmerge hnodes hhandles hfull => ?_, fun hl hq hnodes hhandles => ?_,
    fun hl hq hfit hsum => ?_, fun hne hl hq hfit hsum => ?_⟩
  · exact exec_of_cleanup_raise .illegalCommand rfl hf (ruleHtBuild_of_illegal (mt hlegal.2 h))
  · have hrule := ruleHtBuild_of_legal (s := s) fun _ k hk => by simp [h] at hk
    rw [if_pos h] at hrule
    refine ⟨_, exec_of_ok hf hrule, State.Freed.congr hfreed ?_, ?_, ?_⟩
    · rw [start_eq]; rfl
    · rw [start_eq]; exact hcursor
    · rw [start_eq]; simp [h, State.setEmpty, State.answered, nullHandle]
  all_goals have hrule := ruleHtBuild_of_legal (hlegal.1 hl)
  · rw [if_neg (List.ne_nil_of_length_pos (by omega))] at hrule
    obtain ⟨u, hu⟩ := buildTree_of_full_store hwf hstart hpq (k := k) (by rwa [hft]) (by rwa [hft, hcfg]) (by rwa [hft, hcfg])
      ((hroom k).2 ⟨hnodes, hhandles⟩) (by rw [hroom]; omega)
    rw [hlen] at hu
    exact exec_of_cleanup_raise .allocationFailure rfl hf (hrule.trans hu)
  · rw [if_neg (List.ne_nil_of_length_pos (by omega))] at hrule
    obtain ⟨u, hu⟩ := buildTree_of_full_queue hwf hstart hpq (by rwa [hft, hcfg]) (by rw [hroom, hcfg]; omega)
    rw [hcfg] at hu
    exact exec_of_cleanup_raise .allocationFailure rfl hf (hrule.trans hu)
  · obtain ⟨addend, u, hu⟩ := buildTree_of_overflow hwf hstart hpq (by rwa [hft, hcfg]) (by rwa [hft, hroom])
      (by rwa [hft])
    rw [if_neg (fun h => by simp [total, h] at hsum)] at hrule
    obtain ⟨t, ht, hfault⟩ := exec_of_cleanup_raise (i := .htBuild) .allocationFailure rfl hf (hrule.trans hu)
    exact ⟨t, word addend, ht, hfault⟩
  · rw [if_neg hne] at hrule
    obtain ⟨t, T, ht, hT, hperm, hweigh, heq⟩ := buildTree_of_room hwf hstart hpq (by rwa [hft]) (by rwa [hft, hcfg])
      (by rwa [hft, hroom]) (by rwa [hft])
    have hchain := (ruleHtBuild_chain (p := { empty := True }) trivial trivial trivial (s := s) False.elim
      (Nat.zero_le _)).of_ok (hrule.trans ht)
    have hcur : t.cursor = (buildRelease s).cursor := by rw [heq, start_eq]
    refine ⟨_, T, exec_of_ok hf (hrule.trans ht), State.Freed.congr (hfreed.chain hn (by simp) id hchain) rfl, hcur ▸ hcursor,
      hT, ?_, ?_, ?_⟩
    · rw [start_eq] at hperm; exact hperm
    · rw [start_eq] at hweigh; exact hweigh
    · rw [hft]
      refine congrArg (State.answered ⟨t.root, word n, 0, 0⟩) (heq.trans ?_)
      rw [State.answered, hcur, start_eq]

end Sys2Proof.Machine
end

section
/-! PROOFS. HT.BUILD against the commands that build a tree step by step (spec/43_huffman_tree.md R209 (3)): the two queues hold
the same items, inserted at numbers that differ by a constant. -/

namespace Sys2Proof.Machine

/-! ## Items inserted later -/

/-- The same item, inserted later. -/
def QItem.later (d : Nat) (x : QItem) : QItem := { x with seq := x.seq + d }

theorem later_injective (d : Nat) : Function.Injective (QItem.later d) := by
  rintro ⟨k, n, h⟩ ⟨k', n', h'⟩ he
  simp only [QItem.later, QItem.mk.injEq] at he ⊢
  exact ⟨he.1, by omega, he.2.2⟩

theorem before_later (o : PqOrder) (d : Nat) (x y : QItem) : (x.later d).before o (y.later d) = x.before o y := by
  simp [QItem.before, QItem.later]

theorem queueTop_later (o : PqOrder) (d : Nat) (items : List QItem) :
    queueTop o (items.map (QItem.later d)) = (queueTop o items).map (QItem.later d) := by
  induction items with
  | nil => rfl
  | cons x rest ih =>
    simp only [List.map_cons, queueTop, ih]
    cases queueTop o rest with
    | none => rfl
    | some y =>
      simp only [Option.map_some, before_later]
      split <;> rfl

/-- Two engines that build the same tree: the same nodes, and `n` items in each queue, the same but for their numbers. -/
structure Mirror (counts : List (Word × Word)) (n : Nat) (u v : State) : Prop where
  nodes : v.nodes = u.nodes
  counter : v.nextHandle = u.nextHandle
  cfg : v.cfg = u.cfg
  order : u.pqOrder = .minFirst ∧ v.pqOrder = .minFirst
  items : ∃ d, v.pq.entries = u.pq.entries.map (QItem.later d) ∧ v.pq.nextSeq = u.pq.nextSeq + d
  length : u.pq.entries.length = n
  fault : v.status.fault = false
  grown : ∃ ids total, u.Growing counts ids total
  grown' : ∃ ids total, v.Growing counts ids total

theorem Mirror.length' {counts : List (Word × Word)} {n : Nat} {u v : State} (h : Mirror counts n u v) : v.pq.entries.length = n := by
  obtain ⟨d, hd, -⟩ := h.items
  rw [hd, List.length_map, h.length]

theorem Mirror.room {counts : List (Word × Word)} {n : Nat} {u v : State} (h : Mirror counts n u v) {k : Nat} : v.Room k ↔ u.Room k := by
  unfold State.Room
  rw [h.nodes, h.counter, h.cfg]

theorem Mirror.newHandle {counts : List (Word × Word)} {n : Nat} {u v : State} (h : Mirror counts n u v) : v.newHandle = u.newHandle := congrArg word h.counter

theorem Mirror.allocated {counts : List (Word × Word)} {n : Nat} {u v : State} (h : Mirror counts n u v) (m : Node) : (v.allocated m).nodes = (u.allocated m).nodes := by
  rw [State.allocated, State.allocated, h.newHandle, h.nodes]

theorem topTwo_later {u v : State} {d : Nat} (ho : v.pqOrder = u.pqOrder) (hd : v.pq.entries = u.pq.entries.map (QItem.later d))
    {x y : QItem} (h : topTwo u = some (x, y)) : topTwo v = some (x.later d, y.later d) := by
  obtain ⟨hx, hy⟩ := topTwo_eq_some.1 h
  refine topTwo_eq_some.2 ⟨?_, ?_⟩
  · rw [State.top, ho, hd, queueTop_later, show queueTop u.pqOrder u.pq.entries = some x from hx]
    rfl
  · rw [ho, hd, ← List.map_erase (later_injective d), queueTop_later, hy]
    rfl

/-! ## Commands that follow a rule -/

/-- The fault that a rule raised is recorded. -/
def Recorded (r : Raise) (w : State) : Prop :=
  w.status.fault = true ∧ w.err = r.cause.code.setWidth 32 ∧ w.errInfo0 = r.info0 ∧ w.errInfo1 = r.info1

/-- The commands come to what the rule comes to: its result, in a related state, or its fault, recorded. -/
def Follows {α : Type} (P : State → State → Prop) (x : Ruling α) (commands : List Instr) (v : State) : Prop :=
  match x with
  | .ok _ u => ∃ w, execAll commands v = some w ∧ P u w
  | .raise r _ => ∃ w, execAll commands v = some w ∧ Recorded r w

theorem execAll_append (l m : List Instr) (v : State) : execAll (l ++ m) v = (execAll l v).bind (execAll m) := by
  induction l generalizing v with
  | nil => rfl
  | cons i l ih =>
    obtain ⟨t, ht⟩ := exec_next i v
    simp only [List.cons_append, execAll, ht, ih]

theorem execAll_singleton {i : Instr} {v t : State} (h : exec i v = .next t) : execAll [i] v = some t := by
  rw [execAll, h]
  rfl

/-- A pending fault stays recorded while the commands are ignored. -/
theorem Recorded.ignored {r : Raise} {l : List Instr} (hl : ∀ i ∈ l, passesFilter i.fields.opcode = false) {w : State}
    (h : Recorded r w) : ∃ w', execAll l w = some w' ∧ Recorded r w' := by
  induction l generalizing w with
  | nil => exact ⟨w, rfl, h⟩
  | cons i l ih =>
    have hstep : exec i w = .next w.ignored :=
      (exec_eq_runRule i w).trans (runRule_ignored h.1 (hl i (List.mem_cons_self ..)))
    obtain ⟨w', hw', hr⟩ := ih (fun j hj => hl j (List.mem_cons_of_mem _ hj)) (w := w.ignored) h
    exact ⟨w', by rw [execAll, hstep]; exact hw', hr⟩

/-- One rule after another, and their commands one after another. -/
theorem Follows.bind {α β : Type} {P Q : State → State → Prop} {x : Ruling α} {k : α → State → Ruling β} {l m : List Instr}
    {v : State} (hx : Follows P x l v) (hm : ∀ i ∈ m, passesFilter i.fields.opcode = false)
    (hk : ∀ a u w, x = .ok a u → P u w → Follows Q (k a u) m w) : Follows Q (x.bind k) (l ++ m) v := by
  have hall : ∀ {w : State}, execAll l v = some w → execAll (l ++ m) v = execAll m w := fun hw => by
    rw [execAll_append, hw, Option.bind_some]
  cases x with
  | ok a u =>
    obtain ⟨w, hw, hp⟩ := hx
    have := hk a u w rfl hp
    unfold Follows at this ⊢
    rw [bind_ok]
    cases hres : k a u <;> rw [hres] at this <;> simpa only [hall hw] using this
  | raise r u =>
    obtain ⟨w, hw, hr⟩ := hx
    obtain ⟨w', hw', hr'⟩ := hr.ignored hm
    exact ⟨w', (hall hw).trans hw', hr'⟩

/-- One command whose rule comes to the same. -/
theorem follows_ok {α : Type} {P : State → State → Prop} {i : Instr} {a : α} {u v w : State} {res : Results}
    (hf : v.status.fault = false) (h : ruleOf i v = .ok res w) (hp : P u (w.answered res)) :
    Follows P (.ok a u) [i] v := ⟨_, execAll_singleton (exec_of_ok hf h), hp⟩

theorem follows_raise {α : Type} {P : State → State → Prop} {i : Instr} {u v w : State} {r : Raise}
    (hf : v.status.fault = false) (h : ruleOf i v = .raise r w) : Follows P (.raise r u : Ruling α) [i] v := by
  refine ⟨_, execAll_singleton ((exec_eq_runRule i v).trans (runRule_raise hf h)), ?_⟩
  rw [takeFault_faulted hf]
  exact ⟨rfl, rfl, rfl, rfl⟩

/-! ## The steps of HT.BUILD -/

theorem State.Growing.answered {counts : List (Word × Word)} {ids : List Word} {total : Nat} {s : State} (res : Results)
    (h : s.Growing counts ids total) : (s.answered res).Growing counts ids total :=
  ⟨h.config, h.nodes.congr rfl rfl rfl rfl rfl, h.queue.congr rfl rfl, ⟨h.roots.distinct, h.roots.live, h.roots.unowned,
    h.roots.new⟩, h.weighs, h.sum, h.trees⟩

theorem Mirror.queuedLeaf {counts : List (Word × Word)} {n : Nat} {u v : State} (h : Mirror counts n u v) {e : Word × Word}
    (he : e ∈ counts) (hroom : u.Room 1) (hq : n < u.cfg.pqMaxCap) (res : Results) :
    Mirror counts (n + 1) (u.queuedLeaf e.1 e.2) ((v.queuedLeaf e.1 e.2).answered res) := by
  obtain ⟨d, hd, hseq⟩ := h.items
  obtain ⟨ids, total, hg⟩ := h.grown
  obtain ⟨ids', total', hg'⟩ := h.grown'
  have hlen := h.length
  have hlen' := h.length'
  have hcfg := congrArg Config.pqMaxCap h.cfg
  refine ⟨h.allocated _, congrArg (· + 1) h.counter, h.cfg, h.order, ⟨d, ?_, ?_⟩, ?_, h.fault,
    ⟨_, _, hg.leaf (canAlloc_iff_room.2 hroom) (by omega) he⟩,
    ⟨_, _, (hg'.leaf (canAlloc_iff_room.2 (h.room.2 hroom)) (by omega) he).answered res⟩⟩
  · show v.pq.entries ++ [⟨e.2, v.pq.nextSeq, v.newHandle⟩] =
      List.map (QItem.later d) (u.pq.entries ++ [⟨e.2, u.pq.nextSeq, u.newHandle⟩])
    rw [hd, hseq, h.newHandle, List.map_append]
    rfl
  · show v.pq.nextSeq + 1 = u.pq.nextSeq + 1 + d
    omega
  · rw [← hlen]
    exact push_length ..

/-- HT.LEAF does what HT.BUILD does with a leaf (R205, R209). -/
theorem leaf_follows {counts : List (Word × Word)} {n : Nat} {u v : State} (h : Mirror counts n u v) {e : Word × Word}
    (he : e ∈ counts) (hfreq : e.2 ≠ 0) :
    Follows (Mirror counts (n + 1)) (buildLeaves [e] u) [.htLeaf e.1 e.2] v := by
  obtain ⟨ids, total, hg⟩ := h.grown
  have hfits := hg.queue.fits
  have hmost := hg.queue.most
  have hlen := h.length
  have hrule : ruleOf (.htLeaf e.1 e.2) v = ruleHtLeaf e.1 e.2 v := rfl
  by_cases hroom : u.Room 1
  · have hroomv := canAlloc_iff_room.2 (h.room.2 hroom)
    by_cases hq : n < u.cfg.pqMaxCap
    · rw [buildLeaves_cons hroom (by omega)]
      rw [ruleHtLeaf_of_room hfreq hroomv (by rw [h.length', h.cfg]; exact hq)] at hrule
      exact follows_ok h.fault hrule (h.queuedLeaf he hroom hq _)
    · rw [buildLeaves_of_full_queue hroom hg.queue (by omega)]
      refine follows_raise (w := v) h.fault (hrule.trans ?_)
      rw [ruleHtLeaf, need_pos (one_le_toNat.2 hfreq), need_pos hroomv, need_neg (by rw [h.length', h.cfg]; exact hq),
        h.length', show n = u.cfg.pqMaxCap by omega]
  · rw [buildLeaves_of_full_store hroom]
    refine follows_raise (w := v) h.fault (hrule.trans ?_)
    rw [ruleHtLeaf, need_pos (one_le_toNat.2 hfreq), need_neg (mt canAlloc_iff_room.1 (mt h.room.1 hroom)), h.nodes]

theorem leaves_follow {counts : List (Word × Word)} {l : List (Word × Word)} (hl : ∀ e ∈ l, e ∈ counts ∧ e.2 ≠ 0) {n : Nat}
    {u v : State} (h : Mirror counts n u v) : Follows (Mirror counts (n + l.length)) (buildLeaves l u)
      (l.map fun e => Instr.htLeaf e.1 e.2) v := by
  induction l generalizing n u v with
  | nil => exact ⟨v, rfl, h⟩
  | cons e l ih =>
    obtain ⟨he, hfreq⟩ := hl e (List.mem_cons_self ..)
    have hsplit := buildLeaves_append [e] l u
    rw [List.singleton_append] at hsplit
    rw [hsplit, List.length_cons, Nat.add_comm l.length, ← Nat.add_assoc]
    refine Follows.bind (l := [.htLeaf e.1 e.2]) (leaf_follows h he hfreq) (fun i hi => ?_) fun _ u' w _ hm =>
      ih (fun e he => hl e (List.mem_cons_of_mem _ he)) hm
    obtain ⟨e', -, rfl⟩ := List.mem_map.1 hi
    rfl

/-! ## The merges -/

theorem Mirror.merged {counts : List (Word × Word)} {n : Nat} {u v : State} (h : Mirror counts n u v) {x y : QItem} {d : Nat}
    (hd : v.pq.entries = u.pq.entries.map (QItem.later d)) (hseq : v.pq.nextSeq = u.pq.nextSeq + d)
    (htop : topTwo u = some (x, y)) (hsum : x.key.toNat + y.key.toNat < 2 ^ 32) (hroom : u.Room 1) (res : Results) :
    Mirror counts (n - 1) (u.merged x y) ((v.merged (x.later d) (y.later d)).answered res) := by
  obtain ⟨ids, total, hg⟩ := h.grown
  obtain ⟨ids', total', hg'⟩ := h.grown'
  have htop' := topTwo_later (h.order.2.trans h.order.1.symm) hd htop
  refine ⟨h.allocated _, congrArg (· + 1) h.counter, h.cfg, h.order, ⟨d, ?_, ?_⟩, ?_, h.fault,
    ⟨_, _, hg.merge htop hsum (canAlloc_iff_room.2 hroom)⟩,
    ⟨_, _, (hg'.merge htop' hsum (canAlloc_iff_room.2 (h.room.2 hroom))).answered res⟩⟩
  · show (v.pq.entries.erase (x.later d)).erase (y.later d) ++ [⟨x.key + y.key, v.pq.nextSeq, v.newHandle⟩] =
      List.map (QItem.later d) ((u.pq.entries.erase x).erase y ++ [⟨x.key + y.key, u.pq.nextSeq, u.newHandle⟩])
    rw [hd, hseq, h.newHandle, List.map_append, List.map_erase (later_injective d), List.map_erase (later_injective d)]
    rfl
  · show v.pq.nextSeq + 1 = u.pq.nextSeq + 1 + d
    omega
  · rw [merged_length htop, h.length]

theorem mergeable_of_joinable {s : State} {l r f : Word} (h : Joinable s (.internal l r f)) : mergeable s.nodes l r = true := by
  have hl : l ∈ (Node.internal l r f).children := List.mem_cons_self ..
  have hr : r ∈ (Node.internal l r f).children := List.mem_cons_of_mem _ (List.mem_cons_self ..)
  have hne : l ≠ r := by simpa [Node.children] using h.distinct
  simp [mergeable, h.live l hl, h.live r hr, h.unowned l hl, h.unowned r hr, hne]

/-- HT.MERGE does what HT.BUILD does with two items (R203, R209). -/
theorem merge_follows {counts : List (Word × Word)} {n : Nat} {u v : State} (h : Mirror counts n u v) (h2 : 2 ≤ n) :
    Follows (Mirror counts (n - 1)) (mergeStep u) [.htMerge] v := by
  obtain ⟨ids, total, hg⟩ := h.grown
  obtain ⟨ids', total', hg'⟩ := h.grown'
  obtain ⟨d, hd, hseq⟩ := h.items
  obtain ⟨x, y, htop⟩ := hg.queue.topTwo (h.length ▸ h2)
  have htop' := topTwo_later (h.order.2.trans h.order.1.symm) hd htop
  obtain ⟨hj, -, -⟩ := hg'.roots.joinable htop'
  have hmerge := mergeable_of_joinable hj
  have hrule : ruleOf .htMerge v = (mergeStep v).bind fun x s => .ok ⟨x.1, x.2, 0, 0⟩ s := by
    rw [ruleOf, ruleHtMerge, need_pos h.order.2, htop']
    exact need_pos hmerge _ _ _
  by_cases hsum : x.key.toNat + y.key.toNat < 2 ^ 32
  · have hsum' : (x.later d).key.toNat + (y.later d).key.toNat < 2 ^ 32 := hsum
    by_cases hroom : u.Room 1
    · rw [mergeStep_of_room hg.queue htop hsum (canAlloc_iff_room.2 hroom)]
      rw [mergeStep_of_room hg'.queue htop' hsum' (canAlloc_iff_room.2 (h.room.2 hroom)), bind_ok] at hrule
      exact follows_ok h.fault hrule (h.merged hd hseq htop hsum hroom _)
    · rw [mergeStep_of_topTwo htop, need_pos hsum, need_neg (mt canAlloc_iff_room.1 hroom)]
      rw [mergeStep_of_topTwo htop', need_pos hsum', need_neg (mt canAlloc_iff_room.1 (mt h.room.1 hroom)), bind_raise,
        h.nodes] at hrule
      exact follows_raise h.fault hrule
  · have hsum' : ¬(x.later d).key.toNat + (y.later d).key.toNat < 2 ^ 32 := hsum
    rw [mergeStep_of_topTwo htop, need_neg hsum]
    rw [mergeStep_of_topTwo htop', need_neg hsum', bind_raise] at hrule
    exact follows_raise h.fault hrule

theorem merges_follow {counts : List (Word × Word)} {fuel n : Nat} {u v : State} (h : Mirror counts (n + 1) u v)
    (hfuel : n ≤ fuel) : Follows (Mirror counts 1) (buildMerges fuel u) (List.replicate n .htMerge) v := by
  induction n generalizing fuel u v with
  | zero =>
    rw [buildMerges_of_few h.length.le]
    exact ⟨v, rfl, h⟩
  | succ n ih =>
    obtain ⟨fuel, rfl⟩ := Nat.exists_eq_add_of_lt hfuel
    rw [show n + fuel + 1 = (n + fuel) + 1 from rfl, buildMerges, if_neg (by rw [h.length]; omega), List.replicate_succ]
    refine Follows.bind (l := [.htMerge]) (merge_follows h (by omega)) (fun i hi => ?_) fun _ u' w _ hm => ih hm (by omega)
    rw [List.eq_of_mem_replicate hi]
    rfl

/-! ## HT.BUILD -/

/-- The engine that ran the commands has the tree that HT.BUILD has made ROOT. -/
def SameTree (u w : State) : Prop :=
  w.status.fault = false ∧ w.nodes = u.nodes ∧ w.nextHandle = u.nextHandle ∧ w.res.r0 = u.root ∧ w.pq.entries = []

theorem extract_follows {counts : List (Word × Word)} {u v : State} (h : Mirror counts 1 u v) (n : Nat) :
    Follows SameTree ((pqExtract u).bind fun t w =>
      (.ok ⟨t.handle, word n, 0, 0⟩ ({ w with root := t.handle }.setEmpty false) : Ruling Results)) [.pqExtract] v := by
  obtain ⟨d, hd, -⟩ := h.items
  obtain ⟨x, hx⟩ := List.length_eq_one_iff.1 h.length
  have htop : u.top = some x := by rw [State.top, hx]; rfl
  have htop' : v.top = some (x.later d) := by rw [State.top, hd, hx]; rfl
  have hu : pqExtract u = .ok x { u with pq := u.pq.take u.cfg x } := by rw [pqExtract, htop]
  have hv : ruleOf .pqExtract v = .ok ⟨x.handle, x.key, word (v.pq.take v.cfg (x.later d)).entries.length, 0⟩
      { v with pq := v.pq.take v.cfg (x.later d) } := by
    show (pqExtract v).bind _ = _
    rw [pqExtract, htop']
    rfl
  rw [hu, bind_ok]
  refine follows_ok h.fault hv ⟨h.fault, h.nodes, h.counter, rfl, ?_⟩
  show v.pq.entries.erase (x.later d) = []
  rw [hd, hx]
  simp

theorem buildTree_follows {u v : State} (h : Mirror u.leafCounts 0 u v) (hl : ∀ e ∈ u.leafCounts, e.2 ≠ 0)
    (hpos : 1 ≤ u.ft.length) : Follows SameTree (buildTree u)
      (u.leafCounts.map (fun e => Instr.htLeaf e.1 e.2) ++ (List.replicate (u.ft.length - 1) .htMerge ++ [.pqExtract])) v := by
  have hleaves := leaves_follow (fun e he => ⟨he, hl e he⟩) h
  rw [leafCounts_length, Nat.zero_add] at hleaves
  rw [buildTree_eq]
  refine hleaves.bind (fun i hi => ?_) fun _ u' w _ hm => ?_
  · rcases List.mem_append.1 hi with hi | hi
    · rw [List.eq_of_mem_replicate hi]; rfl
    · rw [List.mem_singleton.1 hi]; rfl
  · obtain ⟨n, hn⟩ : ∃ n, u.ft.length = n + 1 := ⟨_, (Nat.sub_add_cancel hpos).symm⟩
    rw [hn] at hm ⊢
    refine (merges_follow (fuel := u'.pq.entries.length) hm (by rw [hm.length]; omega)).bind (fun i hi => ?_)
      fun _ u'' w' _ hm' => extract_follows hm' _
    rw [List.mem_singleton.1 hi]
    rfl

/-- Settles O36: leaf by leaf and merge by merge the commands come to what HT.BUILD comes to. -/
theorem htBuildIsLeavesMergesAndExtract : Obligations.HtBuildIsLeavesMergesAndExtract := by
  intro s t hinv hf hnil horder hroot hne h leaves commands
  have hfree : (freeItems s.pq.entries s) = s := by rw [hnil]; rfl
  have hnodes : (buildRelease s).keyed.nodes = s.nodes := by
    rw [start_eq, buildRelease_eq, hfree, hroot]
    show (freeTree nullHandle s).nodes = s.nodes
    rw [freeTree_null hinv.nodes]
  have hstart : (buildRelease s).keyed.NodesOk := by
    rw [keyed_eq]; exact (buildRelease_nodesOk hinv.nodes).congr rfl rfl rfl rfl rfl
  have hcounts : (buildRelease s).keyed.leafCounts = s.leafCounts := by rw [start_eq]; rfl
  have hpos : 1 ≤ s.ft.length := List.length_pos_of_ne_nil hne
  have hmirror : Mirror s.leafCounts 0 (buildRelease s).keyed s := by
    have hcfg : (buildRelease s).keyed.cfg = s.cfg := by rw [start_eq]
    have hpq : (buildRelease s).keyed.pq = PQueue.fresh (buildRelease s).keyed.cfg := by rw [start_eq]; rfl
    refine ⟨hnodes.symm, by rw [start_eq], hcfg.symm, ⟨by rw [start_eq], horder⟩, ⟨s.pq.nextSeq, ?_, ?_⟩, by rw [hpq]; rfl, hf,
      ⟨_, _, (growing_fresh (hcfg ▸ hinv.config) hstart hpq _).1⟩, ⟨_, _, growing_nil hinv.config hinv.nodes hinv.queue hnil _⟩⟩
    · rw [hpq, hnil]; rfl
    · rw [hpq]; exact (Nat.zero_add _).symm
  have hentries : ∀ e ∈ s.leafCounts, e ∈ s.leafCounts ∧ e.2 ≠ 0 := fun e he => by
    obtain ⟨x, hx, hx2⟩ := List.mem_map.1 (List.of_mem_zip he).2
    exact ⟨he, hx2 ▸ (hinv.tables.ftEntries x hx).2⟩
  have hstartft : (buildRelease s).keyed.ft = s.ft := by rw [start_eq]
  have hbuild := buildTree_follows (hcounts.symm ▸ hmirror) (hcounts.symm ▸ fun e he => (hentries e he).2)
    (hstartft.symm ▸ hpos)
  rw [hcounts, hstartft, ← List.append_assoc] at hbuild
  rcases exec_cases h with ⟨hs, -⟩ | ⟨res, u, hu, rfl⟩ | ⟨r, u, hu, rfl⟩
  · rw [hf] at hs; cases hs
  · have herr : u.err = 0 := by
      have hc := (rule_chain (strict := False) (i := .htBuild) ⟨by simp, by simp, by simp⟩ False.elim).of_ok hu
      exact (err_of_fixed (hc.fixed.trans (startOf_fixed _ s))).trans (hinv.faults.errZero.2 hf)
    refine ⟨fun _ => ?_, fun h7 => absurd (herr.symm.trans h7) (by decide)⟩
    have hlegal : s.LegalKeys := by
      by_contra hill
      exact absurd (hu.symm.trans (ruleHtBuild_of_illegal hill)) (by simp)
    have hrule := ruleHtBuild_of_legal hlegal
    rw [if_neg hne] at hrule
    rw [← hrule, show ruleHtBuild s = _ from hu] at hbuild
    obtain ⟨w, hw, hfault, hwn, hwh, hwr, hwq⟩ := hbuild
    exact ⟨w, hw, hfault, hwn, hwh, hwr, hwq⟩
  · have hrecord := takeFault_records (w0 := Instr.htBuild.w0) (r := r) (after := afterRaise (commandClass .htBuild) s u) hf
    refine ⟨fun hclear => absurd (hrecord.flag.symm.trans hclear) (by decide), fun h7 => ?_⟩
    have hlegal : s.LegalKeys := by
      by_contra hill
      cases hu.symm.trans (ruleHtBuild_of_illegal hill)
      rw [hrecord.err] at h7
      exact absurd h7 (by decide)
    have hrule := ruleHtBuild_of_legal hlegal
    rw [if_neg hne] at hrule
    rw [← hrule, show ruleHtBuild s = _ from hu] at hbuild
    obtain ⟨w, hw, hfault, hwe, hw0, hw1⟩ := hbuild
    exact ⟨w, hw, hfault, hwe.trans (hrecord.err.symm.trans h7), hw0.trans hrecord.info0.symm, hw1.trans hrecord.info1.symm⟩

end Sys2Proof.Machine
end

section
/-! PROOFS. The reader of serialized trees (spec/44_tree_serialization.md R221, R222): what it does on the bits of a tree, on the
first tokens of one, and on anything. -/

namespace Sys2Proof.Machine

/-! ## Tokens -/

/-- The tokens of a tree (30_encoding.md R113). -/
def Tree.tokens : Tree → List TreeToken
  | .leaf sym => [.leaf sym]
  | .node l r => .inner :: (l.tokens ++ r.tokens)

theorem Tree.tokens_bits (m : Mode) (T : Tree) : T.tokens.flatMap (TreeToken.bits m) = T.ser m := by
  induction T with
  | leaf sym => simp [Tree.tokens, Tree.ser]
  | node l r ihl ihr => simp [Tree.tokens, Tree.ser, ihl, ihr]

theorem Tree.tokens_length (T : Tree) : T.tokens.length = T.size := by
  induction T with
  | leaf sym => rfl
  | node l r ihl ihr => simp [Tree.tokens, Tree.size, ihl, ihr]

theorem Tree.mem_tokens {T : Tree} {sym : Word} : .leaf sym ∈ T.tokens ↔ sym ∈ T.syms := by
  induction T with
  | leaf x => simp [Tree.tokens, Tree.syms]
  | node l r ihl ihr => simp [Tree.tokens, Tree.syms, ihl, ihr]

theorem Tree.tokens_leafCount (T : Tree) : 2 * leafCount T.tokens = T.size + 1 := by
  induction T with
  | leaf x => rfl
  | node l r ihl ihr => simp only [Tree.tokens, leafCount_inner, leafCount_append, Tree.size]; omega

/-- A tree is not complete before its last token, and then by one leaf. -/
theorem Tree.tokens_take (T : Tree) (k : Nat) : 2 * leafCount (T.tokens.take k) ≤ k + 1 := by
  induction T generalizing k with
  | leaf x => cases k <;> simp [Tree.tokens]
  | node l r ihl ihr =>
    cases k with
    | zero => simp
    | succ k =>
      have h1 := ihl k
      have h2 := ihr (k - l.size)
      have h3 := l.tokens_leafCount
      simp only [Tree.tokens, List.take_succ_cons, leafCount_inner, List.take_append, leafCount_append, l.tokens_length]
      by_cases hk : k ≤ l.size
      · rw [Nat.sub_eq_zero_of_le hk, List.take_zero, leafCount_nil]; omega
      · rw [List.take_of_length_le (by rw [l.tokens_length]; omega)]; omega

/-- The tokens of a tree of which some part at the right is missing: nothing, or an internal node with a part of its left
child, or with the left child and a part of the right one. -/
inductive OpenTokens : List TreeToken → Prop where
  | nil : OpenTokens []
  | left {toks : List TreeToken} : OpenTokens toks → OpenTokens (.inner :: toks)
  | right (T : Tree) {toks : List TreeToken} : OpenTokens toks → OpenTokens (.inner :: (T.tokens ++ toks))

/-- Tokens start with those of a tree, or are some of a tree's. -/
theorem tokens_cases (toks : List TreeToken) : (∃ (T : Tree) (rest : List TreeToken), toks = T.tokens ++ rest) ∨ OpenTokens toks := by
  induction h : toks.length using Nat.strong_induction_on generalizing toks with
  | _ n ih =>
    match toks with
    | [] => exact .inr .nil
    | .leaf x :: rest => exact .inl ⟨.leaf x, rest, rfl⟩
    | .inner :: rest =>
      rcases ih rest.length (by simp at h; omega) rest rfl with ⟨T, rest', rfl⟩ | ho
      · rcases ih rest'.length (by simp at h; omega) rest' rfl with ⟨U, rest'', rfl⟩ | ho
        · exact .inl ⟨.node T U, rest'', by simp [Tree.tokens]⟩
        · exact .inr (.right T ho)
      · exact .inr (.left ho)

theorem treeOpen_of_openTokens {toks : List TreeToken} (h : OpenTokens toks) : treeOpen toks = true := by
  rw [treeOpen_iff]
  suffices hs : ∀ k, 2 * leafCount (toks.take k) ≤ k from fun k _ => hs k
  induction h with
  | nil => simp
  | @left toks _ ih =>
    intro k
    cases k with
    | zero => simp
    | succ k => have := ih k; simp only [List.take_succ_cons, leafCount_inner]; omega
  | @right T toks _ ih =>
    intro k
    cases k with
    | zero => simp
    | succ k =>
      have h1 := T.tokens_take k
      have h2 := ih (k - T.size)
      have h3 := T.tokens_leafCount
      simp only [List.take_succ_cons, leafCount_inner, List.take_append, leafCount_append, T.tokens_length]
      by_cases hk : k ≤ T.size
      · rw [Nat.sub_eq_zero_of_le hk, List.take_zero, leafCount_nil]; omega
      · rw [List.take_of_length_le (by rw [T.tokens_length]; omega)]; omega

theorem not_treeOpen_tokens (T : Tree) (rest : List TreeToken) : treeOpen (T.tokens ++ rest) = false := by
  rw [Bool.eq_false_iff]
  intro h
  have := (treeOpen_iff _).1 h T.tokens.length (by simp)
  rw [List.take_left, T.tokens_length] at this
  have := T.tokens_leafCount
  omega

theorem openTokens_of_treeOpen {toks : List TreeToken} (h : treeOpen toks = true) : OpenTokens toks := by
  refine (tokens_cases toks).resolve_left ?_
  rintro ⟨T, rest, rfl⟩
  rw [not_treeOpen_tokens] at h
  cases h

theorem openNodes_cons (t : TreeToken) (toks : List TreeToken) :
    openNodes (t :: toks) = (if treeOpen (t :: toks) then 1 else 0) + openNodes toks := by
  simp only [openNodes, List.length_cons, List.range_succ_eq_map, List.filter_cons, List.filter_map, List.drop_zero]
  have : (fun j => treeOpen ((t :: toks).drop j)) ∘ Nat.succ = fun j => treeOpen (toks.drop j) := rfl
  rw [this]
  split
  · simp; omega
  · simp

/-- A complete tree has no open nodes. -/
theorem openNodes_tokens (T : Tree) (toks : List TreeToken) : openNodes (T.tokens ++ toks) = openNodes toks := by
  induction T generalizing toks with
  | leaf x =>
    have := not_treeOpen_tokens (.leaf x) toks
    simp only [Tree.tokens, List.singleton_append] at this ⊢
    rw [openNodes_cons, this]
    simp
  | node l r ihl ihr =>
    have := not_treeOpen_tokens (.node l r) toks
    simp only [Tree.tokens, List.cons_append, List.append_assoc] at this ⊢
    rw [openNodes_cons, this, ihl, ihr]
    simp

theorem openNodes_left {toks : List TreeToken} (h : OpenTokens toks) : openNodes (.inner :: toks) = openNodes toks + 1 := by
  rw [openNodes_cons, treeOpen_of_openTokens (.left h)]
  simp [Nat.add_comm]

theorem openNodes_right (T : Tree) {toks : List TreeToken} (h : OpenTokens toks) :
    openNodes (.inner :: (T.tokens ++ toks)) = openNodes toks + 1 := by
  rw [openNodes_cons, treeOpen_of_openTokens (.right T h), openNodes_tokens]
  simp [Nat.add_comm]

/-! ## Reading one token -/

theorem natOfBits_symBits {m : Mode} {symtab : List Bytes} {sym : Word} (h : symbolFits m symtab sym) :
    natOfBits (symBits m sym) = sym.toNat := by
  refine natOfBits_bitsLSB_of_lt ?_
  cases m with
  | char => exact Nat.lt_succ_of_le h
  | word => exact sym.isLt

theorem symBits_natOfBits {m : Mode} {payload : Bits} (h : payload.length = symWidth m) :
    symBits m (word (natOfBits payload)) = payload := by
  have hlt := natOfBits_lt payload
  have hle : payload.length ≤ 32 := by rw [h]; cases m <;> decide
  have hword : (word (natOfBits payload)).toNat = natOfBits payload :=
    Nat.mod_eq_of_lt (hlt.trans_le (Nat.pow_le_pow_right Nat.zero_lt_two hle))
  refine List.ext_getElem (by rw [symBits_length, h]) fun i h1 h2 => ?_
  have hbit : (symBits m (word (natOfBits payload)))[i] = (word (natOfBits payload)).toNat.testBit i :=
    bitsLSB_getElem _ _ _ h1
  rw [hbit, hword, natOfBits_testBit, List.getD_eq_getElem?_getD, List.getElem?_eq_getElem h2]
  rfl

section parse
variable {a b : Nat}

theorem parseTree_of_full {s : State} {d : Nat} (h : ¬s.nodes.length + d < s.cfg.nodeMax) (fuel : Nat) (bits : Bits) (i : Nat) :
    parseTree a b (fuel + 1) bits i d s = .raise (allocFail 3 s.nodes.length) s := by
  unfold parseTree
  rw [need_neg h]

section room
variable {s : State} {d : Nat} (h : s.nodes.length + d < s.cfg.nodeMax)
include h

theorem parseTree_inner (fuel : Nat) (rest : Bits) (i : Nat) : parseTree a b (fuel + 1) (false :: rest) i d s =
    (parseTree a b fuel rest (i + 1) (d + 1) s).bind fun l s => (parseTree a b fuel l.2.2 l.2.1 (d + 1) s).bind fun r s =>
      (alloc (.internal l.1 r.1 0) s).bind fun h s => .ok (h, r.2.1, r.2.2) s := by
  rw [parseTree, need_pos h]

theorem parseTree_leaf {sym : Word} (hsym : symbolFits s.mode s.symtab sym) (fuel : Nat) (rest : Bits) (i : Nat) :
    parseTree a b (fuel + 1) ((TreeToken.leaf sym).bits s.mode ++ rest) i d s =
      (alloc (.leaf sym 0) s).bind fun h u => .ok (h, i + 1 + symWidth s.mode, rest) u := by
  have htake : (symBits s.mode sym ++ rest).take (symWidth s.mode) = symBits s.mode sym := by
    rw [← symBits_length s.mode sym, List.take_left]
  have hdrop : (symBits s.mode sym ++ rest).drop (symWidth s.mode) = rest := by
    rw [← symBits_length s.mode sym, List.drop_left]
  have hword : s.mode = .word → natOfBits (symBits s.mode sym) < s.symtab.length := fun hm => by
    rw [natOfBits_symBits hsym]
    rw [hm] at hsym
    exact hsym
  rw [TreeToken.bits_leaf, List.cons_append, parseTree, need_pos h]
  dsimp only
  rw [htake, need_pos (symBits_length _ _), need_pos hword, natOfBits_symBits hsym, word_toNat]
  rcases alloc_cases (.leaf sym 0) s with ⟨-, e⟩ | ⟨-, e⟩ <;> rw [e]
  · exact congrArg (fun r => Ruling.ok (s.newHandle, i + 1 + symWidth s.mode, r) _) hdrop
  · rfl

/-- The bits end at a token, or inside the next leaf. -/
theorem parseTree_short {rest : Bits} (hrest : rest = [] ∨ ∃ short, rest = true :: short ∧ short.length < symWidth s.mode)
    (fuel i : Nat) : parseTree a b (fuel + 1) rest i d s = .raise ⟨.corruptContainer, word b, 3⟩ s := by
  rcases hrest with rfl | ⟨short, rfl, hlt⟩
  · rw [parseTree, need_pos h]
  · rw [parseTree, need_pos h]
    dsimp only
    rw [need_neg (by rw [List.length_take]; omega)]

/-- The next leaf names no word. -/
theorem parseTree_unnamed {sym : Word} (hm : s.mode = .word) (hsym : s.symtab.length ≤ sym.toNat) (fuel : Nat) (more : Bits)
    (i : Nat) : parseTree a b (fuel + 1) ((TreeToken.leaf sym).bits s.mode ++ more) i d s =
      .raise ⟨.corruptContainer, word (a + i / 8), 4⟩ s := by
  have htake : (symBits s.mode sym ++ more).take (symWidth s.mode) = symBits s.mode sym := by
    rw [← symBits_length s.mode sym, List.take_left]
  have hnat : natOfBits (symBits s.mode sym) = sym.toNat := by
    rw [hm]; exact natOfBits_bitsLSB_of_lt sym.isLt
  rw [TreeToken.bits_leaf, List.cons_append, parseTree, need_pos h]
  dsimp only
  rw [htake, need_pos (symBits_length _ _), need_neg]
  intro hlt
  have := hlt hm
  omega

end room

end parse

/-! ## Reading a tree -/

/-- What reading a tree leaves: its nodes are new, its root is the last of them, and all frequencies are 0 (R222). -/
structure Parsed (counts : List (Word × Word)) (T : Tree) (s u : State) (h : Word) : Prop where
  chain : Chain (parsePermit True s.nextHandle) s u
  rest : u = { s with nodes := u.nodes, nextHandle := u.nextHandle }
  counter : u.nextHandle = s.nextHandle + T.size
  size : u.nodes.length = s.nodes.length + T.size
  tree : IsTree u.nodes h T
  weighs : ∀ e ∈ u.nodes, s.nextHandle ≤ e.1.toNat → Weighs u.nodes counts e.1 0
  root : h = word (s.nextHandle + T.size - 1)

section parsed
variable {counts : List (Word × Word)} {s u v : State} {h r : Word} {T U : Tree}

theorem Parsed.cfg (hp : Parsed counts T s u h) : u.cfg = s.cfg := by rw [hp.rest]
theorem Parsed.mode (hp : Parsed counts T s u h) : u.mode = s.mode := by rw [hp.rest]
theorem Parsed.symtab (hp : Parsed counts T s u h) : u.symtab = s.symtab := by rw [hp.rest]
theorem Parsed.nodesOk (hp : Parsed counts T s u h) (hn : s.NodesOk) : u.NodesOk := hp.chain.nodesOk trivial hn

theorem mem_of_lookup {m : NodeMap} {x : Word} (h : NodeMap.live m x = true) : ∃ n, (x, n) ∈ m := by
  obtain ⟨n, hn⟩ := Option.isSome_iff_exists.1 h
  exact ⟨n, mapFind_mem hn⟩

theorem Parsed.weighs_root (hp : Parsed counts T s u h) (hn : s.NodesOk) : Weighs u.nodes counts h 0 := by
  obtain ⟨n, hm⟩ := mem_of_lookup hp.tree.live
  refine hp.weighs _ hm ?_
  have hc := (hp.nodesOk hn).counter
  have hpos := T.size_pos
  have hcount := hp.counter
  show s.nextHandle ≤ h.toNat
  rw [hp.root, word, BitVec.toNat_ofNat, Nat.mod_eq_of_lt (by omega)]
  omega

/-- A state in which a lone leaf has been read. -/
theorem parsed_leaf (hn : s.NodesOk) {sym : Word} (hc : (sym, 0) ∈ counts)
    (hchain : Chain (parsePermit True s.nextHandle) s (s.allocated (.leaf sym 0))) :
    Parsed counts (.leaf sym) s (s.allocated (.leaf sym 0)) s.newHandle := by
  have hfind : mapFind s.newHandle (s.allocated (.leaf sym 0)).nodes = some (.leaf sym 0) := by rw [allocated_find, if_pos rfl]
  refine ⟨hchain, rfl, rfl, allocated_length hn _, .leaf hfind, fun e he hle => ?_, rfl⟩
  rcases mapInsert_mem he with rfl | he
  · exact .leaf hfind hc
  · have := hn.counted e he
    omega

/-- A state in which two trees and the node that joins them have been read. -/
theorem parsed_node (hn : s.NodesOk) (hl : Parsed counts T s u h) (hr : Parsed counts U u v r)
    (hchain : Chain (parsePermit True s.nextHandle) s (v.allocated (.internal h r 0))) :
    Parsed counts (.node T U) s (v.allocated (.internal h r 0)) v.newHandle := by
  have hu := hl.nodesOk hn
  have hv := hr.nodesOk hu
  have hfind : mapFind v.newHandle (v.allocated (.internal h r 0)).nodes = some (.internal h r 0) := by
    rw [allocated_find, if_pos rfl]
  have hlast : ∀ x m, mapFind x v.nodes = some m → mapFind x (v.allocated (.internal h r 0)).nodes = some m := fun x m =>
    lookup_allocated hv _
  have hkeep : ∀ x m, mapFind x u.nodes = some m → mapFind x v.nodes = some m := fun x m hx =>
    (hr.chain.nodes_kept id (hu.lt hx)).trans hx
  have hweighsl := ((hl.weighs_root hn).mono hkeep).mono hlast
  have hweighsr := (hr.weighs_root hu).mono hlast
  have hcounter : (v.allocated (.internal h r 0)).nextHandle = s.nextHandle + (Tree.node T U).size := by
    show v.nextHandle + 1 = s.nextHandle + (T.size + U.size + 1)
    rw [hr.counter, hl.counter]
    omega
  refine ⟨hchain, ?_, hcounter, ?_, .node hfind ((hl.tree.mono fun x m _ => hkeep x m).mono fun x m _ => hlast x m)
    (hr.tree.mono fun x m _ => hlast x m), fun e he hle => ?_, ?_⟩
  · have hrest : v = { s with nodes := v.nodes, nextHandle := v.nextHandle } := hr.rest.trans (by rw [hl.rest])
    conv_lhs => rw [hrest]
    rfl
  · rw [allocated_length hv, hr.size, hl.size]
    show _ = s.nodes.length + (T.size + U.size + 1)
    omega
  · rcases mapInsert_mem he with rfl | he
    · exact .node (a := 0) (b := 0) hfind hweighsl hweighsr rfl
    · by_cases hnew : u.nextHandle ≤ e.1.toNat
      · exact (hr.weighs e he hnew).mono hlast
      · have hfe : mapFind e.1 u.nodes = some e.2 :=
          (hr.chain.nodes_kept id (by omega)).symm.trans (mapFind_of_mem hv.nodup he)
        exact ((hl.weighs e (mapFind_mem hfe) hle).mono hkeep).mono hlast
  · show word v.nextHandle = _
    have : v.nextHandle + 1 = s.nextHandle + (Tree.node T U).size := hcounter
    rw [show v.nextHandle = s.nextHandle + (Tree.node T U).size - 1 by omega]

end parsed

section trees
variable {a b : Nat} {counts : List (Word × Word)}

/-- The reader on the bits of a tree, with room for its nodes and handles. -/
theorem parseTree_of_tree (T : Tree) {fuel : Nat} {rest : Bits} {i d : Nat} {s : State} (hn : s.NodesOk) (hfuel : T.size ≤ fuel)
    (hfits : ∀ x ∈ T.syms, symbolFits s.mode s.symtab x) (hcounts : ∀ x ∈ T.syms, (x, 0) ∈ counts)
    (hroom : s.nodes.length + d + T.size ≤ s.cfg.nodeMax) (hhandles : s.nextHandle + T.size ≤ 0xFFFFFFFF) :
    ∃ u h, parseTree a b fuel (T.ser s.mode ++ rest) i d s = .ok (h, i + (T.ser s.mode).length, rest) u ∧
      Parsed counts T s u h := by
  have hchain : ∀ {x u}, parseTree a b fuel (T.ser s.mode ++ rest) i d s = .ok x u →
      Chain (parsePermit True s.nextHandle) s u := fun hx => (parseTree_chain a b _ _ i d fun _ => hn).1.of_ok hx
  induction T generalizing fuel rest i d s with
  | leaf sym =>
    obtain ⟨fuel, rfl⟩ : ∃ f, fuel = f + 1 := ⟨fuel - 1, (Nat.sub_add_cancel hfuel).symm⟩
    simp only [Tree.size] at hroom hhandles
    have halloc : s.canAlloc = true := canAlloc_iff.2 ⟨by omega, by omega⟩
    have hrun : parseTree a b (fuel + 1) ((Tree.leaf sym).ser s.mode ++ rest) i d s =
        .ok (s.newHandle, i + ((Tree.leaf sym).ser s.mode).length, rest) (s.allocated (.leaf sym 0)) := by
      have := parseTree_leaf (a := a) (b := b) (d := d) (by omega) (hfits sym (by simp [Tree.syms])) fuel rest i
      rw [alloc_of_room halloc, bind_ok, TreeToken.bits_leaf] at this
      rw [Tree.ser, this, List.length_cons, symBits_length]
      congr 3
      omega
    exact ⟨_, _, hrun, parsed_leaf hn (hcounts sym (by simp [Tree.syms])) (hchain hrun)⟩
  | node l r ihl ihr =>
    obtain ⟨fuel, rfl⟩ : ∃ f, fuel = f + 1 := ⟨fuel - 1, (Nat.sub_add_cancel ((Tree.size_pos _).trans hfuel)).symm⟩
    simp only [Tree.size] at hroom hhandles hfuel
    simp only [Tree.syms, List.mem_append] at hfits hcounts
    obtain ⟨u, hl, hrunl, hpl⟩ := ihl (fuel := fuel) (rest := r.ser s.mode ++ rest) (i := i + 1) (d := d + 1) hn (by omega)
      (fun x hx => hfits x (.inl hx)) (fun x hx => hcounts x (.inl hx)) (by omega) (by omega)
      fun hx => (parseTree_chain a b _ _ _ _ fun _ => hn).1.of_ok hx
    have hu := hpl.nodesOk hn
    obtain ⟨v, hr, hrunr, hpr⟩ := ihr (fuel := fuel) (rest := rest) (i := i + 1 + (l.ser s.mode).length) (d := d + 1) (s := u) hu (by omega)
      (fun x hx => by rw [hpl.mode, hpl.symtab]; exact hfits x (.inr hx)) (fun x hx => hcounts x (.inr hx))
      (by rw [hpl.size, hpl.cfg]; omega) (by rw [hpl.counter]; omega)
      fun hx => (parseTree_chain a b _ _ _ _ fun _ => hu).1.of_ok hx
    rw [hpl.mode] at hrunr
    have halloc : v.canAlloc = true := canAlloc_iff.2 ⟨by rw [hpr.size, hpl.size, hpr.cfg, hpl.cfg]; omega,
      by rw [hpr.counter, hpl.counter]; omega⟩
    have hrun : parseTree a b (fuel + 1) ((Tree.node l r).ser s.mode ++ rest) i d s =
        .ok (v.newHandle, i + ((Tree.node l r).ser s.mode).length, rest) (v.allocated (.internal hl hr 0)) := by
      rw [Tree.ser, List.cons_append, List.append_assoc, parseTree_inner (by omega), hrunl, bind_ok, hrunr, bind_ok,
        alloc_of_room halloc, bind_ok, List.length_cons, List.length_append]
      congr 3
      dsimp only
      omega
    exact ⟨_, _, hrun, parsed_node hn hpl hpr (hchain hrun)⟩

/-- The reader on the bits of a tree, with room for its nodes, where the handles run out (R222, log 11). -/
theorem parseTree_of_few_handles (T : Tree) {fuel : Nat} {rest : Bits} {i d : Nat} {s : State} (hn : s.NodesOk)
    (hfuel : T.size ≤ fuel) (hfits : ∀ x ∈ T.syms, symbolFits s.mode s.symtab x)
    (hroom : s.nodes.length + d + T.size ≤ s.cfg.nodeMax) (hhandles : 0xFFFFFFFF < s.nextHandle + T.size) :
    ∃ u, parseTree a b fuel (T.ser s.mode ++ rest) i d s =
      .raise (allocFail 3 (s.nodes.length + (0xFFFFFFFF - s.nextHandle))) u := by
  have hc := hn.counter
  induction T generalizing fuel rest i d s with
  | leaf sym =>
    obtain ⟨fuel, rfl⟩ : ∃ f, fuel = f + 1 := ⟨fuel - 1, (Nat.sub_add_cancel hfuel).symm⟩
    simp only [Tree.size] at hroom hhandles
    have hfull : ¬s.canAlloc = true := fun h => by have := (canAlloc_iff.1 h).2; omega
    have := parseTree_leaf (a := a) (b := b) (d := d) (by omega) (hfits sym (by simp [Tree.syms])) fuel rest i
    rw [alloc, need_neg hfull, bind_raise] at this
    exact ⟨s, by rw [show 0xFFFFFFFF - s.nextHandle = 0 by omega]; exact this⟩
  | node l r ihl ihr =>
    obtain ⟨fuel, rfl⟩ : ∃ f, fuel = f + 1 := ⟨fuel - 1, (Nat.sub_add_cancel ((Tree.size_pos _).trans hfuel)).symm⟩
    simp only [Tree.size] at hroom hhandles hfuel
    simp only [Tree.syms, List.mem_append] at hfits
    have hbits : (Tree.node l r).ser s.mode ++ rest = false :: (l.ser s.mode ++ (r.ser s.mode ++ rest)) := by simp [Tree.ser]
    have hstart := parseTree_inner (a := a) (b := b) (s := s) (d := d) (by omega) fuel (l.ser s.mode ++ (r.ser s.mode ++ rest)) i
    rw [← hbits] at hstart
    by_cases hleft : 0xFFFFFFFF < s.nextHandle + l.size
    · obtain ⟨u, hu⟩ := ihl (fuel := fuel) (rest := r.ser s.mode ++ rest) (i := i + 1) (d := d + 1) hn (by omega)
        (fun x hx => hfits x (.inl hx)) (by omega) hleft hc
      exact ⟨u, by rw [hstart, hu, bind_raise]⟩
    · obtain ⟨u, hl, hrunl, hpl⟩ := parseTree_of_tree (a := a) (b := b) (counts := l.syms.map fun x => (x, 0)) l (fuel := fuel)
        (rest := r.ser s.mode ++ rest) (i := i + 1) (d := d + 1) hn (by omega) (fun x hx => hfits x (.inl hx))
        (fun x hx => List.mem_map_of_mem hx) (by omega) (by omega)
      have hu := hpl.nodesOk hn
      have hcount := hpl.counter
      have hsize := hpl.size
      have hfitsr : ∀ x ∈ r.syms, symbolFits u.mode u.symtab x := fun x hx => by
        rw [hpl.mode, hpl.symtab]; exact hfits x (.inr hx)
      have hroomr : u.nodes.length + (d + 1) + r.size ≤ u.cfg.nodeMax := by rw [hpl.size, hpl.cfg]; omega
      rw [hrunl, bind_ok] at hstart
      by_cases hright : 0xFFFFFFFF < u.nextHandle + r.size
      · obtain ⟨v, hv⟩ := ihr (fuel := fuel) (rest := rest) (i := i + 1 + (l.ser s.mode).length) hu (by omega) hfitsr hroomr
          hright hu.counter
        rw [hpl.mode] at hv
        refine ⟨v, by rw [hstart, hv, bind_raise, hpl.size, hpl.counter]; congr 2; omega⟩
      · obtain ⟨v, hr, hrunr, hpr⟩ := parseTree_of_tree (a := a) (b := b) (counts := r.syms.map fun x => (x, 0)) r
          (fuel := fuel) (rest := rest) (i := i + 1 + (l.ser s.mode).length) (d := d + 1) hu (by omega) hfitsr
          (fun x hx => List.mem_map_of_mem hx) hroomr (by omega)
        have hcountr := hpr.counter
        have hfull : ¬v.canAlloc = true := fun h => by have := (canAlloc_iff.1 h).2; omega
        rw [hpl.mode] at hrunr
        rw [hrunr, bind_ok, alloc, need_neg hfull, bind_raise, hpr.size, hpl.size] at hstart
        exact ⟨v, by rw [hstart]; congr 2; omega⟩

/-- The reader on the first tokens of a tree, with room for them: it comes to what follows them (R222). -/
theorem parseTree_of_openTokens {toks : List TreeToken} (hopen : OpenTokens toks) {fuel : Nat} {rest : Bits} {i d : Nat}
    {s : State} (hn : s.NodesOk) (hfuel : toks.length < fuel) (hfits : ∀ x, .leaf x ∈ toks → symbolFits s.mode s.symtab x)
    (hroom : s.nodes.length + d + toks.length ≤ s.cfg.nodeMax) (hhandles : s.nextHandle + toks.length ≤ 0xFFFFFFFF) :
    ∃ fuel' u, u = { s with nodes := u.nodes, nextHandle := u.nextHandle } ∧
      u.nodes.length + openNodes toks = s.nodes.length + toks.length ∧
      ∀ r w, parseTree a b (fuel' + 1) rest (i + (toks.flatMap (TreeToken.bits s.mode)).length) (d + openNodes toks) u =
          .raise r w →
        parseTree a b fuel (toks.flatMap (TreeToken.bits s.mode) ++ rest) i d s = .raise r w := by
  induction hopen generalizing fuel i d s with
  | nil =>
    obtain ⟨fuel, rfl⟩ : ∃ f, fuel = f + 1 := ⟨fuel - 1, (Nat.sub_add_cancel hfuel).symm⟩
    exact ⟨fuel, s, rfl, rfl, fun r w h => h⟩
  | @left toks ho ih =>
    obtain ⟨fuel, rfl⟩ : ∃ f, fuel = f + 1 := ⟨fuel - 1, (Nat.sub_add_cancel (Nat.one_le_of_lt hfuel)).symm⟩
    rw [List.length_cons] at hfuel hroom hhandles
    obtain ⟨fuel', u, hu, hlen, hrun⟩ := ih (fuel := fuel) (i := i + 1) (d := d + 1) hn (by omega)
      (fun x hx => hfits x (List.mem_cons_of_mem _ hx)) (by omega) (by omega)
    refine ⟨fuel', u, hu, by rw [openNodes_left ho, List.length_cons]; omega, fun r w h => ?_⟩
    have hraise := hrun r w (by
      rw [openNodes_left ho, List.flatMap_cons, TreeToken.bits_inner, List.length_append, List.length_singleton] at h
      rw [← h]
      congr 1 <;> omega)
    rw [List.flatMap_cons, TreeToken.bits_inner, List.singleton_append, List.cons_append, parseTree_inner (by omega), hraise,
      bind_raise]
  | @right T toks ho ih =>
    obtain ⟨fuel, rfl⟩ : ∃ f, fuel = f + 1 := ⟨fuel - 1, (Nat.sub_add_cancel (Nat.one_le_of_lt hfuel)).symm⟩
    rw [List.length_cons, List.length_append, T.tokens_length] at hfuel hroom hhandles
    obtain ⟨v, h, hrunl, hp⟩ := parseTree_of_tree (a := a) (b := b) (counts := T.syms.map fun x => (x, 0)) T (fuel := fuel)
      (rest := toks.flatMap (TreeToken.bits s.mode) ++ rest) (i := i + 1) (d := d + 1) hn (by omega)
      (fun x hx => hfits x (List.mem_cons_of_mem _ (List.mem_append_left _ (Tree.mem_tokens.2 hx))))
      (fun x hx => List.mem_map_of_mem hx) (by omega) (by omega)
    obtain ⟨fuel', u, hu, hlen, hrun⟩ := ih (fuel := fuel) (i := i + 1 + (T.ser s.mode).length) (d := d + 1) (s := v)
      (hp.nodesOk hn) (by omega)
      (fun x hx => by
        rw [hp.mode, hp.symtab]
        exact hfits x (List.mem_cons_of_mem _ (List.mem_append_right _ hx)))
      (by rw [hp.size, hp.cfg]; omega) (by rw [hp.counter]; omega)
    rw [hp.mode] at hrun
    refine ⟨fuel', u, hu.trans (by rw [hp.rest]), ?_, fun r w h => ?_⟩
    · rw [openNodes_right T ho, List.length_cons, List.length_append, T.tokens_length]
      have := hp.size
      omega
    · have hraise := hrun r w (by
        rw [openNodes_right T ho, List.flatMap_cons, TreeToken.bits_inner, List.flatMap_append, T.tokens_bits,
          List.length_append, List.length_singleton, List.length_append] at h
        rw [← h]
        congr 1 <;> omega)
      rw [List.flatMap_cons, TreeToken.bits_inner, List.singleton_append, List.flatMap_append, T.tokens_bits,
        List.cons_append, List.append_assoc, parseTree_inner (by omega), hrunl, bind_ok, hraise, bind_raise]

end trees

/-! ## Reading anything -/

/-- A rule completes with a value that is right, or refuses the section or the store. -/
def Ruling.Reads {α : Type} (P : α → State → Prop) : Ruling α → Prop
  | .ok a s => P a s
  | .raise r _ => r.cause = .corruptContainer ∨ r.cause = .allocationFailure

theorem reads_need {α : Type} {P : α → State → Prop} {c : Prop} [Decidable c] {r : Raise} {s : State} {k : Ruling α}
    (hr : r.cause = .corruptContainer ∨ r.cause = .allocationFailure) (hk : c → k.Reads P) : (need c r s k).Reads P := by
  by_cases hc : c
  · rw [need_pos hc]; exact hk hc
  · rw [need_neg hc]; exact hr

theorem reads_bind {α β : Type} {P : α → State → Prop} {Q : β → State → Prop} {x : Ruling α} {k : α → State → Ruling β}
    (hx : x.Reads P) (hk : ∀ a t, P a t → (k a t).Reads Q) : (x.bind k).Reads Q := by
  cases x with
  | ok a t => exact hk a t hx
  | raise r t => exact hx

/-- Only the node store and its counter change. -/
def OnlyNodes (s t : State) : Prop := t = { s with nodes := t.nodes, nextHandle := t.nextHandle }

theorem OnlyNodes.trans {s t u : State} (h : OnlyNodes s t) (h' : OnlyNodes t u) : OnlyNodes s u := by
  unfold OnlyNodes at *
  exact h'.trans (by rw [h])

theorem alloc_reads (n : Node) (s : State) : (alloc n s).Reads fun _ t => OnlyNodes s t := by
  rcases alloc_cases n s with ⟨-, e⟩ | ⟨-, e⟩ <;> rw [e]
  · exact rfl
  · exact .inr rfl

/-- What the reader comes to: where it completes, the bits of a tree with valid symbols have been read; where it raises, the
section or the store is at fault (R222). -/
theorem parseTree_reads {a b : Nat} (fuel : Nat) (bits : Bits) (i d : Nat) (s : State) :
    (parseTree a b fuel bits i d s).Reads fun x t => OnlyNodes s t ∧
      ∃ T : Tree, (∀ y ∈ T.syms, symbolFits s.mode s.symtab y) ∧ bits = T.ser s.mode ++ x.2.2 := by
  induction fuel generalizing bits i d s with
  | zero => exact .inl rfl
  | succ fuel ih =>
    unfold parseTree
    refine reads_need (.inr rfl) fun _ => ?_
    match bits with
    | [] => exact .inl rfl
    | true :: rest =>
      refine reads_need (.inl rfl) fun hlen => reads_need (.inl rfl) fun hword => ?_
      refine reads_bind (alloc_reads _ s) fun h t ht => ⟨ht, .leaf (word (natOfBits (rest.take (symWidth s.mode)))), ?_, ?_⟩
      · intro y hy
        rw [List.mem_singleton.1 hy]
        have hlt := natOfBits_lt (rest.take (symWidth s.mode))
        rw [hlen] at hlt
        unfold symbolFits
        split
        · next hm =>
          rw [hm] at hlt ⊢
          rw [word, BitVec.toNat_ofNat]
          exact (Nat.mod_le _ _).trans (Nat.le_of_lt_succ hlt)
        · next hm => exact (Nat.mod_le _ _).trans_lt (hword hm)
      · have hmode : t.mode = s.mode := by rw [ht]
        rw [hmode, Tree.ser, symBits_natOfBits hlen, List.cons_append, List.take_append_drop]
    | false :: rest =>
      refine reads_bind (ih rest (i + 1) (d + 1) s) fun l t ⟨ht, T, hT, hrest⟩ => ?_
      refine reads_bind (ih l.2.2 l.2.1 (d + 1) t) fun r u ⟨hu, U, hU, hrest'⟩ => ?_
      refine reads_bind (alloc_reads _ u) fun h v hv => ⟨(ht.trans hu).trans hv, .node T U, ?_, ?_⟩
      · have hmode : t.mode = s.mode := by rw [ht]
        have hsymtab : t.symtab = s.symtab := by rw [ht]
        rw [hmode, hsymtab] at hU
        exact fun y hy => (List.mem_append.1 hy).elim (hT y) (hU y)
      · have hmode : t.mode = s.mode := by rw [ht]
        rw [hmode] at hrest'
        rw [hrest, hrest', Tree.ser, List.cons_append, List.append_assoc]

/-! ## HT.DESER -/

theorem length_le_tokenBits (m : Mode) (toks : List TreeToken) : toks.length ≤ (toks.flatMap (TreeToken.bits m)).length := by
  induction toks with
  | nil => exact Nat.le_refl _
  | cons t toks ih =>
    cases t <;> simp only [List.length_cons, List.flatMap_cons, List.length_append, TreeToken.bits] <;> omega

section deser
variable {a b : Nat} {s : State} (hrange : a ≤ b ∧ b ≤ s.inLen.toNat)
include hrange

/-- HT.DESER of a section whose bytes can be read (R221). -/
theorem deserTree_of_readable (hread : s.InReadable a (b - a)) : deserTree a b s =
    (parseTree a b ((unpack (s.inBytes a (b - a))).length + 1) (unpack (s.inBytes a (b - a))) 0 0 (releaseRoot s)).bind
      fun x u => .ok ⟨x.1, treeBitsWord x.2.1, 0, 0⟩ { u with root := x.1 } := by
  have hok : memRead a (b - a) (releaseRoot s) = .ok (s.inBytes a (b - a)) (releaseRoot s) :=
    memRead_ok (s := releaseRoot s) hread
  rw [deserTree_of_range hrange, hok, bind_ok]

theorem deserTree_of_unreadable {x : Nat} (hx : s.LeastUnreadable a (b - a) x) :
    deserTree a b s = .raise (ioError x false) (releaseRoot s) := by
  have hraise : memRead a (b - a) (releaseRoot s) = .raise (ioError x false) (releaseRoot s) :=
    memRead_raise (s := releaseRoot s) hx
  rw [deserTree_of_range hrange, hraise, bind_raise]

variable (hread : s.InReadable a (b - a)) (hn : s.NodesOk)
include hread hn

section tree
variable {T : Tree} {rest : Bits} (hbits : unpack (s.inBytes a (b - a)) = T.ser s.mode ++ rest)
  (hfits : ∀ x ∈ T.syms, symbolFits s.mode s.symtab x) (hroom : (releaseRoot s).nodes.length + T.size ≤ s.cfg.nodeMax)
include hbits hfits hroom

/-- HT.DESER of a section that starts with the bits of a tree (R221, R227). -/
theorem deserTree_of_tree (hhandles : s.nextHandle + T.size ≤ 0xFFFFFFFF) : ∃ u,
    Parsed (T.syms.map fun x => (x, 0)) T (releaseRoot s) u (word (s.nextHandle + T.size - 1)) ∧
      deserTree a b s = .ok ⟨word (s.nextHandle + T.size - 1), treeBitsWord (T.ser s.mode).length, 0, 0⟩
        { u with root := word (s.nextHandle + T.size - 1) } := by
  have hfuel : T.size ≤ (T.ser s.mode ++ rest).length + 1 := by
    rw [List.length_append, T.ser_length]; omega
  obtain ⟨u, h, hrun, hp⟩ := parseTree_of_tree (a := a) (b := b) (s := releaseRoot s) (i := 0) (d := 0) (rest := rest) T
    (releaseRoot_nodesOk hn) hfuel hfits (fun x hx => List.mem_map_of_mem hx) hroom hhandles
  obtain rfl := hp.root
  refine ⟨u, hp, ?_⟩
  rw [deserTree_of_readable hrange hread, hbits]
  have hrun' : parseTree a b ((T.ser s.mode ++ rest).length + 1) (T.ser s.mode ++ rest) 0 0 (releaseRoot s) =
      .ok (word (s.nextHandle + T.size - 1), 0 + (T.ser s.mode).length, rest) u := hrun
  rw [hrun', bind_ok, Nat.zero_add]

theorem deserTree_of_few_handles (hhandles : 0xFFFFFFFF < s.nextHandle + T.size) : ∃ u,
    deserTree a b s = .raise (allocFail 3 ((releaseRoot s).nodes.length + (0xFFFFFFFF - s.nextHandle))) u := by
  have hfuel : T.size ≤ (T.ser s.mode ++ rest).length + 1 := by
    rw [List.length_append, T.ser_length]; omega
  obtain ⟨u, hu⟩ := parseTree_of_few_handles (a := a) (b := b) (s := releaseRoot s) (i := 0) (d := 0) (rest := rest) T
    (releaseRoot_nodesOk hn) hfuel hfits hroom hhandles
  have hu' : parseTree a b ((T.ser s.mode ++ rest).length + 1) (T.ser s.mode ++ rest) 0 0 (releaseRoot s) = _ := hu
  exact ⟨u, by rw [deserTree_of_readable hrange hread, hbits, hu', bind_raise]; rfl⟩

end tree

/-- HT.DESER of a section that starts with the first tokens of a tree: it comes to what follows them (R222). -/
theorem deserTree_of_openTokens {toks : List TreeToken} {rest : Bits} (hopen : OpenTokens toks)
    (hbits : unpack (s.inBytes a (b - a)) = toks.flatMap (TreeToken.bits s.mode) ++ rest)
    (hfits : ∀ x, .leaf x ∈ toks → symbolFits s.mode s.symtab x)
    (hroom : (releaseRoot s).nodes.length + toks.length ≤ s.cfg.nodeMax)
    (hhandles : s.nextHandle + toks.length ≤ 0xFFFFFFFF) :
    ∃ fuel u, OnlyNodes (releaseRoot s) u ∧
      u.nodes.length + openNodes toks = (releaseRoot s).nodes.length + toks.length ∧
      ∀ r w, parseTree a b (fuel + 1) rest (toks.flatMap (TreeToken.bits s.mode)).length (openNodes toks) u = .raise r w →
        deserTree a b s = .raise r w := by
  have hfuel : toks.length < (toks.flatMap (TreeToken.bits s.mode) ++ rest).length + 1 := by
    have := length_le_tokenBits s.mode toks
    rw [List.length_append]
    omega
  obtain ⟨fuel, u, hu, hlen, hrun⟩ := parseTree_of_openTokens (a := a) (b := b) (s := releaseRoot s) (i := 0) (d := 0)
    (rest := rest) hopen (releaseRoot_nodesOk hn) hfuel hfits hroom hhandles
  refine ⟨fuel, u, hu, hlen, fun r w h => ?_⟩
  rw [deserTree_of_readable hrange hread, hbits]
  have hraise : parseTree a b ((toks.flatMap (TreeToken.bits s.mode) ++ rest).length + 1)
      (toks.flatMap (TreeToken.bits s.mode) ++ rest) 0 0 (releaseRoot s) = .raise r w :=
    hrun r w (by rw [← h, Nat.zero_add, Nat.zero_add]; rfl)
  rw [hraise, bind_raise]

end deser

/-- Freeing the tree at ROOT (R221). -/
theorem releaseRoot_left {s : State} (h : s.NodesOk) : s.LeftAfterFreeing [s.root] (releaseRoot s).nodes :=
  freeTree_left h s.root

/-- Settles O39: by what the reader does on the bits of a tree, on its first tokens, and on anything. -/
theorem htDeserReadsTheTreeBack : Obligations.HtDeserReadsTheTreeBack := by
  intro s a b base hf hn hbase range readable bits
  have hlen : (releaseRoot s).nodes.length = base.length := (releaseRoot_left hn).length_eq hn hbase
  have hfault : ∀ {c : Cause} {i0 i1 : Word} {u : State}, deserTree a.toNat b.toNat s = .raise ⟨c, i0, i1⟩ u →
      ∃ t, exec (.htDeser a b) s = .next t ∧ t.FaultedWith c.code 0x55 i0 i1 := fun {c} _ _ _ h =>
    exec_of_cleanup_raise (i := .htDeser a b) c rfl hf h
  refine ⟨fun hr => ?_, fun hr x hx => ?_, fun hr hread toks rest hopen hfits hbits hhandles => ?_, fun hr hread hnone => ?_,
    fun hr hread T hfits hprefix hroom => ?_⟩
  · have := hfault (deserTree_of_bad_range hr)
    rwa [word_toNat] at this
  · exact hfault (deserTree_of_unreadable hr hx)
  · have hopen := openTokens_of_treeOpen hopen
    have hle := openNodes_le toks
    refine ⟨fun hfull => ?_, fun hroom hrest => ?_, fun hroom sym more hm hrest hsym => ?_⟩ <;>
      obtain ⟨fuel, u, hu, hsize, hrun⟩ := deserTree_of_openTokens hr hread hn hopen hbits hfits (by omega) hhandles <;>
      have hcfg : u.cfg = s.cfg := by rw [hu]; rfl
    · have := hfault (hrun _ _ (parseTree_of_full (by rw [hcfg]; omega) _ _ _))
      rwa [show u.nodes.length = base.length + (toks.length - openNodes toks) by omega] at this
    · have hmode : u.mode = s.mode := by rw [hu]; rfl
      have := hfault (hrun _ _ (parseTree_short (by rw [hcfg]; omega) (hmode ▸ hrest) _ _))
      rwa [word_toNat] at this
    · have hmode : u.mode = s.mode := by rw [hu]; rfl
      have hsymtab : u.symtab = s.symtab := by rw [hu]; rfl
      have hraise := parseTree_unnamed (a := a.toNat) (b := b.toNat) (s := u) (d := openNodes toks) (by rw [hcfg]; omega)
        (hmode.trans hm) (hsymtab ▸ hsym) fuel more (toks.flatMap (TreeToken.bits s.mode)).length
      rw [hmode, ← hrest] at hraise
      exact hfault (hrun _ _ hraise)
  · have hrun := deserTree_of_readable hr hread
    have hreads := parseTree_reads (a := a.toNat) (b := b.toNat) (bits.length + 1) bits 0 0 (releaseRoot s)
    cases hp : parseTree a.toNat b.toNat (bits.length + 1) bits 0 0 (releaseRoot s) with
    | ok x u =>
      rw [hp] at hreads
      obtain ⟨-, T, hT, hT'⟩ := hreads
      exact absurd ⟨_, hT'.symm⟩ (hnone T hT)
    | raise r u =>
      rw [hp] at hreads
      rw [show parseTree a.toNat b.toNat _ _ 0 0 (releaseRoot s) = _ from hp, bind_raise] at hrun
      obtain ⟨t, ht, hrecord⟩ := hfault hrun
      refine ⟨t, ht, hrecord.flag, ?_⟩
      rw [hrecord.err]
      rcases hreads with hc | hc <;> rw [hc]
      · exact .inl rfl
      · exact .inr rfl
  · obtain ⟨rest, hrest⟩ := hprefix
    have hroom' : (releaseRoot s).nodes.length + T.size ≤ s.cfg.nodeMax := by omega
    refine ⟨fun hfew => ?_, fun hhandles => ?_⟩
    · obtain ⟨u, hu⟩ := deserTree_of_few_handles hr hread hn hrest.symm hfits hroom' hfew
      rw [hlen] at hu
      exact hfault hu
    · obtain ⟨u, hp, hrun⟩ := deserTree_of_tree hr hread hn hrest.symm hfits hroom' hhandles
      have hfreed : s.Freed [s.root] (releaseRoot s) := (freeTree_freed hn s.root).congr rfl
      have hcursor : u.cursor = (freeTree s.root s).cursor := by rw [hp.rest]; rfl
      have hcounter : u.nextHandle = s.nextHandle + T.size := hp.counter
      refine ⟨_, treeBitsWord (T.ser s.mode).length, exec_of_ok hf hrun, (hfreed.chain hn rfl id hp.chain).congr rfl,
        fun hlt => if_pos hlt, ?_, hp.tree, hp.weighs, ?_⟩
      · have := (freeTree_register hn s.root).2
        rwa [← hcursor] at this
      · refine congrArg (State.answered _) ?_
        show ({ u with root := word (s.nextHandle + T.size - 1) } : State) =
          { s with
            nodes := u.nodes
            nextHandle := s.nextHandle + T.size
            root := word (s.nextHandle + T.size - 1)
            cursor := u.cursor
            code := [] }
        rw [hcursor, ← hcounter]
        conv_lhs => rw [hp.rest]
        rfl

end Sys2Proof.Machine
end

section
/-! PROOFS. The format of serialized trees there and back (spec/44_tree_serialization.md R227). -/

namespace Sys2Proof.Machine

/-- What a serialization that completes has done (R220). -/
theorem serTree_eq_ok {s t : State} {addr : Nat} {T : Tree} {res : Results} (hT : s.rootTree = some T)
    (h : serTree addr s = .ok res t) : (T.ser s.mode).length ≤ s.cfg.bbMaxBits ∧
      res = ⟨word (bytesFor (T.ser s.mode).length), word (T.ser s.mode).length, 0, 0⟩ ∧
      s.OutWritable addr (bytesFor (T.ser s.mode).length) ∧
      t = (s.wrote addr (pack (T.ser s.mode))).setBuf 1
        ⟨T.ser s.mode, grow s.cfg (s.buf 1).cap (bytesFor (T.ser s.mode).length)⟩ := by
  rw [serTree, hT] at h
  obtain ⟨-, h⟩ := need_eq_ok.1 h
  obtain ⟨hsize, h⟩ := need_eq_ok.1 h
  obtain ⟨_, u, hu, h⟩ := bind_eq_ok.1 h
  rcases memWrite_cases addr (pack (T.ser s.mode)) s with ⟨hw, e⟩ | ⟨x, -, e⟩
  · cases e.symm.trans hu
    cases h
    rw [pack_length] at hw
    exact ⟨hsize, rfl, hw, rfl⟩
  · cases e.symm.trans hu

/-- The bytes of a range, given one by one. -/
theorem inBytes_eq {s : State} {a : Nat} {v : Bytes} (h : ∀ k, k < v.length → s.inByte (a + k) = v.getD k 0) :
    s.inBytes a v.length = v := by
  refine List.ext_getElem (by simp) fun k h1 h2 => ?_
  have := h k h2
  rw [List.getD_eq_getElem?_getD, List.getElem?_eq_getElem h2] at this
  simpa [State.inBytes] using this

/-- Loading that completes has loaded the words, and changed the trie alone. -/
theorem loadTrie_eq_ok (rest done : List Bytes) {s t : State} {x : Unit} (h : s.trie.Holds done)
    (hload : loadTrie rest done.length s = .ok x t) : t = { s with trie := t.trie } ∧ t.trie.Holds (done ++ rest) := by
  induction rest generalizing done s with
  | nil => cases hload; exact ⟨rfl, by rwa [List.append_nil]⟩
  | cons key rest ih =>
    obtain ⟨_, u, hu, hload⟩ := bind_eq_ok.1 hload
    obtain ⟨-, hu⟩ := need_eq_ok.1 hu
    cases hu
    have hlen : done.length + 1 = (done ++ [key]).length := by simp
    rw [hlen] at hload
    obtain ⟨ht, hh⟩ := ih (done ++ [key]) (s := { s with trie := s.trie.insert key (word done.length) }) (h.insert key) hload
    exact ⟨ht, by rwa [List.append_assoc, List.singleton_append] at hh⟩

/-- What CT.GEN that completes has done (45_code_table.md R241). -/
theorem ruleCtGen_eq_ok {s t : State} {T : Tree} {res : Results} (hT : s.rootTree = some T) (h : ruleCtGen s = .ok res t) :
    res = ⟨word T.codeTable.length, 0, 0, 0⟩ ∧ t = { s.withCodes T with trie := t.trie } ∧
      (s.mode = .char → t.trie = s.trie) ∧ (s.mode = .word → t.trie.Holds s.symtab) := by
  rw [ruleCtGen_of_tree hT] at h
  obtain ⟨_, u, hu, h⟩ := bind_eq_ok.1 h
  cases hm : s.mode with
  | char =>
    rw [if_neg (by rw [hm]; decide)] at hu
    cases hu
    cases h
    exact ⟨rfl, rfl, fun _ => rfl, nofun⟩
  | word =>
    rw [if_pos hm] at hu
    cases h
    obtain ⟨ht, hh⟩ := loadTrie_eq_ok s.symtab [] (s := { s.withCodes T with trie := Trie.fresh }) fresh_holds hu
    refine ⟨?_, ht, nofun, fun _ => hh⟩
    rw [ht]
    rfl

/-- The state after HT.DESER has the tree at ROOT. -/
theorem Parsed.rooted {counts : List (Word × Word)} {T : Tree} {s u : State} {h : Word} (hp : Parsed counts T s u h)
    (hn : s.NodesOk) : ({ u with root := h } : State).NodesOk ∧ ({ u with root := h } : State).rootTree = some T := by
  have hu := hp.nodesOk hn
  have hok : ({ u with root := h } : State).NodesOk :=
    hu.filter (List.Sublist.refl _) rfl rfl (.inr hp.tree.live) hu.cursor
  exact ⟨hok, (hok.rootTree T).2 hp.tree⟩

theorem code_of_ctGen {s t : State} {T : Tree} (hT : s.rootTree = some T) (hf : s.status.fault = false)
    (h : exec .ctGen s = .next t) (ht : t.status.fault = false) : t.code = T.codeTable := by
  obtain ⟨res, u, hu, rfl⟩ := completed_of_no_fault hf ht h
  obtain ⟨-, hu', -⟩ := ruleCtGen_eq_ok hT hu
  show u.code = T.codeTable
  rw [hu']
  rfl

/-- Settles O40: the bits of the tree start the section that HT.SER wrote, so HT.DESER reads the tree back. -/
theorem treeFormatRoundTrip : Obligations.TreeFormatRoundTrip := by
  intro s t u addr a T hs hf hT h ht hu hfu hmode hfits hin hread hbytes hroom hhandles
  obtain ⟨res, t', ht', rfl⟩ := completed_of_no_fault hf ht h
  obtain ⟨hsize, rfl, -, hwrote⟩ := serTree_eq_ok hT ht'
  obtain ⟨-, hmin, hmax⟩ := bufferSize_of_wellFormed hs.config
  have hn : (word (bytesFor (T.ser s.mode).length)).toNat = (pack (T.ser s.mode)).length := by
    rw [pack_length, word_toNat_of_lt]
    unfold bytesFor
    omega
  have hsum : (a + word (bytesFor (T.ser s.mode).length)).toNat = a.toNat + (pack (T.ser s.mode)).length := by
    have := u.inLen.isLt
    rw [BitVec.toNat_add, hn]
    rw [completed_res, hn] at hin
    exact Nat.mod_eq_of_lt (by omega)
  rw [completed_res, hn] at hin hread hbytes
  have hsection : u.inBytes a.toNat (pack (T.ser s.mode)).length = pack (T.ser s.mode) := inBytes_eq fun k hk => by
    rw [hbytes k hk]
    show t'.outByte _ = _
    rw [hwrote]
    refine (outByte_wrote s addr.toNat (addr.toNat + k) _).trans ?_
    rw [if_pos (by omega), Nat.add_sub_cancel_left]
  have hbits : ∃ rest, unpack (u.inBytes a.toNat (pack (T.ser s.mode)).length) = T.ser u.mode ++ rest := by
    rw [hsection, hmode]
    exact ⟨_, (prefix_unpack_pack _).choose_spec.symm⟩
  obtain ⟨rest, hrest⟩ := hbits
  have hsub : a.toNat + (pack (T.ser s.mode)).length - a.toNat = (pack (T.ser s.mode)).length := Nat.add_sub_cancel_left ..
  have hleft : (releaseRoot u).nodes.length ≤ u.nodes.length := (freeTree_sublist u.root u).length_le
  obtain ⟨w, hp, hrun⟩ := deserTree_of_tree (s := u) (a := a.toNat) (b := a.toNat + (pack (T.ser s.mode)).length)
    ⟨Nat.le_add_right .., hin⟩ (by rwa [hsub]) hu.nodes (by rw [hsub]; exact hrest) hfits (by omega) hhandles
  obtain ⟨hok, hroot⟩ := hp.rooted (releaseRoot_nodesOk hu.nodes)
  have hfault : w.status.fault = false := by rw [hp.rest]; exact hfu
  rw [← hsum] at hrun
  rw [completed_res]
  obtain ⟨v, hv, hvf, hvr, hvm⟩ : ∃ v, exec (.htDeser a (a + word (bytesFor (T.ser s.mode).length))) u = .next v ∧
      v.status.fault = false ∧ v.rootTree = some T ∧ v.mode = s.mode :=
    ⟨_, exec_of_ok hfu hrun, hfault, hroot, hp.mode.trans hmode⟩
  refine ⟨v, hv, hvf, hvr, fun p q hp hq hfp hfq => ?_, fun hchar => ?_⟩
  · rw [code_of_ctGen hT hf hp hfp, code_of_ctGen hvr hvf hq hfq]
  · exact ⟨_, _, exec_of_ok hf (i := .ctGen) (ruleCtGen_of_char hT hchar),
      exec_of_ok hvf (i := .ctGen) (ruleCtGen_of_char hvr (hvm.trans hchar)), hf, hvf⟩

end Sys2Proof.Machine
end

section
/-! PROOFS. CD.DECODE (spec/47_codec_decode.md R266): the header, then the sections, each by the command that reads it. -/

namespace Sys2Proof.Machine

/-! ## The header -/

/-- The four words of a header. -/
theorem headerField_of_words {hdr : Bytes} {w x y z : Word} (h : hdr = u32le w ++ u32le x ++ u32le y ++ u32le z) :
    headerField hdr 0 = w ∧ headerField hdr 4 = x ∧ headerField hdr 8 = y ∧ headerField hdr 12 = z := by
  subst h
  have field : ∀ (a : Bytes) (v : Word) (b : Bytes), headerField (a ++ u32le v ++ b) a.length = v := by
    intro a v b
    rw [headerField, List.append_assoc, List.drop_left, ← u32le_length v, List.take_left, le32_u32le]
  refine ⟨?_, ?_, ?_, ?_⟩
  · simpa using field [] w (u32le x ++ u32le y ++ u32le z)
  · simpa [u32le_length] using field (u32le w) x (u32le y ++ u32le z)
  · simpa [u32le_length] using field (u32le w ++ u32le x) y (u32le z)
  · simpa [u32le_length] using field (u32le w ++ u32le x ++ u32le y) z []

/-- The state of CD.DECODE with the header read. -/
def State.counted (s : State) (count : Word) : State := { decodeBase s with symCount := count }

/-- CD.DECODE of an input that has a header (R266 step 2). -/
theorem ruleCdDecode_of_header {s : State} {tree table payload count : Word} (h16 : 16 ≤ s.inLen.toNat)
    (hread : s.InReadable 0 16) (hh : s.inBytes 0 16 = u32le tree ++ u32le table ++ u32le payload ++ u32le count) :
    ruleCdDecode s =
      need (16 ≤ table.toNat) ⟨.corruptContainer, 4, 1⟩ (decodeBase s) (
      need (table.toNat ≤ tree.toNat) ⟨.corruptContainer, 0, 1⟩ (decodeBase s) (
      need (tree.toNat ≤ payload.toNat) ⟨.corruptContainer, 8, 1⟩ (decodeBase s) (
      need (payload.toNat ≤ s.inLen.toNat) ⟨.corruptContainer, 8, 1⟩ (decodeBase s) (
      if count = 0 then
        .ok Results.zero { (s.counted count).setEmpty true with cursor := nullHandle, dpos := word payload.toNat, dbit := 0 }
      else decodeSections table.toNat tree.toNat payload.toNat count ((s.counted count).setEmpty false))))) := by
  obtain ⟨h0, h4, h8, h12⟩ := headerField_of_words hh
  have hmem : memRead 0 16 (decodeBase s) = .ok (s.inBytes 0 16) (decodeBase s) := memRead_ok (s := decodeBase s) hread
  have hrule : ruleCdDecode s = (memRead 0 16 (decodeBase s)).bind _ :=
    need_pos (show 16 ≤ (decodeBase s).inLen.toNat from h16) _ _ _
  rw [hrule, hmem, bind_ok, h0, h4, h8, h12]
  rfl

theorem ruleCdDecode_of_short {s : State} (h : s.inLen.toNat < 16) :
    ruleCdDecode s = .raise ⟨.corruptContainer, s.inLen, 0⟩ (decodeBase s) :=
  need_neg (show ¬16 ≤ (decodeBase s).inLen.toNat from Nat.not_le.2 h) _ _ _

/-! ## The sections -/

/-- The sections of a container: the table of a list of words in WORD mode, a tree, and the codes of symbols of the tree, with
what the symbols stand for. -/
structure Sections (s : State) (table tree payload : Nat) (list : List Bytes) (T : Tree) (ids : List Word) (codes : List Bits)
    (outs : List Bytes) : Prop where
  nonempty : ∀ w ∈ list, w ≠ []
  charTable : s.mode = .char → list = []
  wordTable : s.mode = .word → s.inBytes table (tree - table) = symtabBytes list
  fits : ∀ x ∈ T.syms, symbolFits s.mode list x
  treeBits : T.ser s.mode <+: unpack (s.inBytes tree (payload - tree))
  coded : List.Forall₂ (fun id c => (id, c) ∈ T.codes) ids codes
  payloadBits : codes.flatten <+: unpack (s.inBytes payload (s.inLen.toNat - payload))
  emits : List.Forall₂ (fun id v => { s with symtab := list }.symbolBytes id = some v) ids outs

section sections
variable {s : State} {table tree payload : Nat} {list : List Bytes} {T : Tree} {ids : List Word} {codes : List Bits}
  {outs : List Bytes}

/-- Reading the symbol table in WORD mode, or none in CHAR mode (R266 step 4). -/
theorem decodeTable_of_sections (h : Sections s table tree payload list T ids codes outs) (hsymtab : s.symtab = [])
    (htt : table ≤ tree) (htree : tree < 2 ^ 32) (hread : s.InReadable table (tree - table)) :
    (if s.mode = .word then (parseSymtab tree (tree - table) table s).bind fun list s => .ok () { s with symtab := list }
      else .ok () s : Ruling Unit) = .ok () { s with symtab := list } := by
  by_cases hm : s.mode = .word
  · rw [if_pos hm, parseSymtab_of_table htree h.nonempty htt (h.wordTable hm) hread, bind_ok]
  · have hchar : s.mode = .char := by
      cases hm' : s.mode with
      | char => rfl
      | word => exact absurd hm' hm
    rw [if_neg hm, h.charTable hchar, ← hsymtab]

/-- CD.DECODE reads sections that are a table, a tree and the codes of symbols (R266). -/
theorem decodeSections_of_sections (h : Sections s table tree payload list T ids codes outs) (hc : s.cfg.wellFormed = true)
    (hn : s.NodesOk) (hsymtab : s.symtab = []) (hout : s.outLen = 0) (hread : s.InReadable 0 s.inLen.toNat)
    (htt : table ≤ tree) (htp : tree ≤ payload) (hpi : payload ≤ s.inLen.toNat)
    (hroom : s.nodes.length + T.size ≤ s.cfg.nodeMax) (hhandles : s.nextHandle + T.size ≤ 0xFFFFFFFF)
    (hw : s.OutWritable 0 outs.flatten.length) {count : Word} (hcount : count.toNat = ids.length) :
    ∃ u root, Parsed (T.syms.map fun x => (x, 0)) T (releaseRoot { s with symtab := list }) u root ∧
      decodeSections table tree payload count s = .ok ⟨word outs.flatten.length, count, 0, 0⟩
        ({ u with root := root }.decoding payload root codes.flatten.length outs.flatten ids.length) := by
  have htree : tree < 2 ^ 32 := by have := s.inLen.isLt; omega
  obtain ⟨rest, hrest⟩ := h.treeBits
  obtain ⟨rest', hrest'⟩ := h.payloadBits
  have hn' : ({ s with symtab := list } : State).NodesOk := hn.congr rfl rfl rfl rfl rfl
  have hleft : (releaseRoot { s with symtab := list }).nodes.length ≤ s.nodes.length := (freeTree_sublist _ _).length_le
  obtain ⟨u, hp, hdeser⟩ := deserTree_of_tree (s := { s with symtab := list }) (a := tree) (b := payload) ⟨htp, hpi⟩
    (hread.sub (Nat.zero_le _) (by omega)) hn' hrest.symm h.fits (show _ ≤ s.cfg.nodeMax by omega) hhandles
  obtain ⟨hok, hT⟩ := hp.rooted (releaseRoot_nodesOk hn')
  refine ⟨u, _, hp, ?_⟩
  generalize word (({ s with symtab := list } : State).nextHandle + T.size - 1) = root at hp hdeser hok hT
  have hcfg : u.cfg = s.cfg := hp.cfg
  have hmode : u.mode = s.mode := hp.mode
  have hin : ∀ a n, ({ u with root := root } : State).inBytes a n = s.inBytes a n := fun a n => by rw [hp.rest]; rfl
  have hlen : u.inLen = s.inLen := by rw [hp.rest]; rfl
  have hout' : u.outLen = 0 := by rw [hp.rest]; exact hout
  have hsym : ∀ id, ({ u with root := root } : State).symbolBytes id = ({ s with symtab := list } : State).symbolBytes id :=
    fun id => by rw [hp.rest]; rfl
  have hpass := decodePass_of_codes (s := { u with root := root }) (count := count) (a := payload) (b := u.inLen.toNat)
    (show u.cfg.wellFormed = true by rwa [hcfg]) hok ⟨by rw [hlen]; exact hpi, Nat.le_refl _⟩
    (show ∀ x ∈ u.cfg.ioBadIn, _ by rw [hcfg, hlen]; exact hread.sub (Nat.zero_le _) (by omega)) hT h.coded
    (by simp only [hsym]; exact h.emits) (by rw [hin, hlen]; exact hrest'.symm)
    (show State.OutWritable _ u.outLen.toNat _ by rw [hout']; unfold State.OutWritable at hw ⊢; rw [hcfg]; exact hw) hcount
  unfold decodeSections
  rw [decodeTable_of_sections h hsymtab htt htree (hread.sub (Nat.zero_le _) (by omega)), bind_ok,
    hdeser, bind_ok]
  have hend : (({ u with root := root } : State).decoding payload root codes.flatten.length outs.flatten ids.length).outLen =
      word outs.flatten.length := by
    have := wrote_end (s := { u with root := root }) (x := outs.flatten) (show u.cfg.wellFormed = true by rwa [hcfg])
      (show State.OutWritable _ u.outLen.toNat _ by rw [hout']; unfold State.OutWritable at hw ⊢; rw [hcfg]; exact hw)
    have hzero : ({ u with root := root } : State).outLen.toNat = 0 := congrArg BitVec.toNat hout'
    rw [← word_toNat (State.outLen _)]
    exact congrArg word (this.trans (by rw [hzero, Nat.zero_add]))
  have hemitted : word ids.length = count := by rw [← hcount, word_toNat]
  rw [hpass, bind_ok, hend]
  exact congrArg (fun n => Ruling.ok (⟨_, n, 0, 0⟩ : Results) _) hemitted

/-- The bytes of a range of OUT, given one by one. -/
theorem map_outByte_eq {t : State} {v : Bytes} (h : ∀ x, x < v.length → t.outByte x = v.getD x 0) :
    (List.range v.length).map t.outByte = v := by
  refine List.ext_getElem (by simp) fun x hx hx' => ?_
  simp only [List.getElem_map, List.getElem_range]
  rw [h x hx', List.getD_eq_getElem _ _ hx']

/-- What CD.DECODE of a container with symbols leaves (R266). -/
structure Decoded (s : State) (T : Tree) (list : List Bytes) (symCount emitted : Word) (empty : Bool) (out : Bytes)
    (t : State) : Prop where
  outLen : t.outLen = word out.length
  bytes : (List.range out.length).map t.outByte = out
  tree : t.rootTree = some T
  symtab : t.symtab = list
  symCount : t.symCount = symCount
  emitted : t.emitted = emitted
  code : t.code = []
  empty : t.status.empty = empty
  same : t.ft = s.ft ∧ t.trie = s.trie ∧ t.pq = s.pq ∧ t.bb = s.bb ∧ t.mode = s.mode
  fault : t.status.fault = s.status.fault

/-- The tree and the bytes that the sections left are those that CD.DECODE answers with. -/
theorem decoded_of_parsed {u : State} {root : Word} {counts : List (Word × Word)} {payload k j : Nat} {count : Word}
    {out : Bytes} (hp : Parsed counts T (releaseRoot { s with symtab := list }) u root) (hc : s.cfg.wellFormed = true)
    (hn : s.NodesOk) (hout : s.outLen = 0) (hw : s.OutWritable 0 out.length)
    (hcount : count.toNat = j) :
    Decoded s T list s.symCount count s.status.empty out ({ u with root := root }.decoding payload root k out j) := by
  obtain ⟨-, hT⟩ := hp.rooted (releaseRoot_nodesOk (hn.congr rfl rfl rfl rfl rfl))
  have hcfg : u.cfg = s.cfg := hp.cfg
  have hlen : u.outLen = 0 := by rw [hp.rest]; exact hout
  have hzero : ({ u with root := root } : State).outLen.toNat = 0 := congrArg BitVec.toNat hlen
  have hend := wrote_end (s := { u with root := root }) (x := out) (show u.cfg.wellFormed = true by rwa [hcfg])
    (by rw [hzero]; unfold State.OutWritable at hw ⊢; exact hcfg.symm ▸ hw)
  exact {
    outLen := by rw [← word_toNat (State.outLen _)]; exact congrArg word (hend.trans (by rw [hzero, Nat.zero_add]))
    bytes := map_outByte_eq fun x hx => by
      have hbyte := outByte_wrote { u with root := root } ({ u with root := root } : State).outLen.toNat x out
      rw [if_pos ⟨by omega, by omega⟩, show x - ({ u with root := root } : State).outLen.toNat = x by omega] at hbyte
      exact hbyte
    tree := hT
    symtab := by show u.symtab = list; rw [hp.rest]; rfl
    symCount := by show u.symCount = s.symCount; rw [hp.rest]; rfl
    emitted := by show word j = count; rw [← hcount, word_toNat]
    code := by show u.code = []; rw [hp.rest]; rfl
    empty := by show u.status.empty = s.status.empty; rw [hp.rest]; rfl
    same := by
      show u.ft = _ ∧ u.trie = _ ∧ u.pq = _ ∧ u.bb = _ ∧ u.mode = _
      rw [hp.rest]
      exact ⟨rfl, rfl, rfl, rfl, rfl⟩
    fault := by show u.status.fault = _; rw [hp.rest]; rfl }

theorem decodeSections_decoded (hn : s.NodesOk) (h : Sections s table tree payload list T ids codes outs)
    (hc : s.cfg.wellFormed = true) (hsymtab : s.symtab = []) (hout : s.outLen = 0) (hread : s.InReadable 0 s.inLen.toNat)
    (htt : table ≤ tree) (htp : tree ≤ payload) (hpi : payload ≤ s.inLen.toNat)
    (hroom : s.nodes.length + T.size ≤ s.cfg.nodeMax) (hhandles : s.nextHandle + T.size ≤ 0xFFFFFFFF)
    (hw : s.OutWritable 0 outs.flatten.length) {count : Word} (hcount : count.toNat = ids.length) :
    ∃ t, decodeSections table tree payload count s = .ok ⟨word outs.flatten.length, count, 0, 0⟩ t ∧
      Decoded s T list s.symCount count s.status.empty outs.flatten t := by
  obtain ⟨u, root, hp, hrule⟩ :=
    decodeSections_of_sections h hc hn hsymtab hout hread htt htp hpi hroom hhandles hw hcount
  exact ⟨_, hrule, decoded_of_parsed hp hc hn hout hw hcount⟩

/-- What the header leaves: the node store and CURSOR of `free_tree`, and registers with values of their own. -/
theorem counted_eq (s : State) (count : Word) : ∃ nodes cursor, nodes.length ≤ s.nodes.length ∧
    (s.counted count).setEmpty false = { s with
      nodes := nodes, root := nullHandle, cursor := cursor, code := [], symtab := [], outLen := 0, emitted := 0,
      symCount := count, status := { s.status with empty := false } } :=
  ⟨_, _, (freeTree_sublist s.root s).length_le, rfl⟩

/-- CD.DECODE of a container with symbols reads it (R266). -/
theorem ruleCdDecode_of_sections {w0 w4 w8 count : Word}
    (h : Sections s w4.toNat w0.toNat w8.toNat list T ids codes outs) (hc : s.cfg.wellFormed = true) (hn : s.NodesOk)
    (hread : s.InReadable 0 s.inLen.toNat) (h16 : 16 ≤ w4.toNat)
    (hh : s.inBytes 0 16 = u32le w0 ++ u32le w4 ++ u32le w8 ++ u32le count)
    (htt : w4.toNat ≤ w0.toNat) (htp : w0.toNat ≤ w8.toNat) (hpi : w8.toNat ≤ s.inLen.toNat) (hne : count ≠ 0)
    (hroom : s.nodes.length + T.size ≤ s.cfg.nodeMax) (hhandles : s.nextHandle + T.size ≤ 0xFFFFFFFF)
    (hw : s.OutWritable 0 outs.flatten.length) (hcount : count.toNat = ids.length) :
    ∃ t, ruleCdDecode s = .ok ⟨word outs.flatten.length, count, 0, 0⟩ t ∧
      Decoded s T list count count false outs.flatten t := by
  have hbase : ((s.counted count).setEmpty false).NodesOk := (decodeBase_nodesOk hn).congr rfl rfl rfl rfl rfl
  obtain ⟨nodes, cursor, hleft, hstart⟩ := counted_eq s count
  rw [ruleCdDecode_of_header (by omega) (hread.sub (Nat.zero_le _) (by omega)) hh, need_pos h16, need_pos htt,
    need_pos htp, need_pos hpi, if_neg hne, hstart]
  rw [hstart] at hbase
  obtain ⟨t, hrule, hd⟩ := decodeSections_decoded (count := count) hbase
    ⟨h.nonempty, h.charTable, h.wordTable, h.fits, h.treeBits, h.coded, h.payloadBits, h.emits⟩ hc rfl rfl hread
    htt htp hpi (Nat.le_trans (Nat.add_le_add_right hleft _) hroom) hhandles hw hcount
  exact ⟨t, hrule, { hd with same := hd.same, fault := hd.fault }⟩

end sections

/-- CD.DECODE of a container of no symbols (R266). -/
theorem ruleCdDecode_of_empty {s : State} {w0 w4 w8 : Word} (h16 : 16 ≤ w4.toNat) (hread : s.InReadable 0 s.inLen.toNat)
    (hh : s.inBytes 0 16 = u32le w0 ++ u32le w4 ++ u32le w8 ++ u32le 0)
    (htt : w4.toNat ≤ w0.toNat) (htp : w0.toNat ≤ w8.toNat) (hpi : w8.toNat ≤ s.inLen.toNat) :
    ruleCdDecode s = .ok Results.zero
      { (s.counted 0).setEmpty true with cursor := nullHandle, dpos := word w8.toNat, dbit := 0 } := by
  rw [ruleCdDecode_of_header (by omega) (hread.sub (Nat.zero_le _) (by omega)) hh, need_pos h16, need_pos htt,
    need_pos htp, need_pos hpi, if_pos rfl]

/-- Settles O49: the header's checks in order, then the sections, each read by its own rule. -/
theorem cdDecodeReadsTheContainer : Obligations.CdDecodeReadsTheContainer := by
  intro s tree table payload count hs hf hread
  refine ⟨fun hshort => ?_, fun h16 hh =>
    ⟨fun h => ?_, fun h4 h => ?_, fun h4 h0 h => ?_, fun h4 h0 h8 hi => ⟨?_, ?_⟩⟩⟩
  · exact exec_of_cleanup_raise .corruptContainer rfl hf (ruleCdDecode_of_short hshort)
  all_goals have hheader := ruleCdDecode_of_header h16 (hread.sub (Nat.zero_le _) (by omega)) hh
  · rw [need_neg (Nat.not_le.2 h)] at hheader
    exact exec_of_cleanup_raise .corruptContainer rfl hf hheader
  · rw [need_pos h4, need_neg (Nat.not_le.2 h)] at hheader
    exact exec_of_cleanup_raise .corruptContainer rfl hf hheader
  · rw [need_pos h4, need_pos h0] at hheader
    by_cases h8 : tree.toNat ≤ payload.toNat
    · rw [need_pos h8, need_neg (by omega)] at hheader
      exact exec_of_cleanup_raise .corruptContainer rfl hf hheader
    · rw [need_neg h8] at hheader
      exact exec_of_cleanup_raise .corruptContainer rfl hf hheader
  · rintro rfl
    obtain ⟨gone, kept⟩ := freeTree_freed hs.nodes s.root
    refine ⟨_, exec_of_ok hf (ruleCdDecode_of_empty h4 hread hh h0 h8 hi), ⟨gone, kept⟩, ?_⟩
    rw [word_toNat]
    rfl
  · intro hne T list ids codes outs hnonempty hchar hword hfits htree hroom hhandles hcount hcoded hpayload hemits hw
    obtain ⟨t, ht, hd⟩ := ruleCdDecode_of_sections ⟨hnonempty, hchar, hword, hfits, htree, hcoded, hpayload, hemits⟩
      hs.config hs.nodes hread h4 hh h0 h8 hi hne hroom hhandles hw hcount
    exact ⟨_, exec_of_ok hf ht, ⟨rfl, rfl⟩, hd.outLen, hd.bytes, hd.tree, hd.symtab, hd.symCount, hd.emitted, hd.code,
      hd.empty, hd.same⟩

end Sys2Proof.Machine
end

section
/-! PROOFS. What HT.BUILD that completes needed and leaves (spec/43_huffman_tree.md R204, R209). -/

namespace Sys2Proof.Machine

section needs
variable {counts : List (Word × Word)} {ids : List Word} {total : Nat} {s u : State} {x : Unit}

theorem State.NodesOk.room_zero (h : s.NodesOk) : s.Room 0 := ⟨h.fits, h.counter⟩

/-- Leaves that are all built had room in the store and in the queue. -/
theorem buildLeaves_needs {l : List (Word × Word)} (h : s.Growing counts ids total) (hl : ∀ e ∈ l, e ∈ counts)
    (hok : buildLeaves l s = .ok x u) : s.Room l.length ∧ s.pq.entries.length + l.length ≤ s.cfg.pqMaxCap := by
  induction l generalizing s ids total with
  | nil =>
    have := h.queue.fits
    have := h.queue.most
    exact ⟨h.nodes.room_zero, by rw [List.length_nil]; omega⟩
  | cons e l ih =>
    obtain ⟨handle, t, halloc, hrest⟩ := bind_eq_ok.1 hok
    obtain ⟨hroom, -, rfl⟩ := alloc_eq_ok halloc
    obtain ⟨_, t', hinsert, -⟩ := bind_eq_ok.1 hrest
    have hcap : ¬(s.pq.entries.length = s.pq.cap ∧ s.pq.cap = s.cfg.pqMaxCap) := fun hfull => by
      have hfault := pqInsert_of_full (s := s.allocated (.leaf e.1 e.2)) hfull e.2 handle
      cases hfault.symm.trans hinsert
    have hone := canAlloc_iff_room.1 hroom
    rw [buildLeaves_cons hone hcap] at hok
    obtain ⟨hr, hq⟩ := ih (h.leaf hroom hcap (hl e (List.mem_cons_self ..)))
      (fun e he => hl e (List.mem_cons_of_mem _ he)) hok
    have hb := built_leaf h.nodes e.1 e.2
    have hlen : (s.queuedLeaf e.1 e.2).pq.entries.length = s.pq.entries.length + 1 := push_length ..
    rw [hlen, hb.cfg] at hq
    rw [List.length_cons]
    exact ⟨by rw [Nat.add_comm]; exact hb.room.1 hr, by omega⟩

/-- Merges that all succeed had room in the store, and sums that fit a word. -/
theorem buildMerges_needs {fuel : Nat} (h : s.Growing counts ids total) (hfuel : s.pq.entries.length ≤ fuel + 1)
    (hok : buildMerges fuel s = .ok x u) : s.Room (s.pq.entries.length - 1) ∧ total < 2 ^ 32 := by
  have few {s : State} {ids : List Word} (h : s.Growing counts ids total) (hle : s.pq.entries.length ≤ 1) :
      s.Room (s.pq.entries.length - 1) ∧ total < 2 ^ 32 := by
    have h0 : s.pq.entries.length - 1 = 0 := by omega
    refine ⟨h0 ▸ h.nodes.room_zero, ?_⟩
    by_contra hbig
    have := h.two_le (by omega)
    omega
  induction fuel generalizing s ids with
  | zero => exact few h hfuel
  | succ fuel ih =>
    by_cases hle : s.pq.entries.length ≤ 1
    · exact few h hle
    · have hstep : buildMerges (fuel + 1) s = _ := if_neg hle
      obtain ⟨a, t, hmerge, -⟩ := bind_eq_ok.1 (hstep.symm.trans hok)
      obtain ⟨y, z, htop, hsum, hroom, -, -⟩ := mergeStep_eq_ok hmerge
      have hone := canAlloc_iff_room.1 hroom
      rw [buildMerges_succ h.queue htop hsum hone] at hok
      have hlen := merged_length htop
      obtain ⟨hr, ht⟩ := ih (h.merge htop hsum hroom) (by omega) hok
      have hroom' := (built_merge h.nodes y z).room.1 hr
      exact ⟨hroom'.le (by omega), ht⟩

end needs

/-- A tree that is built had room for its nodes, its items and its weight (R209). -/
theorem buildTree_needs {s t : State} {res : Results} (hc : s.cfg.wellFormed = true) (hn : s.NodesOk)
    (hempty : s.pq = PQueue.fresh s.cfg) (hok : buildTree s = .ok res t) : s.ft.length ≤ s.cfg.pqMaxCap ∧
      s.Room (2 * s.ft.length - 1) ∧ (s.ft.map fun e => e.2.toNat).sum < 2 ^ 32 := by
  rw [buildTree_eq] at hok
  obtain ⟨_, u, hleaves, hok⟩ := bind_eq_ok.1 hok
  obtain ⟨_, v, hmerges, -⟩ := bind_eq_ok.1 hok
  obtain ⟨hr, hq⟩ := buildLeaves_needs (growing_fresh hc hn hempty s.leafCounts).1 (fun _ => id) hleaves
  rw [leafCounts_length] at hr hq
  have hq : s.ft.length ≤ s.cfg.pqMaxCap := by omega
  obtain ⟨u', hu', hb, hlen, hg, -⟩ := buildLeaves_of_table hc hn hempty hq hr
  cases hu'.symm.trans hleaves
  obtain ⟨hr', ht⟩ := buildMerges_needs hg (by omega) hmerges
  exact ⟨hq, (hb.room.1 hr').le (by omega), ht⟩

/-! ## HT.BUILD as a whole -/

/-- What HT.BUILD of a table with symbols leaves (R204). -/
structure TreeBuilt (s t : State) (T : Tree) : Prop where
  tree : t.rootTree = some T
  syms : T.syms.Perm (symbolIds s.mode (s.ft.map Prod.fst))
  live : t.root ≠ nullHandle
  sound : t.Sound
  rest : t = { s with
    nodes := t.nodes
    nextHandle := t.nextHandle
    root := t.root
    cursor := t.cursor
    pq := t.pq
    pqOrder := .minFirst
    code := []
    symtab := if s.mode = .word then s.ft.map Prod.fst else []
    status := { s.status with empty := false } }

/-- The released state keeps the invariants. -/
theorem State.Sound.htBuild {s t : State} {res : Results} (hs : s.Sound) (h : ruleHtBuild s = .ok res t) : t.Sound :=
  ((rule_chain (strict := True) (i := .htBuild) (isChained_of_cleanup rfl) fun _ => hs.nodes).of_ok h).sound trivial hs

theorem State.NodesOk.root_ne_null {s : State} (h : s.NodesOk) {T : Tree} (hT : s.rootTree = some T) : s.root ≠ nullHandle := by
  intro hnull
  have hlive := ((h.rootTree T).1 hT).live
  rw [hnull] at hlive
  rw [NodeMap.live, h.null] at hlive
  cases hlive

section htBuild
variable {s : State} (hs : s.Sound)
include hs

theorem start_ok : (buildRelease s).keyed.cfg.wellFormed = true ∧ (buildRelease s).keyed.NodesOk ∧
    (buildRelease s).keyed.pq = PQueue.fresh (buildRelease s).keyed.cfg := by
  have hn : (buildRelease s).keyed.NodesOk := by
    rw [keyed_eq]; exact (buildRelease_nodesOk hs.nodes).congr rfl rfl rfl rfl rfl
  refine ⟨?_, hn, ?_⟩ <;> rw [start_eq]
  · exact hs.config
  · rfl

theorem start_nodes_le : (buildRelease s).keyed.nodes.length ≤ s.nodes.length := by
  rw [start_eq]
  exact (buildRelease_freed hs.nodes).2.2.sub.length_le

/-- HT.BUILD of a table with symbols, with room for everything (R204, R209). -/
theorem ruleHtBuild_of_room (hl : s.LegalKeys) (hne : s.ft ≠ []) (hq : s.ft.length ≤ s.cfg.pqMaxCap)
    (hroom : (buildRelease s).keyed.Room (2 * s.ft.length - 1)) (htotal : (s.ft.map fun e => e.2.toNat).sum < 2 ^ 32) :
    ∃ t T, ruleHtBuild s = .ok ⟨t.root, word s.ft.length, 0, 0⟩ t ∧ TreeBuilt s t T := by
  obtain ⟨hc, hn, hpq⟩ := start_ok hs
  have hft : (buildRelease s).keyed.ft = s.ft := by rw [start_eq]
  have hcfg : (buildRelease s).keyed.cfg = s.cfg := by rw [start_eq]
  have hmode : (buildRelease s).keyed.mode = s.mode := by rw [start_eq]
  obtain ⟨t, T, ht, hT, hperm, -, hrest⟩ := buildTree_of_room hc hn hpq (hft.symm ▸ hne) (by rwa [hft, hcfg])
    (by rwa [hft]) (by rwa [hft])
  rw [hft] at ht
  have hrule : ruleHtBuild s = .ok ⟨t.root, word s.ft.length, 0, 0⟩ t := by
    rw [ruleHtBuild_of_legal hl, if_neg hne, ht]
  have hsound := hs.htBuild hrule
  have hroot := (hsound.nodes.rootTree T).2 hT
  rw [hft, hmode] at hperm
  refine ⟨t, T, hrule, hroot, hperm, hsound.nodes.root_ne_null hroot, hsound, ?_⟩
  rw [start_eq] at hrest
  have hcounter := congrArg State.nextHandle hrest
  have hcursor := congrArg State.cursor hrest
  have hqueue := congrArg State.pq hrest
  dsimp only at hcounter hcursor hqueue
  rw [hcounter, hcursor, hqueue]
  exact hrest

/-- What HT.BUILD that completes has done (R204, R209). -/
theorem ruleHtBuild_eq_ok {t : State} {res : Results} (h : ruleHtBuild s = .ok res t) :
    (s.ft = [] ∧ t = (buildRelease s).keyed.setEmpty true) ∨ s.ft ≠ [] ∧ s.LegalKeys ∧ ∃ T, TreeBuilt s t T := by
  by_cases hl : s.LegalKeys
  · by_cases hne : s.ft = []
    · rw [ruleHtBuild_of_legal hl, if_pos hne] at h
      cases h
      exact .inl ⟨hne, rfl⟩
    · have hrule := h
      rw [ruleHtBuild_of_legal hl, if_neg hne] at h
      obtain ⟨hc, hn, hpq⟩ := start_ok hs
      obtain ⟨hq, hroom, htotal⟩ := buildTree_needs hc hn hpq h
      have hft : (buildRelease s).keyed.ft = s.ft := by rw [start_eq]
      have hcfg : (buildRelease s).keyed.cfg = s.cfg := by rw [start_eq]
      rw [hft] at hq hroom htotal
      obtain ⟨t', T, ht', hb⟩ := ruleHtBuild_of_room hs hl hne (hcfg ▸ hq) hroom htotal
      cases ht'.symm.trans hrule
      exact .inr ⟨hne, hl, T, hb⟩
  · rw [ruleHtBuild_of_illegal hl] at h
    cases h

end htBuild

end Sys2Proof.Machine
end

section
/-! PROOFS. The container that CD.ENCODE writes (spec/46_codec_encode.md R252; spec/30_encoding.md R110 to R117). -/

namespace Sys2Proof.Machine

/-! ## The pass that completes -/

theorem State.SymbolAt.congr {s t : State} (hm : t.mode = s.mode) (ht : t.trie = s.trie) {data : Bytes} {id : Word} {n : Nat}
    (h : s.SymbolAt data id n) : t.SymbolAt data id n := by
  unfold State.SymbolAt at h ⊢
  rwa [hm, ht]

theorem State.Tokens.congr {s t : State} (hm : t.mode = s.mode) (ht : t.trie = s.trie) {data rest : Bytes} {ids : List Word}
    (h : s.Tokens data ids rest) : t.Tokens data ids rest := by
  induction h with
  | done data => exact .done data
  | symbol hs _ ih => exact .symbol (hs.congr hm ht) ih

section pass
variable {s : State} (hc : s.cfg.wellFormed = true) (hb : s.BuffersOk) (ht : s.TrieOk)
include hc hb ht

/-- A loop that completes has split the input into symbols with codes. -/
theorem encodeLoop_eq_ok {base fuel p : Nat} {data : Bytes} {bits : Bits} {n : Word} {x : Unit} {t : State}
    (hbits : bits.length ≤ s.cfg.bbMaxBits) (hfuel : data.length ≤ fuel)
    (h : encodeLoop base fuel p data (s.withPay bits n) = .ok x t) : ∃ ids codes, s.Tokens data ids [] ∧
      List.Forall₂ (fun id c => mapFind id s.code = some c) ids codes ∧
      bits.length + codes.flatten.length ≤ s.cfg.bbMaxBits := by
  induction fuel generalizing p data bits n with
  | zero =>
    rw [List.length_eq_zero_iff.1 (Nat.le_zero.1 hfuel)]
    exact ⟨[], [], .done [], .nil, hbits⟩
  | succ fuel ih =>
    cases data with
    | nil => exact ⟨[], [], .done [], .nil, hbits⟩
    | cons first rest =>
      rcases nextSymbol_cases base p first rest (s.withPay bits n) with ⟨id, k, hs, hnext⟩ | hnext
      · have hs : s.SymbolAt (first :: rest) id k := hs
        rw [encodeLoop, hnext, bind_ok] at h
        obtain ⟨_, u, hput, -⟩ := bind_eq_ok.1 h
        cases hcode : mapFind id s.code with
        | none =>
          have hcode' : mapFind id (s.withPay bits n).code = none := hcode
          rw [putCode, hcode'] at hput
          cases hput
        | some c =>
          have hcode' : mapFind id (s.withPay bits n).code = some c := hcode
          rw [putCode, hcode'] at hput
          obtain ⟨hfit, -⟩ := need_eq_ok.1 hput
          rw [withPay_buf hc hb] at hfit
          have hfit : bits.length + c.length ≤ s.cfg.bbMaxBits := hfit
          rw [putCode_withPay hc hb hcode hfit, bind_ok] at h
          have hk := hs.covers ht
          have hdrop : ((first :: rest).drop k).length = (first :: rest).length - k := List.length_drop
          obtain ⟨ids, codes, htok, hcodes, hlen⟩ := ih (bits := bits ++ c) (by rwa [List.length_append])
            (by rw [hdrop]; omega) h
          refine ⟨id :: ids, c :: codes, .symbol hs htok, .cons hcode hcodes, ?_⟩
          rw [List.flatten_cons, List.length_append]
          rw [List.length_append] at hlen
          omega
      · rw [encodeLoop, hnext] at h
        cases h

/-- A pass that completes has split its section into symbols with codes (R250). -/
theorem encodePass_eq_ok {a b : Nat} {res : Results} {t : State} (h : encodePass a b s = .ok res t) :
    s.InReadable a (b - a) ∧ ∃ ids codes, s.Tokens (s.inBytes a (b - a)) ids [] ∧
      List.Forall₂ (fun id c => mapFind id s.code = some c) ids codes ∧ codes.flatten.length ≤ s.cfg.bbMaxBits := by
  obtain ⟨hrange, h'⟩ := need_eq_ok.1 h
  obtain ⟨v, u, hread, -⟩ := bind_eq_ok.1 h'
  obtain ⟨hreadable, -, -⟩ := memRead_eq_ok hread
  rw [encodePass_of_range hc hb hrange hreadable] at h
  obtain ⟨_, u, hloop, -⟩ := bind_eq_ok.1 h
  obtain ⟨ids, codes, htok, hcodes, hfit⟩ := encodeLoop_eq_ok hc hb ht (Nat.zero_le _) (by simp) hloop
  exact ⟨hreadable, ids, codes, htok, hcodes, by simpa using hfit⟩

end pass

/-! ## Writing one part after another -/

/-- Two parts written one after the other from OUT address 0 are one part. -/
theorem wrote_join {s : State} (hc : s.cfg.wellFormed = true) (hzero : s.outLen.toNat = 0) {x y : Bytes} {n : Nat}
    (hn : n = x.length) (hw : s.OutWritable 0 (x ++ y).length) : (s.wrote 0 x).wrote n y = s.wrote 0 (x ++ y) := by
  have hjoin := wrote_wrote_end (s := s) (x := x) (y := y) hc (by rwa [hzero])
  have hend := wrote_end (s := s) (x := x) hc (by rw [hzero]; exact hw.sub (Nat.le_refl _) (by simp))
  rw [hzero] at hjoin hend
  rw [hn, ← hjoin, hend, Nat.zero_add]

theorem setBuf_wrote (s : State) (k : Nat) (b : BitBuffer) (a : Nat) (v : Bytes) :
    (s.setBuf k b).wrote a v = (s.wrote a v).setBuf k b := rfl

theorem withPay_wrote (s : State) (bits : Bits) (n : Word) (a : Nat) (v : Bytes) :
    (s.withPay bits n).wrote a v = (s.wrote a v).withPay bits n := rfl

/-- HT.SER that passes its checks and can write (R220). -/
theorem serTree_of_writable {s : State} {addr : Nat} {T : Tree} (hT : s.rootTree = some T)
    (hnamed : s.mode = .char → ∀ x ∈ T.syms, x.toNat ≤ 255) (hsize : (T.ser s.mode).length ≤ s.cfg.bbMaxBits)
    (hw : s.OutWritable addr (pack (T.ser s.mode)).length) : serTree addr s =
      .ok ⟨word (bytesFor (T.ser s.mode).length), word (T.ser s.mode).length, 0, 0⟩
        ((s.wrote addr (pack (T.ser s.mode))).setBuf 1
          ⟨T.ser s.mode, grow s.cfg (s.buf 1).cap (bytesFor (T.ser s.mode).length)⟩) := by
  rw [serTree_of_checked hT hnamed hsize, memWrite_ok hw]
  rfl

section append
variable {s : State} (hc : s.cfg.wellFormed = true) (hzero : s.outLen.toNat = 0) {x : Bytes} {n : Nat} (hn : n = x.length)
include hc hzero hn

/-- Writing the next part. -/
theorem memWrite_append {y : Bytes} (hw : s.OutWritable 0 (x ++ y).length) :
    memWrite n y (s.wrote 0 x) = .ok () (s.wrote 0 (x ++ y)) := by
  have hy : (s.wrote 0 x).OutWritable n y.length := hw.sub (s := s) (Nat.zero_le _) (by simp [hn])
  rw [memWrite_ok hy, wrote_join hc hzero hn hw]

/-- Serializing as the next part. -/
theorem serTree_append {T : Tree} (hT : s.rootTree = some T) (hnamed : s.mode = .char → ∀ x ∈ T.syms, x.toNat ≤ 255)
    (hsize : (T.ser s.mode).length ≤ s.cfg.bbMaxBits) (hw : s.OutWritable 0 (x ++ pack (T.ser s.mode)).length) :
    serTree n (s.wrote 0 x) = .ok ⟨word (bytesFor (T.ser s.mode).length), word (T.ser s.mode).length, 0, 0⟩
      ((s.wrote 0 (x ++ pack (T.ser s.mode))).setBuf 1
        ⟨T.ser s.mode, grow s.cfg (s.buf 1).cap (bytesFor (T.ser s.mode).length)⟩) := by
  have hy : (s.wrote 0 x).OutWritable n (pack (T.ser s.mode)).length := hw.sub (s := s) (Nat.zero_le _) (by simp [hn])
  rw [← wrote_join hc hzero hn hw]
  exact serTree_of_writable (s := s.wrote 0 x) hT hnamed hsize hy

end append

theorem memWrite_eq_ok {a : Nat} {v : Bytes} {s t : State} {x : Unit} (h : memWrite a v s = .ok x t) :
    s.OutWritable a v.length ∧ t = s.wrote a v := by
  rcases memWrite_cases a v s with ⟨hw, e⟩ | ⟨y, -, e⟩
  · cases e.symm.trans h
    exact ⟨hw, rfl⟩
  · cases e.symm.trans h

theorem State.OutWritable.congr {s t : State} (hc : t.cfg = s.cfg) {a n : Nat} (h : s.OutWritable a n) :
    t.OutWritable a n := by
  unfold State.OutWritable at h ⊢
  rwa [hc]

theorem State.OutWritable.append {s : State} {a b n m : Nat} (h : s.OutWritable a n) (hb : b = a + n)
    (h' : s.OutWritable b m) : s.OutWritable a (n + m) := by
  subst hb
  rcases h' with rfl | ⟨hcap', hbad'⟩
  · exact h
  · rcases h with rfl | ⟨-, hbad⟩
    · rw [Nat.zero_add]
      exact .inr ⟨hcap', hbad'⟩
    · refine .inr ⟨by omega, fun x hx hin => ?_⟩
      by_cases hlt : x < a + n
      · exact hbad x hx ⟨hin.1, hlt⟩
      · exact hbad' x hx (by omega)

/-- A state with the same input, codes and tree: what CD.ENCODE writes does not change what it reads. -/
structure SameSources (s t : State) : Prop where
  cfg : t.cfg = s.cfg
  mode : t.mode = s.mode
  inLen : t.inLen = s.inLen
  inMem : t.inMem = s.inMem
  trie : t.trie = s.trie
  code : t.code = s.code
  tree : t.rootTree = s.rootTree

theorem SameSources.trans {s t u : State} (h : SameSources s t) (h' : SameSources t u) : SameSources s u :=
  ⟨h'.cfg.trans h.cfg, h'.mode.trans h.mode, h'.inLen.trans h.inLen, h'.inMem.trans h.inMem, h'.trie.trans h.trie,
    h'.code.trans h.code, h'.tree.trans h.tree⟩

theorem sameSources_wrote (s : State) (a : Nat) (v : Bytes) : SameSources s (s.wrote a v) :=
  ⟨rfl, rfl, rfl, rfl, rfl, rfl, rfl⟩

theorem sameSources_setBuf (s : State) (k : Nat) (b : BitBuffer) : SameSources s (s.setBuf k b) :=
  ⟨rfl, rfl, rfl, rfl, rfl, rfl, rfl⟩

theorem SameSources.inBytes {s t : State} (h : SameSources s t) (a n : Nat) : t.inBytes a n = s.inBytes a n := by
  unfold State.inBytes State.inByte
  rw [h.inMem]

/-! ## The container -/

/-- The symbol table of a container: the entries in WORD mode, none in CHAR mode (30_encoding.md R112). -/
def State.tableBytes (s : State) : Bytes := if s.mode = .word then symtabBytes s.symtab else []

/-- Where the tree stands in a container, and where the payload (30_encoding.md R110). -/
def State.treeOffset (s : State) : Nat := 16 + s.tableBytes.length

def State.payloadOffset (T : Tree) (s : State) : Nat := s.treeOffset + bytesFor (T.ser s.mode).length

/-- The parts of a container after its header. -/
def State.bodyBytes (T : Tree) (codes : List Bits) (s : State) : Bytes :=
  s.tableBytes ++ pack (T.ser s.mode) ++ pack codes.flatten

/-- The header of the container of a number of symbols. -/
def State.containerHeader (T : Tree) (n : Nat) (s : State) : Bytes :=
  headerBytes s.treeOffset 16 (s.payloadOffset T) (word n)

/-- CD.ENCODE from the header's place on, the codes being generated (R252). -/
def encodeFrom (s : State) : Ruling Results :=
  (memWrite 0 (List.replicate 16 0) s).bind fun _ s =>
  (memWrite 16 s.tableBytes s).bind fun _ t =>
  (serTree s.treeOffset t).bind fun ser t =>
  (encodePass 0 t.inLen.toNat t).bind fun _ t =>
  (memWrite (s.treeOffset + ser.r0.toNat) (pack (t.buf 0).bits) t).bind fun _ t =>
  (memWrite 0 (headerBytes s.treeOffset 16 (s.treeOffset + ser.r0.toNat) t.symCount) t).bind fun _ t =>
  .ok ⟨t.outLen, t.symCount, word s.treeOffset, word (s.treeOffset + ser.r0.toNat)⟩ t

theorem encodeSections_eq (s : State) : encodeSections s = (ruleCtGen s).bind fun _ s => encodeFrom s := rfl

/-- What CD.ENCODE needs once the codes are generated: the input splits into symbols with codes, and everything fits. -/
structure Encodes (s : State) (T : Tree) (ids : List Word) (codes : List Bits) : Prop where
  named : s.mode = .char → ∀ x ∈ T.syms, x.toNat ≤ 255
  treeFits : (T.ser s.mode).length ≤ s.cfg.bbMaxBits
  readable : s.InReadable 0 s.inLen.toNat
  tokens : s.Tokens (s.inBytes 0 s.inLen.toNat) ids []
  coded : List.Forall₂ (fun id c => mapFind id s.code = some c) ids codes
  codesFit : codes.flatten.length ≤ s.cfg.bbMaxBits
  writable : s.OutWritable 0 (16 + (s.bodyBytes T codes).length)

/-- The state with the symbol table and the tree written, and room for the header before them. -/
def State.withTree (T : Tree) (s : State) : State :=
  (s.wrote 0 (List.replicate 16 0 ++ s.tableBytes ++ pack (T.ser s.mode))).setBuf 1
    ⟨T.ser s.mode, grow s.cfg (s.buf 1).cap (bytesFor (T.ser s.mode).length)⟩

/-- The state with the sections written, and room for the header before them. -/
def State.withSections (T : Tree) (ids : List Word) (codes : List Bits) (s : State) : State :=
  ((s.wrote 0 (List.replicate 16 0 ++ s.bodyBytes T codes)).setBuf 1
    ⟨T.ser s.mode, grow s.cfg (s.buf 1).cap (bytesFor (T.ser s.mode).length)⟩).withPay codes.flatten (word ids.length)

/-- The state with the container written. -/
def State.encoded (T : Tree) (ids : List Word) (codes : List Bits) (s : State) : State :=
  (s.withSections T ids codes).wrote 0 (s.containerHeader T ids.length)

/-- SCR is within its bounds after it has taken bits that fit. -/
theorem serialized_buffersOk {s : State} (hc : s.cfg.wellFormed = true) (hb : s.BuffersOk) {bits : Bits}
    (hfit : bits.length ≤ s.cfg.bbMaxBits) (a : Nat) (v : Bytes) :
    ((s.wrote a v).setBuf 1 ⟨bits, grow s.cfg (s.buf 1).cap (bytesFor bits.length)⟩).BuffersOk :=
  State.BuffersOk.setBuf (s := s.wrote a v) (hb.congr rfl rfl)
    ((hb.buf hc 1).grown hc hfit (le_bytesFor _) (bytesFor_le_most hfit)) 1

section encode
variable {s : State} {T : Tree} {ids : List Word} {codes : List Bits}

/-- The pass over an input that can be encoded, also after the first parts are written. -/
theorem encodePass_of_encodes (h : Encodes s T ids codes) {u : State} (hsame : SameSources s u)
    (hc : u.cfg.wellFormed = true) (hb : u.BuffersOk) (ht : u.TrieOk) : encodePass 0 u.inLen.toNat u =
      .ok ⟨word ids.length, word codes.flatten.length, 0, 0⟩ (u.withPay codes.flatten (word ids.length)) := by
  refine encodePass_of_tokens hc hb ht ⟨Nat.zero_le _, Nat.le_refl _⟩ ?_ ?_ ?_ ?_
  · rw [hsame.inLen, State.InReadable, hsame.cfg]; exact h.readable
  · rw [hsame.inLen, hsame.inBytes]; exact h.tokens.congr hsame.mode hsame.trie
  · rw [hsame.code]; exact h.coded
  · rw [hsame.cfg]; exact h.codesFit

theorem sameSources_withTree (s : State) (T : Tree) : SameSources s (s.withTree T) :=
  (sameSources_wrote s 0 _).trans (sameSources_setBuf _ 1 _)

/-- The bytes before the payload. -/
theorem payloadOffset_eq (s : State) (T : Tree) :
    s.payloadOffset T = (List.replicate 16 0 ++ s.tableBytes ++ pack (T.ser s.mode)).length := by
  rw [List.length_append, List.length_append, List.length_replicate, pack_length]
  rfl

theorem payload_append (s : State) (T : Tree) (codes : List Bits) :
    List.replicate 16 0 ++ s.tableBytes ++ pack (T.ser s.mode) ++ pack codes.flatten =
      List.replicate 16 0 ++ s.bodyBytes T codes := by
  simp only [State.bodyBytes, List.append_assoc]

/-- The payload is written after the tree. -/
theorem withTree_wrote (hc : s.cfg.wellFormed = true) (hzero : s.outLen.toNat = 0)
    (hw : s.OutWritable 0 (16 + (s.bodyBytes T codes).length)) :
    ((s.withTree T).withPay codes.flatten (word ids.length)).wrote (s.payloadOffset T) (pack codes.flatten) =
      s.withSections T ids codes := by
  have hroom : s.OutWritable 0
      (List.replicate 16 0 ++ s.tableBytes ++ pack (T.ser s.mode) ++ pack codes.flatten).length := by
    rw [payload_append, List.length_append, List.length_replicate]
    exact hw
  rw [State.withTree, withPay_wrote, setBuf_wrote, wrote_join hc hzero (payloadOffset_eq s T) hroom, payload_append]
  rfl

theorem withSections_cfg : (s.withSections T ids codes).cfg = s.cfg := by
  simp only [State.withSections, State.withPay, State.setBuf, State.wrote]

theorem withSections_outLen : (s.withSections T ids codes).outLen =
    (s.wrote 0 (List.replicate 16 0 ++ s.bodyBytes T codes)).outLen := by
  simp only [State.withSections, State.withPay, State.setBuf]

theorem withSections_outMem : (s.withSections T ids codes).outMem =
    (s.wrote 0 (List.replicate 16 0 ++ s.bodyBytes T codes)).outMem := by
  simp only [State.withSections, State.withPay, State.setBuf]

theorem bodyBytes_length (s : State) (T : Tree) (codes : List Bits) : 16 + (s.bodyBytes T codes).length =
    s.payloadOffset T + bytesFor codes.flatten.length := by
  rw [State.bodyBytes, List.length_append, List.length_append, pack_length, pack_length, State.payloadOffset, State.treeOffset]
  omega

@[simp] theorem containerHeader_length (s : State) (T : Tree) (n : Nat) : (s.containerHeader T n).length = 16 := by
  simp [State.containerHeader, headerBytes, u32le_length]

variable (hc : s.cfg.wellFormed = true) (hb : s.BuffersOk) (ht : s.TrieOk) (hT : s.rootTree = some T)
include hc hb ht hT

/-- CD.ENCODE writes the container part by part (R252). -/
theorem encodeFrom_of_encodes (hout : s.outLen = 0) (h : Encodes s T ids codes) : encodeFrom s =
    .ok ⟨(s.encoded T ids codes).outLen, word ids.length, word s.treeOffset, word (s.payloadOffset T)⟩
      (s.encoded T ids codes) := by
  have hzero : s.outLen.toNat = 0 := by rw [hout]; rfl
  have hlen := bodyBytes_length s T codes
  have hw := h.writable
  have hser : (word (bytesFor (T.ser s.mode).length)).toNat = bytesFor (T.ser s.mode).length := by
    have hfit := h.treeFits
    have hmax := (bufferSize_of_wellFormed hc).2
    exact word_toNat_of_lt (by unfold bytesFor; omega)
  have part {x : Bytes} (hx : x.length ≤ 16 + (s.bodyBytes T codes).length) : s.OutWritable 0 x.length :=
    hw.sub (Nat.le_refl _) (by omega)
  have hoffset : s.payloadOffset T = s.treeOffset + bytesFor (T.ser s.mode).length := rfl
  have hfirst : s.treeOffset = 16 + s.tableBytes.length := rfl
  have h1 : memWrite 0 (List.replicate 16 0) s = .ok () (s.wrote 0 (List.replicate 16 0)) :=
    memWrite_ok (part (by rw [List.length_replicate]; omega))
  have h2 : memWrite 16 s.tableBytes (s.wrote 0 (List.replicate 16 0)) = _ :=
    memWrite_append hc hzero (by rw [List.length_replicate]) (part (by rw [List.length_append, List.length_replicate]; omega))
  have h3 : serTree s.treeOffset (s.wrote 0 (List.replicate 16 0 ++ s.tableBytes)) =
      .ok ⟨word (bytesFor (T.ser s.mode).length), word (T.ser s.mode).length, 0, 0⟩ (s.withTree T) :=
    serTree_append hc hzero (by rw [List.length_append, List.length_replicate, hfirst]) hT h.named h.treeFits
      (part (by rw [← payloadOffset_eq]; omega))
  have hsame := sameSources_withTree s T
  have hcu : (s.withTree T).cfg.wellFormed = true := by rw [hsame.cfg]; exact hc
  have hbu : (s.withTree T).BuffersOk := serialized_buffersOk hc hb h.treeFits ..
  have h4 := encodePass_of_encodes h hsame hcu hbu (ht.congr hsame.cfg hsame.trie)
  have h5 : memWrite (s.payloadOffset T) (pack codes.flatten) ((s.withTree T).withPay codes.flatten (word ids.length)) =
      .ok () (s.withSections T ids codes) := by
    have hroom := hw.sub (Nat.zero_le (s.payloadOffset T)) (m := (pack codes.flatten).length) (by rw [pack_length]; omega)
    rw [memWrite_ok (hroom.congr (t := (s.withTree T).withPay _ _) hsame.cfg), withTree_wrote hc hzero hw]
  have h6 : memWrite 0 (s.containerHeader T ids.length) (s.withSections T ids codes) = .ok () (s.encoded T ids codes) :=
    memWrite_ok ((hw.sub (Nat.le_refl _) (by rw [containerHeader_length]; omega)).congr withSections_cfg)
  unfold encodeFrom
  rw [h1, bind_ok, show (s.wrote 0 (List.replicate 16 0)).tableBytes = s.tableBytes from rfl, h2, bind_ok,
    show (s.wrote 0 (List.replicate 16 0)).treeOffset = s.treeOffset from rfl, h3, bind_ok, h4, bind_ok]
  dsimp only
  rw [hser, withPay_buf hcu hbu, ← hoffset, h5, bind_ok]
  exact congrArg (Ruling.bind · _) h6

/-- CD.ENCODE that completes after the codes are generated had everything it needs. -/
theorem encodeFrom_eq_ok {res : Results} {t : State} (h : encodeFrom s = .ok res t) : ∃ ids codes, Encodes s T ids codes := by
  obtain ⟨_, u1, h1, h⟩ := bind_eq_ok.1 h
  obtain ⟨hw1, e1⟩ := memWrite_eq_ok h1
  have same1 : SameSources s u1 := by rw [e1]; exact sameSources_wrote ..
  have hb1 : u1.BuffersOk := by rw [e1]; exact hb.congr rfl rfl
  have htable : u1.tableBytes = s.tableBytes := by rw [e1]; rfl
  have hoffset : u1.treeOffset = s.treeOffset := by rw [State.treeOffset, htable]; rfl
  clear e1 h1
  rw [htable, hoffset] at h
  obtain ⟨_, u2, h2, h⟩ := bind_eq_ok.1 h
  obtain ⟨hw2, e2⟩ := memWrite_eq_ok h2
  have same2 : SameSources s u2 := by rw [e2]; exact same1.trans (sameSources_wrote ..)
  have hb2 : u2.BuffersOk := by rw [e2]; exact hb1.congr rfl rfl
  clear e2 h2
  obtain ⟨ser, u3, h3, h⟩ := bind_eq_ok.1 h
  have hT2 : u2.rootTree = some T := same2.tree.trans hT
  have hnamed : u2.mode = .char → ∀ x ∈ T.syms, x.toNat ≤ 255 := by
    by_contra hn
    cases (serTree_of_unnamed hT2 hn).symm.trans h3
  obtain ⟨hsize, rfl, hw3, e3⟩ := serTree_eq_ok hT2 h3
  have same3 : SameSources s u3 := by
    rw [e3]; exact same2.trans ((sameSources_wrote ..).trans (sameSources_setBuf ..))
  have hb3 : u3.BuffersOk := by
    rw [e3]
    exact serialized_buffersOk (by rw [same2.cfg]; exact hc) hb2 hsize ..
  clear e3 h3
  obtain ⟨_, u4, h4, h⟩ := bind_eq_ok.1 h
  have hc3 : u3.cfg.wellFormed = true := by rw [same3.cfg]; exact hc
  have ht3 : u3.TrieOk := ht.congr same3.cfg same3.trie
  obtain ⟨hread, ids, codes, htok, hcodes, hfit⟩ := encodePass_eq_ok hc3 hb3 ht3 h4
  cases (encodePass_of_tokens hc3 hb3 ht3 ⟨Nat.zero_le _, Nat.le_refl _⟩ hread htok hcodes hfit).symm.trans h4
  obtain ⟨_, u5, h5, -⟩ := bind_eq_ok.1 h
  obtain ⟨hw5, -⟩ := memWrite_eq_ok h5
  rw [withPay_buf hc3 hb3] at hw5
  have hw5 := State.OutWritable.congr (t := s) same3.cfg.symm hw5
  have hw3 := State.OutWritable.congr (t := s) same2.cfg.symm hw3
  have hw2 := State.OutWritable.congr (t := s) same1.cfg.symm hw2
  have hmax := (bufferSize_of_wellFormed hc).2
  rw [same2.mode, same2.cfg] at hsize
  rw [same2.mode] at hw3 hw5 hnamed
  rw [word_toNat_of_lt (by unfold bytesFor; omega), pack_length] at hw5
  rw [same3.inLen, same3.inBytes, Nat.sub_zero] at htok
  rw [same3.inLen, Nat.sub_zero, State.InReadable, same3.cfg] at hread
  rw [same3.code] at hcodes
  rw [same3.cfg] at hfit
  refine ⟨ids, codes, hnamed, hsize, hread, htok.congr same3.mode.symm same3.trie.symm, hcodes, hfit, ?_⟩
  rw [List.length_replicate] at hw1
  have htree := (hw1.append (by rfl) hw2).append (Nat.zero_add _).symm hw3
  rw [bodyBytes_length]
  exact htree.append (Nat.zero_add _).symm hw5

omit hb ht hT in
/-- The bytes of the container, and where they end. -/
theorem encoded_out (hout : s.outLen = 0) (hw : s.OutWritable 0 (16 + (s.bodyBytes T codes).length)) :
    (s.encoded T ids codes).outLen = word (s.containerHeader T ids.length ++ s.bodyBytes T codes).length ∧
      ∀ x, x < (s.containerHeader T ids.length ++ s.bodyBytes T codes).length → (s.encoded T ids codes).outByte x =
        (s.containerHeader T ids.length ++ s.bodyBytes T codes).getD x 0 := by
  have hzero : s.outLen.toNat = 0 := by rw [hout]; rfl
  have hlen : (List.replicate 16 0 ++ s.bodyBytes T codes).length = 16 + (s.bodyBytes T codes).length := by
    rw [List.length_append, List.length_replicate]
  have hheader := containerHeader_length s T ids.length
  have hwhole : (s.containerHeader T ids.length ++ s.bodyBytes T codes).length = 16 + (s.bodyBytes T codes).length := by
    rw [List.length_append, hheader]
  have hbody : (s.withSections T ids codes).outLen.toNat = 16 + (s.bodyBytes T codes).length := by
    have hend := wrote_end (s := s) (x := List.replicate 16 0 ++ s.bodyBytes T codes) hc (by rw [hzero, hlen]; exact hw)
    rwa [hzero, hlen, Nat.zero_add, ← withSections_outLen (ids := ids)] at hend
  have hcfg : (s.withSections T ids codes).cfg.wellFormed = true := by rw [withSections_cfg]; exact hc
  constructor
  · rw [← word_toNat (State.outLen _), hwhole]
    have hroom : (s.withSections T ids codes).OutWritable 0 (s.containerHeader T ids.length).length :=
      (hw.sub (Nat.le_refl _) (by omega)).congr withSections_cfg
    rw [State.encoded, wrote_outLen hcfg hroom, if_neg (List.ne_nil_of_length_pos (by omega)), hbody, hheader]
    exact congrArg word (by omega)
  · intro x hx
    rw [hwhole] at hx
    have hsections : (s.withSections T ids codes).outByte x = (List.replicate 16 0 ++ s.bodyBytes T codes).getD x 0 := by
      rw [outByte_of_outMem withSections_outMem, outByte_wrote, if_pos ⟨Nat.zero_le _, by rw [hlen]; omega⟩, Nat.sub_zero]
    rw [State.encoded, outByte_wrote, hheader, hsections, Nat.sub_zero, Nat.zero_add]
    by_cases h16 : x < 16
    · rw [if_pos ⟨Nat.zero_le _, h16⟩, List.getD_append _ _ _ _ (by omega)]
    · rw [if_neg (by omega), List.getD_append_right _ _ _ _ (by simp; omega), List.getD_append_right _ _ _ _ (by omega),
        hheader, List.length_replicate]

end encode

end Sys2Proof.Machine
end

section
/-! PROOFS. The alphabet of CD.ENCODE: keys, symbol ids, words of the input and codes (spec/46_codec_encode.md R250 to R252;
spec/45_code_table.md R241). -/

namespace Sys2Proof.Machine

/-! ## Keys and symbol ids -/

theorem mem_zip_iff {α β : Type} {l : List α} {m : List β} {x : α} {y : β} :
    (x, y) ∈ l.zip m ↔ ∃ k : Nat, l[k]? = some x ∧ m[k]? = some y := by
  rw [List.mem_iff_getElem?]
  exact exists_congr fun k => List.getElem?_zip_eq_some

/-- In CHAR mode the symbol id of a key is its byte (R201). -/
theorem mem_zip_symbolIds_char {keys : List Bytes} {w : Bytes} {id : Word} :
    (w, id) ∈ keys.zip (symbolIds .char keys) ↔ w ∈ keys ∧ id = (w.headD 0).setWidth 32 := by
  rw [mem_zip_iff, symbolIds, List.mem_iff_getElem?]
  simp only [List.getElem?_map, Option.map_eq_some_iff]
  constructor
  · rintro ⟨k, hk, v, hv, rfl⟩
    cases hk.symm.trans hv
    exact ⟨⟨k, hk⟩, rfl⟩
  · rintro ⟨⟨k, hk⟩, rfl⟩
    exact ⟨k, hk, w, hk, rfl⟩

/-- In WORD mode the symbol id of a key is its index (R201). -/
theorem mem_zip_symbolIds_word {keys : List Bytes} {w : Bytes} {id : Word} :
    (w, id) ∈ keys.zip (symbolIds .word keys) ↔ ∃ k : Nat, keys[k]? = some w ∧ id = word k := by
  rw [mem_zip_iff, symbolIds]
  refine exists_congr fun k => and_congr_right fun hk => ?_
  have hlt := (List.getElem?_eq_some_iff.1 hk).1
  simp [List.getElem?_range hlt, eq_comm]

theorem mem_symbolIds_of_zip {m : Mode} {keys : List Bytes} {w : Bytes} {id : Word}
    (h : (w, id) ∈ keys.zip (symbolIds m keys)) : id ∈ symbolIds m keys := (List.of_mem_zip h).2

/-- The symbol ids name symbols of the table. -/
theorem symbolFits_of_mem {m : Mode} {keys : List Bytes} (hlen : keys.length < 2 ^ 32) {x : Word} (h : x ∈ symbolIds m keys) :
    symbolFits m (if m = .word then keys else []) x := by
  cases m with
  | char =>
    obtain ⟨w, -, rfl⟩ := List.mem_map.1 h
    have hlt := (w.headD 0).isLt
    show ((w.headD 0).setWidth 32).toNat ≤ 255
    rw [BitVec.toNat_setWidth]
    omega
  | word =>
    obtain ⟨k, hk, rfl⟩ := List.mem_map.1 h
    rw [List.mem_range] at hk
    show (word k).toNat < keys.length
    rwa [word_toNat_of_lt (by omega)]

/-- The trie that holds different words has their indices as payloads. -/
theorem Trie.Holds.payload_iff {t : Trie} {words : List Bytes} (h : t.Holds words) (hn : words.Nodup)
    (hp : (t.payload.map Prod.fst).Nodup) {key : Bytes} {id : Word} :
    (key, id) ∈ t.payload ↔ ∃ k : Nat, words[k]? = some key ∧ id = word k := by
  have last {k : Nat} (hk : words[k]? = some key) : mapFind key t.payload = some (word k) := by
    refine h.last k key hk fun j hj hjk => ?_
    have hlt := (List.getElem?_eq_some_iff.1 hk).1
    have := (List.getElem?_inj hlt hn).1 (hk.trans hjk.symm)
    omega
  constructor
  · intro hmem
    have hkey : key ∈ words := by
      by_contra hkey
      exact mapFind_eq_none.1 (h.others key hkey) (List.mem_map_of_mem hmem)
    obtain ⟨k, hk⟩ := List.mem_iff_getElem?.1 hkey
    have := (mapFind_of_mem hp hmem).symm.trans (last hk)
    exact ⟨k, hk, Option.some.inj this⟩
  · rintro ⟨k, hk, rfl⟩
    exact mapFind_mem (last hk)

/-! ## Codes of symbols -/

/-- Every symbol of a tree has a code in the table, one of the tree's. -/
theorem code_of_mem_syms {T : Tree} {id : Word} (h : id ∈ T.syms) : ∃ c, mapFind id T.codeTable = some c := by
  rw [← T.codes_syms] at h
  obtain ⟨e, he, rfl⟩ := List.mem_map.1 h
  rw [mapFind_codeTable]
  have hfound : (T.codes.find? fun x => x.1 == e.1).isSome := List.find?_isSome.2 ⟨e, he, by simp⟩
  obtain ⟨c, hc⟩ := Option.isSome_iff_exists.1 hfound
  exact ⟨c.2, by rw [hc]; rfl⟩

theorem mem_codes_of_find {T : Tree} {id : Word} {c : Bits} (h : mapFind id T.codeTable = some c) : (id, c) ∈ T.codes := by
  rw [mapFind_codeTable] at h
  obtain ⟨e, he, rfl⟩ := Option.map_eq_some_iff.1 h
  have hid : e.1 = id := by simpa using List.find?_some he
  subst hid
  exact List.mem_of_find?_eq_some he

/-- No code is longer than there are leaves. -/
theorem code_length_le {T : Tree} {e : Word × Bits} (h : e ∈ T.codes) : e.2.length ≤ T.syms.length := by
  have hlen := T.codes_length h
  have hsize := T.size_eq_syms
  have hpos := T.syms_pos
  omega

theorem flatten_length_le {α : Type} {l : List (List α)} {n : Nat} (h : ∀ x ∈ l, x.length ≤ n) :
    l.flatten.length ≤ n * l.length := by
  rw [List.length_flatten, Nat.mul_comm]
  simpa using List.sum_le_card_nsmul (l.map List.length) n (by simpa using h)

/-! ## What the codes stand for -/

section emit
variable {s : State} (ht : s.TrieOk) (hword : s.mode = .word → s.trie.Holds s.symtab) (hn : s.symtab.Nodup)
  (hlen : s.symtab.length < 2 ^ 32)
include ht hword hn hlen

/-- The symbol at the front of the input stands for the bytes that it covers (47_codec_decode.md R267). -/
theorem symbolBytes_of_symbolAt {data : Bytes} {id : Word} {n : Nat} (h : s.SymbolAt data id n) :
    s.symbolBytes id = some (data.take n) := by
  unfold State.SymbolAt at h
  unfold State.symbolBytes
  cases hm : s.mode with
  | char =>
    rw [hm] at h
    obtain ⟨b, rest, rfl, rfl, rfl⟩ := h
    have hb := b.isLt
    have hle : (b.setWidth 32).toNat ≤ 255 := by rw [BitVec.toNat_setWidth]; omega
    dsimp only
    rw [if_pos hle]
    simp
  | word =>
    rw [hm] at h
    obtain ⟨key, hkey, hprefix, rfl, -⟩ := h
    obtain ⟨k, hk, rfl⟩ := ((hword hm).payload_iff hn (rising_nodup lexLt_order ht.payloadListed)).1 hkey
    have hlt := (List.getElem?_eq_some_iff.1 hk).1
    dsimp only
    rw [word_toNat_of_lt (by omega), hk, ← List.prefix_iff_eq_take.1 hprefix]

/-- The symbols of an input stand for the input. -/
theorem emits_of_tokens {data : Bytes} {ids : List Word} (h : s.Tokens data ids []) :
    ∃ outs, List.Forall₂ (fun id v => s.symbolBytes id = some v) ids outs ∧ outs.flatten = data := by
  generalize hrest : ([] : Bytes) = rest at h
  induction h with
  | done data => subst hrest; exact ⟨[], .nil, rfl⟩
  | @symbol data rest id n ids hs _ ih =>
    obtain ⟨outs, houts, hflat⟩ := ih hrest
    refine ⟨data.take n :: outs, .cons (symbolBytes_of_symbolAt ht hword hn hlen hs) houts, ?_⟩
    rw [List.flatten_cons, hflat, List.take_append_drop]

end emit

/-! ## Words of the input -/

/-- A word of the table that is the longest one at the front of the input is the symbol there (R251). -/
theorem symbolAt_of_longest {s : State} {keys : List Bytes} (ht : s.TrieOk)
    (hchar : s.mode = .char → ∀ k ∈ keys, k.length = 1)
    (hword : s.mode = .word → s.trie.Holds keys) (hn : keys.Nodup) {w rest : Bytes} (hw : w ∈ keys)
    (hbest : ∀ x ∈ keys, x <+: w ++ rest → x.length ≤ w.length) :
    ∃ id, (w, id) ∈ keys.zip (symbolIds s.mode keys) ∧ s.SymbolAt (w ++ rest) id w.length := by
  unfold State.SymbolAt
  cases hm : s.mode with
  | char =>
    obtain ⟨b, rfl⟩ := List.length_eq_one_iff.1 (hchar hm w hw)
    exact ⟨_, mem_zip_symbolIds_char.2 ⟨hw, rfl⟩, b, rest, rfl, rfl, rfl⟩
  | word =>
    have hpayload {key : Bytes} {id : Word} : (key, id) ∈ s.trie.payload ↔ _ :=
      (hword hm).payload_iff hn (rising_nodup lexLt_order ht.payloadListed)
    obtain ⟨k, hk⟩ := List.mem_iff_getElem?.1 hw
    refine ⟨word k, mem_zip_symbolIds_word.2 ⟨k, hk, rfl⟩, w, hpayload.2 ⟨k, hk, rfl⟩, List.prefix_append .., rfl, ?_⟩
    intro e he hp
    obtain ⟨j, hj, -⟩ := (hpayload (key := e.1) (id := e.2)).1 he
    exact hbest e.1 (List.mem_iff_getElem?.2 ⟨j, hj⟩) hp

/-- An input that splits into longest words of the table splits into their symbols (42_prefix_trie.md R187). -/
theorem tokens_of_split {s : State} {keys : List Bytes} (ht : s.TrieOk) (hchar : s.mode = .char → ∀ k ∈ keys, k.length = 1)
    (hword : s.mode = .word → s.trie.Holds keys) (hn : keys.Nodup) {data : Bytes} {words : List Bytes}
    (h : LongestSplit keys data words) : ∃ ids, s.Tokens data ids [] ∧
      List.Forall₂ (fun w id => (w, id) ∈ keys.zip (symbolIds s.mode keys)) words ids := by
  induction h with
  | done => exact ⟨[], .done [], .nil⟩
  | @word w rest ws hw _ hbest _ ih =>
    obtain ⟨ids, htok, hids⟩ := ih
    obtain ⟨id, hid, hs⟩ := symbolAt_of_longest ht hchar hword hn hw hbest
    exact ⟨id :: ids, .symbol hs (by rwa [List.drop_left]), .cons hid hids⟩

end Sys2Proof.Machine
end

section
/-! PROOFS. CD.ENCODE (spec/46_codec_encode.md R252): the tree, the codes, then the container. -/

namespace Sys2Proof.Machine

/-! ## Building and generating -/

/-- The state in which CD.ENCODE writes the container: the tree is built and its codes are generated (R252 steps 1 to 3). -/
structure Ready (s v : State) (T : Tree) : Prop where
  sound : v.Sound
  tree : v.rootTree = some T
  syms : T.syms.Perm (symbolIds s.mode (s.ft.map Prod.fst))
  legal : s.LegalKeys
  outLen : v.outLen = 0
  cfg : v.cfg = s.cfg
  mode : v.mode = s.mode
  inLen : v.inLen = s.inLen
  inMem : v.inMem = s.inMem
  symtab : v.symtab = if s.mode = .word then s.ft.map Prod.fst else []
  code : v.code = T.codeTable
  trie : s.mode = .word → v.trie.Holds (s.ft.map Prod.fst)
  empty : v.status.empty = false
  fault : v.status.fault = s.status.fault

/-- CD.ENCODE begins with OUT_LEN 0 (R252 step 1). -/
def State.cleared (s : State) : State := { s with outLen := 0 }

theorem State.Sound.cleared {s : State} (h : s.Sound) : s.cleared.Sound := sound_invariant.startOf .cdEncode h

theorem ruleCdEncode_eq (s : State) : ruleCdEncode s = (ruleHtBuild s.cleared).bind fun _ s =>
    if s.root = nullHandle then encodeEmpty s else encodeSections s := rfl

theorem ruleCtGen_sound {s t : State} {res : Results} (hs : s.Sound) (h : ruleCtGen s = .ok res t) : t.Sound :=
  ((rule_chain (strict := True) (i := .ctGen) (isChained_of_cleanup rfl) fun _ => hs.nodes).of_ok h).sound trivial hs

/-- Generating the codes of the tree that was built. -/
theorem ready_of_generated {s t v : State} {T : Tree} {res : Results} (hl : s.LegalKeys) (hb : TreeBuilt s.cleared t T)
    (h : ruleCtGen t = .ok res v) : Ready s v T := by
  have hsound := ruleCtGen_sound hb.sound h
  obtain ⟨-, hv, -, htrie⟩ := ruleCtGen_eq_ok hb.tree h
  obtain ⟨htree, hsyms, -, -, hrest⟩ := hb
  have hmode : t.mode = s.mode := by rw [hrest]; rfl
  have hsymtab : t.symtab = if s.mode = .word then s.ft.map Prod.fst else [] := by rw [hrest]; rfl
  refine ⟨hsound, ?_, hsyms, hl, ?_, ?_, ?_, ?_, ?_, ?_, ?_, fun hm => ?_, ?_, ?_⟩
  · rw [hv]; exact htree
  · rw [hv]; show t.outLen = 0; rw [hrest]; rfl
  · rw [hv]; show t.cfg = s.cfg; rw [hrest]; rfl
  · rw [hv]; exact hmode
  · rw [hv]; show t.inLen = s.inLen; rw [hrest]; rfl
  · rw [hv]; show t.inMem = s.inMem; rw [hrest]; rfl
  · rw [hv]; exact hsymtab
  · rw [hv]; rfl
  · have hholds := htrie (hmode.trans hm)
    rwa [hsymtab, if_pos hm] at hholds
  · rw [hv]; show t.status.empty = false; rw [hrest]
  · rw [hv]; show t.status.fault = s.status.fault; rw [hrest]; rfl

theorem encodeSections_of_generated {t v : State} {res : Results} (h : ruleCtGen t = .ok res v) :
    encodeSections t = encodeFrom v := by
  rw [encodeSections_eq, h, bind_ok]

/-- CD.ENCODE that completes with a table that is not empty. -/
theorem ruleCdEncode_eq_ok {s t : State} {res : Results} (hs : s.Sound) (hne : s.ft ≠ []) (h : ruleCdEncode s = .ok res t) :
    ∃ v T ids codes, Ready s v T ∧ Encodes v T ids codes ∧ t = v.encoded T ids codes := by
  rw [ruleCdEncode_eq] at h
  obtain ⟨_, u, hbuild, h⟩ := bind_eq_ok.1 h
  obtain ⟨hnil, -⟩ | ⟨-, hl, T, hb⟩ := ruleHtBuild_eq_ok hs.cleared hbuild
  · exact absurd hnil hne
  · rw [if_neg hb.live] at h
    obtain ⟨_, v, hgen, hfrom⟩ := bind_eq_ok.1 ((encodeSections_eq u).symm.trans h)
    have hr : Ready s v T := ready_of_generated hl hb hgen
    obtain ⟨ids, codes, he⟩ := encodeFrom_eq_ok hr.sound.config hr.sound.buffers hr.sound.trie hr.tree hfrom
    cases (encodeFrom_of_encodes hr.sound.config hr.sound.buffers hr.sound.trie hr.tree hr.outLen he).symm.trans hfrom
    exact ⟨v, T, ids, codes, hr, he, rfl⟩

/-! ## An empty table -/

theorem htBuild_of_empty {s : State} (h : s.ft = []) : ruleHtBuild s.cleared =
    .ok ⟨nullHandle, 0, 0, 0⟩ ((buildRelease s.cleared).keyed.setEmpty true) := by
  rw [ruleHtBuild_of_legal (s := s.cleared) fun _ k hk => by simp [State.cleared, h] at hk]
  exact if_pos h

/-- Nothing to encode with, and nothing to encode: the empty container (R252 step 2). -/
theorem encodeEmpty_of_no_input {s : State} (h : s.inLen = 0) (hw : s.OutWritable 0 16) :
    encodeEmpty s = .ok ⟨16, 0, 16, 16⟩ { (s.wrote 0 (headerBytes 16 16 16 0)).setBuf 0
      { (s.wrote 0 (headerBytes 16 16 16 0)).buf 0 with bits := [] } with symCount := 0 } := by
  have hin : ¬0 < s.inLen.toNat := by rw [h]; decide
  have hheader : (headerBytes 16 16 16 0).length = 16 := by simp [headerBytes, u32le_length]
  rw [encodeEmpty, if_neg hin, memWrite_ok (by rwa [hheader]), bind_ok]

/-- Nothing to encode with, and an input: its first byte is unknown (R252 step 2). -/
theorem encodeEmpty_of_input {s : State} (h : s.inLen ≠ 0) (hread : s.InReadable 0 1) :
    encodeEmpty s = .raise ⟨.unknownSymbol, 0, (s.inByte 0).setWidth 32⟩ s := by
  have hin : 0 < s.inLen.toNat := one_le_toNat.2 h
  rw [encodeEmpty, if_pos hin, memRead_ok hread, bind_ok]
  rfl

theorem ruleCdEncode_of_empty {s : State} (h : s.ft = []) :
    ruleCdEncode s = encodeEmpty ((buildRelease s.cleared).keyed.setEmpty true) := by
  rw [ruleCdEncode_eq, htBuild_of_empty h, bind_ok]
  refine if_pos ?_
  rw [start_eq]
  rfl

/-- What CD.ENCODE starts from where the table is empty. -/
theorem start_cleared_eq (s : State) : (buildRelease s.cleared).keyed.setEmpty true =
    { s with
      outLen := 0
      nodes := (buildRelease s.cleared).nodes
      root := nullHandle
      cursor := (buildRelease s.cleared).cursor
      pq := ⟨[], s.cfg.pqMinCap, 0⟩
      pqOrder := .minFirst
      code := []
      symtab := if s.mode = .word then s.ft.map Prod.fst else []
      status := { s.status with empty := true } } := by
  rw [start_eq]
  rfl

/-! ## Room for the container -/

/-- The trie has room for the words of the table when it has room for their lengths. -/
theorem ruleCtGen_of_room {s t : State} {T : Tree} (hb : TreeBuilt s.cleared t T)
    (hfit : s.mode = .word → ((s.ft.map Prod.fst).map List.length).sum ≤ s.cfg.trieMax) :
    ∃ res v, ruleCtGen t = .ok res v := by
  have hmode : t.mode = s.mode := by rw [hb.rest]; rfl
  cases hm : s.mode with
  | char => exact ⟨_, _, ruleCtGen_of_char hb.tree (hmode.trans hm)⟩
  | word =>
    have hsymtab : t.symtab = s.ft.map Prod.fst := by rw [hb.rest]; exact if_pos hm
    have hcfg : t.cfg = s.cfg := by rw [hb.rest]; rfl
    have hcover : Covers ((s.ft.map Prod.fst).flatMap keyPath) (s.ft.map Prod.fst) := fun w hw p hne hp =>
      List.mem_flatMap.2 ⟨w, hw, mem_keyPath.2 ⟨hne, hp⟩⟩
    have hlen : ((s.ft.map Prod.fst).flatMap keyPath).length = ((s.ft.map Prod.fst).map List.length).sum := by
      rw [List.length_flatMap]
      simp [keyPath]
    obtain ⟨u, hload, -⟩ := loadTrie_of_room (t.symtab) [] (s := { t.withCodes T with trie := Trie.fresh }) fresh_holds
      (by rw [hsymtab]; exact hcover) (show _ ≤ t.cfg.trieMax by rw [hlen, hcfg]; exact hfit hm)
    have hrule := ruleCtGen_of_word hb.tree (hmode.trans hm)
    rw [show loadTrie t.symtab 0 _ = _ from hload, bind_ok] at hrule
    exact ⟨_, _, hrule⟩

theorem keys_nodup {s : State} (hs : s.Inv) : (s.ft.map Prod.fst).Nodup := rising_nodup lexLt_order hs.tables.ftListed

theorem keys_length_lt {s : State} (hs : s.Inv) : (s.ft.map Prod.fst).length < 2 ^ 32 := by
  have hfits := hs.tables.ftFits
  obtain ⟨-, -, -, -, -, -, hviews, -⟩ := (wellFormed_iff _).1 hs.config
  simp only [Config.viewsFit, decide_eq_true_eq] at hviews
  rw [List.length_map]
  omega

/-- What every related pair has, chosen along the two lists. -/
theorem forall₂_choose {α β γ : Type} {P : α → β → Prop} {R : β → γ → Prop} {l : List α} {m : List β}
    (h : List.Forall₂ P l m) (hR : ∀ x y, P x y → ∃ z, R y z) : ∃ n, List.Forall₂ R m n ∧
      List.Forall₂ (fun x z => ∃ y, P x y ∧ R y z) l n ∧ ∀ z ∈ n, ∃ y, R y z := by
  induction h with
  | nil => exact ⟨[], .nil, .nil, fun _ hz => absurd hz List.not_mem_nil⟩
  | @cons x y l m hxy _ ih =>
    obtain ⟨n, h1, h2, h3⟩ := ih
    obtain ⟨z, hz⟩ := hR x y hxy
    exact ⟨z :: n, .cons hz h1, .cons ⟨y, hxy, hz⟩ h2, List.forall_mem_cons.2 ⟨⟨y, hz⟩, h3⟩⟩

section ready
variable {s v : State} {T : Tree} (hs : s.Inv) (hr : Ready s v T)
include hr

/-- The tree has a leaf for each symbol of the table. -/
theorem Ready.leaves : T.syms.length = s.ft.length := by
  rw [hr.syms.length_eq, symbolIds_length, List.length_map]

theorem Ready.inBytes (a n : Nat) : v.inBytes a n = s.inBytes a n := by
  unfold State.inBytes State.inByte
  rw [hr.inMem]

theorem Ready.treeBits : (T.ser v.mode).length = (2 * s.ft.length - 1) + s.ft.length * symWidth s.mode := by
  rw [T.ser_length, T.size_eq_syms, hr.leaves, hr.mode]

theorem Ready.tableBytes : v.tableBytes = if s.mode = .word then symtabBytes (s.ft.map Prod.fst) else [] := by
  rw [State.tableBytes, hr.mode, hr.symtab]
  split <;> rfl

include hs

theorem Ready.symbolFits : ∀ x ∈ T.syms, symbolFits s.mode v.symtab x := by
  intro x hx
  rw [hr.symtab]
  exact symbolFits_of_mem (keys_length_lt hs) (hr.syms.mem_iff.1 hx)

theorem Ready.named : v.mode = .char → ∀ x ∈ T.syms, x.toNat ≤ 255 := by
  intro hm x hx
  have hfits := hr.symbolFits hs x hx
  rwa [← hr.mode, hm] at hfits

/-- The input that splits into longest words can be encoded where there is room (R250 to R252). -/
theorem Ready.encodes {words : List Bytes} (hread : s.InReadable 0 s.inLen.toNat)
    (hsplit : LongestSplit (s.ft.map Prod.fst) (s.inBytes 0 s.inLen.toNat) words)
    (htree : (T.ser v.mode).length ≤ s.cfg.bbMaxBits) (hpay : s.ft.length * words.length ≤ s.cfg.bbMaxBits)
    (hw : s.OutWritable 0 (16 + v.tableBytes.length + bytesFor (T.ser v.mode).length +
      bytesFor (s.ft.length * words.length))) :
    ∃ ids codes, Encodes v T ids codes ∧ ids.length = words.length ∧ List.Forall₂ (fun w c =>
      ∃ id, (w, id) ∈ (s.ft.map Prod.fst).zip (symbolIds s.mode (s.ft.map Prod.fst)) ∧ (id, c) ∈ T.codes) words codes := by
  obtain ⟨ids, htok, hids⟩ := tokens_of_split (s := v) hr.sound.trie (fun hm => hr.legal (hr.mode.symm.trans hm))
    (fun hm => hr.trie (hr.mode.symm.trans hm)) (keys_nodup hs) hsplit
  rw [hr.mode] at hids
  obtain ⟨codes, hcoded, hwords, hall⟩ := forall₂_choose hids (R := fun id c => mapFind id T.codeTable = some c)
    fun w id hid => code_of_mem_syms (hr.syms.mem_iff.2 (mem_symbolIds_of_zip hid))
  have hlen : codes.length = words.length := hwords.length_eq.symm
  have hbits : codes.flatten.length ≤ s.ft.length * words.length := by
    rw [← hlen, ← hr.leaves]
    refine flatten_length_le fun c hc => ?_
    obtain ⟨id, hid⟩ := hall c hc
    exact code_length_le (mem_codes_of_find hid)
  have hbytes := bytesFor_le hbits
  refine ⟨ids, codes, ⟨hr.named hs, by rwa [hr.cfg], ?_, ?_, by rw [hr.code]; exact hcoded, ?_, ?_⟩,
    hids.length_eq.symm, hwords.imp fun w c ⟨id, hid, hc⟩ => ⟨id, hid, mem_codes_of_find hc⟩⟩
  · rw [State.InReadable, hr.cfg, hr.inLen]; exact hread
  · rw [hr.inBytes, hr.inLen]; exact htok
  · rw [hr.cfg]; exact hbits.trans hpay
  · refine State.OutWritable.congr (s := s) hr.cfg (hw.sub (Nat.le_refl _) ?_)
    rw [bodyBytes_length, State.payloadOffset, State.treeOffset]
    omega

end ready

theorem encoded_registers (s : State) (T : Tree) (ids : List Word) (codes : List Bits) :
    (s.encoded T ids codes).rootTree = s.rootTree ∧ (s.encoded T ids codes).symCount = word ids.length ∧
      (s.encoded T ids codes).status = s.status := by
  simp only [State.encoded, State.withSections, State.withPay, State.setBuf, State.wrote, State.rootTree, and_true]
  rfl

/-- The container, part by part (30_encoding.md R110 to R117). -/
theorem container_eq (s : State) (T : Tree) (n : Nat) (codes : List Bits) :
    s.containerHeader T n ++ s.bodyBytes T codes =
      u32le (word (16 + s.tableBytes.length)) ++ u32le 16 ++
        u32le (word (16 + s.tableBytes.length + bytesFor (T.ser s.mode).length)) ++ u32le (word n) ++ s.tableBytes ++
        pack (T.ser s.mode) ++ pack codes.flatten := by
  simp only [State.containerHeader, headerBytes, State.bodyBytes, State.payloadOffset, State.treeOffset, List.append_assoc]
  rfl

/-- CD.ENCODE of no input with an empty table writes the empty container (R252 step 2). -/
theorem ruleCdEncode_of_nothing {s : State} (hs : s.Sound) (hnil : s.ft = []) (hin : s.inLen = 0) (hw : s.OutWritable 0 16) :
    ∃ t, ruleCdEncode s = .ok ⟨16, 0, 16, 16⟩ t ∧ t.outLen = 16 ∧ t.status.empty = true ∧
      ∀ x, x < 16 → t.outByte x = (headerBytes 16 16 16 0).getD x 0 := by
  have hrule := ruleCdEncode_of_empty hnil
  rw [start_cleared_eq] at hrule
  obtain ⟨u, hu⟩ : ∃ u, u = (buildRelease s.cleared).keyed.setEmpty true := ⟨_, rfl⟩
  rw [start_cleared_eq] at hu
  rw [← hu] at hrule
  have hheader : (headerBytes 16 16 16 0).length = 16 := by simp [headerBytes, u32le_length]
  have hwu : u.OutWritable 0 16 := hw.congr (by rw [hu])
  rw [encodeEmpty_of_no_input (by rw [hu]; exact hin) hwu] at hrule
  refine ⟨_, hrule, ?_, ?_, fun x hx => ?_⟩
  · have hlen := wrote_outLen (s := u) (by rw [hu]; exact hs.config) (v := headerBytes 16 16 16 0) (by rwa [hheader])
    rw [if_neg (List.ne_nil_of_length_pos (by omega)), hheader, show u.outLen = 0 by rw [hu]] at hlen
    exact BitVec.eq_of_toNat_eq hlen
  · show u.status.empty = true
    rw [hu]
  · refine (outByte_wrote u 0 x _).trans ?_
    rw [if_pos ⟨Nat.zero_le _, by omega⟩, Nat.sub_zero]

/-- Settles O48: HT.BUILD, CT.GEN, then the parts of the container one after another, the header last. -/
theorem cdEncodeWritesTheContainer : Obligations.CdEncodeWritesTheContainer := by
  intro s hs hf hread keys n table treeBits
  refine ⟨fun hnil hin hw => ?_, fun hnil hin => ?_,
    fun hne hchar hq hnodes hhandles hsum htrie words hsplit htree hpay hw => ?_⟩
  · obtain ⟨t, hrule, hlen, hempty, hbyte⟩ := ruleCdEncode_of_nothing hs.sound hnil hin hw
    exact ⟨_, exec_of_ok hf hrule, ⟨rfl, rfl⟩, hlen, hempty, map_outByte_eq (v := headerBytes 16 16 16 0) hbyte⟩
  · have hrule := ruleCdEncode_of_empty hnil
    rw [start_cleared_eq] at hrule
    have hone := one_le_toNat.2 hin
    refine exec_of_cleanup_raise .unknownSymbol rfl hf (hrule.trans (encodeEmpty_of_input hin ?_))
    exact hread.sub (s := s) (Nat.zero_le _) (by omega)
  · have hl : s.LegalKeys := hchar
    have hroom : (buildRelease s.cleared).keyed.Room (2 * n - 1) := by
      have hle := start_nodes_le hs.sound.cleared
      unfold State.Room
      rw [start_eq] at hle ⊢
      exact ⟨(Nat.add_le_add_right hle _).trans hnodes, hhandles⟩
    obtain ⟨t, T, hbuild, hb⟩ := ruleHtBuild_of_room hs.sound.cleared hl hne hq hroom hsum
    obtain ⟨res, v, hgen⟩ := ruleCtGen_of_room hb htrie
    have hr : Ready s v T := ready_of_generated hl hb hgen
    have htable : v.tableBytes = table := hr.tableBytes
    have hbits : (T.ser v.mode).length = treeBits := hr.treeBits
    obtain ⟨ids, codes, he, hcount, hwords⟩ := hr.encodes hs hread hsplit (hbits ▸ htree) hpay
      (by rw [htable, hbits]; exact hw)
    have hfrom := encodeFrom_of_encodes hr.sound.config hr.sound.buffers hr.sound.trie hr.tree hr.outLen he
    obtain ⟨hlen, hbyte⟩ := encoded_out (ids := ids) hr.sound.config hr.outLen he.writable
    obtain ⟨hroot, hsym, hstatus⟩ := encoded_registers v T ids codes
    have hrule : ruleCdEncode s = .ok ⟨(v.encoded T ids codes).outLen, word ids.length, word v.treeOffset,
        word (v.payloadOffset T)⟩ (v.encoded T ids codes) := by
      rw [ruleCdEncode_eq, hbuild, bind_ok, if_neg hb.live, encodeSections_of_generated hgen, hfrom]
    have hmap := map_outByte_eq hbyte
    rw [container_eq, hr.mode, htable, hcount] at hlen hmap
    rw [hlen, hcount, State.payloadOffset, State.treeOffset, hr.mode, htable] at hrule
    exact ⟨_, T, codes, exec_of_ok hf hrule, hroot.trans hr.tree, hr.syms, hwords, ⟨rfl, rfl⟩, hlen,
      hsym.trans (by rw [hcount]), (congrArg Status.empty hstatus).trans hr.empty, hmap⟩

end Sys2Proof.Machine
end

section
/-! PROOFS. CD.DECODE of what CD.ENCODE wrote is the encoder's input (spec/46_codec_encode.md R253 (2);
spec/47_codec_decode.md R268 (5)). -/

namespace Sys2Proof.Machine

/-- An input has at most as many symbols as bytes. -/
theorem State.Tokens.length_le {s : State} (ht : s.TrieOk) {data rest : Bytes} {ids : List Word} (h : s.Tokens data ids rest) :
    ids.length ≤ data.length := by
  induction h with
  | done data => exact Nat.zero_le _
  | @symbol data rest id n ids hs _ ih =>
    obtain ⟨hn, hle⟩ := hs.covers ht
    rw [List.length_drop] at ih
    rw [List.length_cons]
    omega

theorem symbolBytes_congr {s t : State} (hm : t.mode = s.mode) (hs : t.symtab = s.symtab) (id : Word) :
    t.symbolBytes id = s.symbolBytes id := by
  unfold State.symbolBytes
  rw [hm, hs]

/-- The decoded bytes are those at their addresses. -/
theorem outByte_of_map {t : State} {v : Bytes} (h : (List.range v.length).map t.outByte = v) {a : Nat} (ha : a < v.length) :
    t.outByte a = v.getD a 0 := by
  conv_rhs => rw [← h]
  simp [ha]

/-- The bytes of the input, one by one. -/
theorem inBytes_getD (s : State) {a n : Nat} (ha : a < n) : (s.inBytes 0 n).getD a 0 = s.inByte a := by
  simp [State.inBytes, ha]

/-- Encoding that completes without a table had no input, and wrote the empty container (R252 step 2). -/
theorem ruleCdEncode_empty_eq_ok {s t : State} {res : Results} (hs : s.Sound) (hnil : s.ft = [])
    (h : ruleCdEncode s = .ok res t) :
    s.inLen = 0 ∧ t.outLen = 16 ∧ ∀ x, x < 16 → t.outByte x = (headerBytes 16 16 16 0).getD x 0 := by
  have h' := h
  rw [ruleCdEncode_of_empty hnil, encodeEmpty] at h'
  have hstart := start_cleared_eq s
  split at h'
  · obtain ⟨_, _, -, hraise⟩ := bind_eq_ok.1 h'
    cases hraise
  · next hzero =>
    rw [hstart] at hzero
    have hin : s.inLen = 0 := BitVec.eq_of_toNat_eq (Nat.le_zero.1 (Nat.not_lt.1 hzero))
    obtain ⟨_, w, hwrite, -⟩ := bind_eq_ok.1 h'
    obtain ⟨hw, -⟩ := memWrite_eq_ok hwrite
    have hheader : (headerBytes 16 16 16 0).length = 16 := by simp [headerBytes, u32le_length]
    rw [hheader] at hw
    obtain ⟨t', hrule, hout, -, hbyte⟩ := ruleCdEncode_of_nothing hs hnil hin (hw.congr (by rw [hstart]))
    cases hrule.symm.trans h
    exact ⟨hin, hout, hbyte⟩

/-- Where the parts of the container stand in the decoder's input. -/
theorem container_parts {u v : State} {T : Tree} {n : Nat} {codes : List Bits}
    (hbytes : u.inBytes 0 u.inLen.toNat = v.containerHeader T n ++ v.bodyBytes T codes) :
    u.inBytes 0 16 = v.containerHeader T n ∧
      u.inBytes 16 (v.treeOffset - 16) = v.tableBytes ∧
      u.inBytes v.treeOffset (v.payloadOffset T - v.treeOffset) = pack (T.ser v.mode) ∧
      u.inBytes (v.payloadOffset T) (u.inLen.toNat - v.payloadOffset T) = pack codes.flatten := by
  obtain ⟨hlen, hheader, hbody⟩ := inBytes_eq_append hbytes
  rw [containerHeader_length, Nat.zero_add] at hbody
  rw [State.bodyBytes, List.append_assoc] at hbody
  obtain ⟨-, htable, hrest⟩ := inBytes_eq_append hbody
  obtain ⟨-, htree, hpay⟩ := inBytes_eq_append hrest
  have htotal := bodyBytes_length v T codes
  rw [containerHeader_length] at hheader hlen
  rw [pack_length] at htree hpay
  refine ⟨hheader, ?_, ?_, ?_⟩
  · rwa [show v.treeOffset - 16 = v.tableBytes.length from Nat.add_sub_cancel_left ..]
  · rwa [State.payloadOffset, Nat.add_sub_cancel_left]
  · rw [show u.inLen.toNat - v.payloadOffset T = (pack codes.flatten).length by rw [pack_length]; omega]
    exact hpay

section decode
variable {s v u : State} {T : Tree} {ids : List Word} {codes : List Bits} (hs : s.Inv) (hr : Ready s v T)
  (he : Encodes v T ids codes) (hmode : u.mode = s.mode)
  (hbytes : u.inBytes 0 u.inLen.toNat = v.containerHeader T ids.length ++ v.bodyBytes T codes)
include hs hr he hmode hbytes

/-- What CD.ENCODE wrote are sections that CD.DECODE reads, and the symbols stand for the encoder's input. -/
theorem sections_of_encodes : ∃ outs, outs.flatten = s.inBytes 0 s.inLen.toNat ∧
    Sections u 16 v.treeOffset (v.payloadOffset T) v.symtab T ids codes outs := by
  obtain ⟨-, htable, htree, hpay⟩ := container_parts hbytes
  have hvmode : u.mode = v.mode := hmode.trans hr.mode.symm
  have hsymtab := hr.symtab
  have hholds : v.mode = .word → v.trie.Holds v.symtab := fun hm => by
    have hm := hr.mode.symm.trans hm
    rw [hsymtab, if_pos hm]
    exact hr.trie hm
  have hnodup : v.symtab.Nodup := by
    rw [hsymtab]
    split
    · exact keys_nodup hs
    · exact List.nodup_nil
  have hcount : v.symtab.length < 2 ^ 32 := by
    rw [hsymtab]
    split
    · exact keys_length_lt hs
    · decide
  obtain ⟨outs, houts, hflat⟩ := emits_of_tokens hr.sound.trie hholds hnodup hcount he.tokens
  rw [hr.inBytes, hr.inLen] at hflat
  refine ⟨outs, hflat, {
    nonempty := hr.sound.tables.symbols
    charTable := fun hm => by rw [hsymtab, if_neg (by rw [← hmode, hm]; decide)]
    wordTable := fun hm => by
      rw [htable, State.tableBytes, if_pos (hvmode.symm.trans hm)]
    fits := by rw [hmode]; exact hr.symbolFits hs
    treeBits := by rw [htree, hvmode]; exact prefix_unpack_pack _
    coded := he.coded.imp fun id c hc => mem_codes_of_find (by rwa [hr.code] at hc)
    payloadBits := by rw [hpay]; exact prefix_unpack_pack _
    emits := houts.imp fun id w hw =>
      (symbolBytes_congr (s := v) (t := { u with symtab := v.symtab }) hvmode rfl id).trans hw }⟩

/-- CD.DECODE of what CD.ENCODE wrote gives the encoder's input. -/
theorem ruleCdDecode_of_encodes (hu : u.Inv) (hread : u.InReadable 0 u.inLen.toNat)
    (hnodes : u.nodes.length + (2 * s.ft.length - 1) ≤ u.cfg.nodeMax)
    (hhandles : u.nextHandle + (2 * s.ft.length - 1) ≤ 0xFFFFFFFF) (hw : u.OutWritable 0 s.inLen.toNat) :
    ∃ res w, ruleCdDecode u = .ok res w ∧ w.status.fault = u.status.fault ∧ w.outLen = s.inLen ∧
      ∀ a, a < s.inLen.toNat → w.outByte a = s.inByte a := by
  obtain ⟨outs, hflat, hsections⟩ := sections_of_encodes hs hr he hmode hbytes
  obtain ⟨hheader, -⟩ := container_parts hbytes
  have hinput : outs.flatten.length = s.inLen.toNat := by rw [hflat, inBytes_length]
  have hwhole : u.inLen.toNat = 16 + (v.bodyBytes T codes).length := by
    have hlength := congrArg List.length hbytes
    rwa [inBytes_length, List.length_append, containerHeader_length] at hlength
  have hparts := bodyBytes_length v T codes
  have hle : v.treeOffset ≤ v.payloadOffset T := Nat.le_add_right ..
  have h16 : 16 ≤ v.treeOffset := Nat.le_add_right ..
  have hlt := u.inLen.isLt
  have htree : (word v.treeOffset).toNat = v.treeOffset := word_toNat_of_lt (by omega)
  have hpay : (word (v.payloadOffset T)).toNat = v.payloadOffset T := word_toNat_of_lt (by omega)
  have hcount : (word ids.length).toNat = ids.length := by
    have hids := he.tokens.length_le hr.sound.trie
    have hin := v.inLen.isLt
    rw [inBytes_length] at hids
    exact word_toNat_of_lt (by omega)
  by_cases hzero : word ids.length = 0
  · have hnone : ids.length = 0 := by rw [← hcount, hzero]; rfl
    have houts : outs = [] := List.eq_nil_of_length_eq_zero (hsections.emits.length_eq.symm.trans hnone)
    rw [houts] at hinput
    have hnil : s.inLen.toNat = 0 := hinput.symm
    rw [State.containerHeader, hzero] at hheader
    exact ⟨_, _, ruleCdDecode_of_empty (w0 := word v.treeOffset) (w4 := word 16) (w8 := word (v.payloadOffset T)) (by decide)
      hread hheader (by rw [htree]; exact h16) (by rwa [htree, hpay]) (by omega), rfl,
      (BitVec.eq_of_toNat_eq hnil).symm, fun a ha => absurd ha (by omega)⟩
  · have hsize : T.size = 2 * s.ft.length - 1 := by rw [T.size_eq_syms, hr.leaves]
    obtain ⟨w, hdecode, hd⟩ := ruleCdDecode_of_sections (w0 := word v.treeOffset) (w4 := word 16)
      (w8 := word (v.payloadOffset T)) (by rw [htree, hpay]; exact hsections) hu.config hu.nodes hread (by decide) hheader
      (by rw [htree]; exact h16) (by rwa [htree, hpay]) (by omega) hzero (by omega) (by omega) (by rwa [hinput]) hcount
    refine ⟨_, w, hdecode, hd.fault, hd.outLen.trans (by rw [hinput, word_toNat]), fun a ha => ?_⟩
    exact (outByte_of_map hd.bytes (hinput.symm ▸ ha)).trans (by rw [hflat, inBytes_getD s ha])

end decode

/-- CD.DECODE of the empty container gives an empty output. -/
theorem ruleCdDecode_of_nothing {u : State} (hlen : u.inLen.toNat = 16) (hread : u.InReadable 0 u.inLen.toNat)
    (hin : ∀ a, a < 16 → u.inByte a = (headerBytes 16 16 16 0).getD a 0) :
    ∃ res w, ruleCdDecode u = .ok res w ∧ w.status.fault = u.status.fault ∧ w.outLen = 0 := by
  have hheader : (headerBytes 16 16 16 0).length = 16 := by simp [headerBytes, u32le_length]
  have hh := inBytes_eq (s := u) (a := 0) (v := headerBytes 16 16 16 0) fun k hk => by
    rw [Nat.zero_add, hin k (by omega)]
  rw [hheader] at hh
  exact ⟨_, _, ruleCdDecode_of_empty (w0 := 16) (w4 := 16) (w8 := 16) (by decide) hread hh (by decide) (by decide)
    (by rw [hlen]; decide), rfl, rfl⟩

/-- Settles O50: what CD.ENCODE wrote are the sections of a container whose symbols stand for the input. -/
theorem decodeOfEncodeIsTheInput : Obligations.DecodeOfEncodeIsTheInput := by
  intro s t u hs hf h ht hu hfu hmode hlen hin hread hnodes hhandles hw
  obtain ⟨res, t', hrule, rfl⟩ := completed_of_no_fault hf ht h
  have hlen : u.inLen = t'.outLen := hlen
  have hin : ∀ a, a < t'.outLen.toNat → u.inByte a = t'.outByte a := hin
  by_cases hnil : s.ft = []
  · obtain ⟨hzero, hout, hbyte⟩ := ruleCdEncode_empty_eq_ok hs.sound hnil hrule
    rw [hout] at hlen hin
    obtain ⟨_, w, hdecode, hfault, hoe⟩ := ruleCdDecode_of_nothing (by rw [hlen]; rfl) hread
      fun a ha => (hin a ha).trans (hbyte a ha)
    refine ⟨_, exec_of_ok hfu hdecode, hfault.trans hfu, hoe.trans hzero.symm, fun a ha => ?_⟩
    rw [hzero] at ha
    exact absurd ha (Nat.not_lt_zero a)
  · obtain ⟨v, T, ids, codes, hr, he, rfl⟩ := ruleCdEncode_eq_ok hs.sound hnil hrule
    obtain ⟨hout, hbyte⟩ := encoded_out (ids := ids) hr.sound.config hr.outLen he.writable
    have hcap : (v.containerHeader T ids.length ++ v.bodyBytes T codes).length < 2 ^ 32 := by
      have hlt := outCap_lt hr.sound.config
      rw [List.length_append, containerHeader_length]
      rcases he.writable with h0 | ⟨hcap, -⟩ <;> omega
    have hend := (congrArg BitVec.toNat hout).trans (word_toNat_of_lt hcap)
    have hbytes : u.inBytes 0 u.inLen.toNat = v.containerHeader T ids.length ++ v.bodyBytes T codes := by
      rw [hlen, hend]
      refine inBytes_eq fun k hk => ?_
      rw [Nat.zero_add, hin k (by rwa [hend]), hbyte k hk]
    obtain ⟨_, w, hdecode, hfault, hdecoded⟩ :=
      ruleCdDecode_of_encodes hs hr he hmode hbytes hu hread hnodes hhandles hw
    exact ⟨_, exec_of_ok hfu hdecode, hfault.trans hfu, hdecoded⟩

end Sys2Proof.Machine
end
